-- ==== Sys2Proof/Word.lean ====
section
/-! DEFINITION. The word types of the LHE core: 32-bit registers and command words, 8-bit bytes of
host memory, and the nine hop symbols. -/

namespace Sys2Proof

/-- A register or a command word (10_state R32, 30_encoding R150). Host addresses have the same
width, so address arithmetic wraps modulo 2^32 by itself (20_memory R100). -/
abbrev Word := BitVec 32

/-- A byte of host memory, a pixel, a seed, a mesh byte (20_memory R101, R105). -/
abbrev Byte := BitVec 8

/-- A hop symbol, an index 0..8; 4 is the null hop (00_scope R6, R14). -/
abbrev Hop := Fin 9

end Sys2Proof
end

