-- ==== Sys2Proof/Syntax.lean ====
section
/-! DEFINITION. The commands of `LHE-CMD` (30_encoding R157), one constructor per row of
spec/opcode_table.json, with the fields each one reads. -/

namespace Sys2Proof

/-- The two Huffman tables (43_huffman R350): table 0 codes the luma plane, table 1 both chroma
planes. -/
inductive Tbl where
  | luma
  | chroma
deriving DecidableEq, Repr

/-- A command. A `plane` field is the raw two bits of PLANE, 3 included (30_encoding R152); a `sym`
field is the raw four bits of SYM, 9 to 15 included (30_encoding R154). Fields a command does not
read are no part of it (30_encoding R156). -/
inductive Instr where
  | nop
  | buildTables
  | lutReadRec
  | lutReadBest
  | checkConfig
  | hdrRead
  | hdrWrite
  | seedsRead
  | seedsWrite
  | planeGeom (plane : BitVec 2)
  | blockGeom (plane : BitVec 2) (bx row : BitVec 8)
  | hopBeginDec (plane : BitVec 2)
  | hopBeginEnc (plane : BitVec 2)
  | hopStep
  | hopDecRegion (plane : BitVec 2)
  | hopEncRegion (plane : BitVec 2)
  | huffBuild (t : Tbl)
  | huffReadHdr (t : Tbl)
  | huffWriteHdr (t : Tbl)
  | huffClearCounts (t : Tbl)
  | huffCountSym (t : Tbl) (sym : BitVec 4)
  | huffCountRegion (plane : BitVec 2)
  | huffFromCounts (t : Tbl)
  | huffDecSym (t : Tbl)
  | huffEncSym (t : Tbl) (sym : BitVec 4)
  | huffDecRegion (plane : BitVec 2)
  | huffEncRegion (plane : BitVec 2)
  | meshRead
  | meshWrite
  | bwFlush
  | frameDecode
  | frameEncode
deriving DecidableEq, Repr

end Sys2Proof
end

