-- ==== Sys2Proof/WellFormed.lean ====
section
/-! DEFINITION. Which commands are well formed: the nine plane commands need a PLANE of 0, 1 or 2
(30_encoding R152). Every other field may hold any value: a SYM of 9 to 15 is an operand that raises
E_HOP_RANGE, not an illegal command (30_encoding R154). -/

namespace Sys2Proof

/-- A PLANE field names a plane: 0 luma, 1 chroma-a, 2 chroma-b; 3 is illegal (30_encoding R150). -/
def planeLegal (plane : BitVec 2) : Bool := plane != 3#2

/-- The command is one that the decoder may answer (30_encoding R152, R158). -/
def Instr.wellFormed : Instr → Bool
  | .planeGeom p => planeLegal p
  | .blockGeom p _ _ => planeLegal p
  | .hopBeginDec p => planeLegal p
  | .hopBeginEnc p => planeLegal p
  | .hopDecRegion p => planeLegal p
  | .hopEncRegion p => planeLegal p
  | .huffCountRegion p => planeLegal p
  | .huffDecRegion p => planeLegal p
  | .huffEncRegion p => planeLegal p
  | .nop | .buildTables | .lutReadRec | .lutReadBest | .checkConfig | .hdrRead | .hdrWrite => true
  | .seedsRead | .seedsWrite | .hopStep => true
  | .huffBuild _ | .huffReadHdr _ | .huffWriteHdr _ | .huffClearCounts _ => true
  | .huffCountSym _ _ | .huffFromCounts _ | .huffDecSym _ | .huffEncSym _ _ => true
  | .meshRead | .meshWrite | .bwFlush | .frameDecode | .frameEncode => true

end Sys2Proof
end

