-- ==== Sys2Proof/Decode.lean ====
section
/-! DEFINITION. The command decoder, total on every 32-bit word and rejecting by name, and after it
the encoder, both written from 30_encoding R150 and R157. -/

namespace Sys2Proof

/-- Why a word is no command. Both cases raise E_ILLEGAL_CMD (30_encoding R158). -/
inductive DecodeError where
  /-- The OP field is not in the opcode map. -/
  | illegalOpcode (op : BitVec 8)
  /-- A plane command with PLANE = 3. -/
  | illegalPlane (op : BitVec 8)
deriving DecidableEq, Repr

/-! ### Fields of a command word (30_encoding R150, R151) -/

/-- `w[7:0]` -/
def fieldOp (w : Word) : BitVec 8 := w.extractLsb' 0 8
/-- `w[9:8]` -/
def fieldPlane (w : Word) : BitVec 2 := w.extractLsb' 8 2
/-- `w[10]`: 0 luma table, 1 chroma table. -/
def fieldTbl (w : Word) : Tbl := if w.extractLsb' 10 1 = 0#1 then .luma else .chroma
/-- `w[15:12]` -/
def fieldSym (w : Word) : BitVec 4 := w.extractLsb' 12 4
/-- `w[23:16]` -/
def fieldBx (w : Word) : BitVec 8 := w.extractLsb' 16 8
/-- `w[31:24]` -/
def fieldBy (w : Word) : BitVec 8 := w.extractLsb' 24 8

/-- A plane command: PLANE = 3 is refused by name (30_encoding R152, R159). -/
def decodePlane (w : Word) (i : BitVec 2 → Instr) : Except DecodeError Instr :=
  if planeLegal (fieldPlane w) then .ok (i (fieldPlane w)) else .error (.illegalPlane (fieldOp w))

/-- The decode procedure (30_encoding R157, R159). It depends on no register (R160). -/
def decode (w : Word) : Except DecodeError Instr :=
  match (fieldOp w).toNat with
  | 0x00 => .ok .nop
  | 0x01 => .ok .buildTables
  | 0x02 => .ok .lutReadRec
  | 0x03 => .ok .lutReadBest
  | 0x04 => .ok .checkConfig
  | 0x08 => .ok .hdrRead
  | 0x09 => .ok .hdrWrite
  | 0x0A => .ok .seedsRead
  | 0x0B => .ok .seedsWrite
  | 0x10 => decodePlane w .planeGeom
  | 0x11 => decodePlane w fun p => .blockGeom p (fieldBx w) (fieldBy w)
  | 0x12 => decodePlane w .hopBeginDec
  | 0x13 => decodePlane w .hopBeginEnc
  | 0x14 => .ok .hopStep
  | 0x15 => decodePlane w .hopDecRegion
  | 0x16 => decodePlane w .hopEncRegion
  | 0x20 => .ok (.huffBuild (fieldTbl w))
  | 0x21 => .ok (.huffReadHdr (fieldTbl w))
  | 0x22 => .ok (.huffWriteHdr (fieldTbl w))
  | 0x23 => .ok (.huffClearCounts (fieldTbl w))
  | 0x24 => .ok (.huffCountSym (fieldTbl w) (fieldSym w))
  | 0x25 => decodePlane w .huffCountRegion
  | 0x26 => .ok (.huffFromCounts (fieldTbl w))
  | 0x27 => .ok (.huffDecSym (fieldTbl w))
  | 0x28 => .ok (.huffEncSym (fieldTbl w) (fieldSym w))
  | 0x29 => decodePlane w .huffDecRegion
  | 0x2A => decodePlane w .huffEncRegion
  | 0x30 => .ok .meshRead
  | 0x31 => .ok .meshWrite
  | 0x38 => .ok .bwFlush
  | 0x40 => .ok .frameDecode
  | 0x41 => .ok .frameEncode
  | _ => .error (.illegalOpcode (fieldOp w))

/-- The instruction the decoder reads from a row's bits, numbered as spec/opcode_table.json numbers
them: a command is one 32-bit word, so bit 0 of `w` is bit 0 of the word, and every bit above the
row's `nbits` is 0. -/
def decodeTableWord (nbits w : Nat) : Option Instr :=
  match decode (BitVec.ofNat 32 (w % 2 ^ nbits)) with
  | .ok i => some i
  | .error _ => none

/-! ### Encoder -/

/-- The TBL bit of a table (30_encoding R150). -/
def Tbl.field : Tbl → BitVec 1
  | .luma => 0#1
  | .chroma => 1#1

/-- `OP | PLANE<<8 | TBL<<10 | SYM<<12 | BX<<16 | BY<<24`, with bit 11 zero (30_encoding R150). -/
def packWord (op : BitVec 8) (plane : BitVec 2) (tbl : BitVec 1) (sym : BitVec 4)
    (bx row : BitVec 8) : Word :=
  row ++ bx ++ sym ++ 0#1 ++ tbl ++ plane ++ op

/-- A command with no operand field. -/
def packOp (op : BitVec 8) : Word := packWord op 0 0 0 0 0
/-- A plane command. -/
def packPlane (op : BitVec 8) (p : BitVec 2) : Word := packWord op p 0 0 0 0
/-- A table command. -/
def packTbl (op : BitVec 8) (t : Tbl) : Word := packWord op 0 t.field 0 0 0

/-- The word of a command, every field it does not read at 0 (30_encoding R157, R163). -/
def encode : Instr → Word
  | .nop => packOp 0x00
  | .buildTables => packOp 0x01
  | .lutReadRec => packOp 0x02
  | .lutReadBest => packOp 0x03
  | .checkConfig => packOp 0x04
  | .hdrRead => packOp 0x08
  | .hdrWrite => packOp 0x09
  | .seedsRead => packOp 0x0A
  | .seedsWrite => packOp 0x0B
  | .planeGeom p => packPlane 0x10 p
  | .blockGeom p bx row => packWord 0x11 p 0 0 bx row
  | .hopBeginDec p => packPlane 0x12 p
  | .hopBeginEnc p => packPlane 0x13 p
  | .hopStep => packOp 0x14
  | .hopDecRegion p => packPlane 0x15 p
  | .hopEncRegion p => packPlane 0x16 p
  | .huffBuild t => packTbl 0x20 t
  | .huffReadHdr t => packTbl 0x21 t
  | .huffWriteHdr t => packTbl 0x22 t
  | .huffClearCounts t => packTbl 0x23 t
  | .huffCountSym t sym => packWord 0x24 0 t.field sym 0 0
  | .huffCountRegion p => packPlane 0x25 p
  | .huffFromCounts t => packTbl 0x26 t
  | .huffDecSym t => packTbl 0x27 t
  | .huffEncSym t sym => packWord 0x28 0 t.field sym 0 0
  | .huffDecRegion p => packPlane 0x29 p
  | .huffEncRegion p => packPlane 0x2A p
  | .meshRead => packOp 0x30
  | .meshWrite => packOp 0x31
  | .bwFlush => packOp 0x38
  | .frameDecode => packOp 0x40
  | .frameEncode => packOp 0x41

end Sys2Proof
end

