-- ==== Sys2Proof/Config.lean ====
section
/-! DEFINITION. What is fixed for a machine: the constants of 00_scope R6, the implementation
parameters of 00_scope R8, and the free values, which the spec leaves open and nothing in Lean can
evaluate. -/

namespace Sys2Proof.Config

/-! ### Constants (00_scope R6) -/

/-- `NULL_HOP`, the null hop symbol. -/
def nullHop : Hop := 4
/-- `MIN_STEP`, the least step of HopState. -/
def minStep : Nat := 4
/-- `MAX_STEP`, the greatest step of HopState. -/
def maxStep : Nat := 10
/-- `START_STEP`, the step a scan and every first-column pixel begin with. -/
def startStep : Nat := 7
/-- `RATIO_MIN`, the least legal ratio. -/
def ratioMin : Nat := 20
/-- `RATIO_MAX`, the greatest legal ratio. -/
def ratioMax : Nat := 40
/-- `TSTEP_MIN`, the least step of the tables. -/
def tstepMin : Nat := 1
/-- `TSTEP_MAX`, the greatest step of the tables. -/
def tstepMax : Nat := 19
/-- `SIDE_MIN`, the least downsampled side of a block whose side allows it. -/
def sideMin : Nat := 2
/-- The 4-bit length that marks an unused Huffman entry. -/
def unusedLen : BitVec 4 := 15#4

/-! ### Implementation parameters (00_scope R8, assumption log 5) -/

/-- The raw choice behind `maxPixels`. -/
opaque maxPixelsRaw : Word
/-- The raw choice behind `nWorkers`. -/
opaque nWorkersRaw : Nat

/-- `MAX_PIXELS`, with the one bound the spec sets: 1 ≤ MAX_PIXELS ≤ 2^32 − 1 (44_frame R403). -/
def maxPixels : Nat := max 1 maxPixelsRaw.toNat
/-- `N_WORKERS`, at least 1 (44_frame R420). -/
def nWorkers : Nat := max 1 nWorkersRaw

/-! ### Free values -/

/-- The byte an address holds before anything has written it (20_memory R108, assumption log 3). -/
opaque memInit : Nat → Byte
/-- The value a register that the running command writes reads as (10_state R32, assumption log 7):
the argument is the number of the draw, a new one for each read (assumption log 27). -/
opaque busyRead : Nat → Word
/-- The value a memory byte that the running command touches reads as (20_memory R121, assumption
log 8): the argument is the number of the draw, a new one for each read (assumption log 27). -/
opaque raceRead : Nat → Byte
/-- The value of a memory byte that the host wrote while the running command touches it (20_memory R121,
assumption log 8): the argument is the number of the draw. -/
opaque raceWrite : Nat → Byte
/-- A RECON entry of tables that were never built (10_state R60, assumption log 4), by p, r, s, h. -/
opaque unbuiltRecon : Nat → Nat → Nat → Nat → Byte
/-- A BESTHOP entry of tables that were never built (10_state R60, assumption log 4), by r, s, o, p. -/
opaque unbuiltBest : Nat → Nat → Nat → Nat → Hop
/-- A register after a failed frame command with several workers (44_frame R420, assumption log 6),
by the number of the draw and the register's offset. -/
opaque failedReg : Nat → Nat → Word
/-- A memory byte after a failed frame command with several workers (44_frame R420, assumption
log 6), by the number of the draw and the address. -/
opaque failedByte : Nat → Nat → Byte

end Sys2Proof.Config
end

