-- ==== Sys2Proof/Machine/State.lean ====
section
/-! DEFINITION. The state of the LHE core as plain data: every register of 10_state R33 with its
fields, the table and Huffman state of 10_state R60 and R61, host memory (20_memory R100), and the
model's own fields (INVENTORY.md, State). -/

namespace Sys2Proof.Machine

/-! ### Names -/

/-- A plane (00_scope R14). -/
inductive Plane where
  | luma
  | chromaA
  | chromaB
deriving DecidableEq, Repr

/-- The direction of a scan (10_state R35): SCAN_DIR 0 decode, 1 encode. -/
inductive Dir where
  | decode
  | encode
deriving DecidableEq, Repr

/-- The error codes of 60_exceptions R601, in code order; `noError` is code 0. -/
inductive ErrCode where
  | noError
  | malformedHeader
  | huffInvalid
  | truncated
  | alloc
  | outOverflow
  | illegalCmd
  | config
  | sequence
  | hopRange
  | huffNoMatch
  | busy
deriving DecidableEq, Repr

/-- `HUFF_HDR_ORDER` (44_frame R407): `chromaFirst` is (1, 0), the default; `lumaFirst` is (0, 1). -/
inductive HdrOrder where
  | chromaFirst
  | lumaFirst
deriving DecidableEq, Repr

/-! ### Fixed-size data -/

/-- One value for each of the nine hop symbols. -/
structure Nine (α : Type) where
  v0 : α
  v1 : α
  v2 : α
  v3 : α
  v4 : α
  v5 : α
  v6 : α
  v7 : α
  v8 : α
deriving DecidableEq, Repr

/-! ### Register groups -/

/-- The command a core with BUSY = 1 is running (10_state R63): its word, and how many of its own
actions it has performed before the last access that landed while it ran. -/
structure Running where
  word : Word
  progress : Nat
deriving DecidableEq, Repr

/-- The command engine (10_state R34 to R38). STATUS.BUSY is 1 exactly when `running` is present. -/
structure Engine where
  cmd : Word
  running : Option Running
  err : ErrCode
  errReg : Bool
  errCmd : Word
  irqDone : Bool
  irqErr : Bool
deriving DecidableEq, Repr

/-- The stored bits of CTRL (10_state R37); SOFT_RESET is an action and reads 0. -/
structure Control where
  interiorVariant : Bool
  irqEn : Bool
deriving DecidableEq, Repr

/-- The frame configuration registers (10_state R39 to R44). -/
structure FrameConfig where
  mode : BitVec 8
  width : Word
  height : Word
  gridW : BitVec 8
  gridH : BitVec 8
  ratio : BitVec 8
  sx : BitVec 4
  sy : BitVec 4
  cf : BitVec 16
deriving DecidableEq, Repr

/-- The buffer registers of one plane (10_state R47). -/
structure PlaneBuf where
  src : Word
  dst : Word
  hop : Word
  stride : Word
deriving DecidableEq, Repr

/-- The buffer registers of the three planes. -/
structure PlaneBufs where
  luma : PlaneBuf
  chromaA : PlaneBuf
  chromaB : PlaneBuf
deriving DecidableEq, Repr

/-- The seed and mesh registers (10_state R45, R46). -/
structure SeedRegs where
  seedBase : Word
  meshBase : Word
  seedIndex : Word
  seed : Byte
deriving DecidableEq, Repr

/-- The bit reader (10_state R48). -/
structure BitReader where
  base : Word
  budget : Word
  pos : Word
deriving DecidableEq, Repr

/-- The bit writer (10_state R49). -/
structure BitWriter where
  base : Word
  limit : Word
  pos : Word
deriving DecidableEq, Repr

/-- The region registers (10_state R50). -/
structure Region where
  x0 : Word
  y0 : Word
  w : Word
  h : Word
deriving DecidableEq, Repr

/-- The scan: cursor (10_state R51), HopState (R52) and the scan fields of STATUS (R35). SCAN_PLANE
only ever holds 0, 1 or 2. -/
structure Scan where
  x : Word
  y : Word
  step : BitVec 5
  lastSmall : Bool
  active : Bool
  dir : Dir
  plane : Plane
deriving DecidableEq, Repr

/-- LAST_PIX (10_state R53). -/
structure LastPix where
  pred : Byte
  value : Byte
  hop : BitVec 4
  orig : Byte
deriving DecidableEq, Repr

/-- The last computed geometry (10_state R54). -/
structure Geometry where
  xIni : Word
  xFin : Word
  yIni : Word
  yFin : Word
  dsX : Word
  dsY : Word
deriving DecidableEq, Repr

/-- LUT_ARGS and LUT_RESULT (10_state R55). -/
structure LutPort where
  p : Byte
  x : Byte
  r : BitVec 6
  s : BitVec 5
  result : Byte
deriving DecidableEq, Repr

/-- The contents of the RECON and BESTHOP memories (10_state R60): unspecified, or the values of
40_tables R206 and R208. Only the values are architectural (92_eei_decisions D9). -/
inductive LutMem where
  | unspecified
  | built
deriving DecidableEq, Repr

/-- One Huffman table (10_state R57 to R59, R61). -/
structure HuffTable where
  len : Nine (BitVec 4)
  code : Nine (BitVec 14)
  count : Nine Word
  valid : Bool
deriving DecidableEq, Repr

/-- The two Huffman tables (43_huffman R350). -/
structure HuffTables where
  luma : HuffTable
  chroma : HuffTable
deriving DecidableEq, Repr

/-- The platform's parameters (00_scope R8), named arguments of the model: no step changes them
(assumption log 5). -/
structure Platform where
  maxPixels : Nat
  nWorkers : Nat
  hdrOrder : HdrOrder
deriving DecidableEq, Repr

/-! ### Memory -/

/-- Host memory (20_memory R100): the bytes written so far, by address, addresses strictly rising.
An unlisted address holds no written value (assumption log 3). -/
abbrev Memory := List Host.Cell

/-! ### Host accesses (10_state R32, 20_memory R121, 70_reset R700) -/

/-- One access by the host, or the platform's reset. -/
inductive HostAccess where
  /-- A register write of `bits` bits at an offset of the register window. -/
  | regWrite (bits : Nat) (offset : BitVec 9) (value : Word)
  /-- A register read of `bits` bits at an offset of the register window. -/
  | regRead (bits : Nat) (offset : BitVec 9)
  /-- The host writes a byte of memory. -/
  | memWrite (address : Word) (value : Byte)
  /-- The host reads a byte of memory. -/
  | memRead (address : Word)
  /-- The platform asserts hard reset. -/
  | hardReset
deriving DecidableEq, Repr

/-- A host access still to come. `during = none`: it is made once the running command, if any, is
complete. `during = some k`: it lands while the running command runs, after `k` further actions of
that command (assumption log 2). -/
structure Pending where
  access : HostAccess
  during : Option Nat
deriving DecidableEq, Repr

/-- What the host saw in answer to its last access. -/
inductive BusReply where
  /-- No access yet. -/
  | idle
  /-- A write was taken, or ignored without error. -/
  | ack
  /-- The data of a register read. -/
  | data (value : Word)
  /-- The data of a memory read. -/
  | byte (value : Byte)
  /-- The bus error response of 10_state R32. -/
  | busError
deriving DecidableEq, Repr

/-! ### The state -/

/-- The whole machine. -/
structure State where
  eng : Engine
  ctrl : Control
  cfg : FrameConfig
  bufs : PlaneBufs
  seeds : SeedRegs
  reader : BitReader
  writer : BitWriter
  region : Region
  scan : Scan
  lastPix : LastPix
  geom : Geometry
  lut : LutPort
  huffSym : BitVec 4
  huff : HuffTables
  tablesValid : Bool
  luts : LutMem
  mem : Memory
  plat : Platform
  inbox : List Pending
  bus : BusReply
  draws : Nat
  races : List Word
deriving DecidableEq, Repr

/-- Why the machine stops. -/
inductive Fault where
  /-- The command never completes, because the platform does not back an address it accesses
  (20_memory R108). No step answers it: memory is total here, as R108 allows (assumption log 3).
  Safe. -/
  | stuck
deriving DecidableEq, Repr

/-- Why an instruction has no meaning. -/
inductive Refusal where
  /-- The instruction of this mnemonic is not modelled. No arm of exec answers it. Safe. -/
  | notModelled (mnemonic : String)
deriving DecidableEq, Repr

/-! ### Reset (10_state R33, 70_reset R700) -/

/-- One value in all nine places. -/
def Nine.all {α : Type} (a : α) : Nine α := ⟨a, a, a, a, a, a, a, a, a⟩

/-- Every symbol unused, every code and count 0, the table invalid (70_reset R700). -/
def HuffTable.reset : HuffTable :=
  { len := Nine.all Config.unusedLen, code := Nine.all 0, count := Nine.all 0, valid := false }

/-- All four buffer registers 0. -/
def PlaneBuf.reset : PlaneBuf := { src := 0, dst := 0, hop := 0, stride := 0 }

/-- The machine right after hard reset, with no access pending and nothing written to memory. The
platform's parameters are those of Config, but for `HUFF_HDR_ORDER`, which has its default
(44_frame R407). -/
def State.reset : State where
  eng := { cmd := 0, running := none, err := .noError, errReg := false, errCmd := 0,
           irqDone := false, irqErr := false }
  ctrl := { interiorVariant := false, irqEn := false }
  cfg := { mode := 0, width := 0, height := 0, gridW := 0, gridH := 0, ratio := 25, sx := 1,
           sy := 1, cf := 0 }
  bufs := { luma := .reset, chromaA := .reset, chromaB := .reset }
  seeds := { seedBase := 0, meshBase := 0, seedIndex := 0, seed := 0 }
  reader := { base := 0, budget := 0, pos := 0 }
  writer := { base := 0, limit := 0, pos := 0 }
  region := { x0 := 0, y0 := 0, w := 0, h := 0 }
  scan := { x := 0, y := 0, step := 7, lastSmall := false, active := false, dir := .decode,
            plane := .luma }
  lastPix := { pred := 0, value := 0, hop := 0, orig := 0 }
  geom := { xIni := 0, xFin := 0, yIni := 0, yFin := 0, dsX := 0, dsY := 0 }
  lut := { p := 0, x := 0, r := 0, s := 0, result := 0 }
  huffSym := 0
  huff := { luma := .reset, chroma := .reset }
  tablesValid := false
  luts := .unspecified
  mem := []
  plat := { maxPixels := Config.maxPixels, nWorkers := Config.nWorkers, hdrOrder := .chromaFirst }
  inbox := []
  bus := .idle
  draws := 0
  races := []

/-! ### Updates

One update per group. Laws/State.lean says, for every update and every group, what it leaves. -/

/-- Replace `eng`. -/
def State.withEng (s : State) (v : Engine) : State := { s with eng := v }
/-- Replace `ctrl`. -/
def State.withCtrl (s : State) (v : Control) : State := { s with ctrl := v }
/-- Replace `cfg`. -/
def State.withCfg (s : State) (v : FrameConfig) : State := { s with cfg := v }
/-- Replace `bufs`. -/
def State.withBufs (s : State) (v : PlaneBufs) : State := { s with bufs := v }
/-- Replace `seeds`. -/
def State.withSeeds (s : State) (v : SeedRegs) : State := { s with seeds := v }
/-- Replace `reader`. -/
def State.withReader (s : State) (v : BitReader) : State := { s with reader := v }
/-- Replace `writer`. -/
def State.withWriter (s : State) (v : BitWriter) : State := { s with writer := v }
/-- Replace `region`. -/
def State.withRegion (s : State) (v : Region) : State := { s with region := v }
/-- Replace `scan`. -/
def State.withScan (s : State) (v : Scan) : State := { s with scan := v }
/-- Replace `lastPix`. -/
def State.withLastPix (s : State) (v : LastPix) : State := { s with lastPix := v }
/-- Replace `geom`. -/
def State.withGeom (s : State) (v : Geometry) : State := { s with geom := v }
/-- Replace `lut`. -/
def State.withLut (s : State) (v : LutPort) : State := { s with lut := v }
/-- Replace `huffSym`. -/
def State.withHuffSym (s : State) (v : BitVec 4) : State := { s with huffSym := v }
/-- Replace `huff`. -/
def State.withHuff (s : State) (v : HuffTables) : State := { s with huff := v }
/-- Replace `tablesValid`. -/
def State.withTablesValid (s : State) (v : Bool) : State := { s with tablesValid := v }
/-- Replace `luts`. -/
def State.withLuts (s : State) (v : LutMem) : State := { s with luts := v }
/-- Replace `mem`. -/
def State.withMem (s : State) (v : Memory) : State := { s with mem := v }
/-- Replace `inbox`. -/
def State.withInbox (s : State) (v : List Pending) : State := { s with inbox := v }
/-- Replace `bus`. -/
def State.withBus (s : State) (v : BusReply) : State := { s with bus := v }
/-- Replace `draws`. -/
def State.withDraws (s : State) (v : Nat) : State := { s with draws := v }
/-- Replace `races`. -/
def State.withRaces (s : State) (v : List Word) : State := { s with races := v }

end Sys2Proof.Machine
end

