-- ==== Sys2Proof/Machine/Ops.lean ====
section
/-! DEFINITION. The named operations every meaning is built from: host memory, the language of
command bodies, the bit reader and writer, recording an error, ending a command, and the resets. -/

namespace Sys2Proof.Machine

/-! ### Nine values, by hop symbol -/

/-- The value of symbol `h`. -/
def Nine.get {α : Type} (v : Nine α) (h : Hop) : α :=
  match h.val with
  | 0 => v.v0
  | 1 => v.v1
  | 2 => v.v2
  | 3 => v.v3
  | 4 => v.v4
  | 5 => v.v5
  | 6 => v.v6
  | 7 => v.v7
  | _ => v.v8

/-- Replace the value of symbol `h`. -/
def Nine.set {α : Type} (v : Nine α) (h : Hop) (a : α) : Nine α :=
  match h.val with
  | 0 => { v with v0 := a }
  | 1 => { v with v1 := a }
  | 2 => { v with v2 := a }
  | 3 => { v with v3 := a }
  | 4 => { v with v4 := a }
  | 5 => { v with v5 := a }
  | 6 => { v with v6 := a }
  | 7 => { v with v7 := a }
  | _ => { v with v8 := a }

/-- The nine values of a function of the symbol. -/
def Nine.ofFn {α : Type} (f : Hop → α) : Nine α := ⟨f 0, f 1, f 2, f 3, f 4, f 5, f 6, f 7, f 8⟩

/-- The nine symbols in index order. -/
def allHops : List Hop := [0, 1, 2, 3, 4, 5, 6, 7, 8]

/-- The symbol of an index, if it is one (20_memory R105: a hop byte holds 0..8). -/
def hopOfNat (n : Nat) : Option Hop := if h : n < 9 then some ⟨n, h⟩ else none

/-! ### Host memory (20_memory R100, R101) -/

/-- The byte written at an address, if any has been. -/
def Memory.read? : Memory → Nat → Option Byte
  | [], _ => none
  | (a, v) :: m, k => if k = a then some v else Memory.read? m k

/-- The byte at an address; one that nothing has written is a free value, the same at every read
(20_memory R108, assumption log 3). -/
def Memory.read (m : Memory) (k : Nat) : Byte := (m.read? k).getD (Config.memInit k)

/-- The byte of memory at a word address. -/
abbrev State.byteAt (s : State) (a : Word) : Byte := s.mem.read a.toNat

/-- Store a byte, keeping addresses strictly rising. -/
def Memory.write : Memory → Nat → Byte → Memory
  | [], k, v => [(k, v)]
  | (a, w) :: m, k, v =>
    if k < a then (k, v) :: (a, w) :: m
    else if k = a then (k, v) :: m
    else (a, w) :: Memory.write m k v

/-- The canonical form: addresses strictly rising and below 2^32. An unlisted address holds no
written value, so no entry equals what an unlisted address holds. -/
abbrev Memory.wf (m : Memory) : Prop :=
  m.Pairwise (fun a b => a.1 < b.1) ∧ ∀ c ∈ m, c.1 < 2 ^ 32

/-! ### Command bodies

A body runs on a state and either ends or raises (00_scope R12). It keeps what it did before a raise,
and records its actions, so that a host access that lands while it runs finds the right prefix. -/

/-- The registers of the map (10_state R33). -/
inductive Reg where
  | cmd
  | status
  | irqStatus
  | ctrl
  | errCmd
  | mode
  | width
  | height
  | grid
  | ratio
  | chroma
  | comp
  | seedBase
  | meshBase
  | seedIndex
  | seed
  | srcBase (p : Plane)
  | dstBase (p : Plane)
  | hopBase (p : Plane)
  | stride (p : Plane)
  | brBase
  | brBudget
  | brPos
  | bwBase
  | bwLimit
  | bwPos
  | regionX0
  | regionY0
  | regionW
  | regionH
  | scanX
  | scanY
  | hopState
  | lastPix
  | blkXIni
  | blkXFin
  | blkYIni
  | blkYFin
  | dsX
  | dsY
  | lutArgs
  | lutResult
  | huffSym
  | huffLenLo (t : Tbl)
  | huffLenHi (t : Tbl)
  | huffCode (t : Tbl) (i : Hop)
  | huffCount (t : Tbl) (i : Hop)
deriving DecidableEq, Repr

/-- One action of a command: the state after it, the addresses of the memory bytes it read and wrote, and
the registers it wrote, STATUS apart. -/
structure Act where
  after : State
  reads : List Nat := []
  writes : List Nat := []
  regs : List Reg := []

/-- How a body ends, with its actions in order. -/
inductive Res (α : Type) where
  | ok (a : α) (s : State) (acts : List Act)
  | raised (e : ErrCode) (s : State) (acts : List Act)

/-- A command body. -/
def Cmd (α : Type) : Type := State → Res α

/-- How a body ends, without its actions. -/
inductive Out (α : Type) where
  | ok (a : α) (s : State)
  | raised (e : ErrCode) (s : State)

/-- Forget the actions. -/
def Res.out {α : Type} : Res α → Out α
  | .ok a s _ => .ok a s
  | .raised e s _ => .raised e s

/-- The actions. -/
def Res.acts {α : Type} : Res α → List Act
  | .ok _ _ t => t
  | .raised _ _ t => t

/-- What came before, put in front of the actions. -/
def Res.after {α : Type} (t : List Act) : Res α → Res α
  | .ok a s t' => .ok a s (t ++ t')
  | .raised e s t' => .raised e s (t ++ t')

/-- The outcome of a body on a state. -/
def Cmd.out {α : Type} (c : Cmd α) (s : State) : Out α := (c s).out

/-- The actions of a body on a state. -/
def Cmd.acts {α : Type} (c : Cmd α) (s : State) : List Act := (c s).acts

/-- Do nothing and answer `a`. -/
def Cmd.pure {α : Type} (a : α) : Cmd α := fun s => .ok a s []

/-- Run `c`, then what `f` makes of its answer; a raise of `c` ends the whole (00_scope R12). -/
def Cmd.bind {α β : Type} (c : Cmd α) (f : α → Cmd β) : Cmd β := fun s =>
  match c s with
  | .ok a s' t => (f a s').after t
  | .raised e s' t => .raised e s' t

/-- Run `c`, then `d`. -/
def Cmd.seq {α β : Type} (c : Cmd α) (d : Cmd β) : Cmd β := c.bind fun _ => d

/-- `raise e`. -/
def Cmd.raise {α : Type} (e : ErrCode) : Cmd α := fun s => .raised e s []

/-- Look at the state. -/
def Cmd.read {α : Type} (f : State → α) : Cmd α := fun s => .ok (f s) s []

/-- An update of the registers `rs`, one action. -/
def Cmd.update (rs : List Reg) (f : State → State) : Cmd Unit := fun s =>
  .ok () (f s) [{ after := f s, regs := rs }]

/-- Raise the error that `f` finds, if it finds one. -/
def Cmd.check (f : State → ErrCode) : Cmd Unit := fun s =>
  if f s = .noError then .ok () s [] else .raised (f s) s []

/-- Raise `e` unless the condition holds. -/
def Cmd.require (p : State → Bool) (e : ErrCode) : Cmd Unit :=
  Cmd.check fun s => if p s then .noError else e

/-- `for v in l`, in order (00_scope R13). -/
def Cmd.forEach {α : Type} : List α → (α → Cmd Unit) → Cmd Unit
  | [], _ => Cmd.pure ()
  | a :: l, f => (f a).seq (Cmd.forEach l f)

/-- Raster order of a W × H rectangle: y outer, x inner (00_scope R13). -/
def raster (w h : Nat) : List (Nat × Nat) :=
  (List.range h).flatMap fun y => (List.range w).map fun x => (x, y)

/-- `MemRead(a, 1)` (20_memory R101), one action. -/
def memRead (a : Word) : Cmd Byte := fun s =>
  .ok (s.mem.read a.toNat) s [{ after := s, reads := [a.toNat] }]

/-- The state with one byte of memory stored by the running command. A byte that a host write raced
holds its free value until the command ends (20_memory R121, assumption log 8). -/
def State.storeByte (s : State) (a : Word) (v : Byte) : State :=
  if a ∈ s.races then s else s.withMem (s.mem.write a.toNat v)

/-- `MemWrite(a, 1, v)` (20_memory R101), one action. -/
def memWrite (a : Word) (v : Byte) : Cmd Unit := fun s =>
  .ok () (s.storeByte a v) [{ after := s.storeByte a v, writes := [a.toNat] }]

/-! ### Addresses (20_memory R104, R106) -/

/-- `base + y·stride + x`, modulo 2^32 (20_memory R104). -/
def pixAddr (base stride : Word) (x y : Nat) : Word :=
  base + BitVec.ofNat 32 y * stride + BitVec.ofNat 32 x

/-! ### Bit reader (20_memory R110 to R112) -/

/-- Bit position `q` of a stream lies in this byte. -/
def bitAddr (base q : Word) : Word := base + (q >>> 3)

/-- Bit position `q` of a stream is this bit of its byte: the first bit of a byte is its most
significant (20_memory R112). -/
def bitIndex (q : Word) : Nat := 7 - q.toNat % 8

/-- The reader one bit further. -/
def State.bitConsumed (s : State) : State := s.withReader { s.reader with pos := s.reader.pos + 1 }

/-- `ReadBit()` (20_memory R110). -/
def readBit : Cmd Bool :=
  (Cmd.require (fun s => s.reader.pos < s.reader.budget) .truncated).seq <|
  (Cmd.read State.reader).bind fun r =>
  (memRead (bitAddr r.base r.pos)).bind fun b =>
  (Cmd.update [.brPos] State.bitConsumed).seq <|
  Cmd.pure (b.getLsbD (bitIndex r.pos))

/-- Read `n` more bits of a field whose bits so far are `v`. -/
def readBitsFrom : Nat → Nat → Cmd Nat
  | 0, v => Cmd.pure v
  | n + 1, v => readBit.bind fun b => readBitsFrom n (2 * v + b.toNat)

/-- `ReadBits(n)`, first bit most significant (20_memory R111). -/
def readBits (n : Nat) : Cmd Nat := readBitsFrom n 0

/-! ### Bit writer (20_memory R113, R114) -/

/-- `old` with bit `k` set to `b`. -/
def setBit (old : Byte) (k : Nat) (b : Bool) : Byte :=
  if b then old ||| (1#8 <<< k) else old &&& ~~~(1#8 <<< k)

/-- The writer one bit further. -/
def State.bitProduced (s : State) : State := s.withWriter { s.writer with pos := s.writer.pos + 1 }

/-- `old` of 20_memory R113: the first bit of a byte starts from 0, a later one from what memory
holds. -/
def oldByte (a pos : Word) : Cmd Byte :=
  if pos.toNat % 8 = 0 then Cmd.pure 0 else memRead a

/-- `WriteBit(b)` (20_memory R113). -/
def writeBit (b : Bool) : Cmd Unit :=
  (Cmd.require (fun s => s.writer.pos < s.writer.limit) .outOverflow).seq <|
  (Cmd.read State.writer).bind fun w =>
  (oldByte (bitAddr w.base w.pos) w.pos).bind fun old =>
  (memWrite (bitAddr w.base w.pos) (setBit old (bitIndex w.pos) b)).seq <|
  Cmd.update [.bwPos] State.bitProduced

/-- `WriteBits(v, n)`, most significant bit first (20_memory R114). -/
def writeBits (v : Nat) : Nat → Cmd Unit
  | 0 => Cmd.pure ()
  | n + 1 => (writeBit (v.testBit n)).seq (writeBits v n)

/-! ### Taking an error, and ending a command (60_exceptions R602, R603; 10_state R34) -/

/-- Record an error: the first one wins (60_exceptions R603, R605). `value` goes to ERR_CMD, `reg`
to ERR_REG. -/
def State.recordError (s : State) (e : ErrCode) (value : Word) (reg : Bool) : State :=
  if s.eng.err = .noError then
    s.withEng { s.eng with err := e, errCmd := value, errReg := reg, irqErr := true }
  else s

/-- The word of the command that runs (60_exceptions R603): for a macro, the macro's own. With no
command running it is the last word written to CMD (assumption log 13). -/
def State.commandWord (s : State) : Word :=
  match s.eng.running with
  | some r => r.word
  | none => s.eng.cmd

/-- BUSY <- 0 and DONE <- 1 (10_state R34). The command's races end with it (20_memory R121). -/
def State.finish (s : State) : State :=
  (s.withEng { s.eng with running := none, irqDone := true }).withRaces []

/-- The state a raise of `e` leaves when it ends the running command (60_exceptions R602, R603). -/
def State.raiseEnd (s : State) (e : ErrCode) : State :=
  (s.recordError e s.commandWord false).finish

/-- Run a body as the whole of a command. -/
def runCommand (c : Cmd Unit) (s : State) : Host.Outcome State Fault Refusal :=
  match c.out s with
  | .ok _ s' => .next s'.finish
  | .raised e s' => .next (s'.raiseEnd e)

/-! ### Reset (70_reset R700, R701, R702) -/

/-- Hard reset: every register at its reset value, the tables unspecified, memory untouched. What is
no part of the core (the platform's parameters, the host's accesses and the answers it saw, the
count of free values) stays. -/
def State.hardReset (s : State) : State :=
  { State.reset with
    mem := s.mem, plat := s.plat, inbox := s.inbox, bus := s.bus, draws := s.draws }

/-- Soft reset of a core: as hard reset, but TABLES_VALID and the tables' contents stay
(70_reset R701). -/
def State.softReset (s : State) : State :=
  (s.hardReset.withTablesValid s.tablesValid).withLuts s.luts

/-- The state after the first `k` of a command's actions, all of them if it has fewer. -/
def stateAfter (s : State) (acts : List Act) (k : Nat) : State :=
  match (acts.take k).getLast? with
  | some a => a.after
  | none => s

end Sys2Proof.Machine
end

