-- ==== Sys2Proof/Machine/Operands.lean ====
section
/-! DEFINITION. The operand forms: PLANE, TBL and SYM of the command word, the plane and table a
command selects, and the buffer addresses the registers give. -/

namespace Sys2Proof.Machine

/-! ### PLANE (30_encoding R150, R152) -/

/-- The plane a PLANE field names; 3 names none. -/
def Plane.ofField (p : BitVec 2) : Option Plane :=
  if p = 0#2 then some .luma
  else if p = 1#2 then some .chromaA
  else if p = 2#2 then some .chromaB
  else none

/-- The plane's number. -/
def Plane.index : Plane → Nat
  | .luma => 0
  | .chromaA => 1
  | .chromaB => 2

/-- The planes in order 0, 1, 2 (44_frame R409). -/
def allPlanes : List Plane := [.luma, .chromaA, .chromaB]

/-- A plane command: PLANE = 3 raises E_ILLEGAL_CMD before any other effect (30_encoding R152). -/
def withPlane (f : BitVec 2) (c : Plane → Cmd Unit) : Cmd Unit :=
  match Plane.ofField f with
  | some p => c p
  | none => Cmd.raise .illegalCmd

/-! ### TBL and SYM (30_encoding R153, R154) -/

/-- `tbl(p)`: table 0 serves luma, table 1 both chroma planes (10_state R61). -/
def Plane.tbl : Plane → Tbl
  | .luma => .luma
  | .chromaA => .chroma
  | .chromaB => .chroma

/-- Table `t`. -/
def State.table (s : State) : Tbl → HuffTable
  | .luma => s.huff.luma
  | .chroma => s.huff.chroma

/-- Replace table `t`. -/
def State.withTable (s : State) (t : Tbl) (h : HuffTable) : State :=
  match t with
  | .luma => s.withHuff { s.huff with luma := h }
  | .chroma => s.withHuff { s.huff with chroma := h }

/-! ### Registers that commands write together (10_state R58, R59; 42_mesh R311) -/

/-- The code registers of a table. -/
def codeRegs (t : Tbl) : List Reg := allHops.map (Reg.huffCode t)

/-- The count registers of a table. -/
def countRegs (t : Tbl) : List Reg := allHops.map (Reg.huffCount t)

/-- The length and code registers of a table. -/
def lenRegs (t : Tbl) : List Reg := .huffLenLo t :: .huffLenHi t :: codeRegs t

/-- The registers a geometry command writes (42_mesh R311, R312). -/
def geomRegs : List Reg :=
  [.regionX0, .regionY0, .regionW, .regionH, .seedIndex, .blkXIni, .blkXFin, .blkYIni, .blkYFin,
   .dsX, .dsY]

/-- The registers the begin of a scan writes, STATUS apart (41_predictor R263, R264). -/
def beginRegs : List Reg := [.seed, .scanX, .scanY, .hopState]

/-- The registers a scan step writes, STATUS apart (41_predictor R265). -/
def stepRegs : List Reg := [.scanX, .scanY, .hopState, .lastPix]

/-- The register that holds the length of symbol `i` (10_state R57). -/
def lenReg (t : Tbl) (i : Hop) : Reg := if i.val < 8 then .huffLenLo t else .huffLenHi t

/-! ### Header order -/

/-- The table headers' order in a frame (44_frame R407). -/
def HdrOrder.tables : HdrOrder → List Tbl
  | .chromaFirst => [.chroma, .luma]
  | .lumaFirst => [.luma, .chroma]

/-- A hop symbol operand: a value above 8 raises E_HOP_RANGE (30_encoding R154, 60_exceptions
R601). -/
def needHop (n : Nat) : Cmd Hop :=
  match hopOfNat n with
  | some h => Cmd.pure h
  | none => Cmd.raise .hopRange

/-! ### Buffers (10_state R47, 20_memory R104 to R106) -/

/-- The buffer registers of plane `p`. -/
def State.buf (s : State) : Plane → PlaneBuf
  | .luma => s.bufs.luma
  | .chromaA => s.bufs.chromaA
  | .chromaB => s.bufs.chromaB

/-- Replace the buffer registers of plane `p`. -/
def State.withBuf (s : State) (p : Plane) (b : PlaneBuf) : State :=
  match p with
  | .luma => s.withBufs { s.bufs with luma := b }
  | .chromaA => s.withBufs { s.bufs with chromaA := b }
  | .chromaB => s.withBufs { s.bufs with chromaB := b }

/-- The address of sample (x, y) of plane `p`'s original. -/
def State.srcAddr (s : State) (p : Plane) (x y : Nat) : Word :=
  pixAddr (s.buf p).src (s.buf p).stride x y

/-- The address of sample (x, y) of plane `p`'s reconstruction. -/
def State.dstAddr (s : State) (p : Plane) (x y : Nat) : Word :=
  pixAddr (s.buf p).dst (s.buf p).stride x y

/-- The address of the hop byte of sample (x, y) of plane `p`. -/
def State.hopAddr (s : State) (p : Plane) (x y : Nat) : Word :=
  pixAddr (s.buf p).hop (s.buf p).stride x y

/-- The address of the current seed slot (41_predictor R263). -/
def State.seedAddr (s : State) : Word := s.seeds.seedBase + s.seeds.seedIndex

/-- The address of seed number `i` (20_memory R106). -/
def State.seedSlot (s : State) (i : Nat) : Word := s.seeds.seedBase + BitVec.ofNat 32 i

/-- BW, the blocks across. -/
def FrameConfig.blocksW (c : FrameConfig) : Nat := c.gridW.toNat
/-- BH, the blocks down. -/
def FrameConfig.blocksH (c : FrameConfig) : Nat := c.gridH.toNat

/-- The address of the mesh byte of corner (cx, cy): `MESH_BASE + cy·(BW+1) + cx` (42_mesh R305). -/
def State.meshAddr (s : State) (cx cy : Nat) : Word :=
  s.seeds.meshBase + BitVec.ofNat 32 (cy * (s.cfg.blocksW + 1) + cx)

end Sys2Proof.Machine
end

