-- ==== Sys2Proof/Machine/Flags.lean ====
section
/-! DEFINITION. The flags: the words of STATUS, IRQ_STATUS, CTRL, HOPSTATE, LAST_PIX and the Huffman
registers as 10_state R33 lays them out, the IRQ output, and the step adaptation. -/

namespace Sys2Proof.Machine

/-- One bit. -/
def bit (b : Bool) : BitVec 1 := BitVec.ofBool b

/-- The number of an error code (60_exceptions R601). -/
def ErrCode.code : ErrCode → BitVec 8
  | .noError => 0
  | .malformedHeader => 1
  | .huffInvalid => 2
  | .truncated => 3
  | .alloc => 4
  | .outOverflow => 5
  | .illegalCmd => 6
  | .config => 7
  | .sequence => 8
  | .hopRange => 9
  | .huffNoMatch => 10
  | .busy => 11

/-- SCAN_DIR: 0 decode, 1 encode (10_state R35). -/
def Dir.bit : Dir → BitVec 1
  | .decode => 0#1
  | .encode => 1#1

/-- SCAN_PLANE (10_state R35). -/
def Plane.field : Plane → BitVec 2
  | .luma => 0#2
  | .chromaA => 1#2
  | .chromaB => 2#2

/-- STATUS.BUSY (10_state R35). -/
def State.busy (s : State) : Bool := s.eng.running.isSome

/-- STATUS (10_state R33, R35). -/
def State.statusWord (s : State) : Word :=
  0#15 ++ bit s.eng.errReg ++ s.eng.err.code ++ s.scan.plane.field ++ s.scan.dir.bit ++
    bit s.scan.active ++ bit s.huff.chroma.valid ++ bit s.huff.luma.valid ++ bit s.tablesValid ++
    bit s.busy

/-- IRQ_STATUS (10_state R36). -/
def State.irqStatusWord (s : State) : Word := 0#30 ++ bit s.eng.irqErr ++ bit s.eng.irqDone

/-- CTRL; SOFT_RESET reads 0 (10_state R37). -/
def State.ctrlWord (s : State) : Word := 0#29 ++ bit s.ctrl.irqEn ++ bit s.ctrl.interiorVariant ++ 0#1

/-- The interrupt output, level sensitive (60_exceptions R607). -/
def State.irq (s : State) : Bool := s.ctrl.irqEn && (s.eng.irqDone || s.eng.irqErr)

/-- HOPSTATE (10_state R52). -/
def Scan.hopStateWord (c : Scan) : Word := 0#23 ++ bit c.lastSmall ++ 0#3 ++ c.step

/-- LAST_PIX (10_state R53). -/
def LastPix.word (p : LastPix) : Word := p.orig ++ 0#4 ++ p.hop ++ p.value ++ p.pred

/-- LUT_ARGS (10_state R55). -/
def LutPort.argsWord (l : LutPort) : Word := 0#3 ++ l.s ++ 0#2 ++ l.r ++ l.x ++ l.p

/-- GRID (10_state R41). -/
def FrameConfig.gridWord (c : FrameConfig) : Word := 0#16 ++ c.gridH ++ c.gridW

/-- CHROMA (10_state R43). -/
def FrameConfig.chromaWord (c : FrameConfig) : Word := 0#24 ++ c.sy ++ c.sx

/-- HUFF_LEN_LO_t: symbol i at bits [4i+3:4i], i = 0..7 (10_state R57). -/
def HuffTable.lenLoWord (h : HuffTable) : Word :=
  h.len.v7 ++ h.len.v6 ++ h.len.v5 ++ h.len.v4 ++ h.len.v3 ++ h.len.v2 ++ h.len.v1 ++ h.len.v0

/-- HUFF_LEN_HI_t: symbol 8 at bits [3:0] (10_state R57). -/
def HuffTable.lenHiWord (h : HuffTable) : Word := 0#28 ++ h.len.v8

/-- HUFF_CODE_t_i: LEN always reads the length; CODE reads 0 for an invalid table or an unused
symbol (10_state R58). -/
def HuffTable.codeWord (h : HuffTable) (i : Hop) : Word :=
  0#12 ++ h.len.get i ++ 0#2 ++
    (if h.valid = false ∨ h.len.get i = Config.unusedLen then 0#14 else h.code.get i)

/-- A small hop: index 3, 4 or 5 (00_scope R14). -/
def smallHop (h : Hop) : Bool := h == 3 || h == 4 || h == 5

/-- `Adapt(step, last, h)` (41_predictor R256): a small hop after a small one takes the step down by
one, not below MIN_STEP; anything else sets it to MAX_STEP. -/
def adapt (step : Nat) (last : Bool) (h : Hop) : Nat × Bool :=
  (if smallHop h && last then max Config.minStep (step - 1) else Config.maxStep, smallHop h)

end Sys2Proof.Machine
end

