-- ==== Sys2Proof/Machine/Mesh.lean ====
section
/-! DEFINITION. BlockMesh (42_mesh): plane and block geometry, the frame check (44_frame R402) and
the region check, the relevance mesh, the downsampled sides, and the commands PLANE_GEOM, BLOCK_GEOM,
MESH_READ and MESH_WRITE. -/

namespace Sys2Proof.Machine

/-! ### Geometry (42_mesh R300 to R303) -/

/-- `cdiv(a, b)`, the ceiling of a / b (00_scope R10). -/
def cdiv (a b : Nat) : Nat := (a + (b - 1)) / b

/-- The horizontal subsampling factor of a plane: 1 for luma, SX for chroma. -/
def FrameConfig.subX (c : FrameConfig) : Plane → Nat
  | .luma => 1
  | .chromaA => c.sx.toNat
  | .chromaB => c.sx.toNat

/-- The vertical subsampling factor of a plane: 1 for luma, SY for chroma. -/
def FrameConfig.subY (c : FrameConfig) : Plane → Nat
  | .luma => 1
  | .chromaA => c.sy.toNat
  | .chromaB => c.sy.toNat

/-- `W_p` (42_mesh R300). -/
def FrameConfig.planeW (c : FrameConfig) (p : Plane) : Nat := cdiv c.width.toNat (c.subX p)

/-- `H_p` (42_mesh R300). -/
def FrameConfig.planeH (c : FrameConfig) (p : Plane) : Nat := cdiv c.height.toNat (c.subY p)

/-- Luma boundary `k` of an axis of length `n` in `blocks` blocks (42_mesh R301). -/
def lumaBound (n blocks k : Nat) : Nat := min n (k * cdiv n blocks)

/-- Boundary `k` in x of a plane's blocks: LX for luma, CX for chroma (42_mesh R301, R302). -/
def FrameConfig.boundX (c : FrameConfig) (p : Plane) (k : Nat) : Nat :=
  cdiv (lumaBound c.width.toNat c.blocksW k) (c.subX p)

/-- Boundary `k` in y of a plane's blocks: LY for luma, CY for chroma (42_mesh R301, R302). -/
def FrameConfig.boundY (c : FrameConfig) (p : Plane) (k : Nat) : Nat :=
  cdiv (lumaBound c.height.toNat c.blocksH k) (c.subY p)

/-- Some block of some plane is empty (42_mesh R303). -/
def FrameConfig.someBlockEmpty (c : FrameConfig) : Bool :=
  allPlanes.any fun p =>
    ((List.range c.blocksW).any fun k => decide (c.boundX p (k + 1) ≤ c.boundX p k)) ||
    ((List.range c.blocksH).any fun k => decide (c.boundY p (k + 1) ≤ c.boundY p k))

/-! ### The checks -/

/-- A legal chroma factor (10_state R43). -/
def chromaLegal (f : BitVec 4) : Bool := f == 1#4 || f == 2#4

/-- The first failure of `FrameCheck()`, or none (44_frame R402). -/
def frameError (c : FrameConfig) (maxPixels : Nat) : ErrCode :=
  if 2 < c.mode.toNat then .malformedHeader
  else if c.width = 0 ∨ c.height = 0 then .malformedHeader
  else if c.gridW = 0 ∨ c.gridH = 0 then .malformedHeader
  else if !chromaLegal c.sx || !chromaLegal c.sy then .config
  else if 2 ^ 32 ≤ c.width.toNat * c.height.toNat then .malformedHeader
  else if maxPixels < c.width.toNat * c.height.toNat then .alloc
  else if c.someBlockEmpty then .malformedHeader
  else if c.ratio.toNat < Config.ratioMin ∨ Config.ratioMax < c.ratio.toNat then .config
  else if 256 < c.cf.toNat then .config
  else .noError

/-- What the frame check finds in a state. -/
def State.frameError (s : State) : ErrCode := Machine.frameError s.cfg s.plat.maxPixels

/-- `FrameCheck()` (44_frame R402). -/
def frameCheck : Cmd Unit := Cmd.check State.frameError

/-- What `RegionCheck(p)` finds (42_mesh R304); the sums do not wrap. -/
def State.regionError (s : State) (p : Plane) : ErrCode :=
  if s.frameError ≠ .noError then s.frameError
  else if s.region.w.toNat < 1 ∨ s.region.h.toNat < 1 then .config
  else if s.cfg.planeW p < s.region.x0.toNat + s.region.w.toNat ∨
      s.cfg.planeH p < s.region.y0.toNat + s.region.h.toNat then .config
  else .noError

/-- `RegionCheck(p)` (42_mesh R304). -/
def regionCheck (p : Plane) : Cmd Unit := Cmd.check fun s => s.regionError p

/-! ### Relevance, PPP and downsampled sides (42_mesh R305 to R309) -/

/-- The x relevance code of a mesh byte (42_mesh R305). -/
def meshX (m : Byte) : Nat := (m.extractLsb' 0 3).toNat
/-- The y relevance code of a mesh byte (42_mesh R305). -/
def meshY (m : Byte) : Nat := (m.extractLsb' 3 3).toNat
/-- Both codes name a level; 6 and 7 name none (42_mesh R306). -/
def meshLegal (m : Byte) : Bool := decide (meshX m ≤ 5) && decide (meshY m ≤ 5)

/-- `8 · LEVEL[c]` (42_mesh R306): the levels are 0, 1/8, 1/4, 1/2, 3/4, 1. -/
def level8 (c : Nat) : Nat :=
  match c with
  | 0 => 0
  | 1 => 1
  | 2 => 2
  | 3 => 4
  | 4 => 6
  | _ => 8

/-- `4096 · PPP(S, LEVEL[c])` with cf = CF / 256 (42_mesh R307). PPP is a whole number of 4096ths:
`(pmax − 1) = (max(2, S) − 2) / 2`, `1 − L = (8 − 8L) / 8` and `2 · 256 · 8 = 4096`. -/
def ppp4096 (side cf c : Nat) : Nat := 4096 + (max 2 side - 2) * cf * (8 - level8 c)

/-- `Side(S, e1, e2)`, the edges given in 4096ths (42_mesh R309). -/
def downSide (side e1 e2 : Nat) : Nat :=
  min side (max Config.sideMin (cdiv (2 * side * 4096) (min e1 e2)))

/-- The mesh bytes of a block's four corners (42_mesh R308). -/
structure Corners where
  tl : Byte
  tr : Byte
  bl : Byte
  br : Byte
deriving DecidableEq, Repr

/-- `downsampled_x_side` (42_mesh R309): the top edge against the bottom edge. -/
def Corners.sideX (k : Corners) (side cf : Nat) : Nat :=
  downSide side
    (ppp4096 side cf (meshX k.tl) + ppp4096 side cf (meshX k.tr))
    (ppp4096 side cf (meshX k.bl) + ppp4096 side cf (meshX k.br))

/-- `downsampled_y_side` (42_mesh R309): the left edge against the right edge. -/
def Corners.sideY (k : Corners) (side cf : Nat) : Nat :=
  downSide side
    (ppp4096 side cf (meshY k.tl) + ppp4096 side cf (meshY k.bl))
    (ppp4096 side cf (meshY k.tr) + ppp4096 side cf (meshY k.br))

/-- The mesh bytes of the four corners of block (bx, row) (42_mesh R308). -/
def State.cornersOf (s : State) (bx row : Nat) : Corners :=
  { tl := s.byteAt (s.meshAddr bx row), tr := s.byteAt (s.meshAddr (bx + 1) row),
    bl := s.byteAt (s.meshAddr bx (row + 1)), br := s.byteAt (s.meshAddr (bx + 1) (row + 1)) }

/-- Every corner names a level on both axes (42_mesh R306). -/
abbrev Corners.legal (k : Corners) : Prop :=
  meshLegal k.tl = true ∧ meshLegal k.tr = true ∧ meshLegal k.bl = true ∧ meshLegal k.br = true

/-- The number of mesh corners, `(BW+1)·(BH+1)`. -/
def FrameConfig.cornerCount (c : FrameConfig) : Nat := (c.blocksW + 1) * (c.blocksH + 1)

/-- Read the mesh byte of corner (cx, cy); a code 6 or 7 raises E_MALFORMED_HEADER (42_mesh R306). -/
def readCorner (cx cy : Nat) : Cmd Byte :=
  (Cmd.read fun s => s.meshAddr cx cy).bind fun a =>
  (memRead a).bind fun m =>
  if meshLegal m then Cmd.pure m else Cmd.raise .malformedHeader

/-- Read a block's corners in the order TL, TR, BL, BR (42_mesh R312). -/
def readCorners (bx row : Nat) : Cmd Corners :=
  (readCorner bx row).bind fun tl =>
  (readCorner (bx + 1) row).bind fun tr =>
  (readCorner bx (row + 1)).bind fun bl =>
  (readCorner (bx + 1) (row + 1)).bind fun br =>
  Cmd.pure ⟨tl, tr, bl, br⟩

/-- The downsampled sides of a block with sides `sx` and `sy`: the block's own in a basic mode, by
the mesh in advanced mode (42_mesh R312). -/
def blockSides (bx row sx sy : Nat) : Cmd (Nat × Nat) :=
  (Cmd.read State.cfg).bind fun c =>
  if c.mode = 2 then
    (readCorners bx row).bind fun k => Cmd.pure (k.sideX sx c.cf.toNat, k.sideY sy c.cf.toNat)
  else Cmd.pure (sx, sy)

/-- The width of plane `p`'s block (bx, row). -/
def FrameConfig.blockW (c : FrameConfig) (p : Plane) (bx : Nat) : Nat :=
  c.boundX p (bx + 1) - c.boundX p bx
/-- The height of plane `p`'s block (bx, row). -/
def FrameConfig.blockH (c : FrameConfig) (p : Plane) (row : Nat) : Nat :=
  c.boundY p (row + 1) - c.boundY p row

/-- The sides of the region of block (bx, row): its own in a basic mode, downsampled in advanced mode
(42_mesh R312). -/
def State.blockSize (s : State) (p : Plane) (bx row : Nat) : Nat × Nat :=
  if s.cfg.mode = 2 then
    ((s.cornersOf bx row).sideX (s.cfg.blockW p bx) s.cfg.cf.toNat,
     (s.cornersOf bx row).sideY (s.cfg.blockH p row) s.cfg.cf.toNat)
  else (s.cfg.blockW p bx, s.cfg.blockH p row)

/-- The seed index of block (bx, row) of plane `p` (42_mesh R310). -/
def FrameConfig.seedNumber (c : FrameConfig) (p : Plane) (bx row : Nat) : Nat :=
  p.index * c.blocksW * c.blocksH + row * c.blocksW + bx

/-! ### Register updates of the geometry commands -/

/-- Store a rectangle and its downsampled sides in BLK and DS (10_state R54), set the region to the
downsampled rectangle at its origin (42_mesh R315), and select the seed. -/
def State.withBlock (s : State) (xIni xFin yIni yFin dsX dsY seed : Nat) : State :=
  ((s.withGeom { xIni := BitVec.ofNat 32 xIni, xFin := BitVec.ofNat 32 xFin,
                 yIni := BitVec.ofNat 32 yIni, yFin := BitVec.ofNat 32 yFin,
                 dsX := BitVec.ofNat 32 dsX, dsY := BitVec.ofNat 32 dsY }).withRegion
    { x0 := BitVec.ofNat 32 xIni, y0 := BitVec.ofNat 32 yIni,
      w := BitVec.ofNat 32 dsX, h := BitVec.ofNat 32 dsY }).withSeeds
    { s.seeds with seedIndex := BitVec.ofNat 32 seed }

/-! ### Commands -/

/-- PLANE_GEOM (42_mesh R311). -/
def cmdPlaneGeom (p : Plane) : Cmd Unit :=
  frameCheck.seq <|
  Cmd.update geomRegs fun s =>
    s.withBlock 0 (s.cfg.planeW p) 0 (s.cfg.planeH p) (s.cfg.planeW p) (s.cfg.planeH p)
      (s.cfg.seedNumber p 0 0)

/-- BLOCK_GEOM (42_mesh R312). -/
def cmdBlockGeom (p : Plane) (bx row : Nat) : Cmd Unit :=
  frameCheck.seq <|
  (Cmd.require (fun s => decide (bx < s.cfg.blocksW) && decide (row < s.cfg.blocksH)) .config).seq <|
  (Cmd.read State.cfg).bind fun c =>
  (blockSides bx row (c.boundX p (bx + 1) - c.boundX p bx)
    (c.boundY p (row + 1) - c.boundY p row)).bind fun ds =>
  Cmd.update geomRegs fun s =>
    s.withBlock (c.boundX p bx) (c.boundX p (bx + 1)) (c.boundY p row) (c.boundY p (row + 1))
      ds.1 ds.2 (c.seedNumber p bx row)

/-- The mesh corners in corner-raster order (42_mesh R313). -/
def FrameConfig.corners (c : FrameConfig) : List (Nat × Nat) :=
  raster (c.blocksW + 1) (c.blocksH + 1)

/-- One corner of MESH_READ: x first, then y (42_mesh R313). -/
def meshReadCorner (cx cy : Nat) : Cmd Unit :=
  (readBits 3).bind fun xc =>
  (readBits 3).bind fun yc =>
  if xc > 5 ∨ yc > 5 then Cmd.raise .malformedHeader
  else
    (Cmd.read fun s => s.meshAddr cx cy).bind fun a =>
    memWrite a (BitVec.ofNat 8 (8 * yc + xc))

/-- MESH_READ (42_mesh R313). -/
def cmdMeshRead : Cmd Unit :=
  frameCheck.seq <|
  (Cmd.read fun s => s.cfg.corners).bind fun l =>
  Cmd.forEach l fun k => meshReadCorner k.1 k.2

/-- One corner of MESH_WRITE (42_mesh R314). -/
def meshWriteCorner (cx cy : Nat) : Cmd Unit :=
  (readCorner cx cy).bind fun m =>
  (writeBits (meshX m) 3).seq (writeBits (meshY m) 3)

/-- MESH_WRITE (42_mesh R314). -/
def cmdMeshWrite : Cmd Unit :=
  frameCheck.seq <|
  (Cmd.read fun s => s.cfg.corners).bind fun l =>
  Cmd.forEach l fun k => meshWriteCorner k.1 k.2

/-- The meaning of PLANE_GEOM. -/
def execPlaneGeom (plane : BitVec 2) (s : State) : Host.Outcome State Fault Refusal :=
  runCommand (withPlane plane cmdPlaneGeom) s
/-- The meaning of BLOCK_GEOM. -/
def execBlockGeom (plane : BitVec 2) (bx row : BitVec 8) (s : State) :
    Host.Outcome State Fault Refusal :=
  runCommand (withPlane plane fun p => cmdBlockGeom p bx.toNat row.toNat) s
/-- The meaning of MESH_READ. -/
def execMeshRead (s : State) : Host.Outcome State Fault Refusal := runCommand cmdMeshRead s
/-- The meaning of MESH_WRITE. -/
def execMeshWrite (s : State) : Host.Outcome State Fault Refusal := runCommand cmdMeshWrite s

end Sys2Proof.Machine
end

