-- ==== Sys2Proof/Machine/Huffman.lean ====
section
/-! DEFINITION. HuffmanCoder (43_huffman): validity, canonical codes, lengths from counts, symbol
decoding and encoding, and the eleven HUFF_ commands. -/

namespace Sys2Proof.Machine

/-! ### Priority, live entries, validity (43_huffman R351 to R353) -/

/-- `PRIO`: the null hop, then +1, −1, +2, −2, +3, −3, +4, −4 (43_huffman R351). -/
def prio : List Hop := [4, 5, 3, 6, 2, 7, 1, 8, 0]

/-- `rank(h)`, the position of `h` in PRIO (43_huffman R351). -/
def rank (h : Hop) : Nat := prio.idxOf h

/-- The symbol has a code: its length is not 15 (43_huffman R352). -/
def liveLen (len : BitVec 4) : Bool := len != Config.unusedLen

/-- What a length adds to the Kraft sum, scaled by 2^14 (43_huffman R353). -/
def kraftTerm (len : BitVec 4) : Nat := if liveLen len then 2 ^ (14 - len.toNat) else 0

/-- `Σ over live i of 2^(14 − LEN[i])` (43_huffman R353). -/
def kraftSum (l : Nine (BitVec 4)) : Nat := (allHops.map fun h => kraftTerm (l.get h)).sum

/-- The three validity conditions (43_huffman R353). -/
def lensValid (l : Nine (BitVec 4)) : Bool :=
  (allHops.any fun h => liveLen (l.get h)) &&
  (allHops.all fun h => !liveLen (l.get h) || decide (1 ≤ (l.get h).toNat ∧ (l.get h).toNat ≤ 14)) &&
  decide (kraftSum l ≤ 2 ^ 14)

/-! ### Canonical codes (43_huffman R354) -/

/-- The live symbols by (length, rank): for each length in turn, the symbols of that length in
priority order. -/
def codeOrder (l : Nine (BitVec 4)) : List Hop :=
  (List.range 15).flatMap fun n => prio.filter fun h => (l.get h).toNat == n

/-- The recurrence from a code of length `prev` on: each later symbol gets
`(code + 1) << (LEN − prev)`. -/
def assignFrom (l : Nine (BitVec 4)) (code prev : Nat) (codes : Nine (BitVec 14)) :
    List Hop → Nine (BitVec 14)
  | [] => codes
  | h :: rest =>
    let c := (code + 1) <<< ((l.get h).toNat - prev)
    assignFrom l c (l.get h).toNat (codes.set h (BitVec.ofNat 14 c)) rest

/-- `AssignCodes`: the first symbol gets 0; a symbol that is not live gets 0 (43_huffman R354). -/
def assignCodes (l : Nine (BitVec 4)) : Nine (BitVec 14) :=
  match codeOrder l with
  | [] => Nine.all 0
  | h :: rest => assignFrom l 0 (l.get h).toNat (Nine.all 0) rest

/-! ### Lengths from counts (43_huffman R360) -/

/-- A subtree: its weight, its key (the least rank of its leaves) and its leaves. -/
structure HuffNode where
  weight : Nat
  key : Nat
  leaves : List Hop
deriving DecidableEq, Repr

/-- Order by (weight, key). -/
def HuffNode.less (a b : HuffNode) : Bool :=
  a.weight < b.weight || (a.weight == b.weight && a.key < b.key)

/-- Take the least node out of `a :: l`: the least node, and the others. -/
def takeLeast : HuffNode → List HuffNode → HuffNode × List HuffNode
  | a, [] => (a, [])
  | a, b :: l =>
    let r := takeLeast b l
    if a.less r.1 then (a, r.1 :: r.2) else (r.1, a :: r.2)

/-- Every leaf one deeper. -/
def deepen (leaves : List Hop) (d : Nine Nat) : Nine Nat :=
  leaves.foldl (fun d h => d.set h (d.get h + 1)) d

/-- Merge the two least nodes until one is left, at most `n` times; the depths reached. -/
def mergeNodes : Nat → List HuffNode → Nine Nat → Nine Nat
  | n + 1, x :: y :: l, d =>
    let ra := takeLeast x (y :: l)
    match ra.2 with
    | [] => d
    | z :: l' =>
      let rb := takeLeast z l'
      mergeNodes n
        ({ weight := ra.1.weight + rb.1.weight, key := min ra.1.key rb.1.key,
           leaves := ra.1.leaves ++ rb.1.leaves } :: rb.2)
        (deepen (ra.1.leaves ++ rb.1.leaves) d)
  | _, _, d => d

/-- The symbols with a count above 0. -/
def usedHops (c : Nine Word) : List Hop := allHops.filter fun h => c.get h != 0

/-- The leaf nodes of the used symbols. -/
def leafNodes (c : Nine Word) : List HuffNode :=
  (usedHops c).map fun h => { weight := (c.get h).toNat, key := rank h, leaves := [h] }

/-- `HuffLengths(C)` (43_huffman R360). -/
def huffLengths (c : Nine Word) : Nine (BitVec 4) :=
  match usedHops c with
  | [] => Nine.all Config.unusedLen
  | [h] => (Nine.all Config.unusedLen).set h 1
  | used =>
    let depths := mergeNodes used.length (leafNodes c) (Nine.all 0)
    used.foldl (fun l h => l.set h (BitVec.ofNat 4 (depths.get h))) (Nine.all Config.unusedLen)

/-! ### One symbol (43_huffman R361, R363) -/

/-- The longest live length. -/
def maxLen (l : Nine (BitVec 4)) : Nat :=
  allHops.foldl (fun m h => if liveLen (l.get h) then max m (l.get h).toNat else m) 0

/-- The live symbol, in priority order, whose length is `n` and whose code is `acc`. -/
def matchCode (t : HuffTable) (acc n : Nat) : Option Hop :=
  prio.find? fun h =>
    liveLen (t.len.get h) && (t.len.get h).toNat == n && (t.code.get h).toNat == acc

/-- The loop of `DecodeSymbol`, with `left` bits to go before the longest length: `acc` holds the
`n` bits read so far. -/
def decodeFrom (t : HuffTable) : Nat → Nat → Nat → Cmd Hop
  | 0, _, _ => Cmd.raise .huffNoMatch
  | left + 1, acc, n =>
    readBit.bind fun b =>
    match matchCode t (2 * acc + b.toNat) (n + 1) with
    | some h => Cmd.pure h
    | none => decodeFrom t left (2 * acc + b.toNat) (n + 1)

/-- `DecodeSymbol(t)` (43_huffman R361). At least one bit is read (assumption log 16). -/
def decodeSymbol (t : Tbl) : Cmd Hop :=
  (Cmd.read fun s => s.table t).bind fun h => decodeFrom h (max 1 (maxLen h.len)) 0 0

/-- `EncodeSymbol(t, h)` (43_huffman R363). -/
def encodeSymbol (t : Tbl) (n : Nat) : Cmd Unit :=
  (needHop n).bind fun h =>
  (Cmd.read fun s => s.table t).bind fun tb =>
  if tb.len.get h = Config.unusedLen then Cmd.raise .huffInvalid
  else writeBits (tb.code.get h).toNat (tb.len.get h).toNat

/-- `if HUFF_VALID_t = 0: raise E_HUFF_INVALID` -/
def needHuff (t : Tbl) : Cmd Unit := Cmd.require (fun s => (s.table t).valid) .huffInvalid

/-! ### Table updates -/

/-- `HUFF_VALID_t <- v` -/
def State.withHuffValid (s : State) (t : Tbl) (v : Bool) : State :=
  s.withTable t { s.table t with valid := v }

/-- `LEN[t][i] <- v` -/
def State.withLen (s : State) (t : Tbl) (i : Hop) (v : BitVec 4) : State :=
  s.withTable t { s.table t with len := (s.table t).len.set i v }

/-- `LEN[t][0..8] <- l` -/
def State.withLens (s : State) (t : Tbl) (l : Nine (BitVec 4)) : State :=
  s.withTable t { s.table t with len := l }

/-- `COUNT[t][i] <- (COUNT[t][i] + 1) mod 2^32` (43_huffman R358) -/
def State.countHop (s : State) (t : Tbl) (i : Hop) : State :=
  s.withTable t { s.table t with count := (s.table t).count.set i ((s.table t).count.get i + 1) }

/-! ### Commands -/

/-- HUFF_BUILD (43_huffman R356). -/
def cmdHuffBuild (t : Tbl) : Cmd Unit :=
  (Cmd.read fun s => lensValid (s.table t).len).bind fun ok =>
  if ok then
    (Cmd.update (codeRegs t) fun s =>
      s.withTable t { s.table t with code := assignCodes (s.table t).len }).seq <|
    Cmd.update (codeRegs t) fun s => s.withHuffValid t true
  else
    (Cmd.update (codeRegs t) fun s =>
      s.withTable t { s.table t with valid := false, code := Nine.all 0 }).seq <|
    Cmd.raise .huffInvalid

/-- HUFF_READ_HDR (43_huffman R365). -/
def cmdHuffReadHdr (t : Tbl) : Cmd Unit :=
  (Cmd.update (codeRegs t) fun s => s.withHuffValid t false).seq <|
  (Cmd.forEach allHops fun i =>
    (readBits 4).bind fun v =>
    Cmd.update [lenReg t i, .huffCode t i] fun s => s.withLen t i (BitVec.ofNat 4 v)).seq <|
  cmdHuffBuild t

/-- HUFF_WRITE_HDR (43_huffman R366). -/
def cmdHuffWriteHdr (t : Tbl) : Cmd Unit :=
  (needHuff t).seq <|
  (Cmd.read fun s => (s.table t).len).bind fun l =>
  Cmd.forEach allHops fun i => writeBits (l.get i).toNat 4

/-- HUFF_CLEAR_COUNTS (43_huffman R357). -/
def cmdHuffClearCounts (t : Tbl) : Cmd Unit :=
  Cmd.update (countRegs t) fun s => s.withTable t { s.table t with count := Nine.all 0 }

/-- HUFF_COUNT_SYM (43_huffman R358). -/
def cmdHuffCountSym (t : Tbl) (sym : Nat) : Cmd Unit :=
  (needHop sym).bind fun h => Cmd.update [.huffCount t h] fun s => s.countHop t h

/-- The absolute plane coordinates of the region's pixels in raster order. -/
def Region.pixels (r : Region) : List (Nat × Nat) :=
  (raster r.w.toNat r.h.toNat).map fun q => (r.x0.toNat + q.1, r.y0.toNat + q.2)

/-- HUFF_COUNT_REGION (43_huffman R359). -/
def cmdHuffCountRegion (p : Plane) : Cmd Unit :=
  (regionCheck p).seq <|
  (Cmd.read fun s => s.region.pixels).bind fun l =>
  Cmd.forEach l fun q =>
    (Cmd.read fun s => s.hopAddr p q.1 q.2).bind fun a =>
    (memRead a).bind fun b =>
    (needHop b.toNat).bind fun h =>
    Cmd.update [.huffCount p.tbl h] fun s => s.countHop p.tbl h

/-- HUFF_FROM_COUNTS (43_huffman R367). -/
def cmdHuffFromCounts (t : Tbl) : Cmd Unit :=
  (Cmd.update (codeRegs t) fun s => s.withHuffValid t false).seq <|
  (Cmd.update (lenRegs t) fun s => s.withLens t (huffLengths (s.table t).count)).seq <|
  cmdHuffBuild t

/-- HUFF_DEC_SYM (43_huffman R362). -/
def cmdHuffDecSym (t : Tbl) : Cmd Unit :=
  (needHuff t).seq <|
  (decodeSymbol t).bind fun h =>
  Cmd.update [.huffSym] fun s => s.withHuffSym (BitVec.ofNat 4 h.val)

/-- HUFF_ENC_SYM (43_huffman R364). -/
def cmdHuffEncSym (t : Tbl) (sym : Nat) : Cmd Unit := (needHuff t).seq (encodeSymbol t sym)

/-- HUFF_DEC_REGION (43_huffman R368). -/
def cmdHuffDecRegion (p : Plane) : Cmd Unit :=
  (needHuff p.tbl).seq <|
  (regionCheck p).seq <|
  (Cmd.read fun s => s.region.pixels).bind fun l =>
  Cmd.forEach l fun q =>
    (decodeSymbol p.tbl).bind fun h =>
    (Cmd.read fun s => s.hopAddr p q.1 q.2).bind fun a =>
    memWrite a (BitVec.ofNat 8 h.val)

/-- HUFF_ENC_REGION (43_huffman R369). -/
def cmdHuffEncRegion (p : Plane) : Cmd Unit :=
  (needHuff p.tbl).seq <|
  (regionCheck p).seq <|
  (Cmd.read fun s => s.region.pixels).bind fun l =>
  Cmd.forEach l fun q =>
    (Cmd.read fun s => s.hopAddr p q.1 q.2).bind fun a =>
    (memRead a).bind fun b => encodeSymbol p.tbl b.toNat

/-- The meaning of HUFF_BUILD. -/
def execHuffBuild (t : Tbl) (s : State) : Host.Outcome State Fault Refusal :=
  runCommand (cmdHuffBuild t) s
/-- The meaning of HUFF_READ_HDR. -/
def execHuffReadHdr (t : Tbl) (s : State) : Host.Outcome State Fault Refusal :=
  runCommand (cmdHuffReadHdr t) s
/-- The meaning of HUFF_WRITE_HDR. -/
def execHuffWriteHdr (t : Tbl) (s : State) : Host.Outcome State Fault Refusal :=
  runCommand (cmdHuffWriteHdr t) s
/-- The meaning of HUFF_CLEAR_COUNTS. -/
def execHuffClearCounts (t : Tbl) (s : State) : Host.Outcome State Fault Refusal :=
  runCommand (cmdHuffClearCounts t) s
/-- The meaning of HUFF_COUNT_SYM. -/
def execHuffCountSym (t : Tbl) (sym : BitVec 4) (s : State) : Host.Outcome State Fault Refusal :=
  runCommand (cmdHuffCountSym t sym.toNat) s
/-- The meaning of HUFF_COUNT_REGION. -/
def execHuffCountRegion (plane : BitVec 2) (s : State) : Host.Outcome State Fault Refusal :=
  runCommand (withPlane plane cmdHuffCountRegion) s
/-- The meaning of HUFF_FROM_COUNTS. -/
def execHuffFromCounts (t : Tbl) (s : State) : Host.Outcome State Fault Refusal :=
  runCommand (cmdHuffFromCounts t) s
/-- The meaning of HUFF_DEC_SYM. -/
def execHuffDecSym (t : Tbl) (s : State) : Host.Outcome State Fault Refusal :=
  runCommand (cmdHuffDecSym t) s
/-- The meaning of HUFF_ENC_SYM. -/
def execHuffEncSym (t : Tbl) (sym : BitVec 4) (s : State) : Host.Outcome State Fault Refusal :=
  runCommand (cmdHuffEncSym t sym.toNat) s
/-- The meaning of HUFF_DEC_REGION. -/
def execHuffDecRegion (plane : BitVec 2) (s : State) : Host.Outcome State Fault Refusal :=
  runCommand (withPlane plane cmdHuffDecRegion) s
/-- The meaning of HUFF_ENC_REGION. -/
def execHuffEncRegion (plane : BitVec 2) (s : State) : Host.Outcome State Fault Refusal :=
  runCommand (withPlane plane cmdHuffEncRegion) s

end Sys2Proof.Machine
end

