-- ==== Sys2Proof/Machine/Tables.lean ====
section
/-! DEFINITION. PrecomputedTables (40_tables): the two table functions in exact arithmetic, and the
commands BUILD_TABLES, LUT_READ_REC and LUT_READ_BEST. -/

namespace Sys2Proof.Machine

/-! ### The table functions -/

/-- Try the bits of the root from `b − 1` down, keeping those that leave the cube at most `n`. -/
def icbrtBits : Nat → Nat → Nat → Nat
  | 0, _, c => c
  | b + 1, n, c => icbrtBits b n (if (c + 2 ^ b) ^ 3 ≤ n then c + 2 ^ b else c)

/-- `icbrt(n)`, the largest c with c³ ≤ n (40_tables R203). -/
def icbrt (n : Nat) : Nat := icbrtBits (n.log2 / 3 + 1) n 0

/-- `M` for ratio `r`, step `s`, exponent `k` and headroom `d` (40_tables R203):
`floor(s · f^k)` with `f = min(r/10, max(1, (4d/5s)^(1/3)))`, in exact integer arithmetic. -/
def magnitude (r s k d : Nat) : Nat :=
  if k = 0 then s
  else min (s * r ^ k / 10 ^ k) (max s (icbrt (s ^ 3 * (4 * d) ^ k / (5 * s) ^ k)))

/-- `clamp(v, 1, 255)` (40_tables R205). -/
def clampPixel (v : Nat) : Nat := max 1 (min 255 v)

/-- `REC(p, r, s, h)` (40_tables R201, R204, R206). A difference below 0 clamps to 1 just as 0
does, so subtraction on the naturals serves. -/
def recValue (p r s : Nat) (h : Hop) : Nat :=
  if h.val = 4 then clampPixel p
  else if 4 < h.val then clampPixel (p + magnitude r s (h.val - 5) (255 - p))
  else clampPixel (p - magnitude r s (3 - h.val) p)

/-- `|a − b|`. -/
def absDiff (a b : Nat) : Nat := (a - b) + (b - a)

/-- What `BEST` minimises, lexicographically (40_tables R208): the distance from the original, then
the hop magnitude. -/
def bestKey (r s o p : Nat) (h : Hop) : Nat × Nat := (absDiff (recValue p r s h) o, absDiff h.val 4)

/-- Lexicographic order of the keys. -/
def keyLess (a b : Nat × Nat) : Bool := a.1 < b.1 || (a.1 == b.1 && a.2 < b.2)

/-- `BEST(r, s, o, p)` (40_tables R208). -/
def bestHop (r s o p : Nat) : Hop :=
  allHops.foldl
    (fun acc h => if keyLess (bestKey r s o p h) (bestKey r s o p acc) then h else acc)
    Config.nullHop

/-! ### The table memories (10_state R60) -/

/-- `RECON[p][r][s][h]`. -/
def LutMem.recon (l : LutMem) (p r s : Nat) (h : Hop) : Byte :=
  match l with
  | .built => BitVec.ofNat 8 (recValue p r s h)
  | .unspecified => Config.unbuiltRecon p r s h.val

/-- `BESTHOP[r][s][o][p]`. -/
def LutMem.best (l : LutMem) (r s o p : Nat) : Hop :=
  match l with
  | .built => bestHop r s o p
  | .unspecified => Config.unbuiltBest r s o p

/-- `if TABLES_VALID = 0: raise E_SEQUENCE` -/
def needTables : Cmd Unit := Cmd.require State.tablesValid .sequence

/-- The table arguments R and S are in the tables' domain (40_tables R200). -/
def LutPort.inDomain (l : LutPort) : Bool :=
  decide (Config.ratioMin ≤ l.r.toNat) && decide (l.r.toNat ≤ Config.ratioMax) &&
    decide (Config.tstepMin ≤ l.s.toNat) && decide (l.s.toNat ≤ Config.tstepMax)

/-! ### Commands -/

/-- BUILD_TABLES (40_tables R210): both memories, then TABLES_VALID. -/
def cmdBuildTables : Cmd Unit :=
  (Cmd.update [] fun s => s.withLuts .built).seq <|
  Cmd.update [] fun s => s.withTablesValid true

/-- LUT_READ_REC (40_tables R211). -/
def cmdLutReadRec : Cmd Unit :=
  needTables.seq <|
  (Cmd.require (fun s => s.lut.inDomain) .config).seq <|
  (Cmd.read fun s => hopOfNat s.lut.x.toNat).bind fun x =>
  match x with
  | none => Cmd.raise .config
  | some h => Cmd.update [.lutResult] fun s =>
      s.withLut { s.lut with
        result := s.luts.recon s.lut.p.toNat s.lut.r.toNat s.lut.s.toNat h }

/-- LUT_READ_BEST (40_tables R212). -/
def cmdLutReadBest : Cmd Unit :=
  needTables.seq <|
  (Cmd.require (fun s => s.lut.inDomain) .config).seq <|
  Cmd.update [.lutResult] fun s =>
    s.withLut { s.lut with
      result := BitVec.ofNat 8
        (s.luts.best s.lut.r.toNat s.lut.s.toNat s.lut.x.toNat s.lut.p.toNat).val }

/-- The meaning of BUILD_TABLES. -/
def execBuildTables (s : State) : Host.Outcome State Fault Refusal := runCommand cmdBuildTables s
/-- The meaning of LUT_READ_REC. -/
def execLutReadRec (s : State) : Host.Outcome State Fault Refusal := runCommand cmdLutReadRec s
/-- The meaning of LUT_READ_BEST. -/
def execLutReadBest (s : State) : Host.Outcome State Fault Refusal := runCommand cmdLutReadBest s

end Sys2Proof.Machine
end

