-- ==== Sys2Proof/Machine/Predictor.lean ====
section
/-! DEFINITION. HopPredictor (41_predictor): the per-pixel rules and the commands HOP_BEGIN_DEC,
HOP_BEGIN_ENC, HOP_STEP, HOP_DEC_REGION and HOP_ENC_REGION. -/

namespace Sys2Proof.Machine

/-! ### Per-pixel rules -/

/-- The position classes (41_predictor R251). -/
inductive PixelClass where
  | topLeft
  | firstRow
  | firstCol
  | lastCol
  | interior
deriving DecidableEq, Repr

/-- `Class(i, j)` in a region `w` wide, tested in the table's order (41_predictor R251). -/
def pixelClass (w i j : Nat) : PixelClass :=
  if i = 0 ∧ j = 0 then .topLeft
  else if j = 0 then .firstRow
  else if i = 0 then .firstCol
  else if i = w - 1 then .lastCol
  else .interior

/-- `floor((a + b) / 2)` -/
def average (a b : Byte) : Byte := BitVec.ofNat 8 ((a.toNat + b.toNat) / 2)

/-- `AVG2` or `W43`, as CTRL.INTERIOR_VARIANT selects (41_predictor R254). -/
def interiorPred (w43 : Bool) (left upRight : Byte) : Byte :=
  if w43 then BitVec.ofNat 8 ((4 * left.toNat + 3 * upRight.toNat) / 7) else average left upRight

/-- The HopState a pixel of class `c` uses for its own lookup: a first-column pixel resets it first
(41_predictor R252). -/
def pixelHopState (c : PixelClass) (step : Nat) (last : Bool) : Nat × Bool :=
  if c = .firstCol then (Config.startStep, false) else (step, last)

/-- The reconstructed pixel at absolute coordinates: `D(x, y)` (41_predictor R253). -/
def readDst (p : Plane) (x y : Nat) : Cmd Byte :=
  (Cmd.read fun s => s.dstAddr p x y).bind memRead

/-- The predicted value, with its neighbour reads in the order listed (41_predictor R253). -/
def predict (p : Plane) (c : PixelClass) (ax ay : Nat) : Cmd Byte :=
  match c with
  | .topLeft => Cmd.read fun s => s.seeds.seed
  | .firstRow => readDst p (ax - 1) ay
  | .firstCol => readDst p ax (ay - 1)
  | .lastCol =>
    (readDst p (ax - 1) ay).bind fun l =>
    (readDst p ax (ay - 1)).bind fun u =>
    Cmd.pure (average l u)
  | .interior =>
    (readDst p (ax - 1) ay).bind fun l =>
    (readDst p (ax + 1) (ay - 1)).bind fun u =>
    Cmd.read fun s => interiorPred s.ctrl.interiorVariant l u

/-- The hop of a pixel and its original: read from the hop buffer when decoding (41_predictor R257),
chosen by BESTHOP and written there when encoding (R258). -/
def pixelHop (p : Plane) (d : Dir) (ax ay step : Nat) (pred : Byte) : Cmd (Hop × Byte) :=
  match d with
  | .decode =>
    (Cmd.read fun s => s.hopAddr p ax ay).bind fun a =>
    (memRead a).bind fun b =>
    (needHop b.toNat).bind fun h =>
    Cmd.pure (h, 0)
  | .encode =>
    (Cmd.read fun s => s.srcAddr p ax ay).bind fun a =>
    (memRead a).bind fun o =>
    (Cmd.read fun s => s.luts.best s.cfg.ratio.toNat step o.toNat pred.toNat).bind fun h =>
    (Cmd.read fun s => s.hopAddr p ax ay).bind fun ha =>
    (memWrite ha (BitVec.ofNat 8 h.val)).seq <|
    Cmd.pure (h, o)

/-- The pixel's value: the seed at the top left, the table's elsewhere (41_predictor R255, assumption log
26). -/
def State.pixelValue (s : State) (c : PixelClass) (pred : Byte) (step : Nat) (h : Hop) : Byte :=
  if c = .topLeft then s.seeds.seed else s.luts.recon pred.toNat s.cfg.ratio.toNat step h

/-- The cursor one pixel further in raster order; the scan ends after the last pixel
(41_predictor R265). -/
def Scan.advance (c : Scan) (r : Region) : Scan :=
  if c.x.toNat + 1 = r.w.toNat then
    { c with x := 0, y := c.y + 1, active := c.active && decide (c.y.toNat + 1 ≠ r.h.toNat) }
  else { c with x := c.x + 1 }

/-- HOPSTATE becomes the given step and flag (41_predictor R256). -/
def Scan.withHopState (c : Scan) (hs : Nat × Bool) : Scan :=
  { c with step := BitVec.ofNat 5 hs.1, lastSmall := hs.2 }

/-! ### Commands -/

/-- The scan registers at the beginning of a scan (41_predictor R263, R264). -/
def Scan.start (d : Dir) (p : Plane) : Scan :=
  { x := 0, y := 0, step := BitVec.ofNat 5 Config.startStep, lastSmall := false, active := true,
    dir := d, plane := p }

/-- HOP_BEGIN_DEC (41_predictor R263). -/
def cmdHopBeginDec (p : Plane) : Cmd Unit :=
  needTables.seq <|
  (regionCheck p).seq <|
  (Cmd.read State.seedAddr).bind fun a =>
  (memRead a).bind fun v =>
  (Cmd.update [.seed] fun s => s.withSeeds { s.seeds with seed := v }).seq <|
  Cmd.update [.scanX, .scanY, .hopState] fun s => s.withScan (Scan.start .decode p)

/-- HOP_BEGIN_ENC (41_predictor R264). -/
def cmdHopBeginEnc (p : Plane) : Cmd Unit :=
  needTables.seq <|
  (regionCheck p).seq <|
  (Cmd.read fun s => s.srcAddr p s.region.x0.toNat s.region.y0.toNat).bind fun a =>
  (memRead a).bind fun v =>
  (Cmd.update [.seed] fun s => s.withSeeds { s.seeds with seed := v }).seq <|
  (Cmd.read State.seedAddr).bind fun b =>
  (memWrite b v).seq <|
  Cmd.update [.scanX, .scanY, .hopState] fun s => s.withScan (Scan.start .encode p)

/-- `if STATUS.SCAN_ACTIVE = 0: raise E_SEQUENCE` -/
def needScan : Cmd Unit := Cmd.require (fun s => s.scan.active) .sequence

/-- The cursor lies in the region, or E_CONFIG (41_predictor R265). -/
def needCursor : Cmd Unit :=
  Cmd.require
    (fun s => decide (s.scan.x.toNat < s.region.w.toNat) && decide (s.scan.y.toNat < s.region.h.toNat))
    .config

/-- The pixel at the cursor (41_predictor R265, from `ax <- …` on). DEDUCED, unsafe (assumption log 26):
the seed is the register SEED that the scan's begin loaded (R265, 10_state R46, R62); the seed slot, which
70_reset R709 lets the host change between HOP_STEPs, is then behind the scan, since only its first step is
at the seed (seed_slot_between_steps). -/
def stepPixel : Cmd Unit :=
  (Cmd.read id).bind fun s =>
  let p := s.scan.plane
  let i := s.scan.x.toNat
  let j := s.scan.y.toNat
  let ax := s.region.x0.toNat + i
  let ay := s.region.y0.toNat + j
  let c := pixelClass s.region.w.toNat i j
  let hs := pixelHopState c s.scan.step.toNat s.scan.lastSmall
  (predict p c ax ay).bind fun pred =>
  (pixelHop p s.scan.dir ax ay hs.1 pred).bind fun ho =>
  (Cmd.read fun s => s.pixelValue c pred hs.1 ho.1).bind fun value =>
  (Cmd.read fun s => s.dstAddr p ax ay).bind fun a =>
  (memWrite a value).seq <|
  (Cmd.update [.lastPix] fun s => s.withLastPix
    { pred := pred, value := value, hop := BitVec.ofNat 4 ho.1.val, orig := ho.2 }).seq <|
  (Cmd.update [.hopState] fun s => s.withScan (s.scan.withHopState (adapt hs.1 hs.2 ho.1))).seq <|
  Cmd.update [.scanX, .scanY] fun s => s.withScan (s.scan.advance s.region)

/-- HOP_STEP (41_predictor R265). -/
def cmdHopStep : Cmd Unit :=
  needScan.seq <|
  needTables.seq <|
  (Cmd.read fun s => s.scan.plane).bind fun p =>
  (regionCheck p).seq <|
  needCursor.seq stepPixel

/-- `while STATUS.SCAN_ACTIVE = 1: HOP_STEP`, for at most `n` steps. -/
def scanLoop : Nat → Cmd Unit
  | 0 => Cmd.pure ()
  | n + 1 =>
    (Cmd.read fun s => s.scan.active).bind fun a =>
    if a then cmdHopStep.seq (scanLoop n) else Cmd.pure ()

/-- A scan of the region ends after its W·H pixels (70_reset R712, assumption log 24). -/
def scanRegion : Cmd Unit :=
  (Cmd.read State.region).bind fun r => scanLoop (r.w.toNat * r.h.toNat)

/-- HOP_DEC_REGION (41_predictor R266). -/
def cmdHopDecRegion (p : Plane) : Cmd Unit := (cmdHopBeginDec p).seq scanRegion

/-- HOP_ENC_REGION (41_predictor R267). -/
def cmdHopEncRegion (p : Plane) : Cmd Unit := (cmdHopBeginEnc p).seq scanRegion

/-- The meaning of HOP_BEGIN_DEC. -/
def execHopBeginDec (plane : BitVec 2) (s : State) : Host.Outcome State Fault Refusal :=
  runCommand (withPlane plane cmdHopBeginDec) s
/-- The meaning of HOP_BEGIN_ENC. -/
def execHopBeginEnc (plane : BitVec 2) (s : State) : Host.Outcome State Fault Refusal :=
  runCommand (withPlane plane cmdHopBeginEnc) s
/-- The meaning of HOP_STEP. -/
def execHopStep (s : State) : Host.Outcome State Fault Refusal := runCommand cmdHopStep s
/-- The meaning of HOP_DEC_REGION. -/
def execHopDecRegion (plane : BitVec 2) (s : State) : Host.Outcome State Fault Refusal :=
  runCommand (withPlane plane cmdHopDecRegion) s
/-- The meaning of HOP_ENC_REGION. -/
def execHopEncRegion (plane : BitVec 2) (s : State) : Host.Outcome State Fault Refusal :=
  runCommand (withPlane plane cmdHopEncRegion) s

end Sys2Proof.Machine
end

