-- ==== Sys2Proof/Machine/Frame.lean ====
section
/-! DEFINITION. FrameCodec (44_frame): the header, seed and housekeeping commands, the two frame
macros, and what a failed frame leaves when several workers run (44_frame R420). -/

namespace Sys2Proof.Machine

/-! ### Housekeeping and header -/

/-- NOP (44_frame R411). -/
def cmdNop : Cmd Unit := Cmd.pure ()

/-- CHECK_CONFIG (44_frame R412). -/
def cmdCheckConfig : Cmd Unit := frameCheck

/-- Four 8-bit fields, the least significant byte first (44_frame R405). -/
def readLe32 : Cmd Nat :=
  (readBits 8).bind fun b0 =>
  (readBits 8).bind fun b1 =>
  (readBits 8).bind fun b2 =>
  (readBits 8).bind fun b3 =>
  Cmd.pure (b0 + 2 ^ 8 * b1 + 2 ^ 16 * b2 + 2 ^ 24 * b3)

/-- Byte `k` of a word, 0 the least significant. -/
def byteOf (w : Word) (k : Nat) : Nat := w.toNat / 2 ^ (8 * k) % 256

/-- A word as four 8-bit fields, the least significant byte first (44_frame R405). -/
def writeLe32 (w : Word) : Cmd Unit :=
  Cmd.forEach [0, 1, 2, 3] fun k => writeBits (byteOf w k) 8

/-- The registers HDR_READ loads (44_frame R413). -/
def State.withHeader (s : State) (m w h gw gh : Nat) : State :=
  s.withCfg { s.cfg with
    mode := BitVec.ofNat 8 m, width := BitVec.ofNat 32 w, height := BitVec.ofNat 32 h,
    gridW := BitVec.ofNat 8 gw, gridH := BitVec.ofNat 8 gh }

/-- HDR_READ (44_frame R413): all 88 bits first, then the registers, then the check. -/
def cmdHdrRead : Cmd Unit :=
  (readBits 8).bind fun m =>
  readLe32.bind fun w =>
  readLe32.bind fun h =>
  (readBits 8).bind fun gw =>
  (readBits 8).bind fun gh =>
  (Cmd.update [.mode, .width, .height, .grid] fun s => s.withHeader m w h gw gh).seq frameCheck

/-- HDR_WRITE (44_frame R414). -/
def cmdHdrWrite : Cmd Unit :=
  frameCheck.seq <|
  (Cmd.read State.cfg).bind fun c =>
  (writeBits c.mode.toNat 8).seq <|
  (writeLe32 c.width).seq <|
  (writeLe32 c.height).seq <|
  (writeBits c.gridW.toNat 8).seq (writeBits c.gridH.toNat 8)

/-- The number of seeds, `3·BW·BH` (44_frame R406). -/
def FrameConfig.seedCount (c : FrameConfig) : Nat := 3 * c.blocksW * c.blocksH

/-- SEEDS_READ (44_frame R415). -/
def cmdSeedsRead : Cmd Unit :=
  frameCheck.seq <|
  (Cmd.read fun s => s.cfg.seedCount).bind fun n =>
  Cmd.forEach (List.range n) fun i =>
    (readBits 8).bind fun v =>
    (Cmd.read fun s => s.seedSlot i).bind fun a =>
    memWrite a (BitVec.ofNat 8 v)

/-- SEEDS_WRITE (44_frame R416). -/
def cmdSeedsWrite : Cmd Unit :=
  frameCheck.seq <|
  (Cmd.read fun s => s.cfg.seedCount).bind fun n =>
  Cmd.forEach (List.range n) fun i =>
    (Cmd.read fun s => s.seedSlot i).bind fun a =>
    (memRead a).bind fun v => writeBits v.toNat 8

/-- The zero bits from a position to the next byte boundary (44_frame R417). -/
def padding (pos : Word) : Nat := (8 - pos.toNat % 8) % 8

/-- BW_FLUSH (44_frame R417). -/
def cmdBwFlush : Cmd Unit :=
  (Cmd.require
    (fun s => decide (s.writer.pos.toNat + padding s.writer.pos ≤ s.writer.limit.toNat))
    .outOverflow).seq <|
  (Cmd.read fun s => padding s.writer.pos).bind fun n => writeBits 0 n

/-! ### A failed frame with several workers (44_frame R420, assumption log 6) -/

/-- The bytes that a frame command which raises could read and could write, whatever order its workers
scan the blocks in. -/
structure Footprint where
  reads : List Word := []
  writes : List Word := []

/-- `n` addresses from `base` on. -/
def addrsFrom (base : Word) (n : Nat) : List Word :=
  (List.range n).map fun i => base + BitVec.ofNat 32 i

/-- The bytes of the bits that stand from bit `pos` of a stream on, at most `n` of them and none at or
past bit `bound`. -/
def bitBytes (base pos bound : Word) (n : Nat) : List Word :=
  let stop := min (pos.toNat + n) bound.toNat
  if pos.toNat < stop then addrsFrom (bitAddr base pos) ((stop - 1) / 8 - pos.toNat / 8 + 1) else []

/-- The seed array (44_frame R406). -/
def State.seedBytes (s : State) : List Word := addrsFrom s.seeds.seedBase s.cfg.seedCount

/-- The mesh array; a frame in a basic mode has none (44_frame R408). -/
def State.frameMeshBytes (s : State) : List Word :=
  if s.cfg.mode = 2 then addrsFrom s.seeds.meshBase s.cfg.cornerCount else []

/-- The pixels of plane `p` in regions of the given sides at the origins of its blocks (42_mesh
R315). -/
def FrameConfig.blockPixels (c : FrameConfig) (sides : Plane → Nat → Nat → Nat × Nat) (p : Plane) :
    List (Nat × Nat) :=
  (raster c.blocksW c.blocksH).flatMap fun b =>
    (raster (sides p b.1 b.2).1 (sides p b.1 b.2).2).map fun q =>
      (c.boundX p b.1 + q.1, c.boundY p b.2 + q.2)

/-- The bytes of a buffer at the given pixels of the three planes. -/
def pixelBytes (pixels : Plane → List (Nat × Nat)) (addr : Plane → Nat → Nat → Word) : List Word :=
  allPlanes.flatMap fun p => (pixels p).map fun q => addr p q.1 q.2

/-- The sides of the region a scan of block (bx, row) covers, by the mesh as it stands; of a block with
a corner code 6 or 7 no scan begins (42_mesh R312). -/
def State.scanSides (s : State) (p : Plane) (bx row : Nat) : Nat × Nat :=
  if s.cfg.mode = 2 ∧ ¬ (s.cornersOf bx row).legal then (0, 0) else s.blockSize p bx row

/-- The pixels that the scans of a frame cover. -/
def State.scanPixels (s : State) : Plane → List (Nat × Nat) := s.cfg.blockPixels s.scanSides

/-- The seed slots of the blocks that a frame scans (42_mesh R310). -/
def State.scanSlots (s : State) : List Word :=
  allPlanes.flatMap fun p =>
    ((raster s.cfg.blocksW s.cfg.blocksH).filter fun b => (s.scanSides p b.1 b.2).1 != 0).map fun b =>
      s.seedSlot (s.cfg.seedNumber p b.1 b.2)

/-- FRAME_DECODE, from the legal header `s` holds to the end of the mesh: the mesh being unread, a
block's region may be any part of the block. It adds no read to those of the sequential order (DESIGN
CHOICE, assumption log 6). -/
def State.decodeHeadFootprint (s : State) : Footprint :=
  let pixels := s.cfg.blockPixels fun p bx row => (s.cfg.blockW p bx, s.cfg.blockH p row)
  { writes := s.seedBytes ++ s.frameMeshBytes ++ pixelBytes pixels s.hopAddr ++
      pixelBytes pixels s.dstAddr }

/-- FRAME_DECODE, with everything up to the hop streams read: a code has at most 14 bits (43_huffman
R361). DESIGN CHOICE, safe (assumption log 6): the stream bytes that count as read are those of 14 bits a
hop from the start of the hop streams up to the budget, also past the failing bit, although 44_frame R420
keeps the streams in order. -/
def State.decodePlanesFootprint (s : State) : Footprint :=
  let hops := pixelBytes s.scanPixels s.hopAddr
  { reads := bitBytes s.reader.base s.reader.pos s.reader.budget (14 * hops.length)
    writes := s.seedBytes ++ s.frameMeshBytes ++ hops ++ pixelBytes s.scanPixels s.dstAddr }

/-- FRAME_ENCODE, from the frame check on: a code of a table made from counts has at most 8 bits
(43_huffman R360). The SRC bytes of the block regions and the mesh array count as read (DESIGN CHOICE,
assumption log 6). -/
def State.encodeFootprint (s : State) : Footprint :=
  let hops := pixelBytes s.scanPixels s.hopAddr
  { reads := pixelBytes s.scanPixels s.srcAddr ++ s.frameMeshBytes
    writes := s.scanSlots ++ hops ++ pixelBytes s.scanPixels s.dstAddr ++
      bitBytes s.writer.base s.writer.pos s.writer.limit
        (88 + 8 * s.cfg.seedCount + 72 + 6 * s.frameMeshBytes.length + 8 * hops.length) }

/-- These bytes at free values. -/
def freeBytes (draw : Nat) (m : Memory) (l : List Nat) : Memory :=
  l.foldl (fun m a => m.write a (Config.failedByte draw a)) m

/-- The registers that the inner steps of a frame command write, STATUS apart (44_frame R418, R419). -/
def frameRegs (d : Dir) : List Reg :=
  geomRegs ++ beginRegs ++ stepRegs ++ lenRegs .luma ++ lenRegs .chroma ++
  match d with
  | .decode => [.mode, .width, .height, .grid, .brPos]
  | .encode => .bwPos :: (countRegs .luma ++ countRegs .chroma)

/-- A table whose every field an inner step writes is at a free value; the counts only when
`counts`. The numbers are the registers' offsets (10_state R33). -/
def freeTable (draw lenLo codeBase countBase : Nat) (counts valid : Bool) (h : HuffTable) :
    HuffTable :=
  { len := Nine.ofFn fun i =>
      if i.val = 8 then (Config.failedReg draw (lenLo + 4)).extractLsb' 0 4
      else (Config.failedReg draw lenLo).extractLsb' (4 * i.val) 4
    code := Nine.ofFn fun i => (Config.failedReg draw (codeBase + 4 * i.val)).extractLsb' 0 14
    count := if counts then Nine.ofFn fun i => Config.failedReg draw (countBase + 4 * i.val)
      else h.count
    valid := valid }

/-- The registers of `frameRegs` and the flags that go with them, at free values. -/
def State.freeRegs (s : State) (d : Dir) (draw : Nat) : State :=
  let f := Config.failedReg draw
  let status := f 0x004
  let hopState := f 0x0A8
  let pix := f 0x0AC
  let s := s.withSeeds { s.seeds with seedIndex := f 0x038, seed := (f 0x03C).extractLsb' 0 8 }
  let s := s.withRegion { x0 := f 0x090, y0 := f 0x094, w := f 0x098, h := f 0x09C }
  let s := s.withScan
    { x := f 0x0A0, y := f 0x0A4, step := hopState.extractLsb' 0 5, lastSmall := hopState.getLsbD 8,
      active := status.getLsbD 4, dir := if status.getLsbD 5 then .encode else .decode,
      plane := (Plane.ofField (status.extractLsb' 6 2)).getD .luma }
  let s := s.withLastPix
    { pred := pix.extractLsb' 0 8, value := pix.extractLsb' 8 8, hop := pix.extractLsb' 16 4,
      orig := pix.extractLsb' 24 8 }
  let s := s.withGeom
    { xIni := f 0x0B0, xFin := f 0x0B4, yIni := f 0x0B8, yFin := f 0x0BC, dsX := f 0x0C0,
      dsY := f 0x0C4 }
  let s := s.withHuff
    { luma := freeTable draw 0x100 0x110 0x180 (d == .encode) (status.getLsbD 2) s.huff.luma
      chroma := freeTable draw 0x140 0x150 0x1C0 (d == .encode) (status.getLsbD 3) s.huff.chroma }
  match d with
  | .decode =>
    (s.withReader { s.reader with pos := f 0x078 }).withCfg
      { s.cfg with
        mode := (f 0x014).extractLsb' 0 8, width := f 0x018, height := f 0x01C,
        gridW := (f 0x020).extractLsb' 0 8, gridH := (f 0x020).extractLsb' 8 8 }
  | .encode => s.withWriter { s.writer with pos := f 0x088 }

/-- What a failed frame command leaves when N_WORKERS > 1: the bytes at these addresses and every
register its inner steps write at a free value (44_frame R420). -/
def State.failedFrame (s : State) (d : Dir) (bytes : List Nat) : State :=
  ((s.freeRegs d s.draws).withMem (freeBytes s.draws s.mem bytes)).withDraws (s.draws + 1)

/-- Some inner steps of a frame macro. With one worker a raise among them leaves the sequential prefix;
with several, free values in every byte that was written or could be. The error is that of the first
failing step either way (44_frame R420). What other workers could touch stands as a last action, so that
a host access to it while the command runs is a race (20_memory R121). -/
def withWorkers (d : Dir) (foot : State → Footprint) (c : Cmd Unit) : Cmd Unit := fun s =>
  match c s with
  | .ok a s' t => .ok a s' t
  | .raised e s' t =>
    if 1 < s'.plat.nWorkers then
      let bytes := t.flatMap Act.writes ++ (foot s).writes.map BitVec.toNat
      .raised e (s'.failedFrame d bytes)
        (t ++ [{ after := s', reads := (foot s).reads.map BitVec.toNat, writes := bytes,
                 regs := frameRegs d }])
    else .raised e s' t

/-! ### The frame macros -/

/-- `for (bx, by) in raster(BW, BH)` -/
def forBlocks (f : Nat → Nat → Cmd Unit) : Cmd Unit :=
  (Cmd.read fun s => raster s.cfg.blocksW s.cfg.blocksH).bind fun l =>
  Cmd.forEach l fun q => f q.1 q.2

/-- `x[MODE] = 2` -/
def isAdvanced (s : State) : Bool := s.cfg.mode == 2

/-- Branch on the mode at this point. -/
def byMode (advanced basic : Cmd Unit) : Cmd Unit :=
  (Cmd.read isAdvanced).bind fun a => if a then advanced else basic

/-- `for t in HUFF_HDR_ORDER` -/
def forHeaders (f : Tbl → Cmd Unit) : Cmd Unit :=
  (Cmd.read fun s => s.plat.hdrOrder.tables).bind fun l => Cmd.forEach l f

/-- One plane of FRAME_DECODE (44_frame R418). -/
def decodePlaneSteps (p : Plane) : Cmd Unit :=
  byMode
    (forBlocks fun bx row =>
      (cmdBlockGeom p bx row).seq <| (cmdHuffDecRegion p).seq (cmdHopDecRegion p))
    ((cmdPlaneGeom p).seq <|
     (cmdHuffDecRegion p).seq <|
     forBlocks fun bx row => (cmdBlockGeom p bx row).seq (cmdHopDecRegion p))

/-- FRAME_DECODE after the header, up to the hop streams (44_frame R418). -/
def decodeHeadSteps : Cmd Unit :=
  cmdSeedsRead.seq <| (forHeaders cmdHuffReadHdr).seq <| byMode cmdMeshRead (Cmd.pure ())

/-- The inner steps of FRAME_DECODE (44_frame R418). A header that is cut off or illegal gives no frame
that a worker could have begun. -/
def frameDecodeSteps : Cmd Unit :=
  (withWorkers .decode (fun _ => {}) cmdHdrRead).seq <|
  (withWorkers .decode State.decodeHeadFootprint decodeHeadSteps).seq <|
  withWorkers .decode State.decodePlanesFootprint (Cmd.forEach allPlanes decodePlaneSteps)

/-- FRAME_DECODE (44_frame R418). -/
def cmdFrameDecode : Cmd Unit := needTables.seq frameDecodeSteps

/-- Pass 1 of FRAME_ENCODE for one plane: predict and count (44_frame R419). -/
def encodePlanePredict (p : Plane) : Cmd Unit :=
  forBlocks fun bx row =>
    (cmdBlockGeom p bx row).seq <| (cmdHopEncRegion p).seq (cmdHuffCountRegion p)

/-- Pass 2 of FRAME_ENCODE for one plane: emit (44_frame R419). -/
def encodePlaneEmit (p : Plane) : Cmd Unit :=
  byMode
    (forBlocks fun bx row => (cmdBlockGeom p bx row).seq (cmdHuffEncRegion p))
    ((cmdPlaneGeom p).seq (cmdHuffEncRegion p))

/-- FRAME_ENCODE after the frame check (44_frame R419). -/
def encodeSteps : Cmd Unit :=
  (cmdHuffClearCounts .luma).seq <|
  (cmdHuffClearCounts .chroma).seq <|
  (Cmd.forEach allPlanes encodePlanePredict).seq <|
  (cmdHuffFromCounts .luma).seq <|
  (cmdHuffFromCounts .chroma).seq <|
  cmdHdrWrite.seq <|
  cmdSeedsWrite.seq <|
  (forHeaders cmdHuffWriteHdr).seq <|
  (byMode cmdMeshWrite (Cmd.pure ())).seq <|
  (Cmd.forEach allPlanes encodePlaneEmit).seq cmdBwFlush

/-- The inner steps of FRAME_ENCODE (44_frame R419). -/
def frameEncodeSteps : Cmd Unit :=
  (withWorkers .encode (fun _ => {}) frameCheck).seq <|
  withWorkers .encode State.encodeFootprint encodeSteps

/-- FRAME_ENCODE (44_frame R419). -/
def cmdFrameEncode : Cmd Unit := needTables.seq frameEncodeSteps

/-! ### Meanings -/

/-- The meaning of NOP. -/
def execNop (s : State) : Host.Outcome State Fault Refusal := runCommand cmdNop s
/-- The meaning of CHECK_CONFIG. -/
def execCheckConfig (s : State) : Host.Outcome State Fault Refusal := runCommand cmdCheckConfig s
/-- The meaning of HDR_READ. -/
def execHdrRead (s : State) : Host.Outcome State Fault Refusal := runCommand cmdHdrRead s
/-- The meaning of HDR_WRITE. -/
def execHdrWrite (s : State) : Host.Outcome State Fault Refusal := runCommand cmdHdrWrite s
/-- The meaning of SEEDS_READ. -/
def execSeedsRead (s : State) : Host.Outcome State Fault Refusal := runCommand cmdSeedsRead s
/-- The meaning of SEEDS_WRITE. -/
def execSeedsWrite (s : State) : Host.Outcome State Fault Refusal := runCommand cmdSeedsWrite s
/-- The meaning of BW_FLUSH. -/
def execBwFlush (s : State) : Host.Outcome State Fault Refusal := runCommand cmdBwFlush s
/-- The meaning of FRAME_DECODE. -/
def execFrameDecode (s : State) : Host.Outcome State Fault Refusal := runCommand cmdFrameDecode s
/-- The meaning of FRAME_ENCODE. -/
def execFrameEncode (s : State) : Host.Outcome State Fault Refusal := runCommand cmdFrameEncode s

end Sys2Proof.Machine
end

