-- ==== Sys2Proof/Machine/Registers.lean ====
section
/-! DEFINITION. The register map (10_state R33): offsets, access types, and what a read and an
idle write of each register do (10_state R32 to R64). -/

namespace Sys2Proof.Machine

/-- Access types (10_state R33). -/
inductive RegAccess where
  | readWrite
  | readOnly
  | writeOneClear
deriving DecidableEq, Repr

/-- The table's number. -/
def tblIndex : Tbl → Nat
  | .luma => 0
  | .chroma => 1

/-- The offset from REG_BASE (10_state R33). -/
def Reg.offset : Reg → Nat
  | .cmd => 0x000
  | .status => 0x004
  | .irqStatus => 0x008
  | .ctrl => 0x00C
  | .errCmd => 0x010
  | .mode => 0x014
  | .width => 0x018
  | .height => 0x01C
  | .grid => 0x020
  | .ratio => 0x024
  | .chroma => 0x028
  | .comp => 0x02C
  | .seedBase => 0x030
  | .meshBase => 0x034
  | .seedIndex => 0x038
  | .seed => 0x03C
  | .srcBase p => 0x040 + 0x10 * p.index
  | .dstBase p => 0x044 + 0x10 * p.index
  | .hopBase p => 0x048 + 0x10 * p.index
  | .stride p => 0x04C + 0x10 * p.index
  | .brBase => 0x070
  | .brBudget => 0x074
  | .brPos => 0x078
  | .bwBase => 0x080
  | .bwLimit => 0x084
  | .bwPos => 0x088
  | .regionX0 => 0x090
  | .regionY0 => 0x094
  | .regionW => 0x098
  | .regionH => 0x09C
  | .scanX => 0x0A0
  | .scanY => 0x0A4
  | .hopState => 0x0A8
  | .lastPix => 0x0AC
  | .blkXIni => 0x0B0
  | .blkXFin => 0x0B4
  | .blkYIni => 0x0B8
  | .blkYFin => 0x0BC
  | .dsX => 0x0C0
  | .dsY => 0x0C4
  | .lutArgs => 0x0D0
  | .lutResult => 0x0D4
  | .huffSym => 0x0E0
  | .huffLenLo t => 0x100 + 0x40 * tblIndex t
  | .huffLenHi t => 0x104 + 0x40 * tblIndex t
  | .huffCode t i => 0x110 + 0x40 * tblIndex t + 4 * i.val
  | .huffCount t i => 0x180 + 0x40 * tblIndex t + 4 * i.val

/-- Access of each register (10_state R33). -/
def Reg.access : Reg → RegAccess
  | .irqStatus => .writeOneClear
  | .status | .errCmd | .seed | .scanX | .scanY | .hopState | .lastPix => .readOnly
  | .blkXIni | .blkXFin | .blkYIni | .blkYFin | .dsX | .dsY => .readOnly
  | .lutResult | .huffSym | .huffCode _ _ => .readOnly
  | .cmd | .ctrl | .mode | .width | .height | .grid | .ratio | .chroma | .comp => .readWrite
  | .seedBase | .meshBase | .seedIndex => .readWrite
  | .srcBase _ | .dstBase _ | .hopBase _ | .stride _ => .readWrite
  | .brBase | .brBudget | .brPos | .bwBase | .bwLimit | .bwPos => .readWrite
  | .regionX0 | .regionY0 | .regionW | .regionH | .lutArgs => .readWrite
  | .huffLenLo _ | .huffLenHi _ | .huffCount _ _ => .readWrite

/-- The buffer registers of a plane. -/
def bufRegs (p : Plane) : List Reg := [.srcBase p, .dstBase p, .hopBase p, .stride p]

/-- The registers that stand once in the map. -/
def singleRegs : List Reg :=
  [.cmd, .status, .irqStatus, .ctrl, .errCmd, .mode, .width, .height, .grid, .ratio, .chroma, .comp,
   .seedBase, .meshBase, .seedIndex, .seed,
   .brBase, .brBudget, .brPos, .bwBase, .bwLimit, .bwPos, .regionX0, .regionY0, .regionW, .regionH,
   .scanX, .scanY, .hopState, .lastPix, .blkXIni, .blkXFin, .blkYIni, .blkYFin, .dsX, .dsY,
   .lutArgs, .lutResult, .huffSym]

/-- The registers, each once. -/
def allRegs : List Reg :=
  List.flatten
    [singleRegs, bufRegs .luma, bufRegs .chromaA, bufRegs .chromaB, lenRegs .luma, countRegs .luma,
     lenRegs .chroma, countRegs .chroma]

/-- The register at an offset; an offset the map does not list holds none (10_state R32). -/
def Reg.ofOffset (n : Nat) : Option Reg := allRegs.find? fun r => r.offset == n

/-! ### Reads (10_state R33) -/

/-- What a register reads as, its fields in their places and every other bit 0. -/
def State.readReg (s : State) : Reg → Word
  | .cmd => s.eng.cmd
  | .status => s.statusWord
  | .irqStatus => s.irqStatusWord
  | .ctrl => s.ctrlWord
  | .errCmd => s.eng.errCmd
  | .mode => s.cfg.mode.setWidth 32
  | .width => s.cfg.width
  | .height => s.cfg.height
  | .grid => s.cfg.gridWord
  | .ratio => s.cfg.ratio.setWidth 32
  | .chroma => s.cfg.chromaWord
  | .comp => s.cfg.cf.setWidth 32
  | .seedBase => s.seeds.seedBase
  | .meshBase => s.seeds.meshBase
  | .seedIndex => s.seeds.seedIndex
  | .seed => s.seeds.seed.setWidth 32
  | .srcBase p => (s.buf p).src
  | .dstBase p => (s.buf p).dst
  | .hopBase p => (s.buf p).hop
  | .stride p => (s.buf p).stride
  | .brBase => s.reader.base
  | .brBudget => s.reader.budget
  | .brPos => s.reader.pos
  | .bwBase => s.writer.base
  | .bwLimit => s.writer.limit
  | .bwPos => s.writer.pos
  | .regionX0 => s.region.x0
  | .regionY0 => s.region.y0
  | .regionW => s.region.w
  | .regionH => s.region.h
  | .scanX => s.scan.x
  | .scanY => s.scan.y
  | .hopState => s.scan.hopStateWord
  | .lastPix => s.lastPix.word
  | .blkXIni => s.geom.xIni
  | .blkXFin => s.geom.xFin
  | .blkYIni => s.geom.yIni
  | .blkYFin => s.geom.yFin
  | .dsX => s.geom.dsX
  | .dsY => s.geom.dsY
  | .lutArgs => s.lut.argsWord
  | .lutResult => s.lut.result.setWidth 32
  | .huffSym => s.huffSym.setWidth 32
  | .huffLenLo t => (s.table t).lenLoWord
  | .huffLenHi t => (s.table t).lenHiWord
  | .huffCode t i => (s.table t).codeWord i
  | .huffCount t i => (s.table t).count.get i

/-! ### Idle writes (10_state R32, R36, R37, R57, R64) -/

/-- IRQ_STATUS: each 1 clears its bit (10_state R36). -/
def State.clearIrq (s : State) (v : Word) : State :=
  s.withEng { s.eng with
    irqDone := s.eng.irqDone && !v.getLsbD 0, irqErr := s.eng.irqErr && !v.getLsbD 1 }

/-- CTRL with SOFT_RESET 0: the two stored bits (10_state R37). -/
def State.setCtrl (s : State) (v : Word) : State :=
  s.withCtrl { interiorVariant := v.getLsbD 1, irqEn := v.getLsbD 2 }

/-- HUFF_LEN_LO_t: eight lengths; the table becomes invalid (10_state R57). -/
def State.setLenLo (s : State) (t : Tbl) (v : Word) : State :=
  let h := s.table t
  s.withTable t { h with
    valid := false
    len := { v0 := v.extractLsb' 0 4, v1 := v.extractLsb' 4 4, v2 := v.extractLsb' 8 4,
             v3 := v.extractLsb' 12 4, v4 := v.extractLsb' 16 4, v5 := v.extractLsb' 20 4,
             v6 := v.extractLsb' 24 4, v7 := v.extractLsb' 28 4, v8 := h.len.v8 } }

/-- HUFF_LEN_HI_t: the length of symbol 8; the table becomes invalid (10_state R57). -/
def State.setLenHi (s : State) (t : Tbl) (v : Word) : State :=
  let h := s.table t
  s.withTable t { h with valid := false, len := { h.len with v8 := v.extractLsb' 0 4 } }

/-- A write of every register but CMD and CTRL's soft reset on an idle core: the value truncated to
the fields of the map (10_state R64); a read-only register ignores it (10_state R32). -/
def State.writeReg (s : State) (r : Reg) (v : Word) : State :=
  match r with
  | .cmd => s
  | .irqStatus => s.clearIrq v
  | .ctrl => s.setCtrl v
  | .mode => s.withCfg { s.cfg with mode := v.extractLsb' 0 8 }
  | .width => s.withCfg { s.cfg with width := v }
  | .height => s.withCfg { s.cfg with height := v }
  | .grid => s.withCfg { s.cfg with gridW := v.extractLsb' 0 8, gridH := v.extractLsb' 8 8 }
  | .ratio => s.withCfg { s.cfg with ratio := v.extractLsb' 0 8 }
  | .chroma => s.withCfg { s.cfg with sx := v.extractLsb' 0 4, sy := v.extractLsb' 4 4 }
  | .comp => s.withCfg { s.cfg with cf := v.extractLsb' 0 16 }
  | .seedBase => s.withSeeds { s.seeds with seedBase := v }
  | .meshBase => s.withSeeds { s.seeds with meshBase := v }
  | .seedIndex => s.withSeeds { s.seeds with seedIndex := v }
  | .srcBase p => s.withBuf p { s.buf p with src := v }
  | .dstBase p => s.withBuf p { s.buf p with dst := v }
  | .hopBase p => s.withBuf p { s.buf p with hop := v }
  | .stride p => s.withBuf p { s.buf p with stride := v }
  | .brBase => s.withReader { s.reader with base := v }
  | .brBudget => s.withReader { s.reader with budget := v }
  | .brPos => s.withReader { s.reader with pos := v }
  | .bwBase => s.withWriter { s.writer with base := v }
  | .bwLimit => s.withWriter { s.writer with limit := v }
  | .bwPos => s.withWriter { s.writer with pos := v }
  | .regionX0 => s.withRegion { s.region with x0 := v }
  | .regionY0 => s.withRegion { s.region with y0 := v }
  | .regionW => s.withRegion { s.region with w := v }
  | .regionH => s.withRegion { s.region with h := v }
  | .lutArgs => s.withLut { s.lut with
      p := v.extractLsb' 0 8, x := v.extractLsb' 8 8, r := v.extractLsb' 16 6,
      s := v.extractLsb' 24 5 }
  | .huffLenLo t => s.setLenLo t v
  | .huffLenHi t => s.setLenHi t v
  | .huffCount t i => s.withTable t { s.table t with count := (s.table t).count.set i v }
  | .status | .errCmd | .seed | .scanX | .scanY | .hopState | .lastPix => s
  | .blkXIni | .blkXFin | .blkYIni | .blkYFin | .dsX | .dsY => s
  | .lutResult | .huffSym | .huffCode _ _ => s

end Sys2Proof.Machine
end

