-- ==== Sys2Proof/Machine/Commands.lean ====
section
/-! DEFINITION. The body of every command (30_encoding R157), which a host access that lands while it runs
meets in its middle (10_state R32, 20_memory R121). -/

namespace Sys2Proof.Machine

/-- The body of a command. -/
def commandBody : Instr → Cmd Unit
  | .nop => cmdNop
  | .buildTables => cmdBuildTables
  | .lutReadRec => cmdLutReadRec
  | .lutReadBest => cmdLutReadBest
  | .checkConfig => cmdCheckConfig
  | .hdrRead => cmdHdrRead
  | .hdrWrite => cmdHdrWrite
  | .seedsRead => cmdSeedsRead
  | .seedsWrite => cmdSeedsWrite
  | .planeGeom p => withPlane p cmdPlaneGeom
  | .blockGeom p bx row => withPlane p fun p => cmdBlockGeom p bx.toNat row.toNat
  | .hopBeginDec p => withPlane p cmdHopBeginDec
  | .hopBeginEnc p => withPlane p cmdHopBeginEnc
  | .hopStep => cmdHopStep
  | .hopDecRegion p => withPlane p cmdHopDecRegion
  | .hopEncRegion p => withPlane p cmdHopEncRegion
  | .huffBuild t => cmdHuffBuild t
  | .huffReadHdr t => cmdHuffReadHdr t
  | .huffWriteHdr t => cmdHuffWriteHdr t
  | .huffClearCounts t => cmdHuffClearCounts t
  | .huffCountSym t sym => cmdHuffCountSym t sym.toNat
  | .huffCountRegion p => withPlane p cmdHuffCountRegion
  | .huffFromCounts t => cmdHuffFromCounts t
  | .huffDecSym t => cmdHuffDecSym t
  | .huffEncSym t sym => cmdHuffEncSym t sym.toNat
  | .huffDecRegion p => withPlane p cmdHuffDecRegion
  | .huffEncRegion p => withPlane p cmdHuffEncRegion
  | .meshRead => cmdMeshRead
  | .meshWrite => cmdMeshWrite
  | .bwFlush => cmdBwFlush
  | .frameDecode => cmdFrameDecode
  | .frameEncode => cmdFrameEncode

end Sys2Proof.Machine
end

