-- ==== Sys2Proof/Machine/Dispatch.lean ====
section
/-! DEFINITION. The meaning of every command, one arm each. -/

namespace Sys2Proof.Machine

/-- What a command does when it is executed (10_state R34): its effect, then BUSY <- 0 and DONE <- 1;
an error it raises is recorded in the state it leaves. -/
def exec (i : Instr) (s : State) : Host.Outcome State Fault Refusal :=
  match i with
  | .nop => Sys2Proof.Machine.execNop s
  | .buildTables => Sys2Proof.Machine.execBuildTables s
  | .lutReadRec => Sys2Proof.Machine.execLutReadRec s
  | .lutReadBest => Sys2Proof.Machine.execLutReadBest s
  | .checkConfig => Sys2Proof.Machine.execCheckConfig s
  | .hdrRead => Sys2Proof.Machine.execHdrRead s
  | .hdrWrite => Sys2Proof.Machine.execHdrWrite s
  | .seedsRead => Sys2Proof.Machine.execSeedsRead s
  | .seedsWrite => Sys2Proof.Machine.execSeedsWrite s
  | .planeGeom p => Sys2Proof.Machine.execPlaneGeom p s
  | .blockGeom p bx row => Sys2Proof.Machine.execBlockGeom p bx row s
  | .hopBeginDec p => Sys2Proof.Machine.execHopBeginDec p s
  | .hopBeginEnc p => Sys2Proof.Machine.execHopBeginEnc p s
  | .hopStep => Sys2Proof.Machine.execHopStep s
  | .hopDecRegion p => Sys2Proof.Machine.execHopDecRegion p s
  | .hopEncRegion p => Sys2Proof.Machine.execHopEncRegion p s
  | .huffBuild t => Sys2Proof.Machine.execHuffBuild t s
  | .huffReadHdr t => Sys2Proof.Machine.execHuffReadHdr t s
  | .huffWriteHdr t => Sys2Proof.Machine.execHuffWriteHdr t s
  | .huffClearCounts t => Sys2Proof.Machine.execHuffClearCounts t s
  | .huffCountSym t sym => Sys2Proof.Machine.execHuffCountSym t sym s
  | .huffCountRegion p => Sys2Proof.Machine.execHuffCountRegion p s
  | .huffFromCounts t => Sys2Proof.Machine.execHuffFromCounts t s
  | .huffDecSym t => Sys2Proof.Machine.execHuffDecSym t s
  | .huffEncSym t sym => Sys2Proof.Machine.execHuffEncSym t sym s
  | .huffDecRegion p => Sys2Proof.Machine.execHuffDecRegion p s
  | .huffEncRegion p => Sys2Proof.Machine.execHuffEncRegion p s
  | .meshRead => Sys2Proof.Machine.execMeshRead s
  | .meshWrite => Sys2Proof.Machine.execMeshWrite s
  | .bwFlush => Sys2Proof.Machine.execBwFlush s
  | .frameDecode => Sys2Proof.Machine.execFrameDecode s
  | .frameEncode => Sys2Proof.Machine.execFrameEncode s

end Sys2Proof.Machine
end

