-- ==== Sys2Proof/Machine/Bus.lean ====
section
/-! DEFINITION. The register port and the host's accesses (10_state R32 to R38, 20_memory R121,
60_exceptions R603 to R605, 70_reset R700, R701): on an idle core, and on one that runs a command. -/

namespace Sys2Proof.Machine

/-! ### Running a command -/

/-- The command a word stands for, executed; an illegal word raises E_ILLEGAL_CMD with no other
effect (30_encoding R158, R159). -/
def runWord (w : Word) (s : State) : Host.Outcome State Fault Refusal :=
  match decode w with
  | .ok i => exec i s
  | .error _ => runCommand (Cmd.raise .illegalCmd) s

/-- The body of the command a word stands for. -/
def wordBody (w : Word) : Cmd Unit :=
  match decode w with
  | .ok i => commandBody i
  | .error _ => Cmd.raise .illegalCmd

/-- The running command ends (10_state R34). A core that runs none stays as it is. -/
def complete (s : State) : Host.Outcome State Fault Refusal :=
  match s.eng.running with
  | some r => runWord r.word s
  | none => .next s

/-- The next access is one that lands while a command runs. -/
def overlapNext (s : State) : Bool :=
  match s.inbox with
  | q :: _ => q.during.isSome
  | [] => false

/-! ### The register port -/

/-- An access the port takes is 32 bits wide and aligned (10_state R32). -/
def portTakes (bits : Nat) (offset : BitVec 9) : Bool := bits == 32 && offset.toNat % 4 == 0

/-- The bus error response: no effect on the core (10_state R32). -/
def State.busFault (s : State) : State := s.withBus .busError

/-- Accept a command: BUSY <- 1 (10_state R34). -/
def State.accept (s : State) (w : Word) : State :=
  s.withEng { s.eng with running := some { word := w, progress := 0 } }

/-- A write of `w` to CMD on an idle core (10_state R34, 60_exceptions R604). The command runs to its
end in the same step unless the next access lands while it runs. -/
def writeCmd (w : Word) (s : State) : Host.Outcome State Fault Refusal :=
  let s := (s.withEng { s.eng with cmd := w }).withBus .ack
  if s.eng.err ≠ .noError then .next s
  else if overlapNext s then .next (s.accept w)
  else complete (s.accept w)

/-- A write of CTRL on an idle core: bit 0 resets, else the stored bits change (10_state R37). -/
def State.writeCtrl (s : State) (v : Word) : State :=
  if v.getLsbD 0 then s.softReset else s.setCtrl v

/-- A write of a register on an idle core (10_state R32, R34, R37). -/
def writeIdle (r : Reg) (v : Word) (s : State) : Host.Outcome State Fault Refusal :=
  match r with
  | .cmd => writeCmd v s
  | .ctrl => .next ((s.writeCtrl v).withBus .ack)
  | r => .next ((s.writeReg r v).withBus .ack)

/-- An access to an idle core. An offset the map does not list reads 0 and ignores writes
(10_state R32). -/
def accessIdle (a : HostAccess) (s : State) : Host.Outcome State Fault Refusal :=
  match a with
  | .regWrite bits offset v =>
    if portTakes bits offset then
      match Reg.ofOffset offset.toNat with
      | some r => writeIdle r v s
      | none => .next (s.withBus .ack)
    else .next s.busFault
  | .regRead bits offset =>
    if portTakes bits offset then
      match Reg.ofOffset offset.toNat with
      | some r => .next (s.withBus (.data (s.readReg r)))
      | none => .next (s.withBus (.data 0))
    else .next s.busFault
  | .memWrite a v => .next ((s.withMem (s.mem.write a.toNat v)).withBus .ack)
  | .memRead a => .next (s.withBus (.byte (s.mem.read a.toNat)))
  | .hardReset => .next s.hardReset

/-! ### While BUSY = 1 -/

/-- The actions of the running command, from the state it runs on. -/
def runningActs (r : Running) (s : State) : List Act := (wordBody r.word).acts s

/-- The registers and memory as the running command has left them so far (10_state R63). -/
def progressState (r : Running) (s : State) : State := stateAfter s (runningActs r s) r.progress

/-- The running command reads or writes this byte at some point (20_memory R121). -/
def touches (r : Running) (s : State) (a : Nat) : Bool :=
  (runningActs r s).any fun x => x.reads.contains a || x.writes.contains a

/-- The running command writes this register at some point (10_state R32). -/
def writesReg (run : Running) (s : State) (r : Reg) : Bool :=
  (runningActs run s).any fun x => x.regs.contains r

/-- A host access to byte `a` now is a race (20_memory R121). -/
def contended (r : Running) (s : State) (a : Word) : Bool :=
  touches r s a.toNat || s.races.contains a

/-- The host writes a byte that the running command reads or writes: from now on, until the command
ends, the byte holds a free value, and so does every value the command derives from it (20_memory
R121, assumption log 8). -/
def State.race (s : State) (a : Word) : State :=
  ((s.withMem (s.mem.write a.toNat (Config.raceWrite s.draws))).withRaces (a :: s.races)).withDraws
    (s.draws + 1)

/-- The running command, `k` actions further. -/
def State.advance (s : State) (r : Running) (k : Nat) : State :=
  s.withEng { s.eng with running := some { r with progress := r.progress + k } }

/-- Soft or hard reset while a command runs: it is abandoned, and the memory writes it has made stay
(70_reset R701, assumption log 9). -/
def State.abandon (s : State) (r : Running) : State := s.withMem (progressState r s).mem

/-- A write of a register while BUSY = 1 (10_state R32, R36, R37; 60_exceptions R605). -/
def writeBusy (r : Reg) (v : Word) (run : Running) (s : State) : State :=
  match r with
  | .cmd => (s.withEng { s.eng with cmd := v }).recordError .busy v false
  | .ctrl =>
    if v.getLsbD 0 then (s.abandon run).softReset
    else s.withCtrl { s.ctrl with irqEn := v.getLsbD 2 }
  | .irqStatus => s.clearIrq v
  | r =>
    match r.access with
    | .readWrite => s.recordError .busy (BitVec.ofNat 32 r.offset) true
    | .readOnly => s
    | .writeOneClear => s

/-- A read of a register while BUSY = 1 (10_state R32): STATUS, IRQ_STATUS, CTRL, CMD and ERR_CMD
show their current values; a register the running command writes reads as a free value. DESIGN CHOICE,
safe (assumption log 27): each such read draws a fresh value, although 93_implementation_defined takes an
`any value` as the same for every read unless stated. -/
def readBusy (r : Reg) (run : Running) (s : State) : State :=
  match r with
  | .status => s.withBus (.data (progressState run s).statusWord)
  | .irqStatus => s.withBus (.data s.irqStatusWord)
  | .ctrl => s.withBus (.data s.ctrlWord)
  | .cmd => s.withBus (.data s.eng.cmd)
  | .errCmd => s.withBus (.data s.eng.errCmd)
  | r =>
    if writesReg run s r then
      (s.withBus (.data (Config.busyRead s.draws))).withDraws (s.draws + 1)
    else s.withBus (.data (s.readReg r))

/-- An access that lands while the command `run` runs. A racing read of a memory byte draws a fresh value
each time (20_memory R121; assumption logs 8 and 27). -/
def accessBusy (a : HostAccess) (run : Running) (s : State) : Host.Outcome State Fault Refusal :=
  match a with
  | .regWrite bits offset v =>
    if portTakes bits offset then
      match Reg.ofOffset offset.toNat with
      | some r => .next ((writeBusy r v run s).withBus .ack)
      | none => .next (s.withBus .ack)
    else .next s.busFault
  | .regRead bits offset =>
    if portTakes bits offset then
      match Reg.ofOffset offset.toNat with
      | some r => .next (readBusy r run s)
      | none => .next (s.withBus (.data 0))
    else .next s.busFault
  | .memWrite a v =>
    if contended run s a then .next ((s.race a).withBus .ack)
    else .next ((s.withMem (s.mem.write a.toNat v)).withBus .ack)
  | .memRead a =>
    if contended run s a then
      .next ((s.withBus (.byte (Config.raceRead s.draws))).withDraws (s.draws + 1))
    else .next (s.withBus (.byte (s.mem.read a.toNat)))
  | .hardReset => .next (s.abandon run).hardReset

/-! ### One step -/

/-- Take the next access, or let the running command end before it. -/
def nextEvent (s : State) : Host.Outcome State Fault Refusal :=
  match s.inbox with
  | [] => complete s
  | q :: rest =>
    match s.eng.running with
    | none => accessIdle q.access (s.withInbox rest)
    | some r =>
      match q.during with
      | none => complete s
      | some k =>
        accessBusy q.access { r with progress := r.progress + k }
          ((s.withInbox rest).advance r k)

end Sys2Proof.Machine
end

