-- ==== Sys2Proof/Machine/Step.lean ====
section
/-! DEFINITION. One step of the machine, and a state whose next step runs a given command. -/

namespace Sys2Proof.Machine

/-- One step: the host's next access, with the command it starts; or the end of the running command;
an idle core with no access to take does nothing (60_exceptions R618). -/
def step (s : State) : Host.Outcome State Fault Refusal := nextEvent s

/-- `s` with the one pending access that writes the command word `w` to CMD, on a core that will
accept it: no command running, no error recorded (assumption log 1). A command is one word
(30_encoding R150), so the bits above `nbits` are 0. -/
def State.withFetchWord (s : State) (nbits w : Nat) : State :=
  (s.withEng { s.eng with running := none, err := .noError }).withInbox
    [{ access := .regWrite 32 0 (BitVec.ofNat 32 (w % 2 ^ nbits)), during := none }]

end Sys2Proof.Machine
end

