-- ==== Sys2Proof/Safety.lean ====
section
/-! DEFINITION. The words claims are stated in: legal configurations, the invariant of the machine,
bits of a stream in memory, the pixels of a region, and buffers that do not overlap. -/

namespace Sys2Proof.Machine

/-! ### Legal states -/

/-- No error is recorded: commands are accepted (60_exceptions R604). -/
abbrev State.quiet (s : State) : Prop := s.eng.err = .noError

/-- No host write races with the running command (20_memory R121, assumption log 8). -/
abbrev State.calm (s : State) : Prop := s.races = []

/-- The frame check passes (44_frame R402). -/
abbrev State.frameOk (s : State) : Prop := s.frameError = .noError

/-- The region check for plane `p` passes (42_mesh R304). -/
abbrev State.regionOk (s : State) (p : Plane) : Prop := s.regionError p = .noError

/-- `FrameCheck()` raises `e`: the checks of 44_frame R402 in their order, each under the passing of
those before it. -/
def State.frameFails (s : State) (e : ErrCode) : Prop :=
  let c := s.cfg
  let area := c.width.toNat * c.height.toNat
  let dims := c.mode.toNat ≤ 2 ∧ c.width ≠ 0 ∧ c.height ≠ 0 ∧ c.gridW ≠ 0 ∧ c.gridH ≠ 0
  let chroma := (c.sx = 1 ∨ c.sx = 2) ∧ (c.sy = 1 ∨ c.sy = 2)
  let full := (∀ p k, k < c.gridW.toNat → c.boundX p k < c.boundX p (k + 1)) ∧
    (∀ p k, k < c.gridH.toNat → c.boundY p k < c.boundY p (k + 1))
  (¬ dims ∧ e = .malformedHeader) ∨
  (dims ∧ ¬ chroma ∧ e = .config) ∨
  (dims ∧ chroma ∧ 2 ^ 32 ≤ area ∧ e = .malformedHeader) ∨
  (dims ∧ chroma ∧ area < 2 ^ 32 ∧ s.plat.maxPixels < area ∧ e = .alloc) ∨
  (dims ∧ chroma ∧ area < 2 ^ 32 ∧ area ≤ s.plat.maxPixels ∧ ¬ full ∧ e = .malformedHeader) ∨
  (dims ∧ chroma ∧ area < 2 ^ 32 ∧ area ≤ s.plat.maxPixels ∧ full ∧
    (c.ratio.toNat < 20 ∨ 40 < c.ratio.toNat ∨ 256 < c.cf.toNat) ∧ e = .config)

/-- `RegionCheck(p)` raises `e` (42_mesh R304): the frame check first, then the region's sides, then its
place in the plane. -/
def State.regionFails (s : State) (p : Plane) (e : ErrCode) : Prop :=
  s.frameFails e ∨
  (s.frameOk ∧ e = .config ∧
    (s.region.w = 0 ∨ s.region.h = 0 ∨
      s.cfg.planeW p < s.region.x0.toNat + s.region.w.toNat ∨
      s.cfg.planeH p < s.region.y0.toNat + s.region.h.toNat))

/-- The tables are built and marked valid (10_state R60). -/
abbrev State.tablesReady (s : State) : Prop := s.tablesValid = true ∧ s.luts = .built

/-- A table marked valid has a valid length set and its canonical codes (10_state R61). -/
abbrev HuffTable.sound (h : HuffTable) : Prop :=
  h.valid = true → lensValid h.len = true ∧ h.code = assignCodes h.len

/-- A table that is valid and sound. -/
abbrev HuffTable.ready (h : HuffTable) : Prop :=
  h.valid = true ∧ lensValid h.len = true ∧ h.code = assignCodes h.len

/-- The invariant of the machine: memory in canonical form; the platform's parameters in their legal
ranges (00_scope R8); TABLES_VALID only over built tables (10_state R60); and, while no error is
recorded, STEP in [4, 10] (10_state R52) and no stale Huffman code (10_state R61); and races only while
a command runs (20_memory R121). -/
structure State.Inv (s : State) : Prop where
  memory : s.mem.wf
  maxPixels : 1 ≤ s.plat.maxPixels ∧ s.plat.maxPixels < 2 ^ 32
  workers : 1 ≤ s.plat.nWorkers
  tables : s.tablesValid = true → s.luts = .built
  step : s.quiet → Config.minStep ≤ s.scan.step.toNat ∧ s.scan.step.toNat ≤ Config.maxStep
  huffman : s.quiet → ∀ t, (s.table t).sound
  races : s.eng.running = none → s.calm

/-! ### Streams in memory (20_memory R112) -/

/-- The address of the byte that holds bit `q` of a stream. -/
def streamByte (base : Word) (q : Nat) : Nat := (bitAddr base (BitVec.ofNat 32 q)).toNat

/-- Bit `q` of the stream at `base`: the first bit of a byte is its most significant. -/
def bitAt (m : Memory) (base : Word) (q : Nat) : Bool :=
  (m.read (streamByte base q)).getLsbD (7 - q % 8)

/-- The `n`-bit field at bit `q`, first bit most significant. -/
def fieldAt (m : Memory) (base : Word) (q : Nat) : Nat → Nat
  | 0 => 0
  | n + 1 => 2 * fieldAt m base q n + (bitAt m base (q + n)).toNat

/-- Four 8-bit fields at bit `q`, the least significant byte first (44_frame R405). -/
def le32At (m : Memory) (base : Word) (q : Nat) : Nat :=
  fieldAt m base q 8 + 2 ^ 8 * fieldAt m base (q + 8) 8 + 2 ^ 16 * fieldAt m base (q + 16) 8 +
    2 ^ 24 * fieldAt m base (q + 24) 8

/-- The byte at address `a` holds one of the `n` bits from bit `q` on. -/
abbrev inStream (base : Word) (q n a : Nat) : Prop := ∃ k, k < n ∧ a = streamByte base (q + k)

/-- The `n` bits of a value, most significant first (20_memory R114). -/
def msbBits (v n : Nat) : List Bool := (List.range n).map fun k => v.testBit (n - 1 - k)

/-- Memory `m'` is `m` with `bits` appended to the stream at `base` from bit `pos` on (20_memory R113):
the bits stand there, every earlier bit of the stream stays, the bits after the last one up to the end
of its byte read 0 if that byte was begun here and stay if it was begun before, and every byte that
holds none of the bits stays. -/
structure Appended (m m' : Memory) (base : Word) (pos : Nat) (bits : List Bool) : Prop where
  written : ∀ k b, bits[k]? = some b → bitAt m' base (pos + k) = b
  earlier : ∀ q, q < pos → bitAt m' base q = bitAt m base q
  padding : ∀ q, bits ≠ [] → pos + bits.length ≤ q → q / 8 = (pos + bits.length - 1) / 8 →
    pos ≤ q / 8 * 8 → bitAt m' base q = false
  kept : ∀ q, pos + bits.length ≤ q → q / 8 * 8 < pos → bitAt m' base q = bitAt m base q
  others : ∀ a, ¬ inStream base pos bits.length a → m'.read a = m.read a

/-- The state with the reader `n` bits further. -/
def State.consumed (s : State) (n : Nat) : State :=
  s.withReader { s.reader with pos := s.reader.pos + BitVec.ofNat 32 n }

/-- The state with the writer `n` bits further. -/
def State.produced (s : State) (n : Nat) : State :=
  s.withWriter { s.writer with pos := s.writer.pos + BitVec.ofNat 32 n }

/-- The budget leaves `n` bits to read. -/
abbrev State.canRead (s : State) (n : Nat) : Prop :=
  s.reader.pos.toNat + n ≤ s.reader.budget.toNat

/-- The limit leaves `n` bits to write. -/
abbrev State.canWrite (s : State) (n : Nat) : Prop :=
  s.writer.pos.toNat + n ≤ s.writer.limit.toNat

/-- The `n`-bit field of the input stream that lies `k` bits after the reader's position. -/
def State.inputField (s : State) (k n : Nat) : Nat :=
  fieldAt s.mem s.reader.base (s.reader.pos.toNat + k) n

/-- The bits of the hops' codes in table `h`, one after the other. -/
def codeBits (h : HuffTable) (hops : List Hop) : Nat :=
  (hops.map fun i => (h.len.get i).toNat).sum

/-- The stream at `base` holds from bit `q` on the codes of `hops` in table `h`, every one live. -/
def codesAt (m : Memory) (base : Word) (h : HuffTable) (q : Nat) : List Hop → Prop
  | [] => True
  | i :: l =>
    liveLen (h.len.get i) = true ∧
    fieldAt m base q (h.len.get i).toNat = (h.code.get i).toNat ∧
    codesAt m base h (q + (h.len.get i).toNat) l

/-! ### Regions and pixels -/

/-- (x, y) lies in the region. -/
abbrev State.inRegion (s : State) (x y : Nat) : Prop :=
  s.region.x0.toNat ≤ x ∧ x < s.region.x0.toNat + s.region.w.toNat ∧
  s.region.y0.toNat ≤ y ∧ y < s.region.y0.toNat + s.region.h.toNat

/-- Two different pixels of the region never share a byte of this buffer. -/
abbrev State.distinctOn (s : State) (addr : Nat → Nat → Word) : Prop :=
  ∀ x y x' y', s.inRegion x y → s.inRegion x' y' → addr x y = addr x' y' → x = x' ∧ y = y'

/-- No byte of the region in one buffer is a byte of the region in the other. -/
abbrev State.apartOn (s : State) (addr addr' : Nat → Nat → Word) : Prop :=
  ∀ x y x' y', s.inRegion x y → s.inRegion x' y' → addr x y ≠ addr' x' y'

/-- The predicted value of a pixel of class `c` at (ax, ay), from the state's memory
(41_predictor R253, R254). -/
def State.predOf (s : State) (p : Plane) (c : PixelClass) (ax ay : Nat) : Byte :=
  match c with
  | .topLeft => s.seeds.seed
  | .firstRow => s.byteAt (s.dstAddr p (ax - 1) ay)
  | .firstCol => s.byteAt (s.dstAddr p ax (ay - 1))
  | .lastCol => average (s.byteAt (s.dstAddr p (ax - 1) ay)) (s.byteAt (s.dstAddr p ax (ay - 1)))
  | .interior =>
    interiorPred s.ctrl.interiorVariant (s.byteAt (s.dstAddr p (ax - 1) ay))
      (s.byteAt (s.dstAddr p (ax + 1) (ay - 1)))

/-- The absolute x of the cursor. -/
def State.cursorX (s : State) : Nat := s.region.x0.toNat + s.scan.x.toNat
/-- The absolute y of the cursor. -/
def State.cursorY (s : State) : Nat := s.region.y0.toNat + s.scan.y.toNat
/-- The class of the pixel at the cursor. -/
def State.cursorClass (s : State) : PixelClass :=
  pixelClass s.region.w.toNat s.scan.x.toNat s.scan.y.toNat

/-- The scan stands at a pixel that HOP_STEP can process (41_predictor R265): it is active, the
tables are ready, the region is legal and the cursor lies in it. -/
structure State.stepReady (s : State) : Prop where
  active : s.scan.active = true
  tables : s.tablesReady
  region : s.regionOk s.scan.plane
  x : s.scan.x.toNat < s.region.w.toNat
  y : s.scan.y.toNat < s.region.h.toNat

/-- The scan registers after the pixel at the cursor (41_predictor R265): the HopState given, the
cursor one pixel further in raster order, inactive after the last pixel. -/
def State.scanAfter (s : State) (step : Nat) (small : Bool) : Scan :=
  let lastX := s.scan.x.toNat + 1 = s.region.w.toNat
  let lastY := s.scan.y.toNat + 1 = s.region.h.toNat
  { x := if lastX then 0 else s.scan.x + 1
    y := if lastX then s.scan.y + 1 else s.scan.y
    step := BitVec.ofNat 5 step
    lastSmall := small
    active := if lastX ∧ lastY then false else true
    dir := s.scan.dir
    plane := s.scan.plane }

/-! ### The mesh -/

/-- Mesh byte number `k`, row-major (42_mesh R305). -/
def State.meshByteAddr (s : State) (k : Nat) : Word := s.seeds.meshBase + BitVec.ofNat 32 k

/-- The pixel (x, y) of plane `p` lies in the region of some block (42_mesh R315). -/
def State.scanned (s : State) (p : Plane) (x y : Nat) : Prop :=
  ∃ bx row, bx < s.cfg.blocksW ∧ row < s.cfg.blocksH ∧
    s.cfg.boundX p bx ≤ x ∧ x < s.cfg.boundX p bx + (s.blockSize p bx row).1 ∧
    s.cfg.boundY p row ≤ y ∧ y < s.cfg.boundY p row + (s.blockSize p bx row).2

/-- Every corner of the block names a level, if the frame is in advanced mode (42_mesh R312). -/
abbrev State.cornersOk (s : State) (bx row : Nat) : Prop :=
  s.cfg.mode = 2 → (s.cornersOf bx row).legal

/-! ### The header -/

/-- The bits of header fields 1 to 3 (44_frame R405): MODE, the bytes of WIDTH and HEIGHT from the least
significant, BW, BH. -/
def FrameConfig.headerBits (c : FrameConfig) : List Bool :=
  ([c.mode.toNat, byteOf c.width 0, byteOf c.width 1, byteOf c.width 2, byteOf c.width 3,
    byteOf c.height 0, byteOf c.height 1, byteOf c.height 2, byteOf c.height 3,
    c.gridW.toNat, c.gridH.toNat]).flatMap fun v => msbBits v 8

/-- The code of a hop in a table, as bits (20_memory R112). -/
def HuffTable.codeBitsOf (h : HuffTable) (i : Hop) : List Bool :=
  msbBits (h.code.get i).toNat (h.len.get i).toNat

/-! ### Frame buffers that do not overlap -/

/-- The HOP bytes of every plane's pixels. -/
def State.hopBytes (s : State) : List Word :=
  allPlanes.flatMap fun p =>
    (raster (s.cfg.planeW p) (s.cfg.planeH p)).map fun q => s.hopAddr p q.1 q.2
/-- The DST bytes of every plane's pixels. -/
def State.dstBytes (s : State) : List Word :=
  allPlanes.flatMap fun p =>
    (raster (s.cfg.planeW p) (s.cfg.planeH p)).map fun q => s.dstAddr p q.1 q.2
/-- The mesh array. -/
def State.meshBytes (s : State) : List Word := addrsFrom s.seeds.meshBase s.cfg.cornerCount

/-- The core's buffers and the bytes `stream` share no byte, and no two pixels of a plane do. The
originals may lie anywhere, also in place (41_predictor R259). -/
abbrev State.buffersApart (s : State) (stream : List Word) : Prop :=
  (s.hopBytes ++ s.dstBytes ++ s.seedBytes ++ s.meshBytes ++ stream).Nodup

/-- The bytes of the `n` bits from bit `q` of the stream at `base`. -/
def streamBytes (base : Word) (q n : Nat) : List Word :=
  addrsFrom (base + BitVec.ofNat 32 (q / 8)) ((q % 8 + n + 7) / 8)

/-- The samples of the three planes. -/
def FrameConfig.sampleCount (c : FrameConfig) : Nat :=
  (allPlanes.map fun p => c.planeW p * c.planeH p).sum

/-- A bound on the bits of a frame, its padding included (44_frame R400): no symbol of a table made
from counts is longer than 8 bits (43_huffman R360). -/
def FrameConfig.frameBits (c : FrameConfig) : Nat :=
  88 + 8 * c.seedCount + 72 + 6 * c.cornerCount + 8 * c.sampleCount + 7

/-- The length of the code of the hop that a byte holds; a byte above 8 has none. -/
def HuffTable.symbolBits (h : HuffTable) (b : Byte) : Nat :=
  match hopOfNat b.toNat with
  | some i => (h.len.get i).toNat
  | none => 0

/-- The bits of the frame that the state's configuration, mesh, hops and tables stand for, before its
padding (44_frame R400): header, seeds, two table headers, the mesh in advanced mode, and the code of
every scanned pixel's hop. -/
def State.usedBits (s : State) : Nat :=
  88 + 8 * s.cfg.seedCount + 72 + (if s.cfg.mode = 2 then 6 * s.cfg.cornerCount else 0) +
    (allPlanes.map fun p => ((s.scanPixels p).map fun q =>
      (s.table p.tbl).symbolBits (s.byteAt (s.hopAddr p q.1 q.2))).sum).sum

/-- FRAME_ENCODE can run: tables ready, frame legal, every mesh code legal in advanced mode, room for
the frame, and no buffer over another. -/
structure State.encodeReady (s : State) : Prop where
  quiet : s.quiet
  calm : s.calm
  tables : s.tablesReady
  frame : s.frameOk
  mesh : s.cfg.mode = 2 → ∀ k, k < s.cfg.cornerCount → meshLegal (s.byteAt (s.meshByteAddr k)) = true
  room : s.writer.pos.toNat + s.cfg.frameBits ≤ s.writer.limit.toNat
  apart : s.buffersApart (streamBytes s.writer.base s.writer.pos.toNat s.cfg.frameBits)

/-! ### A frame of one pixel a plane in the input stream (44_frame R400) -/

/-- The configuration that the header of a frame of one pixel a plane loads. -/
def State.pixelCfg (s : State) : FrameConfig :=
  { s.cfg with
    mode := BitVec.ofNat 8 (s.inputField 0 8), width := 1, height := 1, gridW := 1, gridH := 1 }

/-- The seed of plane number `k` in the stream. -/
def State.pixelSeed (s : State) (k : Nat) : Byte := BitVec.ofNat 8 (s.inputField (88 + 8 * k) 8)

/-- Table `t` as the frame's header for it builds it: the first header stands at bit 112, the second at
bit 148, in the order of HUFF_HDR_ORDER (44_frame R407). -/
def State.pixelTable (s : State) (t : Tbl) : HuffTable :=
  let at0 := if s.plat.hdrOrder.tables.head? = some t then 112 else 148
  let lens : Nine (BitVec 4) := Nine.ofFn fun i => BitVec.ofNat 4 (s.inputField (at0 + 4 * i.val) 4)
  { s.table t with len := lens, code := assignCodes lens, valid := true }

/-- The bit at which the luma symbol stands: an advanced frame has four mesh corners before it. -/
def State.pixelLuma (s : State) : Nat := if s.pixelCfg.mode = 2 then 208 else 184

/-- The bit at which the chroma symbols stand, the luma one being `h`. -/
def State.pixelChroma (s : State) (h : Hop) : Nat := s.pixelLuma + codeBits (s.pixelTable .luma) [h]

/-- The bits of the frame. -/
def State.pixelBits (s : State) (hop : Plane → Hop) : Nat :=
  s.pixelChroma (hop .luma) + codeBits (s.pixelTable .chroma) [hop .chromaA, hop .chromaB]

/-- A legal frame of one pixel a plane stands in the stream, with `hop p` the symbol of plane `p`, and no
buffer lies over another or over the frame. -/
structure State.HoldsOnePixelFrame (s : State) (hop : Plane → Hop) : Prop where
  budget : s.canRead (s.pixelBits hop)
  width : le32At s.mem s.reader.base (s.reader.pos.toNat + 8) = 1
  height : le32At s.mem s.reader.base (s.reader.pos.toNat + 40) = 1
  gridW : s.inputField 72 8 = 1
  gridH : s.inputField 80 8 = 1
  legal : (s.withCfg s.pixelCfg).frameOk
  tables : lensValid (s.pixelTable .luma).len = true ∧ lensValid (s.pixelTable .chroma).len = true
  mesh : s.pixelCfg.mode = 2 → ∀ k, k < 8 → s.inputField (184 + 3 * k) 3 ≤ 5
  luma : codesAt s.mem s.reader.base (s.pixelTable .luma) (s.reader.pos.toNat + s.pixelLuma)
    [hop .luma]
  chroma : codesAt s.mem s.reader.base (s.pixelTable .chroma)
    (s.reader.pos.toNat + s.pixelChroma (hop .luma)) [hop .chromaA, hop .chromaB]
  apart : (s.withCfg s.pixelCfg).buffersApart
    (streamBytes s.reader.base s.reader.pos.toNat (s.pixelBits hop))

/-! ### Registers -/

/-- The bits of a register that a host write stores (10_state R33). -/
def Reg.writeMask : Reg → Word
  | .mode | .ratio => 0x000000FF#32
  | .grid | .comp => 0x0000FFFF#32
  | .chroma => 0x000000FF#32
  | .lutArgs => 0x1F3FFFFF#32
  | .huffLenHi _ => 0x0000000F#32
  | _ => 0xFFFFFFFF#32

/-- The registers a host writes to store a value: RW, and neither CMD nor CTRL (10_state R33). -/
def Reg.stores (r : Reg) : Bool := r.access == .readWrite && r != .cmd && r != .ctrl

/-- A read of the register may change with a write of `r`: the register itself, and for a Huffman
length register STATUS and the code registers of its table (10_state R57, R58). -/
def Reg.affectedBy (r' r : Reg) : Bool :=
  r' == r ||
  match r with
  | .huffLenLo t | .huffLenHi t => r' == .status || (codeRegs t).contains r'
  | _ => false

/-- The reset column of 10_state R33. -/
def Reg.resetValue : Reg → Word
  | .ratio => 0x00000019#32
  | .chroma => 0x00000011#32
  | .hopState => 0x00000007#32
  | .huffLenLo _ => 0xFFFFFFFF#32
  | .huffLenHi _ => 0x0000000F#32
  | .huffCode _ _ => 0x000F0000#32
  | _ => 0#32

/-- The state right after a CMD write of `w` has been accepted, `rest` being the accesses still to
come (10_state R34). -/
def State.accepted (s : State) (w : Word) (rest : List Pending) : State :=
  ((s.withEng { s.eng with cmd := w, running := some { word := w, progress := 0 } }).withBus
    .ack).withInbox rest

/-- A write of 32 bits to register `r`. -/
def regWriteOf (r : Reg) (v : Word) : HostAccess := .regWrite 32 (BitVec.ofNat 9 r.offset) v

/-- The next access is a reset: the platform's, or a CTRL write with bit 0 set (70_reset R700,
R701). -/
def State.resetNext (s : State) : Prop :=
  ∃ q rest, s.inbox = q :: rest ∧
    (q.access = .hardReset ∨ ∃ v, q.access = regWriteOf .ctrl v ∧ v.getLsbD 0 = true)

/-! ### Registers a command can write -/

/-- The count registers of the table a PLANE field selects. -/
def planeCountRegs (f : BitVec 2) : List Reg :=
  match Plane.ofField f with
  | some p => countRegs p.tbl
  | none => []

/-- The count register of the symbol a SYM field names; a value above 8 names none. -/
def symCountRegs (t : Tbl) (sym : BitVec 4) : List Reg :=
  match hopOfNat sym.toNat with
  | some h => [.huffCount t h]
  | none => []

/-- The registers a command can write, STATUS, IRQ_STATUS and ERR_CMD apart, by the rules of 40_tables to
44_frame. -/
def writesRegs : Instr → List Reg
  | .nop | .buildTables | .checkConfig => []
  | .lutReadRec | .lutReadBest => [.lutResult]
  | .hdrRead => [.mode, .width, .height, .grid, .brPos]
  | .hdrWrite | .seedsWrite | .meshWrite | .bwFlush => [.bwPos]
  | .seedsRead | .meshRead => [.brPos]
  | .planeGeom _ | .blockGeom _ _ _ => geomRegs
  | .hopBeginDec _ | .hopBeginEnc _ => beginRegs
  | .hopStep => stepRegs
  | .hopDecRegion _ | .hopEncRegion _ => beginRegs ++ stepRegs
  | .huffBuild t => codeRegs t
  | .huffReadHdr t => .brPos :: lenRegs t
  | .huffWriteHdr _ => [.bwPos]
  | .huffClearCounts t => countRegs t
  | .huffCountSym t sym => symCountRegs t sym
  | .huffCountRegion p => planeCountRegs p
  | .huffFromCounts t => lenRegs t
  | .huffDecSym _ => [.brPos, .huffSym]
  | .huffEncSym _ _ | .huffEncRegion _ => [.bwPos]
  | .huffDecRegion _ => [.brPos]
  | .frameDecode => frameRegs .decode
  | .frameEncode => frameRegs .encode

/-! ### What a scan leaves (41_predictor R251 to R258) -/

/-- Memory `m` holds at every pixel of the region the value that the rules give for hop `hop x y`,
the HopState before pixel number `k` being `hs k` (41_predictor R251 to R256): the HopState begins at
(7, false), a pixel's prediction comes from the reconstruction of the same scan, the top-left pixel is
the seed, and every pixel adapts the HopState. -/
structure State.ScanTrace (s : State) (p : Plane) (m : Memory) (hop : Nat → Nat → Hop)
    (hs : Nat → Nat × Bool) : Prop where
  start : hs 0 = (Config.startStep, false)
  pixel : ∀ i j, i < s.region.w.toNat → j < s.region.h.toNat →
    let x := s.region.x0.toNat + i
    let y := s.region.y0.toNat + j
    let k := j * s.region.w.toNat + i
    let c := pixelClass s.region.w.toNat i j
    let u := pixelHopState c (hs k).1 (hs k).2
    let pred := (s.withMem m).predOf p c x y
    m.read (s.dstAddr p x y).toNat =
        (if c = .topLeft then s.seeds.seed
         else BitVec.ofNat 8 (recValue pred.toNat s.cfg.ratio.toNat u.1 (hop x y))) ∧
      hs (k + 1) = adapt u.1 u.2 (hop x y)

/-- The hop that the encoder chooses at every pixel of the region (41_predictor R258): the best one
for the original `orig x y`. -/
def State.ChosenHops (s : State) (p : Plane) (m : Memory) (orig : Nat → Nat → Byte)
    (hop : Nat → Nat → Hop) (hs : Nat → Nat × Bool) : Prop :=
  ∀ i j, i < s.region.w.toNat → j < s.region.h.toNat →
    let x := s.region.x0.toNat + i
    let y := s.region.y0.toNat + j
    let k := j * s.region.w.toNat + i
    let c := pixelClass s.region.w.toNat i j
    hop x y = bestHop s.cfg.ratio.toNat (pixelHopState c (hs k).1 (hs k).2).1 (orig x y).toNat
      ((s.withMem m).predOf p c x y).toNat

/-- The originals are read before they are overwritten: a SRC byte of the region is a DST byte only of
the same pixel (in place, 41_predictor R259), and no HOP byte of the region and not the seed slot. -/
structure State.originalsSafe (s : State) (p : Plane) : Prop where
  dst : ∀ x y x' y', s.inRegion x y → s.inRegion x' y' → s.srcAddr p x y = s.dstAddr p x' y' →
    x = x' ∧ y = y'
  hop : s.apartOn (s.srcAddr p) (s.hopAddr p)
  seed : ∀ x y, s.inRegion x y → s.srcAddr p x y ≠ s.seedAddr

end Sys2Proof.Machine

namespace Sys2Proof

open Machine

/-! ### Fields a command reads, and what it may write (30_encoding R152 to R157) -/

/-- Column P of 30_encoding R157. -/
def Instr.readsPlane : Instr → Bool
  | .planeGeom _ | .blockGeom _ _ _ | .hopBeginDec _ | .hopBeginEnc _ => true
  | .hopDecRegion _ | .hopEncRegion _ | .huffCountRegion _ => true
  | .huffDecRegion _ | .huffEncRegion _ => true
  | _ => false

/-- Column T of 30_encoding R157. -/
def Instr.readsTbl : Instr → Bool
  | .huffBuild _ | .huffReadHdr _ | .huffWriteHdr _ | .huffClearCounts _ => true
  | .huffCountSym _ _ | .huffFromCounts _ | .huffDecSym _ | .huffEncSym _ _ => true
  | _ => false

/-- Column S of 30_encoding R157. -/
def Instr.readsSym : Instr → Bool
  | .huffCountSym _ _ | .huffEncSym _ _ => true
  | _ => false

/-- Column B of 30_encoding R157. -/
def Instr.readsBlock : Instr → Bool
  | .blockGeom _ _ _ => true
  | _ => false

/-- The OP values that R158 of 30_encoding lists as illegal. -/
def illegalOp (op : Nat) : Prop :=
  (0x05 ≤ op ∧ op ≤ 0x07) ∨ (0x0C ≤ op ∧ op ≤ 0x0F) ∨ (0x17 ≤ op ∧ op ≤ 0x1F) ∨
  (0x2B ≤ op ∧ op ≤ 0x2F) ∨ (0x32 ≤ op ∧ op ≤ 0x37) ∨ (0x39 ≤ op ∧ op ≤ 0x3F) ∨
  (0x42 ≤ op ∧ op ≤ 0xFF)

/-- The OP values of the nine plane commands (30_encoding R152). -/
def planeOps : List Nat := [0x10, 0x11, 0x12, 0x13, 0x15, 0x16, 0x25, 0x29, 0x2A]

/-- The command stores no byte of memory. -/
def Instr.storesNothing : Instr → Bool
  | .nop | .buildTables | .lutReadRec | .lutReadBest | .checkConfig | .hdrRead => true
  | .planeGeom _ | .blockGeom _ _ _ | .hopBeginDec _ => true
  | .huffBuild _ | .huffReadHdr _ | .huffClearCounts _ | .huffCountSym _ _ => true
  | .huffCountRegion _ | .huffFromCounts _ | .huffDecSym _ => true
  | _ => false

/-- The command stores only through the bit writer. -/
def Instr.storesStream : Instr → Bool
  | .hdrWrite | .seedsWrite | .meshWrite | .bwFlush => true
  | .huffWriteHdr _ | .huffEncSym _ _ | .huffEncRegion _ => true
  | _ => false

/-- The command may change HUFF_VALID_t. -/
def Instr.writesValid (t : Tbl) : Instr → Bool
  | .huffBuild u | .huffReadHdr u | .huffFromCounts u => u == t
  | .frameDecode | .frameEncode => true
  | _ => false

/-- The command may change the scan fields of STATUS. -/
def Instr.writesScan : Instr → Bool
  | .hopBeginDec _ | .hopBeginEnc _ | .hopStep | .hopDecRegion _ | .hopEncRegion _ => true
  | .frameDecode | .frameEncode => true
  | _ => false

end Sys2Proof
end

