-- ==== Sys2Proof/Certificates/Slice0/Obligations.lean ====
section
/-! DEFINITION. The statements about the model, each with the rule of the spec it formalises. Nothing
is proved here. -/

open Sys2Proof Sys2Proof.Machine

/-! ### Encoding -/

/-- 30_encoding R165: the four examples, in both directions. The last two words are illegal, and
running one raises E_ILLEGAL_CMD. -/
def Obligations.DecodeReadsWrittenWords : Prop :=
  encode (.blockGeom 1#2 2#8 1#8) = 0x01020111#32 ∧
  decode 0x01020111#32 = .ok (.blockGeom 1#2 2#8 1#8) ∧
  encode (.huffEncSym .chroma 8#4) = 0x00008428#32 ∧
  decode 0x00008428#32 = .ok (.huffEncSym .chroma 8#4) ∧
  encode (.hopDecRegion 3#2) = 0x00000315#32 ∧
  (∀ s, runWord 0x00000315#32 s = .next (s.raiseEnd .illegalCmd)) ∧
  (∀ s, runWord 0x000000FF#32 s = .next (s.raiseEnd .illegalCmd))

/-- Decoding gives back every well-formed command, with every value of its fields (30_encoding R150,
R157). -/
def Obligations.DecodeEncodeRoundTrip : Prop :=
  ∀ i : Instr, i.wellFormed = true → decode (encode i) = .ok i

/-- 30_encoding R158: exactly the listed OP values, and PLANE = 3 in the nine plane commands, are
illegal; an illegal word raises E_ILLEGAL_CMD with no other effect, and ERR_CMD records the word. -/
def Obligations.IllegalWordsAreTheListedOnes : Prop :=
  ∀ w : Word,
    ((∀ i, decode w ≠ .ok i) ↔
      illegalOp (fieldOp w).toNat ∨ ((fieldOp w).toNat ∈ planeOps ∧ fieldPlane w = 3#2)) ∧
    ((∀ i, decode w ≠ .ok i) → ∀ s : State, ∀ r, s.eng.running = some r → r.word = w →
      ∃ t, runWord w s = .next t ∧ (t.withEng s.eng).withRaces s.races = s ∧
        t.eng.running = none ∧ t.eng.irqDone = true ∧ t.eng.cmd = s.eng.cmd ∧
        (s.quiet → t.eng.err = .illegalCmd ∧ t.eng.errCmd = w ∧ t.eng.errReg = false ∧
          t.eng.irqErr = true))

/-- 30_encoding R156: two words with one OP that agree in the fields the command uses are the same
command. -/
def Obligations.IgnoredFieldsDoNotMatter : Prop :=
  ∀ (w w' : Word) (i : Instr), decode w = .ok i → fieldOp w' = fieldOp w →
    (i.readsPlane = true → fieldPlane w' = fieldPlane w) →
    (i.readsTbl = true → fieldTbl w' = fieldTbl w) →
    (i.readsSym = true → fieldSym w' = fieldSym w) →
    (i.readsBlock = true → fieldBx w' = fieldBx w ∧ fieldBy w' = fieldBy w) →
    decode w' = .ok i

/-! ### The step and the register port -/

/-- 10_state R34: a command word written to CMD on an idle core with no error runs as the decoder reads
it, on the state with CMD and BUSY set, when no later access lands while it runs; and a command that is
running comes to its end the same way. Every decoded command is well formed. That one step takes in the
whole command, and which accesses land while it runs, is the model's choice (assumption log 1, 2). -/
def Obligations.StepRunsTheDecodedCommand : Prop :=
  ∀ (s : State) (w : Word) (i : Instr), decode w = .ok i →
    i.wellFormed = true ∧
    (∀ d rest, s.eng.running = none → s.quiet →
      s.inbox = { access := regWriteOf .cmd w, during := d } :: rest →
      (∀ q ∈ rest.head?, q.during = none) →
      step s = exec i (s.accepted w rest)) ∧
    (∀ r, s.eng.running = some r → r.word = w → (∀ q ∈ s.inbox.head?, q.during = none) →
      step s = exec i s)

/-- 60_exceptions R603, R604: while an error is recorded, a command written to CMD is discarded (only
CMD takes the word, and DONE does not change), and no step but a reset changes the record. -/
def Obligations.ErrorIsStickyUntilReset : Prop :=
  (∀ (s : State) (w : Word) d rest, s.eng.running = none → ¬ s.quiet →
    s.inbox = { access := regWriteOf .cmd w, during := d } :: rest →
    step s = .next (((s.withEng { s.eng with cmd := w }).withBus .ack).withInbox rest)) ∧
  (∀ s t : State, ¬ s.quiet → ¬ s.resetNext → step s = .next t →
    t.eng.err = s.eng.err ∧ t.eng.errCmd = s.eng.errCmd ∧ t.eng.errReg = s.eng.errReg)

/-- 60_exceptions R605: a write that lands while a command runs. To CMD: the word is stored, not
executed. To another RW register but CTRL: the value is discarded. Either way E_BUSY is recorded if no
error stood, with the word or the offset, and the command keeps running with nothing else changed. -/
def Obligations.BusyWriteRecordsBusyError : Prop :=
  ∀ (s : State) (r : Running) (reg : Reg) (v : Word) (k : Nat) rest,
    s.eng.running = some r →
    s.inbox = { access := regWriteOf reg v, during := some k } :: rest →
    reg.access = .readWrite → reg ≠ .ctrl →
    ∃ t, step s = .next t ∧
      t.eng.running = some { r with progress := r.progress + k } ∧
      t.eng.cmd = (if reg = .cmd then v else s.eng.cmd) ∧
      t.eng.irqDone = s.eng.irqDone ∧
      (s.quiet → t.eng.err = .busy ∧ t.eng.errReg = decide (reg ≠ .cmd) ∧ t.eng.irqErr = true ∧
        t.eng.errCmd = (if reg = .cmd then v else BitVec.ofNat 32 reg.offset)) ∧
      (¬ s.quiet → t.eng.err = s.eng.err ∧ t.eng.errReg = s.eng.errReg ∧
        t.eng.irqErr = s.eng.irqErr ∧ t.eng.errCmd = s.eng.errCmd) ∧
      ((t.withEng s.eng).withInbox s.inbox).withBus s.bus = s

/-- 60_exceptions R605, R611: what a command does to everything but the engine's own registers does not
depend on those registers, so an error recorded while it runs does not disturb it. -/
def Obligations.EngineDoesNotSteerCommands : Prop :=
  ∀ (i : Instr) (s : State) (e : Engine) (t t' : State),
    exec i s = .next t → exec i (s.withEng e) = .next t' → t'.withEng t.eng = t

/-- 70_reset R701, R702: soft reset. On an idle core every register but STATUS takes its reset value,
STATUS keeps TABLES_VALID alone, the tables keep their contents and memory does not change. While a
command runs, the same, and memory is what the command had written by then: the prefix of its actions
that the access gives (the model's choice, assumption log 9). -/
def Obligations.SoftResetKeepsTablesAndMemory : Prop :=
  ∀ (s : State) (v : Word) rest, v.getLsbD 0 = true →
    (∀ d, s.eng.running = none → s.inbox = { access := regWriteOf .ctrl v, during := d } :: rest →
      ∃ t, step s = .next t ∧ (∀ r, r ≠ .status → t.readReg r = r.resetValue) ∧
        t.statusWord = (if s.tablesValid then 2#32 else 0#32) ∧ t.luts = s.luts ∧ t.mem = s.mem) ∧
    (∀ r k, s.eng.running = some r →
      s.inbox = { access := regWriteOf .ctrl v, during := some k } :: rest →
      ∃ t, step s = .next t ∧ (∀ r, r ≠ .status → t.readReg r = r.resetValue) ∧
        t.statusWord = (if s.tablesValid then 2#32 else 0#32) ∧ t.luts = s.luts ∧
        t.mem = (stateAfter s ((wordBody r.word).acts s) (r.progress + k)).mem)

/-- 10_state R32, R37, R57, R64: on an idle core a written RW register (CMD and CTRL apart) reads back the
value, truncated to its fields, and no other register changes but those a Huffman length write
invalidates: it clears HUFF_VALID_t, even with the value the register holds. A write to a read-only
register changes none. A CTRL write with bit 0 = 0 stores IRQ_EN and INTERIOR_VARIANT on an idle core;
while a command runs it stores IRQ_EN and keeps INTERIOR_VARIANT, records no error and lets the command
run on. Memory does not change. -/
def Obligations.RegisterWriteThenRead : Prop :=
  ∀ (s : State) (r : Reg) (v : Word) d rest,
    s.inbox = { access := regWriteOf r v, during := d } :: rest →
    (s.eng.running = none → r.stores = true →
      ∃ t, step s = .next t ∧ t.readReg r = v &&& r.writeMask ∧
      (∀ r', r'.affectedBy r = false → t.readReg r' = s.readReg r') ∧
      (∀ u, (t.table u).valid =
        ((s.table u).valid && decide (r ≠ .huffLenLo u) && decide (r ≠ .huffLenHi u))) ∧
      t.mem = s.mem ∧ t.bus = .ack) ∧
    (s.eng.running = none → r.access = .readOnly →
      ∃ t, step s = .next t ∧ (∀ r', t.readReg r' = s.readReg r') ∧ t.mem = s.mem ∧ t.bus = .ack) ∧
    (s.eng.running = none → r = .ctrl → v.getLsbD 0 = false →
      ∃ t, step s = .next t ∧ t.readReg .ctrl = v &&& 6#32 ∧
      (∀ r', r' ≠ .ctrl → t.readReg r' = s.readReg r') ∧ t.mem = s.mem ∧ t.bus = .ack) ∧
    (∀ run k, s.eng.running = some run → d = some k → r = .ctrl → v.getLsbD 0 = false →
      ∃ t, step s = .next t ∧ t.readReg .ctrl = (v &&& 4#32) ||| (s.readReg .ctrl &&& 2#32) ∧
      (∀ r', r' ≠ .ctrl → t.readReg r' = s.readReg r') ∧ t.mem = s.mem ∧ t.bus = .ack ∧
      t.eng.running = some { run with progress := run.progress + k })

/-- 10_state R33, 70_reset R700, R702: after hard reset every register reads the map's reset column, IRQ is
0, nothing is running and the tables are unspecified. A step that takes the hard reset leaves such a
state: on an idle core with memory as it was; while a command runs with what the command had written by
then, the prefix of its actions that the access gives (the model's choice, assumption log 9). -/
def Obligations.ResetColumnOfTheMap : Prop :=
  let column : State → Prop := fun t => (∀ r : Reg, t.readReg r = r.resetValue) ∧ t.irq = false ∧
    t.eng.running = none ∧ t.luts = .unspecified
  column State.reset ∧
  (∀ (s : State) d rest, s.inbox = { access := .hardReset, during := d } :: rest →
    (s.eng.running = none →
      ∃ t, step s = .next t ∧ column t ∧ t.mem = s.mem ∧ t.inbox = rest) ∧
    (∀ r k, s.eng.running = some r → d = some k →
      ∃ t, step s = .next t ∧ column t ∧ t.inbox = rest ∧
        t.mem = (stateAfter s ((wordBody r.word).acts s) (r.progress + k)).mem))

/-- 10_state R32: an access that is not 32 bits wide or not aligned gets a bus error and changes no
register and no memory; an offset that the map does not list reads 0 and ignores writes; a read changes
nothing. On an idle core a read of a register gives its value. While a command runs the same holds of
CTRL, IRQ_STATUS, CMD, ERR_CMD and every register that no action of the command writes; STATUS reads as
the command has left it by then (after the prefix of its actions that the access gives, assumption log
18), and a register that an action writes reads as some value (free, assumption log 7). -/
def Obligations.BusErrorsAndUnmappedOffsets : Prop :=
  ∀ (s : State) (bits : Nat) (off : BitVec 9) (v : Word) d rest, (s.eng.running = none ∨ ∃ k, d = some k) →
    let k := d.getD 0
    let s' := match s.eng.running with
      | none => s.withInbox rest
      | some r => (s.withInbox rest).advance r k
    (∀ a, (a = .regWrite bits off v ∨ a = .regRead bits off) →
      s.inbox = { access := a, during := d } :: rest →
      (bits ≠ 32 ∨ off.toNat % 4 ≠ 0) → step s = .next (s'.withBus .busError)) ∧
    (s.inbox = { access := .regWrite 32 off v, during := d } :: rest → off.toNat % 4 = 0 →
      (∀ r : Reg, r.offset ≠ off.toNat) → step s = .next (s'.withBus .ack)) ∧
    (s.inbox = { access := .regRead 32 off, during := d } :: rest → off.toNat % 4 = 0 →
      (∀ r : Reg, r.offset ≠ off.toNat) → step s = .next (s'.withBus (.data 0))) ∧
    (∀ reg : Reg, s.inbox = { access := .regRead 32 (BitVec.ofNat 9 reg.offset), during := d } :: rest →
      (s.eng.running = none → step s = .next (s'.withBus (.data (s.readReg reg)))) ∧
      (∀ r, s.eng.running = some r →
        let acts := (wordBody r.word).acts s'
        (reg = .status → step s = .next (s'.withBus
          (.data (stateAfter s' acts (r.progress + k)).statusWord))) ∧
        (reg = .ctrl ∨ reg = .irqStatus ∨ reg = .cmd ∨ reg = .errCmd →
          step s = .next (s'.withBus (.data (s.readReg reg)))) ∧
        (reg ≠ .status → (∀ a ∈ acts, reg ∉ a.regs) →
          step s = .next (s'.withBus (.data (s.readReg reg)))) ∧
        ((∃ a ∈ acts, reg ∈ a.regs) →
          ∃ x, step s = .next ((s'.withBus (.data x)).withDraws (s.draws + 1)))))

/-- 60_exceptions R607, 10_state R36: the IRQ output is a function of the registers as they read: CTRL
bit 2 and (IRQ_STATUS bit 0 or bit 1). A write to IRQ_STATUS, idle or while a command runs, clears each
bit written as 1 and changes no other register, ERR included. -/
def Obligations.IrqFollowsRegistersAndIsWriteOneToClear : Prop :=
  (∀ s : State, s.irq = ((s.readReg .ctrl).getLsbD 2 &&
    ((s.readReg .irqStatus).getLsbD 0 || (s.readReg .irqStatus).getLsbD 1))) ∧
  (∀ (s : State) (v : Word) d rest,
    s.inbox = { access := regWriteOf .irqStatus v, during := d } :: rest →
    (s.eng.running = none ∨ ∃ k, d = some k) →
    ∃ t, step s = .next t ∧ t.readReg .irqStatus = s.readReg .irqStatus &&& ~~~v ∧
      (∀ r, r ≠ .irqStatus → t.readReg r = s.readReg r) ∧ t.mem = s.mem)


/-- 10_state R34, 60_exceptions R602, R603, 70_reset R712: every command ends: BUSY is 0 and DONE is 1.
If its body raises, the first error is recorded with the command's word, and an earlier record stays;
if it does not, the record is as before. Outside a run the command's word is CMD (the model's choice,
assumption log 13). -/
def Obligations.EveryCommandEndsAndRecordsItsError : Prop :=
  ∀ (i : Instr) (s : State), ∃ t, exec i s = .next t ∧
    t.eng.running = none ∧ t.eng.irqDone = true ∧ t.eng.cmd = s.eng.cmd ∧ t.calm ∧
    (∀ u, (commandBody i).out s = .ok () u → t = u.finish ∧ u.eng = s.eng) ∧
    (∀ e u, (commandBody i).out s = .raised e u → e ≠ .noError ∧
      (t.withEng u.eng).withRaces u.races = u ∧ u.eng = s.eng ∧
      (s.quiet → t.eng.err = e ∧ t.eng.errCmd = s.commandWord ∧ t.eng.errReg = false ∧
        t.eng.irqErr = true) ∧
      (¬ s.quiet → t.eng.err = s.eng.err ∧ t.eng.errCmd = s.eng.errCmd ∧
        t.eng.errReg = s.eng.errReg ∧ t.eng.irqErr = s.eng.irqErr))

/-- 60_exceptions R606, 30_encoding R152: the checks that come first. A command that fails one of them
changes nothing but the error record: PLANE = 3; tables not built; no active scan; an invalid Huffman
table; an illegal frame and an illegal region, with the error that 44_frame R402 and 42_mesh R304 give
for the first check that fails. -/
def Obligations.ChecksComeFirst : Prop :=
  ∀ (s : State) (f : BitVec 2) (p : Plane) (t : Tbl) (sym : BitVec 4) (bx row : BitVec 8),
    Plane.ofField f = some p →
    (∀ i ∈ [Instr.planeGeom 3, .blockGeom 3 bx row, .hopBeginDec 3, .hopBeginEnc 3, .hopDecRegion 3,
        .hopEncRegion 3, .huffCountRegion 3, .huffDecRegion 3, .huffEncRegion 3],
      exec i s = .next (s.raiseEnd .illegalCmd)) ∧
    (s.tablesValid = false →
      ∀ i ∈ [Instr.lutReadRec, .lutReadBest, .hopBeginDec f, .hopBeginEnc f, .hopStep,
          .hopDecRegion f, .hopEncRegion f, .frameDecode, .frameEncode],
        exec i s = .next (s.raiseEnd .sequence)) ∧
    (s.scan.active = false → exec .hopStep s = .next (s.raiseEnd .sequence)) ∧
    ((s.table t).valid = false →
      ∀ i ∈ [Instr.huffWriteHdr t, .huffDecSym t, .huffEncSym t sym],
        exec i s = .next (s.raiseEnd .huffInvalid)) ∧
    ((s.table p.tbl).valid = false →
      ∀ i ∈ [Instr.huffDecRegion f, .huffEncRegion f],
        exec i s = .next (s.raiseEnd .huffInvalid)) ∧
    (∀ e, s.frameFails e →
      ∀ i ∈ [Instr.checkConfig, .hdrWrite, .seedsRead, .seedsWrite, .meshRead, .meshWrite,
          .planeGeom f, .blockGeom f bx row],
        exec i s = .next (s.raiseEnd e)) ∧
    (∀ e, s.regionFails p e →
      exec (.huffCountRegion f) s = .next (s.raiseEnd e) ∧
      (s.tablesValid = true → ∀ i ∈ [Instr.hopBeginDec f, .hopBeginEnc f, .hopDecRegion f,
          .hopEncRegion f], exec i s = .next (s.raiseEnd e)) ∧
      ((s.table p.tbl).valid = true → ∀ i ∈ [Instr.huffDecRegion f, .huffEncRegion f],
        exec i s = .next (s.raiseEnd e)))

/-- 20_memory R121: host accesses to memory. On an idle core a write stores its byte and a read answers
it. While a command runs, so they do at a byte that the command does not touch, and the command keeps
running; at a byte that it touches they are a race, in which a read answers some value, and a write
changes no other byte and leaves the byte raced until the command ends (the value is the model's free
value, assumption log 8; how far the command has come is the access's, assumption log 2). -/
def Obligations.HostMemoryAccessesAndRaces : Prop :=
  ∀ (s : State) (a : Word) (v : Byte) d rest,
    (s.eng.running = none →
      (s.inbox = { access := .memWrite a v, during := d } :: rest →
        ∃ t, step s = .next t ∧ t.byteAt a = v ∧ (∀ b, b ≠ a → t.byteAt b = s.byteAt b) ∧
          ((t.withMem s.mem).withInbox s.inbox).withBus s.bus = s) ∧
      (s.inbox = { access := .memRead a, during := d } :: rest →
        step s = .next ((s.withInbox rest).withBus (.byte (s.byteAt a))))) ∧
    (∀ r k, s.eng.running = some r → d = some k →
      let r' := { r with progress := r.progress + k }
      let s' := (s.withInbox rest).advance r k
      (s.inbox = { access := .memWrite a v, during := d } :: rest →
        ∃ t, step s = .next t ∧ t.eng = { s.eng with running := some r' } ∧
          (∀ b, b ≠ a → t.byteAt b = s.byteAt b) ∧
          (contended r' s' a = false → t.byteAt a = v ∧ t.races = s.races) ∧
          (contended r' s' a = true → t.races = a :: s.races)) ∧
      (s.inbox = { access := .memRead a, during := d } :: rest →
        (contended r' s' a = false → step s = .next (s'.withBus (.byte (s.byteAt a)))) ∧
        (contended r' s' a = true →
          ∃ x, step s = .next ((s'.withBus (.byte x)).withDraws (s.draws + 1)))))

/-! ### The machine's invariant -/

/-- Every step keeps the invariant of the machine: memory in canonical form, TABLES_VALID only over
built tables (10_state R60), and, while no error is recorded, STEP in [4, 10] (41_predictor R260) and
no stale Huffman code (10_state R61, 70_reset R708), and races only while a command runs (20_memory
R121). -/
def Obligations.StepKeepsMachineInvariant : Prop :=
  ∀ s t : State, s.Inv → step s = .next t → t.Inv

/-- The state after reset meets the invariant. -/
def Obligations.ResetMeetsInvariant : Prop := State.reset.Inv

/-! ### Frames -/

/-- 10_state R32 to R61, 60_exceptions R602, R603: a command changes no register but those that its
actions write, which are among those its rule names; of STATUS, BUSY falls, ERR and ERR_REG change only
if it records an error, TABLES_VALID by BUILD_TABLES, HUFF_VALID_t by the commands that build table t,
the scan fields by the predictor; of IRQ_STATUS, DONE rises, and ERRP only with a recorded error; ERR_CMD
changes only then. It never changes the platform's parameters, the accesses still to come or the bus's
last answer. -/
def Obligations.CommandsWriteOnlyTheirRegisters : Prop :=
  ∀ (i : Instr) (s t : State), exec i s = .next t →
    (∀ a ∈ (commandBody i).acts s, ∀ r ∈ a.regs, r ∈ writesRegs i) ∧
    (∀ r, (∀ a ∈ (commandBody i).acts s, r ∉ a.regs) →
      r ≠ .status → r ≠ .irqStatus → r ≠ .errCmd → t.readReg r = s.readReg r) ∧
    (t.eng = { s.eng with running := none, irqDone := true } ∨
      ∃ e, s.quiet ∧ t.eng = { s.eng with
        running := none, irqDone := true, err := e, errCmd := s.commandWord, errReg := false,
        irqErr := true }) ∧
    (i ≠ .buildTables → t.tablesValid = s.tablesValid ∧ t.luts = s.luts) ∧
    (∀ u, i.writesValid u = false → (t.table u).valid = (s.table u).valid) ∧
    (i.writesScan = false → t.scan = s.scan) ∧
    t.plat = s.plat ∧ t.inbox = s.inbox ∧ t.bus = s.bus

/-- The commands that store nothing leave all of memory as it is, however they end. -/
def Obligations.NonStoringCommandsKeepMemory : Prop :=
  ∀ (i : Instr) (s t : State), i.storesNothing = true → exec i s = .next t → t.mem = s.mem

/-- The commands that write through the bit writer change no byte but those of the bits from BW_POS
before to BW_POS after, however they end, and BW_POS never passes BW_LIMIT by them (20_memory R113). -/
def Obligations.StreamWritersStoreOnlyTheirBits : Prop :=
  ∀ (i : Instr) (s t : State), i.storesStream = true → exec i s = .next t →
    s.writer.pos.toNat ≤ t.writer.pos.toNat ∧
    t.writer.base = s.writer.base ∧
    (s.writer.pos.toNat ≤ s.writer.limit.toNat → t.writer.pos.toNat ≤ s.writer.limit.toNat) ∧
    ∀ a, ¬ inStream s.writer.base s.writer.pos.toNat (t.writer.pos.toNat - s.writer.pos.toNat) a →
      t.mem.read a = s.mem.read a

/-- The other commands that store change no byte but those their rules name, however they end: the seed
array, the mesh array, the seed slot, the pixel at the cursor, the region's DST and HOP bytes. -/
def Obligations.BufferWritersStoreOnlyTheirBytes : Prop :=
  ∀ (s t : State) (f : BitVec 2) (p : Plane) (a : Nat), Plane.ofField f = some p →
    (exec .seedsRead s = .next t → (∀ i, i < s.cfg.seedCount → a ≠ (s.seedSlot i).toNat) →
      t.mem.read a = s.mem.read a) ∧
    (exec .meshRead s = .next t → (∀ k, k < s.cfg.cornerCount → a ≠ (s.meshByteAddr k).toNat) →
      t.mem.read a = s.mem.read a) ∧
    (exec (.hopBeginEnc f) s = .next t → a ≠ s.seedAddr.toNat → t.mem.read a = s.mem.read a) ∧
    (exec .hopStep s = .next t → a ≠ (s.dstAddr s.scan.plane s.cursorX s.cursorY).toNat →
      (s.scan.dir = .encode → a ≠ (s.hopAddr s.scan.plane s.cursorX s.cursorY).toNat) →
      t.mem.read a = s.mem.read a) ∧
    (exec (.hopDecRegion f) s = .next t →
      (∀ x y, s.inRegion x y → a ≠ (s.dstAddr p x y).toNat) → t.mem.read a = s.mem.read a) ∧
    (exec (.hopEncRegion f) s = .next t → a ≠ s.seedAddr.toNat →
      (∀ x y, s.inRegion x y → a ≠ (s.dstAddr p x y).toNat ∧ a ≠ (s.hopAddr p x y).toNat) →
      t.mem.read a = s.mem.read a) ∧
    (exec (.huffDecRegion f) s = .next t →
      (∀ x y, s.inRegion x y → a ≠ (s.hopAddr p x y).toNat) → t.mem.read a = s.mem.read a)

/-! ### Bit streams -/

/-- 20_memory R115: the reader, pointed at bits that the writer produced, reads them back, whatever
further bits the writer appends before it does. -/
def Obligations.WrittenBitsReadBack : Prop :=
  ∀ (v n u k : Nat) (s : State) (r : BitReader), v < 2 ^ n → s.calm →
    s.canWrite (n + k) →
    r.base = s.writer.base → r.pos = s.writer.pos → s.writer.pos.toNat + n ≤ r.budget.toNat →
    ∃ t, ((writeBits v n).seq (writeBits u k)).out s = .ok () t ∧
      (readBits n).out (t.withReader r) = .ok v ((t.withReader r).consumed n)

/-- 20_memory R111, 44_frame R413: a header cut off by the budget raises E_TRUNCATED, writes no register
but BR_POS, which is left at BR_BUDGET, and stores nothing; at or past the budget no bit is consumed. -/
def Obligations.TruncatedHeaderWritesNoRegister : Prop :=
  ∀ s : State, s.reader.budget.toNat < s.reader.pos.toNat + 88 →
    exec .hdrRead s = .next
      ((s.withReader { s.reader with
        pos := if s.reader.pos < s.reader.budget then s.reader.budget else s.reader.pos }).raiseEnd
        .truncated)

/-! ### Tables -/

/-- 40_tables R210, 10_state R60: BUILD_TABLES ends with TABLES_VALID set and every entry at the value
of REC and BEST, and changes nothing else. -/
def Obligations.BuildTablesFillsBothTables : Prop :=
  ∀ s : State, ∃ t : State, exec .buildTables s = .next t.finish ∧ t.tablesReady ∧
    (∀ p r k h, t.luts.recon p r k h = BitVec.ofNat 8 (recValue p r k h)) ∧
    (∀ r k o p, t.luts.best r k o p = bestHop r k o p) ∧
    (t.withTablesValid s.tablesValid).withLuts s.luts = s

/-- 40_tables R211, R212: over built tables, with arguments in the domain, LUT_RESULT receives the
entry and nothing else changes; with an argument outside it, E_CONFIG and nothing else. -/
def Obligations.LutReadsReturnTableEntries : Prop :=
  ∀ s : State, s.tablesReady →
    (s.lut.inDomain = true →
      (∀ h : Hop, s.lut.x.toNat = h.val → exec .lutReadRec s = .next (s.withLut { s.lut with
        result := BitVec.ofNat 8 (recValue s.lut.p.toNat s.lut.r.toNat s.lut.s.toNat h) }).finish) ∧
      exec .lutReadBest s = .next (s.withLut { s.lut with
        result := BitVec.ofNat 8 (bestHop s.lut.r.toNat s.lut.s.toNat s.lut.x.toNat
          s.lut.p.toNat).val }).finish) ∧
    (s.lut.inDomain = false ∨ 8 < s.lut.x.toNat →
      exec .lutReadRec s = .next (s.raiseEnd .config)) ∧
    (s.lut.inDomain = false → exec .lutReadBest s = .next (s.raiseEnd .config))

/-- 40_tables R202, R203: `icbrt(n)` is the largest integer whose cube is at most n, and the integer
computation of a magnitude is the floor of the real formula `s · f^k` with
`f = max(1, min(r/10, (4d/5s)^(1/3)))`. -/
def Obligations.MagnitudeIsFloorOfRealFormula : Prop :=
  (∀ n : Nat, icbrt n ^ 3 ≤ n ∧ n < (icbrt n + 1) ^ 3) ∧
  ∀ r s k d : Nat, 20 ≤ r → r ≤ 40 → 1 ≤ s → s ≤ 19 → k ≤ 3 →
    magnitude r s k d =
      ⌊(s : ℝ) * (max 1 (min ((r : ℝ) / 10) (((4 * d : ℝ) / (5 * s)) ^ ((1 : ℝ) / 3)))) ^ k⌋₊

/-- 40_tables R207: for fixed p, r and s, REC is non-decreasing in the hop. -/
def Obligations.RecIsMonotoneInHop : Prop :=
  ∀ (p r s : Nat) (h h' : Hop), p < 256 → 20 ≤ r → r ≤ 40 → 1 ≤ s → s ≤ 19 → h ≤ h' →
    recValue p r s h ≤ recValue p r s h'

/-- 40_tables R208: BEST is the one hop that minimises (|REC − o|, |h − 4|) lexicographically. -/
def Obligations.BestIsTheUniqueMinimiser : Prop :=
  ∀ (r s o p : Nat) (h : Hop), p < 256 → o < 256 → 20 ≤ r → r ≤ 40 → 1 ≤ s → s ≤ 19 →
    h ≠ bestHop r s o p →
    absDiff (recValue p r s (bestHop r s o p)) o < absDiff (recValue p r s h) o ∨
    (absDiff (recValue p r s (bestHop r s o p)) o = absDiff (recValue p r s h) o ∧
      absDiff (bestHop r s o p).val 4 < absDiff h.val 4)


/-! ### Predictor -/

/-- 41_predictor R256, R260: the adaptation as the rule writes it, and its range: from a step in
[4, 10] it never leaves [4, 10]. -/
def Obligations.AdaptFollowsTheRule : Prop :=
  ∀ (step : Nat) (last : Bool) (h : Hop),
    ((adapt step last h).2 = true ↔ h = 3 ∨ h = 4 ∨ h = 5) ∧
    (adapt step last h).1 = (if (adapt step last h).2 = true ∧ last = true then max 4 (step - 1)
      else 10) ∧
    (4 ≤ step → step ≤ 10 → 4 ≤ (adapt step last h).1 ∧ (adapt step last h).1 ≤ 10)

/-- 41_predictor R263, R264: a scan begins: the seed is loaded (from the seed slot to decode, from the
region's first original sample, and stored to the slot, to encode), the cursor is (0, 0), HopState is
(7, 0), and the scan is active in its direction and plane. Nothing else changes. -/
def Obligations.HopBeginStartsTheScan : Prop :=
  ∀ (s : State) (f : BitVec 2) (p : Plane), Plane.ofField f = some p → s.tablesValid = true →
    s.regionOk p →
    let start : Dir → Scan := fun d =>
      { x := 0, y := 0, step := 7, lastSmall := false, active := true, dir := d, plane := p }
    let first := s.byteAt (s.srcAddr p s.region.x0.toNat s.region.y0.toNat)
    exec (.hopBeginDec f) s = .next (((s.withSeeds { s.seeds with
      seed := s.byteAt s.seedAddr }).withScan (start .decode)).finish) ∧
    exec (.hopBeginEnc f) s = .next ((((s.withSeeds { s.seeds with
      seed := first }).storeByte s.seedAddr first).withScan (start .encode)).finish)

/-- 41_predictor R265, decode direction: HOP_STEP predicts from the reconstruction, takes the hop from
the hop buffer, writes the value to DST, records the pixel, adapts HopState and moves the cursor. The
seed of the top-left pixel is SEED (the model's reading of 70_reset R709, assumption log 26). Nothing
else changes. -/
def Obligations.HopStepDecodesOnePixel : Prop :=
  ∀ (s : State) (h : Hop), s.stepReady → s.scan.dir = .decode →
    let p := s.scan.plane
    let c := s.cursorClass
    let u := pixelHopState c s.scan.step.toNat s.scan.lastSmall
    let pred := s.predOf p c s.cursorX s.cursorY
    let value := if c = .topLeft then s.seeds.seed
      else BitVec.ofNat 8 (recValue pred.toNat s.cfg.ratio.toNat u.1 h)
    let a := adapt u.1 u.2 h
    (s.byteAt (s.hopAddr p s.cursorX s.cursorY)).toNat = h.val →
    exec .hopStep s = .next ((((s.storeByte (s.dstAddr p s.cursorX s.cursorY) value).withLastPix
      { pred := pred, value := value, hop := BitVec.ofNat 4 h.val, orig := 0 }).withScan
      (s.scanAfter a.1 a.2)).finish)

/-- 41_predictor R265, encode direction: the hop is the best one for the original pixel and goes to the
hop buffer; the rest is as when decoding, the seed too (the model's reading, assumption log 26). Nothing
else changes. -/
def Obligations.HopStepEncodesOnePixel : Prop :=
  ∀ s : State, s.stepReady → s.scan.dir = .encode →
    let p := s.scan.plane
    let c := s.cursorClass
    let u := pixelHopState c s.scan.step.toNat s.scan.lastSmall
    let pred := s.predOf p c s.cursorX s.cursorY
    let orig := s.byteAt (s.srcAddr p s.cursorX s.cursorY)
    let h := bestHop s.cfg.ratio.toNat u.1 orig.toNat pred.toNat
    let value := if c = .topLeft then s.seeds.seed
      else BitVec.ofNat 8 (recValue pred.toNat s.cfg.ratio.toNat u.1 h)
    let a := adapt u.1 u.2 h
    exec .hopStep s = .next (((((s.storeByte (s.hopAddr p s.cursorX s.cursorY)
      (BitVec.ofNat 8 h.val)).storeByte (s.dstAddr p s.cursorX s.cursorY) value).withLastPix
      { pred := pred, value := value, hop := BitVec.ofNat 4 h.val, orig := orig }).withScan
      (s.scanAfter a.1 a.2)).finish)

/-- 41_predictor R265: the errors of HOP_STEP after its first checks, in their order: an illegal region
(with the error of 42_mesh R304 and 44_frame R402), a cursor outside it, a hop byte above 8 when decoding. A step that raises writes nothing. -/
def Obligations.HopStepErrorsWriteNothing : Prop :=
  ∀ s : State, s.scan.active = true → s.tablesValid = true →
    (∀ e, s.regionFails s.scan.plane e → exec .hopStep s = .next (s.raiseEnd e)) ∧
    (s.regionOk s.scan.plane →
      (s.region.w.toNat ≤ s.scan.x.toNat ∨ s.region.h.toNat ≤ s.scan.y.toNat) →
      exec .hopStep s = .next (s.raiseEnd .config)) ∧
    (s.stepReady → s.scan.dir = .decode →
      8 < (s.byteAt (s.hopAddr s.scan.plane s.cursorX s.cursorY)).toNat →
      exec .hopStep s = .next (s.raiseEnd .hopRange))

/-- 41_predictor R251 to R257, R266: with every hop byte of the region at most 8 and no two of its bytes
shared, HOP_DEC_REGION writes every pixel's value by the rules, leaves the scan at (0, REGION_H), and
changes no other byte and no register but SEED, LAST_PIX and the scan. -/
def Obligations.HopDecRegionCompletes : Prop :=
  ∀ (s : State) (f : BitVec 2) (p : Plane) (hop : Nat → Nat → Hop),
    Plane.ofField f = some p → s.calm → s.tablesReady → s.regionOk p →
    (∀ x y, s.inRegion x y → (s.byteAt (s.hopAddr p x y)).toNat = (hop x y).val) →
    s.distinctOn (s.dstAddr p) → s.apartOn (s.dstAddr p) (s.hopAddr p) →
    let s0 := s.withSeeds { s.seeds with seed := s.byteAt s.seedAddr }
    ∃ m last hs, s0.ScanTrace p m hop hs ∧
      (∀ a, (∀ x y, s.inRegion x y → a ≠ (s.dstAddr p x y).toNat) → m.read a = s.mem.read a) ∧
      exec (.hopDecRegion f) s = .next ((((s0.withMem m).withLastPix last).withScan
        { x := 0, y := s.region.h,
          step := BitVec.ofNat 5 (hs (s.region.w.toNat * s.region.h.toNat)).1,
          lastSmall := (hs (s.region.w.toNat * s.region.h.toNat)).2,
          active := false, dir := .decode, plane := p }).finish)

/-- 41_predictor R251 to R258, R267: with originals that are read before they are overwritten (separate
buffers, or in place) and no two bytes shared, HOP_ENC_REGION stores the region's first original as the
seed, chooses for every pixel the best hop for its original, writes it and the value the decoder's rules
give, and changes no other byte and no register but SEED, LAST_PIX and the scan. -/
def Obligations.HopEncRegionCompletes : Prop :=
  ∀ (s : State) (f : BitVec 2) (p : Plane),
    Plane.ofField f = some p → s.calm → s.tablesReady → s.regionOk p →
    s.distinctOn (s.dstAddr p) → s.distinctOn (s.hopAddr p) →
    s.apartOn (s.dstAddr p) (s.hopAddr p) → s.originalsSafe p →
    (∀ x y, s.inRegion x y → s.dstAddr p x y ≠ s.seedAddr ∧ s.hopAddr p x y ≠ s.seedAddr) →
    let seed := s.byteAt (s.srcAddr p s.region.x0.toNat s.region.y0.toNat)
    let s0 := s.withSeeds { s.seeds with seed := seed }
    ∃ m last hs hop, s0.ScanTrace p m hop hs ∧
      s0.ChosenHops p m (fun x y => s.byteAt (s.srcAddr p x y)) hop hs ∧
      (∀ x y, s.inRegion x y → (m.read (s.hopAddr p x y).toNat).toNat = (hop x y).val) ∧
      m.read s.seedAddr.toNat = seed ∧
      (∀ a, a ≠ s.seedAddr.toNat →
        (∀ x y, s.inRegion x y → a ≠ (s.dstAddr p x y).toNat ∧ a ≠ (s.hopAddr p x y).toNat) →
        m.read a = s.mem.read a) ∧
      exec (.hopEncRegion f) s = .next ((((s0.withMem m).withLastPix last).withScan
        { x := 0, y := s.region.h,
          step := BitVec.ofNat 5 (hs (s.region.w.toNat * s.region.h.toNat)).1,
          lastSmall := (hs (s.region.w.toNat * s.region.h.toNat)).2,
          active := false, dir := .encode, plane := p }).finish)

/-- 41_predictor R261: closed-loop equality. A decode scan of the region that an encode scan covered,
with the same plane, ratio and variant, from the encoder's hops and seed, writes the encoder's
reconstruction pixel for pixel and ends in the encoder's HopState. -/
def Obligations.DecodeReproducesTheEncoder : Prop :=
  ∀ (e d t : State) (f : BitVec 2) (p : Plane), Plane.ofField f = some p →
    e.calm → e.tablesReady → e.regionOk p → e.distinctOn (e.dstAddr p) → e.distinctOn (e.hopAddr p) →
    e.apartOn (e.dstAddr p) (e.hopAddr p) → e.originalsSafe p →
    (∀ x y, e.inRegion x y → e.dstAddr p x y ≠ e.seedAddr ∧ e.hopAddr p x y ≠ e.seedAddr) →
    exec (.hopEncRegion f) e = .next t →
    d.calm → d.tablesReady → d.regionOk p → d.region = e.region → d.cfg.ratio = e.cfg.ratio →
    d.ctrl.interiorVariant = e.ctrl.interiorVariant →
    d.distinctOn (d.dstAddr p) → d.apartOn (d.dstAddr p) (d.hopAddr p) →
    d.byteAt d.seedAddr = t.byteAt e.seedAddr →
    (∀ x y, e.inRegion x y → d.byteAt (d.hopAddr p x y) = t.byteAt (e.hopAddr p x y)) →
    ∃ u, exec (.hopDecRegion f) d = .next u ∧ u.eng.err = d.eng.err ∧
      (∀ x y, e.inRegion x y → u.byteAt (d.dstAddr p x y) = t.byteAt (e.dstAddr p x y)) ∧
      u.scan.step = t.scan.step ∧ u.scan.lastSmall = t.scan.lastSmall ∧ u.seeds.seed = t.seeds.seed

/-! ### Geometry and mesh -/

/-- 44_frame R402, R412: CHECK_CONFIG ends without error exactly on the legal configurations, and else
with the error of the first check that fails: E_MALFORMED_HEADER for the mode, a dimension or a block
count; E_CONFIG for a chroma factor; E_MALFORMED_HEADER for 2^32 pixels or more; E_ALLOC above MAX_PIXELS;
E_MALFORMED_HEADER for an empty block; E_CONFIG for RATIO or CF. Nothing else changes. -/
def Obligations.CheckConfigAcceptsExactlyLegalFrames : Prop :=
  ∀ s : State,
    (s.frameOk ↔
      s.cfg.mode.toNat ≤ 2 ∧ s.cfg.width ≠ 0 ∧ s.cfg.height ≠ 0 ∧ s.cfg.gridW ≠ 0 ∧
      s.cfg.gridH ≠ 0 ∧ (s.cfg.sx = 1 ∨ s.cfg.sx = 2) ∧ (s.cfg.sy = 1 ∨ s.cfg.sy = 2) ∧
      s.cfg.width.toNat * s.cfg.height.toNat < 2 ^ 32 ∧
      s.cfg.width.toNat * s.cfg.height.toNat ≤ s.plat.maxPixels ∧
      (∀ p k, k < s.cfg.gridW.toNat → s.cfg.boundX p k < s.cfg.boundX p (k + 1)) ∧
      (∀ p k, k < s.cfg.gridH.toNat → s.cfg.boundY p k < s.cfg.boundY p (k + 1)) ∧
      20 ≤ s.cfg.ratio.toNat ∧ s.cfg.ratio.toNat ≤ 40 ∧ s.cfg.cf.toNat ≤ 256) ∧
    (s.frameOk → exec .checkConfig s = .next s.finish) ∧
    (¬ s.frameOk → ∃ e, s.frameFails e) ∧
    (∀ e, s.frameFails e → s.frameError = e ∧ exec .checkConfig s = .next (s.raiseEnd e))

/-- 42_mesh R300, R311: PLANE_GEOM sets the region, the block rectangle and the downsampled sides to the
whole plane and SEED_INDEX to the plane's first seed. Nothing else changes. -/
def Obligations.PlaneGeomCoversThePlane : Prop :=
  ∀ (s : State) (f : BitVec 2) (p : Plane), Plane.ofField f = some p → s.frameOk →
    let w := BitVec.ofNat 32 (s.cfg.planeW p)
    let h := BitVec.ofNat 32 (s.cfg.planeH p)
    exec (.planeGeom f) s = .next ((((s.withGeom
      { xIni := 0, xFin := w, yIni := 0, yFin := h, dsX := w, dsY := h }).withRegion
      { x0 := 0, y0 := 0, w := w, h := h }).withSeeds { s.seeds with
        seedIndex := BitVec.ofNat 32 (p.index * s.cfg.gridW.toNat * s.cfg.gridH.toNat) }).finish)

/-- 42_mesh R310, R312: BLOCK_GEOM of a block of the grid stores its rectangle and its sides, its own in
a basic mode and by the mesh in advanced mode, and selects its seed; nothing else changes. A block
outside the grid raises E_CONFIG, a corner code 6 or 7 E_MALFORMED_HEADER, with nothing written. -/
def Obligations.BlockGeomStoresTheBlock : Prop :=
  ∀ (s : State) (f : BitVec 2) (p : Plane) (bx row : BitVec 8), Plane.ofField f = some p →
    s.frameOk →
    let inGrid := bx.toNat < s.cfg.gridW.toNat ∧ row.toNat < s.cfg.gridH.toNat
    let x := BitVec.ofNat 32 (s.cfg.boundX p bx.toNat)
    let y := BitVec.ofNat 32 (s.cfg.boundY p row.toNat)
    let d := s.blockSize p bx.toNat row.toNat
    (inGrid → s.cornersOk bx.toNat row.toNat →
      exec (.blockGeom f bx row) s = .next ((((s.withGeom
        { xIni := x, xFin := BitVec.ofNat 32 (s.cfg.boundX p (bx.toNat + 1)),
          yIni := y, yFin := BitVec.ofNat 32 (s.cfg.boundY p (row.toNat + 1)),
          dsX := BitVec.ofNat 32 d.1, dsY := BitVec.ofNat 32 d.2 }).withRegion
        { x0 := x, y0 := y, w := BitVec.ofNat 32 d.1, h := BitVec.ofNat 32 d.2 }).withSeeds
        { s.seeds with seedIndex := BitVec.ofNat 32 (p.index * s.cfg.gridW.toNat *
          s.cfg.gridH.toNat + row.toNat * s.cfg.gridW.toNat + bx.toNat) }).finish)) ∧
    (inGrid → ¬ s.cornersOk bx.toNat row.toNat →
      exec (.blockGeom f bx row) s = .next (s.raiseEnd .malformedHeader)) ∧
    (¬ inGrid → exec (.blockGeom f bx row) s = .next (s.raiseEnd .config))

/-- 42_mesh R300 to R303: in a legal frame the blocks of a plane are its rectangle cut without gap or
overlap: every sample lies in exactly one block. -/
def Obligations.BlocksTileThePlane : Prop :=
  ∀ (s : State) (p : Plane), s.frameOk →
    s.cfg.boundX p 0 = 0 ∧ s.cfg.boundX p s.cfg.gridW.toNat = s.cfg.planeW p ∧
    s.cfg.boundY p 0 = 0 ∧ s.cfg.boundY p s.cfg.gridH.toNat = s.cfg.planeH p ∧
    ∀ x y, x < s.cfg.planeW p → y < s.cfg.planeH p →
      ∃! b : Nat × Nat, b.1 < s.cfg.gridW.toNat ∧ b.2 < s.cfg.gridH.toNat ∧
        s.cfg.boundX p b.1 ≤ x ∧ x < s.cfg.boundX p (b.1 + 1) ∧
        s.cfg.boundY p b.2 ≤ y ∧ y < s.cfg.boundY p (b.2 + 1)

/-- 42_mesh R306 to R309: with PPP the rational function of R307 over the six levels, PPP lies in
[1, pmax], and the sides that the model computes in whole numbers are those of R309. -/
def Obligations.DownsampledSidesFollowTheRationalFormula : Prop :=
  ∀ (n cf : Nat) (k : Corners), 1 ≤ n → cf ≤ 256 → k.legal →
    let level : Nat → ℚ := fun c => ([0, 1 / 8, 1 / 4, 1 / 2, 3 / 4, 1] : List ℚ).getD c 0
    let pmax : ℚ := max 1 ((n : ℚ) / 2)
    let ppp : Nat → ℚ := fun c => 1 + (pmax - 1) * ((cf : ℚ) / 256) * (1 - level c)
    let side : ℚ → ℚ → Nat := fun e1 e2 => min n (max 2 ⌈2 * (n : ℚ) / min e1 e2⌉₊)
    (∀ c, c ≤ 5 → 1 ≤ ppp c ∧ ppp c ≤ pmax) ∧
    k.sideX n cf = side (ppp (meshX k.tl) + ppp (meshX k.tr)) (ppp (meshX k.bl) + ppp (meshX k.br)) ∧
    k.sideY n cf = side (ppp (meshY k.tl) + ppp (meshY k.bl)) (ppp (meshY k.tr) + ppp (meshY k.br))

/-- 42_mesh R316, R317: a downsampled side lies between min(2, S) and S; with relevance 1 at all four
corners it is S, for any CF. -/
def Obligations.DownsampledSideStaysInBounds : Prop :=
  ∀ (n cf : Nat) (k : Corners),
    (min 2 n ≤ k.sideX n cf ∧ k.sideX n cf ≤ n) ∧ (min 2 n ≤ k.sideY n cf ∧ k.sideY n cf ≤ n) ∧
    ((meshX k.tl = 5 ∧ meshX k.tr = 5 ∧ meshX k.bl = 5 ∧ meshX k.br = 5) → k.sideX n cf = n) ∧
    ((meshY k.tl = 5 ∧ meshY k.tr = 5 ∧ meshY k.bl = 5 ∧ meshY k.br = 5) → k.sideY n cf = n)

/-- 42_mesh R313, R314: with six bits for every corner in the budget, all codes at most 5, and a mesh
array that is not the stream, MESH_READ stores at every corner `8·y + x` and advances BR_POS by six bits
a corner; with every corner legal and room, MESH_WRITE appends the x code and the y code of every corner.
Nothing else changes. -/
def Obligations.MeshCommandsMoveTheMeshArray : Prop :=
  ∀ s : State, s.calm → s.frameOk →
    let n := s.cfg.cornerCount
    (s.canRead (6 * n) →
      (∀ k, k < n → s.inputField (6 * k) 3 ≤ 5 ∧ s.inputField (6 * k + 3) 3 ≤ 5) →
      (∀ k, k < n →
        ¬ inStream s.reader.base s.reader.pos.toNat (6 * n) (s.meshByteAddr k).toNat) →
      ∃ m, exec .meshRead s = .next (((s.withMem m).consumed (6 * n)).finish) ∧
        (∀ k, k < n → m.read (s.meshByteAddr k).toNat =
          BitVec.ofNat 8 (8 * s.inputField (6 * k + 3) 3 + s.inputField (6 * k) 3)) ∧
        (∀ a, (∀ k, k < n → a ≠ (s.meshByteAddr k).toNat) → m.read a = s.mem.read a)) ∧
    (s.canWrite (6 * n) →
      (∀ k, k < n → meshLegal (s.byteAt (s.meshByteAddr k)) = true) →
      (∀ k, k < n →
        ¬ inStream s.writer.base s.writer.pos.toNat (6 * n) (s.meshByteAddr k).toNat) →
      ∃ m, exec .meshWrite s = .next (((s.withMem m).produced (6 * n)).finish) ∧
        Appended s.mem m s.writer.base s.writer.pos.toNat
          ((List.range n).flatMap fun k =>
            msbBits (meshX (s.byteAt (s.meshByteAddr k))) 3 ++
            msbBits (meshY (s.byteAt (s.meshByteAddr k))) 3))


/-! ### Huffman tables and symbols -/

/-- 43_huffman R353, R354, R356: HUFF_BUILD of a valid length set assigns the canonical codes and sets
HUFF_VALID_t; of an invalid one it clears both and raises E_HUFF_INVALID. Nothing else changes. -/
def Obligations.HuffBuildValidatesAndAssigns : Prop :=
  ∀ (s : State) (t : Tbl),
    (lensValid (s.table t).len = true → exec (.huffBuild t) s = .next (s.withTable t
      { s.table t with code := assignCodes (s.table t).len, valid := true }).finish) ∧
    (lensValid (s.table t).len = false → exec (.huffBuild t) s = .next ((s.withTable t
      { s.table t with code := Nine.all 0, valid := false }).raiseEnd .huffInvalid))

/-- 43_huffman R355: the canonical codes of a valid length set are prefix-free: every live code is below
2^LEN, and no live code is the beginning of another. -/
def Obligations.CanonicalCodesArePrefixFree : Prop :=
  ∀ l : Nine (BitVec 4), lensValid l = true →
    (∀ i, liveLen (l.get i) = true → ((assignCodes l).get i).toNat < 2 ^ (l.get i).toNat) ∧
    (∀ i j, liveLen (l.get i) = true → liveLen (l.get j) = true → i ≠ j →
      (l.get i).toNat ≤ (l.get j).toNat →
      ((assignCodes l).get j).toNat >>> ((l.get j).toNat - (l.get i).toNat) ≠
        ((assignCodes l).get i).toNat)

/-- 43_huffman R365, R366, R370: HUFF_READ_HDR reads nine 4-bit lengths in symbol order. A valid set
builds the table; an invalid one ends in E_HUFF_INVALID with the table invalid and no bit read after the
36 of the header. HUFF_WRITE_HDR of a valid table appends the nine lengths. Nothing else changes. -/
def Obligations.HuffHeadersCarryTheLengths : Prop :=
  ∀ (s : State) (t : Tbl),
    let l : Nine (BitVec 4) := Nine.ofFn fun i => BitVec.ofNat 4 (s.inputField (4 * i.val) 4)
    (s.canRead 36 → lensValid l = true → exec (.huffReadHdr t) s = .next (((s.withTable t
      { s.table t with len := l, code := assignCodes l, valid := true }).consumed 36).finish)) ∧
    (s.canRead 36 → lensValid l = false → exec (.huffReadHdr t) s = .next (((s.withTable t
      { s.table t with len := l, code := Nine.all 0, valid := false }).consumed 36).raiseEnd
        .huffInvalid)) ∧
    ((s.table t).valid = true → s.calm → s.canWrite 36 →
      ∃ m, exec (.huffWriteHdr t) s = .next (((s.withMem m).produced 36).finish) ∧
        Appended s.mem m s.writer.base s.writer.pos.toNat
          (allHops.flatMap fun i => msbBits ((s.table t).len.get i).toNat 4))


/-- 43_huffman R357, R358: HUFF_CLEAR_COUNTS zeroes the nine counts of its table; HUFF_COUNT_SYM adds
one, modulo 2^32, to its symbol's count, and raises E_HOP_RANGE for a symbol above 8. Nothing else
changes. -/
def Obligations.CountCommandsChangeOnlyCounts : Prop :=
  ∀ (s : State) (t : Tbl) (sym : BitVec 4),
    exec (.huffClearCounts t) s =
      .next (s.withTable t { s.table t with count := Nine.all 0 }).finish ∧
    (∀ h : Hop, sym.toNat = h.val → exec (.huffCountSym t sym) s = .next (s.withTable t
      { s.table t with count := Nine.ofFn fun i =>
        if i = h then (s.table t).count.get i + 1 else (s.table t).count.get i }).finish) ∧
    (8 < sym.toNat → exec (.huffCountSym t sym) s = .next (s.raiseEnd .hopRange))

/-- 43_huffman R359: with every hop byte of the region at most 8, HUFF_COUNT_REGION adds to each count
of the plane's table the number of pixels with that hop, modulo 2^32, and changes nothing else. -/
def Obligations.CountRegionCountsEveryPixel : Prop :=
  ∀ (s : State) (f : BitVec 2) (p : Plane), Plane.ofField f = some p → s.regionOk p →
    (∀ x y, s.inRegion x y → (s.byteAt (s.hopAddr p x y)).toNat ≤ 8) →
    let n : Hop → Nat := fun h => (s.region.pixels.filter fun (q : Nat × Nat) =>
      (s.byteAt (s.hopAddr p q.1 q.2)).toNat == h.val).length
    exec (.huffCountRegion f) s = .next (s.withTable p.tbl
      { s.table p.tbl with count := Nine.ofFn fun h =>
        (s.table p.tbl).count.get h + BitVec.ofNat 32 (n h) }).finish

/-- 43_huffman R360, R367: from counts that are not all zero HUFF_FROM_COUNTS derives a valid table: the
live symbols are those counted, no length exceeds 8, and with two or more the code is complete. Counts
all zero end in E_HUFF_INVALID. Nothing else changes. -/
def Obligations.FromCountsBuildsAValidTable : Prop :=
  ∀ (s : State) (t : Tbl),
    let c := (s.table t).count
    let l := huffLengths c
    (∀ h, liveLen (l.get h) = true ↔ c.get h ≠ 0) ∧
    (∀ h, liveLen (l.get h) = true → 1 ≤ (l.get h).toNat ∧ (l.get h).toNat ≤ 8) ∧
    (2 ≤ (usedHops c).length → kraftSum l = 2 ^ 14) ∧
    ((∃ h, c.get h ≠ 0) → exec (.huffFromCounts t) s = .next (s.withTable t
      { s.table t with len := l, code := assignCodes l, valid := true }).finish) ∧
    ((∀ h, c.get h = 0) → exec (.huffFromCounts t) s = .next ((s.withTable t
      { s.table t with len := Nine.all 15, code := Nine.all 0, valid := false }).raiseEnd
        .huffInvalid))

/-- 43_huffman R361, R362: over a valid canonical table HUFF_DEC_SYM reads exactly the bits of the code
that stands in the stream and sets HUFF_SYM to its symbol; if no code stands there it consumes the
longest length and raises E_HUFF_NOMATCH. Nothing else changes. -/
def Obligations.DecSymReadsTheCodeInTheStream : Prop :=
  ∀ (s : State) (t : Tbl), (s.table t).ready →
    let len : Hop → Nat := fun h => ((s.table t).len.get h).toNat
    let code : Hop → Nat := fun h => ((s.table t).code.get h).toNat
    (∀ h, liveLen ((s.table t).len.get h) = true → s.canRead (len h) →
      s.inputField 0 (len h) = code h →
      exec (.huffDecSym t) s =
        .next (((s.consumed (len h)).withHuffSym (BitVec.ofNat 4 h.val)).finish)) ∧
    (s.canRead (maxLen (s.table t).len) →
      (∀ h, liveLen ((s.table t).len.get h) = true → s.inputField 0 (len h) ≠ code h) →
      exec (.huffDecSym t) s =
        .next ((s.consumed (maxLen (s.table t).len)).raiseEnd .huffNoMatch))

/-- 43_huffman R363, R364: over a valid table HUFF_ENC_SYM appends the code of a live symbol; a symbol
above 8 raises E_HOP_RANGE and one without a code E_HUFF_INVALID. Nothing else changes. -/
def Obligations.EncSymAppendsTheCode : Prop :=
  ∀ (s : State) (t : Tbl) (sym : BitVec 4), (s.table t).valid = true →
    (∀ h : Hop, sym.toNat = h.val → liveLen ((s.table t).len.get h) = true →
      s.calm → s.canWrite ((s.table t).len.get h).toNat →
      ∃ m, exec (.huffEncSym t sym) s =
          .next (((s.withMem m).produced ((s.table t).len.get h).toNat).finish) ∧
        Appended s.mem m s.writer.base s.writer.pos.toNat ((s.table t).codeBitsOf h)) ∧
    (∀ h : Hop, sym.toNat = h.val → liveLen ((s.table t).len.get h) = false →
      exec (.huffEncSym t sym) s = .next (s.raiseEnd .huffInvalid)) ∧
    (8 < sym.toNat → exec (.huffEncSym t sym) s = .next (s.raiseEnd .hopRange))

/-- 43_huffman R368: with the codes of `hops` in the stream, one for each pixel of the region, and hop
bytes that are distinct and not the stream's, HUFF_DEC_REGION stores the hops in raster order, consumes
exactly their codes, and changes nothing else. -/
def Obligations.DecRegionStoresTheHopsInTheStream : Prop :=
  ∀ (s : State) (f : BitVec 2) (p : Plane) (hops : List Hop), Plane.ofField f = some p →
    s.calm → (s.table p.tbl).ready → s.regionOk p → hops.length = s.region.pixels.length →
    codesAt s.mem s.reader.base (s.table p.tbl) s.reader.pos.toNat hops →
    s.canRead (codeBits (s.table p.tbl) hops) → s.distinctOn (s.hopAddr p) →
    (∀ x y, s.inRegion x y → ¬ inStream s.reader.base s.reader.pos.toNat
      (codeBits (s.table p.tbl) hops) (s.hopAddr p x y).toNat) →
    ∃ m, exec (.huffDecRegion f) s =
        .next (((s.withMem m).consumed (codeBits (s.table p.tbl) hops)).finish) ∧
      (∀ (k : Nat) (q : Nat × Nat) (h : Hop), s.region.pixels[k]? = some q → hops[k]? = some h →
        (m.read (s.hopAddr p q.1 q.2).toNat).toNat = h.val) ∧
      (∀ a, (∀ x y, s.inRegion x y → a ≠ (s.hopAddr p x y).toNat) → m.read a = s.mem.read a)

/-- 43_huffman R369: with every hop byte of the region a live symbol, room for the codes, and hop bytes
that are not the output's, HUFF_ENC_REGION appends the codes in raster order, and changes nothing
else. -/
def Obligations.EncRegionAppendsTheCodes : Prop :=
  ∀ (s : State) (f : BitVec 2) (p : Plane) (hops : List Hop), Plane.ofField f = some p →
    s.calm → (s.table p.tbl).valid = true → s.regionOk p →
    hops.map Fin.val = s.region.pixels.map (fun (q : Nat × Nat) => (s.byteAt (s.hopAddr p q.1 q.2)).toNat) →
    (∀ h ∈ hops, liveLen ((s.table p.tbl).len.get h) = true) →
    s.canWrite (codeBits (s.table p.tbl) hops) →
    (∀ x y, s.inRegion x y → ¬ inStream s.writer.base s.writer.pos.toNat
      (codeBits (s.table p.tbl) hops) (s.hopAddr p x y).toNat) →
    ∃ m, exec (.huffEncRegion f) s =
        .next (((s.withMem m).produced (codeBits (s.table p.tbl) hops)).finish) ∧
      Appended s.mem m s.writer.base s.writer.pos.toNat
        (hops.flatMap (s.table p.tbl).codeBitsOf)

/-! ### Header, seeds and frames -/

/-- 44_frame R411, R417: NOP changes nothing but the end of a command. BW_FLUSH appends the zero bits up
to the next byte boundary if they fit, and else raises E_OUT_OVERFLOW with nothing written. -/
def Obligations.NopAndFlush : Prop :=
  ∀ s : State, exec .nop s = .next s.finish ∧
    let n := (8 - s.writer.pos.toNat % 8) % 8
    (s.calm → s.canWrite n → ∃ m, exec .bwFlush s = .next (((s.withMem m).produced n).finish) ∧
      (s.writer.pos + BitVec.ofNat 32 n).toNat % 8 = 0 ∧
      Appended s.mem m s.writer.base s.writer.pos.toNat (List.replicate n false)) ∧
    (n ≠ 0 → ¬ s.canWrite n → exec .bwFlush s = .next (s.raiseEnd .outOverflow))

/-- 44_frame R405, R413, R414: with 88 bits in the budget HDR_READ loads MODE, WIDTH, HEIGHT and GRID,
the byte of WIDTH and HEIGHT at the lower position being the least significant, and then ends as the
frame check does. With a legal frame and room, HDR_WRITE appends the 88 bits of the header. Nothing else
changes. -/
def Obligations.HeaderCommandsMoveTheHeader : Prop :=
  ∀ s : State,
    let t := (s.withCfg { s.cfg with
      mode := BitVec.ofNat 8 (s.inputField 0 8),
      width := BitVec.ofNat 32 (le32At s.mem s.reader.base (s.reader.pos.toNat + 8)),
      height := BitVec.ofNat 32 (le32At s.mem s.reader.base (s.reader.pos.toNat + 40)),
      gridW := BitVec.ofNat 8 (s.inputField 72 8),
      gridH := BitVec.ofNat 8 (s.inputField 80 8) }).consumed 88
    (s.canRead 88 → t.frameOk → exec .hdrRead s = .next t.finish) ∧
    (s.canRead 88 → ∀ e, t.frameFails e → exec .hdrRead s = .next (t.raiseEnd e)) ∧
    (s.calm → s.frameOk → s.canWrite 88 →
      ∃ m, exec .hdrWrite s = .next (((s.withMem m).produced 88).finish) ∧
        Appended s.mem m s.writer.base s.writer.pos.toNat s.cfg.headerBits)


/-- 44_frame R406, R415, R416: SEEDS_READ stores the `3·BW·BH` bytes of the seed field in the seed array;
SEEDS_WRITE appends them. The array must not share a byte with the stream. Nothing else changes. -/
def Obligations.SeedCommandsMoveTheSeedArray : Prop :=
  ∀ s : State, s.calm → s.frameOk →
    let n := 3 * s.cfg.gridW.toNat * s.cfg.gridH.toNat
    (s.canRead (8 * n) →
      (∀ i, i < n → ¬ inStream s.reader.base s.reader.pos.toNat (8 * n) (s.seedSlot i).toNat) →
      ∃ m, exec .seedsRead s = .next (((s.withMem m).consumed (8 * n)).finish) ∧
        (∀ i, i < n → (m.read (s.seedSlot i).toNat).toNat = s.inputField (8 * i) 8) ∧
        (∀ a, (∀ i, i < n → a ≠ (s.seedSlot i).toNat) → m.read a = s.mem.read a)) ∧
    (s.canWrite (8 * n) →
      (∀ i, i < n → ¬ inStream s.writer.base s.writer.pos.toNat (8 * n) (s.seedSlot i).toNat) →
      ∃ m, exec .seedsWrite s = .next (((s.withMem m).produced (8 * n)).finish) ∧
        Appended s.mem m s.writer.base s.writer.pos.toNat
          ((List.range n).flatMap fun i => msbBits (s.byteAt (s.seedSlot i)).toNat 8))

/-- 44_frame R400, R419: from a state that is ready for it (tables built, a legal frame, legal mesh codes
in advanced mode, room, no buffer over another), FRAME_ENCODE completes without error: the configuration
stays, the output ends on a byte boundary within the bound, the frame begins with the header and the seed
array it leaves, and no byte changes but seeds, DST, HOP and the frame's. -/
def Obligations.FrameEncodeCompletes : Prop :=
  ∀ s : State, s.encodeReady → ∃ t n, exec .frameEncode s = .next t ∧ t.quiet ∧ t.cfg = s.cfg ∧
    n ≤ s.cfg.frameBits ∧ t.writer.pos.toNat = s.writer.pos.toNat + n ∧
    t.writer.pos.toNat % 8 = 0 ∧ (t.table .luma).ready ∧ (t.table .chroma).ready ∧
    (∀ k b, s.cfg.headerBits[k]? = some b →
      bitAt t.mem s.writer.base (s.writer.pos.toNat + k) = b) ∧
    (∀ i, i < s.cfg.seedCount →
      fieldAt t.mem s.writer.base (s.writer.pos.toNat + 88 + 8 * i) 8 =
        (t.byteAt (s.seedSlot i)).toNat) ∧
    (∀ p x y, s.scanned p x y → (t.byteAt (s.hopAddr p x y)).toNat ≤ 8) ∧
    (∀ a : Word, a ∉ s.seedBytes → a ∉ s.dstBytes → a ∉ s.hopBytes →
      ¬ inStream s.writer.base s.writer.pos.toNat n a.toNat → t.byteAt a = s.byteAt a)

/-- 44_frame R400, R410, R418: FRAME_DECODE of a frame of one pixel a plane, in any mode, with any two
valid tables in the order of HUFF_HDR_ORDER and any hop in each plane's stream: it completes, loads the
header, the tables, and in advanced mode the mesh, stores the seeds and the hops, decodes each plane's
pixel to its seed, leaves region, geometry, scan and last pixel at those of plane 2, consumes exactly the
frame's bits, and changes no other byte and no other register. -/
def Obligations.FrameDecodeOnePixelFrame : Prop :=
  ∀ (s : State) (hop : Plane → Hop), s.calm → s.tablesReady → s.HoldsOnePixelFrame hop →
    let seed := s.pixelSeed
    let hs := adapt 7 false (hop .chromaB)
    ∃ m, exec .frameDecode s = .next ((((((((((s.withMem m).withCfg s.pixelCfg).withTable .luma
        (s.pixelTable .luma)).withTable .chroma (s.pixelTable .chroma)).consumed
        (s.pixelBits hop)).withSeeds { s.seeds with
          seedIndex := 2, seed := seed 2 }).withRegion { x0 := 0, y0 := 0, w := 1, h := 1 }).withGeom
        { xIni := 0, xFin := 1, yIni := 0, yFin := 1, dsX := 1, dsY := 1 }).withScan
        { x := 0, y := 1, step := BitVec.ofNat 5 hs.1, lastSmall := hs.2, active := false,
          dir := .decode, plane := .chromaB }).withLastPix
        { pred := seed 2, value := seed 2, hop := BitVec.ofNat 4 (hop .chromaB).val,
          orig := 0 }).finish ∧
      (∀ p : Plane, m.read (s.seedSlot p.index).toNat = seed p.index ∧
        m.read (s.dstAddr p 0 0).toNat = seed p.index ∧
        (m.read (s.hopAddr p 0 0).toNat).toNat = (hop p).val) ∧
      (s.pixelCfg.mode = 2 → ∀ k, k < 4 → m.read (s.meshByteAddr k).toNat =
        BitVec.ofNat 8 (8 * s.inputField (187 + 6 * k) 3 + s.inputField (184 + 6 * k) 3)) ∧
      (∀ a : Word, (∀ p : Plane, a ≠ s.seedSlot p.index ∧ a ≠ s.dstAddr p 0 0 ∧
        a ≠ s.hopAddr p 0 0) → (s.pixelCfg.mode = 2 → ∀ k, k < 4 → a ≠ s.meshByteAddr k) →
        m.read a.toNat = s.byteAt a)

/-- 44_frame R421: the round trip. The frame that an encoder produced decodes without error on a core
with the same CHROMA, RATIO, COMP, variant and header order, room for the frame's pixels, and the bits
produced within the budget: header registers, seed array, and the HOP and DST bytes of every region the
encoder scanned are the encoder's, and BR_POS advances by the encoder's bits before its flush, the bits
of the fields of 44_frame R400. -/
def Obligations.FrameRoundTrip : Prop :=
  ∀ e t d : State, e.encodeReady → exec .frameEncode e = .next t →
    d.quiet → d.calm → d.tablesReady → d.cfg.sx = e.cfg.sx → d.cfg.sy = e.cfg.sy →
    d.cfg.ratio = e.cfg.ratio → d.cfg.cf = e.cfg.cf →
    d.ctrl.interiorVariant = e.ctrl.interiorVariant → d.plat.hdrOrder = e.plat.hdrOrder →
    e.cfg.width.toNat * e.cfg.height.toNat ≤ d.plat.maxPixels →
    d.canRead (t.writer.pos.toNat - e.writer.pos.toNat) →
    (∀ k, k < t.writer.pos.toNat - e.writer.pos.toNat →
      bitAt d.mem d.reader.base (d.reader.pos.toNat + k) =
        bitAt t.mem e.writer.base (e.writer.pos.toNat + k)) →
    (d.withCfg e.cfg).buffersApart
      (streamBytes d.reader.base d.reader.pos.toNat
        (t.writer.pos.toNat - e.writer.pos.toNat)) →
    let n := t.usedBits
    ∃ u, exec .frameDecode d = .next u ∧ u.quiet ∧ u.cfg = e.cfg ∧
      u.reader.pos.toNat = d.reader.pos.toNat + n ∧
      t.writer.pos.toNat =
        e.writer.pos.toNat + n + (8 - (e.writer.pos.toNat + n) % 8) % 8 ∧
      (∀ i, i < e.cfg.seedCount → u.byteAt (d.seedSlot i) = t.byteAt (e.seedSlot i)) ∧
      (∀ p x y, e.scanned p x y →
        u.byteAt (d.hopAddr p x y) = t.byteAt (e.hopAddr p x y) ∧
        u.byteAt (d.dstAddr p x y) = t.byteAt (e.dstAddr p x y))
end

