-- ==== Sys2Proof/Laws/State.lean ====
section
/-! SUPPORT. What each update of State leaves: one lemma per field per update, all true by rfl, so
that no proof unfolds a record update. -/

namespace Sys2Proof.Machine

@[simp] theorem State.withEng_eng (s : State) (v : Engine) : (s.withEng v).eng = v := rfl
@[simp] theorem State.withEng_ctrl (s : State) (v : Engine) : (s.withEng v).ctrl = s.ctrl := rfl
@[simp] theorem State.withEng_cfg (s : State) (v : Engine) : (s.withEng v).cfg = s.cfg := rfl
@[simp] theorem State.withEng_bufs (s : State) (v : Engine) : (s.withEng v).bufs = s.bufs := rfl
@[simp] theorem State.withEng_seeds (s : State) (v : Engine) : (s.withEng v).seeds = s.seeds := rfl
@[simp] theorem State.withEng_reader (s : State) (v : Engine) : (s.withEng v).reader = s.reader := rfl
@[simp] theorem State.withEng_writer (s : State) (v : Engine) : (s.withEng v).writer = s.writer := rfl
@[simp] theorem State.withEng_region (s : State) (v : Engine) : (s.withEng v).region = s.region := rfl
@[simp] theorem State.withEng_scan (s : State) (v : Engine) : (s.withEng v).scan = s.scan := rfl
@[simp] theorem State.withEng_lastPix (s : State) (v : Engine) : (s.withEng v).lastPix = s.lastPix := rfl
@[simp] theorem State.withEng_geom (s : State) (v : Engine) : (s.withEng v).geom = s.geom := rfl
@[simp] theorem State.withEng_lut (s : State) (v : Engine) : (s.withEng v).lut = s.lut := rfl
@[simp] theorem State.withEng_huffSym (s : State) (v : Engine) : (s.withEng v).huffSym = s.huffSym := rfl
@[simp] theorem State.withEng_huff (s : State) (v : Engine) : (s.withEng v).huff = s.huff := rfl
@[simp] theorem State.withEng_tablesValid (s : State) (v : Engine) : (s.withEng v).tablesValid = s.tablesValid := rfl
@[simp] theorem State.withEng_luts (s : State) (v : Engine) : (s.withEng v).luts = s.luts := rfl
@[simp] theorem State.withEng_mem (s : State) (v : Engine) : (s.withEng v).mem = s.mem := rfl
@[simp] theorem State.withEng_plat (s : State) (v : Engine) : (s.withEng v).plat = s.plat := rfl
@[simp] theorem State.withEng_inbox (s : State) (v : Engine) : (s.withEng v).inbox = s.inbox := rfl
@[simp] theorem State.withEng_bus (s : State) (v : Engine) : (s.withEng v).bus = s.bus := rfl
@[simp] theorem State.withEng_draws (s : State) (v : Engine) : (s.withEng v).draws = s.draws := rfl
@[simp] theorem State.withEng_races (s : State) (v : Engine) : (s.withEng v).races = s.races := rfl

@[simp] theorem State.withCtrl_eng (s : State) (v : Control) : (s.withCtrl v).eng = s.eng := rfl
@[simp] theorem State.withCtrl_ctrl (s : State) (v : Control) : (s.withCtrl v).ctrl = v := rfl
@[simp] theorem State.withCtrl_cfg (s : State) (v : Control) : (s.withCtrl v).cfg = s.cfg := rfl
@[simp] theorem State.withCtrl_bufs (s : State) (v : Control) : (s.withCtrl v).bufs = s.bufs := rfl
@[simp] theorem State.withCtrl_seeds (s : State) (v : Control) : (s.withCtrl v).seeds = s.seeds := rfl
@[simp] theorem State.withCtrl_reader (s : State) (v : Control) : (s.withCtrl v).reader = s.reader := rfl
@[simp] theorem State.withCtrl_writer (s : State) (v : Control) : (s.withCtrl v).writer = s.writer := rfl
@[simp] theorem State.withCtrl_region (s : State) (v : Control) : (s.withCtrl v).region = s.region := rfl
@[simp] theorem State.withCtrl_scan (s : State) (v : Control) : (s.withCtrl v).scan = s.scan := rfl
@[simp] theorem State.withCtrl_lastPix (s : State) (v : Control) : (s.withCtrl v).lastPix = s.lastPix := rfl
@[simp] theorem State.withCtrl_geom (s : State) (v : Control) : (s.withCtrl v).geom = s.geom := rfl
@[simp] theorem State.withCtrl_lut (s : State) (v : Control) : (s.withCtrl v).lut = s.lut := rfl
@[simp] theorem State.withCtrl_huffSym (s : State) (v : Control) : (s.withCtrl v).huffSym = s.huffSym := rfl
@[simp] theorem State.withCtrl_huff (s : State) (v : Control) : (s.withCtrl v).huff = s.huff := rfl
@[simp] theorem State.withCtrl_tablesValid (s : State) (v : Control) : (s.withCtrl v).tablesValid = s.tablesValid := rfl
@[simp] theorem State.withCtrl_luts (s : State) (v : Control) : (s.withCtrl v).luts = s.luts := rfl
@[simp] theorem State.withCtrl_mem (s : State) (v : Control) : (s.withCtrl v).mem = s.mem := rfl
@[simp] theorem State.withCtrl_plat (s : State) (v : Control) : (s.withCtrl v).plat = s.plat := rfl
@[simp] theorem State.withCtrl_inbox (s : State) (v : Control) : (s.withCtrl v).inbox = s.inbox := rfl
@[simp] theorem State.withCtrl_bus (s : State) (v : Control) : (s.withCtrl v).bus = s.bus := rfl
@[simp] theorem State.withCtrl_draws (s : State) (v : Control) : (s.withCtrl v).draws = s.draws := rfl
@[simp] theorem State.withCtrl_races (s : State) (v : Control) : (s.withCtrl v).races = s.races := rfl

@[simp] theorem State.withCfg_eng (s : State) (v : FrameConfig) : (s.withCfg v).eng = s.eng := rfl
@[simp] theorem State.withCfg_ctrl (s : State) (v : FrameConfig) : (s.withCfg v).ctrl = s.ctrl := rfl
@[simp] theorem State.withCfg_cfg (s : State) (v : FrameConfig) : (s.withCfg v).cfg = v := rfl
@[simp] theorem State.withCfg_bufs (s : State) (v : FrameConfig) : (s.withCfg v).bufs = s.bufs := rfl
@[simp] theorem State.withCfg_seeds (s : State) (v : FrameConfig) : (s.withCfg v).seeds = s.seeds := rfl
@[simp] theorem State.withCfg_reader (s : State) (v : FrameConfig) : (s.withCfg v).reader = s.reader := rfl
@[simp] theorem State.withCfg_writer (s : State) (v : FrameConfig) : (s.withCfg v).writer = s.writer := rfl
@[simp] theorem State.withCfg_region (s : State) (v : FrameConfig) : (s.withCfg v).region = s.region := rfl
@[simp] theorem State.withCfg_scan (s : State) (v : FrameConfig) : (s.withCfg v).scan = s.scan := rfl
@[simp] theorem State.withCfg_lastPix (s : State) (v : FrameConfig) : (s.withCfg v).lastPix = s.lastPix := rfl
@[simp] theorem State.withCfg_geom (s : State) (v : FrameConfig) : (s.withCfg v).geom = s.geom := rfl
@[simp] theorem State.withCfg_lut (s : State) (v : FrameConfig) : (s.withCfg v).lut = s.lut := rfl
@[simp] theorem State.withCfg_huffSym (s : State) (v : FrameConfig) : (s.withCfg v).huffSym = s.huffSym := rfl
@[simp] theorem State.withCfg_huff (s : State) (v : FrameConfig) : (s.withCfg v).huff = s.huff := rfl
@[simp] theorem State.withCfg_tablesValid (s : State) (v : FrameConfig) : (s.withCfg v).tablesValid = s.tablesValid := rfl
@[simp] theorem State.withCfg_luts (s : State) (v : FrameConfig) : (s.withCfg v).luts = s.luts := rfl
@[simp] theorem State.withCfg_mem (s : State) (v : FrameConfig) : (s.withCfg v).mem = s.mem := rfl
@[simp] theorem State.withCfg_plat (s : State) (v : FrameConfig) : (s.withCfg v).plat = s.plat := rfl
@[simp] theorem State.withCfg_inbox (s : State) (v : FrameConfig) : (s.withCfg v).inbox = s.inbox := rfl
@[simp] theorem State.withCfg_bus (s : State) (v : FrameConfig) : (s.withCfg v).bus = s.bus := rfl
@[simp] theorem State.withCfg_draws (s : State) (v : FrameConfig) : (s.withCfg v).draws = s.draws := rfl
@[simp] theorem State.withCfg_races (s : State) (v : FrameConfig) : (s.withCfg v).races = s.races := rfl

@[simp] theorem State.withBufs_eng (s : State) (v : PlaneBufs) : (s.withBufs v).eng = s.eng := rfl
@[simp] theorem State.withBufs_ctrl (s : State) (v : PlaneBufs) : (s.withBufs v).ctrl = s.ctrl := rfl
@[simp] theorem State.withBufs_cfg (s : State) (v : PlaneBufs) : (s.withBufs v).cfg = s.cfg := rfl
@[simp] theorem State.withBufs_bufs (s : State) (v : PlaneBufs) : (s.withBufs v).bufs = v := rfl
@[simp] theorem State.withBufs_seeds (s : State) (v : PlaneBufs) : (s.withBufs v).seeds = s.seeds := rfl
@[simp] theorem State.withBufs_reader (s : State) (v : PlaneBufs) : (s.withBufs v).reader = s.reader := rfl
@[simp] theorem State.withBufs_writer (s : State) (v : PlaneBufs) : (s.withBufs v).writer = s.writer := rfl
@[simp] theorem State.withBufs_region (s : State) (v : PlaneBufs) : (s.withBufs v).region = s.region := rfl
@[simp] theorem State.withBufs_scan (s : State) (v : PlaneBufs) : (s.withBufs v).scan = s.scan := rfl
@[simp] theorem State.withBufs_lastPix (s : State) (v : PlaneBufs) : (s.withBufs v).lastPix = s.lastPix := rfl
@[simp] theorem State.withBufs_geom (s : State) (v : PlaneBufs) : (s.withBufs v).geom = s.geom := rfl
@[simp] theorem State.withBufs_lut (s : State) (v : PlaneBufs) : (s.withBufs v).lut = s.lut := rfl
@[simp] theorem State.withBufs_huffSym (s : State) (v : PlaneBufs) : (s.withBufs v).huffSym = s.huffSym := rfl
@[simp] theorem State.withBufs_huff (s : State) (v : PlaneBufs) : (s.withBufs v).huff = s.huff := rfl
@[simp] theorem State.withBufs_tablesValid (s : State) (v : PlaneBufs) : (s.withBufs v).tablesValid = s.tablesValid := rfl
@[simp] theorem State.withBufs_luts (s : State) (v : PlaneBufs) : (s.withBufs v).luts = s.luts := rfl
@[simp] theorem State.withBufs_mem (s : State) (v : PlaneBufs) : (s.withBufs v).mem = s.mem := rfl
@[simp] theorem State.withBufs_plat (s : State) (v : PlaneBufs) : (s.withBufs v).plat = s.plat := rfl
@[simp] theorem State.withBufs_inbox (s : State) (v : PlaneBufs) : (s.withBufs v).inbox = s.inbox := rfl
@[simp] theorem State.withBufs_bus (s : State) (v : PlaneBufs) : (s.withBufs v).bus = s.bus := rfl
@[simp] theorem State.withBufs_draws (s : State) (v : PlaneBufs) : (s.withBufs v).draws = s.draws := rfl
@[simp] theorem State.withBufs_races (s : State) (v : PlaneBufs) : (s.withBufs v).races = s.races := rfl

@[simp] theorem State.withSeeds_eng (s : State) (v : SeedRegs) : (s.withSeeds v).eng = s.eng := rfl
@[simp] theorem State.withSeeds_ctrl (s : State) (v : SeedRegs) : (s.withSeeds v).ctrl = s.ctrl := rfl
@[simp] theorem State.withSeeds_cfg (s : State) (v : SeedRegs) : (s.withSeeds v).cfg = s.cfg := rfl
@[simp] theorem State.withSeeds_bufs (s : State) (v : SeedRegs) : (s.withSeeds v).bufs = s.bufs := rfl
@[simp] theorem State.withSeeds_seeds (s : State) (v : SeedRegs) : (s.withSeeds v).seeds = v := rfl
@[simp] theorem State.withSeeds_reader (s : State) (v : SeedRegs) : (s.withSeeds v).reader = s.reader := rfl
@[simp] theorem State.withSeeds_writer (s : State) (v : SeedRegs) : (s.withSeeds v).writer = s.writer := rfl
@[simp] theorem State.withSeeds_region (s : State) (v : SeedRegs) : (s.withSeeds v).region = s.region := rfl
@[simp] theorem State.withSeeds_scan (s : State) (v : SeedRegs) : (s.withSeeds v).scan = s.scan := rfl
@[simp] theorem State.withSeeds_lastPix (s : State) (v : SeedRegs) : (s.withSeeds v).lastPix = s.lastPix := rfl
@[simp] theorem State.withSeeds_geom (s : State) (v : SeedRegs) : (s.withSeeds v).geom = s.geom := rfl
@[simp] theorem State.withSeeds_lut (s : State) (v : SeedRegs) : (s.withSeeds v).lut = s.lut := rfl
@[simp] theorem State.withSeeds_huffSym (s : State) (v : SeedRegs) : (s.withSeeds v).huffSym = s.huffSym := rfl
@[simp] theorem State.withSeeds_huff (s : State) (v : SeedRegs) : (s.withSeeds v).huff = s.huff := rfl
@[simp] theorem State.withSeeds_tablesValid (s : State) (v : SeedRegs) : (s.withSeeds v).tablesValid = s.tablesValid := rfl
@[simp] theorem State.withSeeds_luts (s : State) (v : SeedRegs) : (s.withSeeds v).luts = s.luts := rfl
@[simp] theorem State.withSeeds_mem (s : State) (v : SeedRegs) : (s.withSeeds v).mem = s.mem := rfl
@[simp] theorem State.withSeeds_plat (s : State) (v : SeedRegs) : (s.withSeeds v).plat = s.plat := rfl
@[simp] theorem State.withSeeds_inbox (s : State) (v : SeedRegs) : (s.withSeeds v).inbox = s.inbox := rfl
@[simp] theorem State.withSeeds_bus (s : State) (v : SeedRegs) : (s.withSeeds v).bus = s.bus := rfl
@[simp] theorem State.withSeeds_draws (s : State) (v : SeedRegs) : (s.withSeeds v).draws = s.draws := rfl
@[simp] theorem State.withSeeds_races (s : State) (v : SeedRegs) : (s.withSeeds v).races = s.races := rfl

@[simp] theorem State.withReader_eng (s : State) (v : BitReader) : (s.withReader v).eng = s.eng := rfl
@[simp] theorem State.withReader_ctrl (s : State) (v : BitReader) : (s.withReader v).ctrl = s.ctrl := rfl
@[simp] theorem State.withReader_cfg (s : State) (v : BitReader) : (s.withReader v).cfg = s.cfg := rfl
@[simp] theorem State.withReader_bufs (s : State) (v : BitReader) : (s.withReader v).bufs = s.bufs := rfl
@[simp] theorem State.withReader_seeds (s : State) (v : BitReader) : (s.withReader v).seeds = s.seeds := rfl
@[simp] theorem State.withReader_reader (s : State) (v : BitReader) : (s.withReader v).reader = v := rfl
@[simp] theorem State.withReader_writer (s : State) (v : BitReader) : (s.withReader v).writer = s.writer := rfl
@[simp] theorem State.withReader_region (s : State) (v : BitReader) : (s.withReader v).region = s.region := rfl
@[simp] theorem State.withReader_scan (s : State) (v : BitReader) : (s.withReader v).scan = s.scan := rfl
@[simp] theorem State.withReader_lastPix (s : State) (v : BitReader) : (s.withReader v).lastPix = s.lastPix := rfl
@[simp] theorem State.withReader_geom (s : State) (v : BitReader) : (s.withReader v).geom = s.geom := rfl
@[simp] theorem State.withReader_lut (s : State) (v : BitReader) : (s.withReader v).lut = s.lut := rfl
@[simp] theorem State.withReader_huffSym (s : State) (v : BitReader) : (s.withReader v).huffSym = s.huffSym := rfl
@[simp] theorem State.withReader_huff (s : State) (v : BitReader) : (s.withReader v).huff = s.huff := rfl
@[simp] theorem State.withReader_tablesValid (s : State) (v : BitReader) : (s.withReader v).tablesValid = s.tablesValid := rfl
@[simp] theorem State.withReader_luts (s : State) (v : BitReader) : (s.withReader v).luts = s.luts := rfl
@[simp] theorem State.withReader_mem (s : State) (v : BitReader) : (s.withReader v).mem = s.mem := rfl
@[simp] theorem State.withReader_plat (s : State) (v : BitReader) : (s.withReader v).plat = s.plat := rfl
@[simp] theorem State.withReader_inbox (s : State) (v : BitReader) : (s.withReader v).inbox = s.inbox := rfl
@[simp] theorem State.withReader_bus (s : State) (v : BitReader) : (s.withReader v).bus = s.bus := rfl
@[simp] theorem State.withReader_draws (s : State) (v : BitReader) : (s.withReader v).draws = s.draws := rfl
@[simp] theorem State.withReader_races (s : State) (v : BitReader) : (s.withReader v).races = s.races := rfl

@[simp] theorem State.withWriter_eng (s : State) (v : BitWriter) : (s.withWriter v).eng = s.eng := rfl
@[simp] theorem State.withWriter_ctrl (s : State) (v : BitWriter) : (s.withWriter v).ctrl = s.ctrl := rfl
@[simp] theorem State.withWriter_cfg (s : State) (v : BitWriter) : (s.withWriter v).cfg = s.cfg := rfl
@[simp] theorem State.withWriter_bufs (s : State) (v : BitWriter) : (s.withWriter v).bufs = s.bufs := rfl
@[simp] theorem State.withWriter_seeds (s : State) (v : BitWriter) : (s.withWriter v).seeds = s.seeds := rfl
@[simp] theorem State.withWriter_reader (s : State) (v : BitWriter) : (s.withWriter v).reader = s.reader := rfl
@[simp] theorem State.withWriter_writer (s : State) (v : BitWriter) : (s.withWriter v).writer = v := rfl
@[simp] theorem State.withWriter_region (s : State) (v : BitWriter) : (s.withWriter v).region = s.region := rfl
@[simp] theorem State.withWriter_scan (s : State) (v : BitWriter) : (s.withWriter v).scan = s.scan := rfl
@[simp] theorem State.withWriter_lastPix (s : State) (v : BitWriter) : (s.withWriter v).lastPix = s.lastPix := rfl
@[simp] theorem State.withWriter_geom (s : State) (v : BitWriter) : (s.withWriter v).geom = s.geom := rfl
@[simp] theorem State.withWriter_lut (s : State) (v : BitWriter) : (s.withWriter v).lut = s.lut := rfl
@[simp] theorem State.withWriter_huffSym (s : State) (v : BitWriter) : (s.withWriter v).huffSym = s.huffSym := rfl
@[simp] theorem State.withWriter_huff (s : State) (v : BitWriter) : (s.withWriter v).huff = s.huff := rfl
@[simp] theorem State.withWriter_tablesValid (s : State) (v : BitWriter) : (s.withWriter v).tablesValid = s.tablesValid := rfl
@[simp] theorem State.withWriter_luts (s : State) (v : BitWriter) : (s.withWriter v).luts = s.luts := rfl
@[simp] theorem State.withWriter_mem (s : State) (v : BitWriter) : (s.withWriter v).mem = s.mem := rfl
@[simp] theorem State.withWriter_plat (s : State) (v : BitWriter) : (s.withWriter v).plat = s.plat := rfl
@[simp] theorem State.withWriter_inbox (s : State) (v : BitWriter) : (s.withWriter v).inbox = s.inbox := rfl
@[simp] theorem State.withWriter_bus (s : State) (v : BitWriter) : (s.withWriter v).bus = s.bus := rfl
@[simp] theorem State.withWriter_draws (s : State) (v : BitWriter) : (s.withWriter v).draws = s.draws := rfl
@[simp] theorem State.withWriter_races (s : State) (v : BitWriter) : (s.withWriter v).races = s.races := rfl

@[simp] theorem State.withRegion_eng (s : State) (v : Region) : (s.withRegion v).eng = s.eng := rfl
@[simp] theorem State.withRegion_ctrl (s : State) (v : Region) : (s.withRegion v).ctrl = s.ctrl := rfl
@[simp] theorem State.withRegion_cfg (s : State) (v : Region) : (s.withRegion v).cfg = s.cfg := rfl
@[simp] theorem State.withRegion_bufs (s : State) (v : Region) : (s.withRegion v).bufs = s.bufs := rfl
@[simp] theorem State.withRegion_seeds (s : State) (v : Region) : (s.withRegion v).seeds = s.seeds := rfl
@[simp] theorem State.withRegion_reader (s : State) (v : Region) : (s.withRegion v).reader = s.reader := rfl
@[simp] theorem State.withRegion_writer (s : State) (v : Region) : (s.withRegion v).writer = s.writer := rfl
@[simp] theorem State.withRegion_region (s : State) (v : Region) : (s.withRegion v).region = v := rfl
@[simp] theorem State.withRegion_scan (s : State) (v : Region) : (s.withRegion v).scan = s.scan := rfl
@[simp] theorem State.withRegion_lastPix (s : State) (v : Region) : (s.withRegion v).lastPix = s.lastPix := rfl
@[simp] theorem State.withRegion_geom (s : State) (v : Region) : (s.withRegion v).geom = s.geom := rfl
@[simp] theorem State.withRegion_lut (s : State) (v : Region) : (s.withRegion v).lut = s.lut := rfl
@[simp] theorem State.withRegion_huffSym (s : State) (v : Region) : (s.withRegion v).huffSym = s.huffSym := rfl
@[simp] theorem State.withRegion_huff (s : State) (v : Region) : (s.withRegion v).huff = s.huff := rfl
@[simp] theorem State.withRegion_tablesValid (s : State) (v : Region) : (s.withRegion v).tablesValid = s.tablesValid := rfl
@[simp] theorem State.withRegion_luts (s : State) (v : Region) : (s.withRegion v).luts = s.luts := rfl
@[simp] theorem State.withRegion_mem (s : State) (v : Region) : (s.withRegion v).mem = s.mem := rfl
@[simp] theorem State.withRegion_plat (s : State) (v : Region) : (s.withRegion v).plat = s.plat := rfl
@[simp] theorem State.withRegion_inbox (s : State) (v : Region) : (s.withRegion v).inbox = s.inbox := rfl
@[simp] theorem State.withRegion_bus (s : State) (v : Region) : (s.withRegion v).bus = s.bus := rfl
@[simp] theorem State.withRegion_draws (s : State) (v : Region) : (s.withRegion v).draws = s.draws := rfl
@[simp] theorem State.withRegion_races (s : State) (v : Region) : (s.withRegion v).races = s.races := rfl

@[simp] theorem State.withScan_eng (s : State) (v : Scan) : (s.withScan v).eng = s.eng := rfl
@[simp] theorem State.withScan_ctrl (s : State) (v : Scan) : (s.withScan v).ctrl = s.ctrl := rfl
@[simp] theorem State.withScan_cfg (s : State) (v : Scan) : (s.withScan v).cfg = s.cfg := rfl
@[simp] theorem State.withScan_bufs (s : State) (v : Scan) : (s.withScan v).bufs = s.bufs := rfl
@[simp] theorem State.withScan_seeds (s : State) (v : Scan) : (s.withScan v).seeds = s.seeds := rfl
@[simp] theorem State.withScan_reader (s : State) (v : Scan) : (s.withScan v).reader = s.reader := rfl
@[simp] theorem State.withScan_writer (s : State) (v : Scan) : (s.withScan v).writer = s.writer := rfl
@[simp] theorem State.withScan_region (s : State) (v : Scan) : (s.withScan v).region = s.region := rfl
@[simp] theorem State.withScan_scan (s : State) (v : Scan) : (s.withScan v).scan = v := rfl
@[simp] theorem State.withScan_lastPix (s : State) (v : Scan) : (s.withScan v).lastPix = s.lastPix := rfl
@[simp] theorem State.withScan_geom (s : State) (v : Scan) : (s.withScan v).geom = s.geom := rfl
@[simp] theorem State.withScan_lut (s : State) (v : Scan) : (s.withScan v).lut = s.lut := rfl
@[simp] theorem State.withScan_huffSym (s : State) (v : Scan) : (s.withScan v).huffSym = s.huffSym := rfl
@[simp] theorem State.withScan_huff (s : State) (v : Scan) : (s.withScan v).huff = s.huff := rfl
@[simp] theorem State.withScan_tablesValid (s : State) (v : Scan) : (s.withScan v).tablesValid = s.tablesValid := rfl
@[simp] theorem State.withScan_luts (s : State) (v : Scan) : (s.withScan v).luts = s.luts := rfl
@[simp] theorem State.withScan_mem (s : State) (v : Scan) : (s.withScan v).mem = s.mem := rfl
@[simp] theorem State.withScan_plat (s : State) (v : Scan) : (s.withScan v).plat = s.plat := rfl
@[simp] theorem State.withScan_inbox (s : State) (v : Scan) : (s.withScan v).inbox = s.inbox := rfl
@[simp] theorem State.withScan_bus (s : State) (v : Scan) : (s.withScan v).bus = s.bus := rfl
@[simp] theorem State.withScan_draws (s : State) (v : Scan) : (s.withScan v).draws = s.draws := rfl
@[simp] theorem State.withScan_races (s : State) (v : Scan) : (s.withScan v).races = s.races := rfl

@[simp] theorem State.withLastPix_eng (s : State) (v : LastPix) : (s.withLastPix v).eng = s.eng := rfl
@[simp] theorem State.withLastPix_ctrl (s : State) (v : LastPix) : (s.withLastPix v).ctrl = s.ctrl := rfl
@[simp] theorem State.withLastPix_cfg (s : State) (v : LastPix) : (s.withLastPix v).cfg = s.cfg := rfl
@[simp] theorem State.withLastPix_bufs (s : State) (v : LastPix) : (s.withLastPix v).bufs = s.bufs := rfl
@[simp] theorem State.withLastPix_seeds (s : State) (v : LastPix) : (s.withLastPix v).seeds = s.seeds := rfl
@[simp] theorem State.withLastPix_reader (s : State) (v : LastPix) : (s.withLastPix v).reader = s.reader := rfl
@[simp] theorem State.withLastPix_writer (s : State) (v : LastPix) : (s.withLastPix v).writer = s.writer := rfl
@[simp] theorem State.withLastPix_region (s : State) (v : LastPix) : (s.withLastPix v).region = s.region := rfl
@[simp] theorem State.withLastPix_scan (s : State) (v : LastPix) : (s.withLastPix v).scan = s.scan := rfl
@[simp] theorem State.withLastPix_lastPix (s : State) (v : LastPix) : (s.withLastPix v).lastPix = v := rfl
@[simp] theorem State.withLastPix_geom (s : State) (v : LastPix) : (s.withLastPix v).geom = s.geom := rfl
@[simp] theorem State.withLastPix_lut (s : State) (v : LastPix) : (s.withLastPix v).lut = s.lut := rfl
@[simp] theorem State.withLastPix_huffSym (s : State) (v : LastPix) : (s.withLastPix v).huffSym = s.huffSym := rfl
@[simp] theorem State.withLastPix_huff (s : State) (v : LastPix) : (s.withLastPix v).huff = s.huff := rfl
@[simp] theorem State.withLastPix_tablesValid (s : State) (v : LastPix) : (s.withLastPix v).tablesValid = s.tablesValid := rfl
@[simp] theorem State.withLastPix_luts (s : State) (v : LastPix) : (s.withLastPix v).luts = s.luts := rfl
@[simp] theorem State.withLastPix_mem (s : State) (v : LastPix) : (s.withLastPix v).mem = s.mem := rfl
@[simp] theorem State.withLastPix_plat (s : State) (v : LastPix) : (s.withLastPix v).plat = s.plat := rfl
@[simp] theorem State.withLastPix_inbox (s : State) (v : LastPix) : (s.withLastPix v).inbox = s.inbox := rfl
@[simp] theorem State.withLastPix_bus (s : State) (v : LastPix) : (s.withLastPix v).bus = s.bus := rfl
@[simp] theorem State.withLastPix_draws (s : State) (v : LastPix) : (s.withLastPix v).draws = s.draws := rfl
@[simp] theorem State.withLastPix_races (s : State) (v : LastPix) : (s.withLastPix v).races = s.races := rfl

@[simp] theorem State.withGeom_eng (s : State) (v : Geometry) : (s.withGeom v).eng = s.eng := rfl
@[simp] theorem State.withGeom_ctrl (s : State) (v : Geometry) : (s.withGeom v).ctrl = s.ctrl := rfl
@[simp] theorem State.withGeom_cfg (s : State) (v : Geometry) : (s.withGeom v).cfg = s.cfg := rfl
@[simp] theorem State.withGeom_bufs (s : State) (v : Geometry) : (s.withGeom v).bufs = s.bufs := rfl
@[simp] theorem State.withGeom_seeds (s : State) (v : Geometry) : (s.withGeom v).seeds = s.seeds := rfl
@[simp] theorem State.withGeom_reader (s : State) (v : Geometry) : (s.withGeom v).reader = s.reader := rfl
@[simp] theorem State.withGeom_writer (s : State) (v : Geometry) : (s.withGeom v).writer = s.writer := rfl
@[simp] theorem State.withGeom_region (s : State) (v : Geometry) : (s.withGeom v).region = s.region := rfl
@[simp] theorem State.withGeom_scan (s : State) (v : Geometry) : (s.withGeom v).scan = s.scan := rfl
@[simp] theorem State.withGeom_lastPix (s : State) (v : Geometry) : (s.withGeom v).lastPix = s.lastPix := rfl
@[simp] theorem State.withGeom_geom (s : State) (v : Geometry) : (s.withGeom v).geom = v := rfl
@[simp] theorem State.withGeom_lut (s : State) (v : Geometry) : (s.withGeom v).lut = s.lut := rfl
@[simp] theorem State.withGeom_huffSym (s : State) (v : Geometry) : (s.withGeom v).huffSym = s.huffSym := rfl
@[simp] theorem State.withGeom_huff (s : State) (v : Geometry) : (s.withGeom v).huff = s.huff := rfl
@[simp] theorem State.withGeom_tablesValid (s : State) (v : Geometry) : (s.withGeom v).tablesValid = s.tablesValid := rfl
@[simp] theorem State.withGeom_luts (s : State) (v : Geometry) : (s.withGeom v).luts = s.luts := rfl
@[simp] theorem State.withGeom_mem (s : State) (v : Geometry) : (s.withGeom v).mem = s.mem := rfl
@[simp] theorem State.withGeom_plat (s : State) (v : Geometry) : (s.withGeom v).plat = s.plat := rfl
@[simp] theorem State.withGeom_inbox (s : State) (v : Geometry) : (s.withGeom v).inbox = s.inbox := rfl
@[simp] theorem State.withGeom_bus (s : State) (v : Geometry) : (s.withGeom v).bus = s.bus := rfl
@[simp] theorem State.withGeom_draws (s : State) (v : Geometry) : (s.withGeom v).draws = s.draws := rfl
@[simp] theorem State.withGeom_races (s : State) (v : Geometry) : (s.withGeom v).races = s.races := rfl

@[simp] theorem State.withLut_eng (s : State) (v : LutPort) : (s.withLut v).eng = s.eng := rfl
@[simp] theorem State.withLut_ctrl (s : State) (v : LutPort) : (s.withLut v).ctrl = s.ctrl := rfl
@[simp] theorem State.withLut_cfg (s : State) (v : LutPort) : (s.withLut v).cfg = s.cfg := rfl
@[simp] theorem State.withLut_bufs (s : State) (v : LutPort) : (s.withLut v).bufs = s.bufs := rfl
@[simp] theorem State.withLut_seeds (s : State) (v : LutPort) : (s.withLut v).seeds = s.seeds := rfl
@[simp] theorem State.withLut_reader (s : State) (v : LutPort) : (s.withLut v).reader = s.reader := rfl
@[simp] theorem State.withLut_writer (s : State) (v : LutPort) : (s.withLut v).writer = s.writer := rfl
@[simp] theorem State.withLut_region (s : State) (v : LutPort) : (s.withLut v).region = s.region := rfl
@[simp] theorem State.withLut_scan (s : State) (v : LutPort) : (s.withLut v).scan = s.scan := rfl
@[simp] theorem State.withLut_lastPix (s : State) (v : LutPort) : (s.withLut v).lastPix = s.lastPix := rfl
@[simp] theorem State.withLut_geom (s : State) (v : LutPort) : (s.withLut v).geom = s.geom := rfl
@[simp] theorem State.withLut_lut (s : State) (v : LutPort) : (s.withLut v).lut = v := rfl
@[simp] theorem State.withLut_huffSym (s : State) (v : LutPort) : (s.withLut v).huffSym = s.huffSym := rfl
@[simp] theorem State.withLut_huff (s : State) (v : LutPort) : (s.withLut v).huff = s.huff := rfl
@[simp] theorem State.withLut_tablesValid (s : State) (v : LutPort) : (s.withLut v).tablesValid = s.tablesValid := rfl
@[simp] theorem State.withLut_luts (s : State) (v : LutPort) : (s.withLut v).luts = s.luts := rfl
@[simp] theorem State.withLut_mem (s : State) (v : LutPort) : (s.withLut v).mem = s.mem := rfl
@[simp] theorem State.withLut_plat (s : State) (v : LutPort) : (s.withLut v).plat = s.plat := rfl
@[simp] theorem State.withLut_inbox (s : State) (v : LutPort) : (s.withLut v).inbox = s.inbox := rfl
@[simp] theorem State.withLut_bus (s : State) (v : LutPort) : (s.withLut v).bus = s.bus := rfl
@[simp] theorem State.withLut_draws (s : State) (v : LutPort) : (s.withLut v).draws = s.draws := rfl
@[simp] theorem State.withLut_races (s : State) (v : LutPort) : (s.withLut v).races = s.races := rfl

@[simp] theorem State.withHuffSym_eng (s : State) (v : BitVec 4) : (s.withHuffSym v).eng = s.eng := rfl
@[simp] theorem State.withHuffSym_ctrl (s : State) (v : BitVec 4) : (s.withHuffSym v).ctrl = s.ctrl := rfl
@[simp] theorem State.withHuffSym_cfg (s : State) (v : BitVec 4) : (s.withHuffSym v).cfg = s.cfg := rfl
@[simp] theorem State.withHuffSym_bufs (s : State) (v : BitVec 4) : (s.withHuffSym v).bufs = s.bufs := rfl
@[simp] theorem State.withHuffSym_seeds (s : State) (v : BitVec 4) : (s.withHuffSym v).seeds = s.seeds := rfl
@[simp] theorem State.withHuffSym_reader (s : State) (v : BitVec 4) : (s.withHuffSym v).reader = s.reader := rfl
@[simp] theorem State.withHuffSym_writer (s : State) (v : BitVec 4) : (s.withHuffSym v).writer = s.writer := rfl
@[simp] theorem State.withHuffSym_region (s : State) (v : BitVec 4) : (s.withHuffSym v).region = s.region := rfl
@[simp] theorem State.withHuffSym_scan (s : State) (v : BitVec 4) : (s.withHuffSym v).scan = s.scan := rfl
@[simp] theorem State.withHuffSym_lastPix (s : State) (v : BitVec 4) : (s.withHuffSym v).lastPix = s.lastPix := rfl
@[simp] theorem State.withHuffSym_geom (s : State) (v : BitVec 4) : (s.withHuffSym v).geom = s.geom := rfl
@[simp] theorem State.withHuffSym_lut (s : State) (v : BitVec 4) : (s.withHuffSym v).lut = s.lut := rfl
@[simp] theorem State.withHuffSym_huffSym (s : State) (v : BitVec 4) : (s.withHuffSym v).huffSym = v := rfl
@[simp] theorem State.withHuffSym_huff (s : State) (v : BitVec 4) : (s.withHuffSym v).huff = s.huff := rfl
@[simp] theorem State.withHuffSym_tablesValid (s : State) (v : BitVec 4) : (s.withHuffSym v).tablesValid = s.tablesValid := rfl
@[simp] theorem State.withHuffSym_luts (s : State) (v : BitVec 4) : (s.withHuffSym v).luts = s.luts := rfl
@[simp] theorem State.withHuffSym_mem (s : State) (v : BitVec 4) : (s.withHuffSym v).mem = s.mem := rfl
@[simp] theorem State.withHuffSym_plat (s : State) (v : BitVec 4) : (s.withHuffSym v).plat = s.plat := rfl
@[simp] theorem State.withHuffSym_inbox (s : State) (v : BitVec 4) : (s.withHuffSym v).inbox = s.inbox := rfl
@[simp] theorem State.withHuffSym_bus (s : State) (v : BitVec 4) : (s.withHuffSym v).bus = s.bus := rfl
@[simp] theorem State.withHuffSym_draws (s : State) (v : BitVec 4) : (s.withHuffSym v).draws = s.draws := rfl
@[simp] theorem State.withHuffSym_races (s : State) (v : BitVec 4) : (s.withHuffSym v).races = s.races := rfl

@[simp] theorem State.withHuff_eng (s : State) (v : HuffTables) : (s.withHuff v).eng = s.eng := rfl
@[simp] theorem State.withHuff_ctrl (s : State) (v : HuffTables) : (s.withHuff v).ctrl = s.ctrl := rfl
@[simp] theorem State.withHuff_cfg (s : State) (v : HuffTables) : (s.withHuff v).cfg = s.cfg := rfl
@[simp] theorem State.withHuff_bufs (s : State) (v : HuffTables) : (s.withHuff v).bufs = s.bufs := rfl
@[simp] theorem State.withHuff_seeds (s : State) (v : HuffTables) : (s.withHuff v).seeds = s.seeds := rfl
@[simp] theorem State.withHuff_reader (s : State) (v : HuffTables) : (s.withHuff v).reader = s.reader := rfl
@[simp] theorem State.withHuff_writer (s : State) (v : HuffTables) : (s.withHuff v).writer = s.writer := rfl
@[simp] theorem State.withHuff_region (s : State) (v : HuffTables) : (s.withHuff v).region = s.region := rfl
@[simp] theorem State.withHuff_scan (s : State) (v : HuffTables) : (s.withHuff v).scan = s.scan := rfl
@[simp] theorem State.withHuff_lastPix (s : State) (v : HuffTables) : (s.withHuff v).lastPix = s.lastPix := rfl
@[simp] theorem State.withHuff_geom (s : State) (v : HuffTables) : (s.withHuff v).geom = s.geom := rfl
@[simp] theorem State.withHuff_lut (s : State) (v : HuffTables) : (s.withHuff v).lut = s.lut := rfl
@[simp] theorem State.withHuff_huffSym (s : State) (v : HuffTables) : (s.withHuff v).huffSym = s.huffSym := rfl
@[simp] theorem State.withHuff_huff (s : State) (v : HuffTables) : (s.withHuff v).huff = v := rfl
@[simp] theorem State.withHuff_tablesValid (s : State) (v : HuffTables) : (s.withHuff v).tablesValid = s.tablesValid := rfl
@[simp] theorem State.withHuff_luts (s : State) (v : HuffTables) : (s.withHuff v).luts = s.luts := rfl
@[simp] theorem State.withHuff_mem (s : State) (v : HuffTables) : (s.withHuff v).mem = s.mem := rfl
@[simp] theorem State.withHuff_plat (s : State) (v : HuffTables) : (s.withHuff v).plat = s.plat := rfl
@[simp] theorem State.withHuff_inbox (s : State) (v : HuffTables) : (s.withHuff v).inbox = s.inbox := rfl
@[simp] theorem State.withHuff_bus (s : State) (v : HuffTables) : (s.withHuff v).bus = s.bus := rfl
@[simp] theorem State.withHuff_draws (s : State) (v : HuffTables) : (s.withHuff v).draws = s.draws := rfl
@[simp] theorem State.withHuff_races (s : State) (v : HuffTables) : (s.withHuff v).races = s.races := rfl

@[simp] theorem State.withTablesValid_eng (s : State) (v : Bool) : (s.withTablesValid v).eng = s.eng := rfl
@[simp] theorem State.withTablesValid_ctrl (s : State) (v : Bool) : (s.withTablesValid v).ctrl = s.ctrl := rfl
@[simp] theorem State.withTablesValid_cfg (s : State) (v : Bool) : (s.withTablesValid v).cfg = s.cfg := rfl
@[simp] theorem State.withTablesValid_bufs (s : State) (v : Bool) : (s.withTablesValid v).bufs = s.bufs := rfl
@[simp] theorem State.withTablesValid_seeds (s : State) (v : Bool) : (s.withTablesValid v).seeds = s.seeds := rfl
@[simp] theorem State.withTablesValid_reader (s : State) (v : Bool) : (s.withTablesValid v).reader = s.reader := rfl
@[simp] theorem State.withTablesValid_writer (s : State) (v : Bool) : (s.withTablesValid v).writer = s.writer := rfl
@[simp] theorem State.withTablesValid_region (s : State) (v : Bool) : (s.withTablesValid v).region = s.region := rfl
@[simp] theorem State.withTablesValid_scan (s : State) (v : Bool) : (s.withTablesValid v).scan = s.scan := rfl
@[simp] theorem State.withTablesValid_lastPix (s : State) (v : Bool) : (s.withTablesValid v).lastPix = s.lastPix := rfl
@[simp] theorem State.withTablesValid_geom (s : State) (v : Bool) : (s.withTablesValid v).geom = s.geom := rfl
@[simp] theorem State.withTablesValid_lut (s : State) (v : Bool) : (s.withTablesValid v).lut = s.lut := rfl
@[simp] theorem State.withTablesValid_huffSym (s : State) (v : Bool) : (s.withTablesValid v).huffSym = s.huffSym := rfl
@[simp] theorem State.withTablesValid_huff (s : State) (v : Bool) : (s.withTablesValid v).huff = s.huff := rfl
@[simp] theorem State.withTablesValid_tablesValid (s : State) (v : Bool) : (s.withTablesValid v).tablesValid = v := rfl
@[simp] theorem State.withTablesValid_luts (s : State) (v : Bool) : (s.withTablesValid v).luts = s.luts := rfl
@[simp] theorem State.withTablesValid_mem (s : State) (v : Bool) : (s.withTablesValid v).mem = s.mem := rfl
@[simp] theorem State.withTablesValid_plat (s : State) (v : Bool) : (s.withTablesValid v).plat = s.plat := rfl
@[simp] theorem State.withTablesValid_inbox (s : State) (v : Bool) : (s.withTablesValid v).inbox = s.inbox := rfl
@[simp] theorem State.withTablesValid_bus (s : State) (v : Bool) : (s.withTablesValid v).bus = s.bus := rfl
@[simp] theorem State.withTablesValid_draws (s : State) (v : Bool) : (s.withTablesValid v).draws = s.draws := rfl
@[simp] theorem State.withTablesValid_races (s : State) (v : Bool) : (s.withTablesValid v).races = s.races := rfl

@[simp] theorem State.withLuts_eng (s : State) (v : LutMem) : (s.withLuts v).eng = s.eng := rfl
@[simp] theorem State.withLuts_ctrl (s : State) (v : LutMem) : (s.withLuts v).ctrl = s.ctrl := rfl
@[simp] theorem State.withLuts_cfg (s : State) (v : LutMem) : (s.withLuts v).cfg = s.cfg := rfl
@[simp] theorem State.withLuts_bufs (s : State) (v : LutMem) : (s.withLuts v).bufs = s.bufs := rfl
@[simp] theorem State.withLuts_seeds (s : State) (v : LutMem) : (s.withLuts v).seeds = s.seeds := rfl
@[simp] theorem State.withLuts_reader (s : State) (v : LutMem) : (s.withLuts v).reader = s.reader := rfl
@[simp] theorem State.withLuts_writer (s : State) (v : LutMem) : (s.withLuts v).writer = s.writer := rfl
@[simp] theorem State.withLuts_region (s : State) (v : LutMem) : (s.withLuts v).region = s.region := rfl
@[simp] theorem State.withLuts_scan (s : State) (v : LutMem) : (s.withLuts v).scan = s.scan := rfl
@[simp] theorem State.withLuts_lastPix (s : State) (v : LutMem) : (s.withLuts v).lastPix = s.lastPix := rfl
@[simp] theorem State.withLuts_geom (s : State) (v : LutMem) : (s.withLuts v).geom = s.geom := rfl
@[simp] theorem State.withLuts_lut (s : State) (v : LutMem) : (s.withLuts v).lut = s.lut := rfl
@[simp] theorem State.withLuts_huffSym (s : State) (v : LutMem) : (s.withLuts v).huffSym = s.huffSym := rfl
@[simp] theorem State.withLuts_huff (s : State) (v : LutMem) : (s.withLuts v).huff = s.huff := rfl
@[simp] theorem State.withLuts_tablesValid (s : State) (v : LutMem) : (s.withLuts v).tablesValid = s.tablesValid := rfl
@[simp] theorem State.withLuts_luts (s : State) (v : LutMem) : (s.withLuts v).luts = v := rfl
@[simp] theorem State.withLuts_mem (s : State) (v : LutMem) : (s.withLuts v).mem = s.mem := rfl
@[simp] theorem State.withLuts_plat (s : State) (v : LutMem) : (s.withLuts v).plat = s.plat := rfl
@[simp] theorem State.withLuts_inbox (s : State) (v : LutMem) : (s.withLuts v).inbox = s.inbox := rfl
@[simp] theorem State.withLuts_bus (s : State) (v : LutMem) : (s.withLuts v).bus = s.bus := rfl
@[simp] theorem State.withLuts_draws (s : State) (v : LutMem) : (s.withLuts v).draws = s.draws := rfl
@[simp] theorem State.withLuts_races (s : State) (v : LutMem) : (s.withLuts v).races = s.races := rfl

@[simp] theorem State.withMem_eng (s : State) (v : Memory) : (s.withMem v).eng = s.eng := rfl
@[simp] theorem State.withMem_ctrl (s : State) (v : Memory) : (s.withMem v).ctrl = s.ctrl := rfl
@[simp] theorem State.withMem_cfg (s : State) (v : Memory) : (s.withMem v).cfg = s.cfg := rfl
@[simp] theorem State.withMem_bufs (s : State) (v : Memory) : (s.withMem v).bufs = s.bufs := rfl
@[simp] theorem State.withMem_seeds (s : State) (v : Memory) : (s.withMem v).seeds = s.seeds := rfl
@[simp] theorem State.withMem_reader (s : State) (v : Memory) : (s.withMem v).reader = s.reader := rfl
@[simp] theorem State.withMem_writer (s : State) (v : Memory) : (s.withMem v).writer = s.writer := rfl
@[simp] theorem State.withMem_region (s : State) (v : Memory) : (s.withMem v).region = s.region := rfl
@[simp] theorem State.withMem_scan (s : State) (v : Memory) : (s.withMem v).scan = s.scan := rfl
@[simp] theorem State.withMem_lastPix (s : State) (v : Memory) : (s.withMem v).lastPix = s.lastPix := rfl
@[simp] theorem State.withMem_geom (s : State) (v : Memory) : (s.withMem v).geom = s.geom := rfl
@[simp] theorem State.withMem_lut (s : State) (v : Memory) : (s.withMem v).lut = s.lut := rfl
@[simp] theorem State.withMem_huffSym (s : State) (v : Memory) : (s.withMem v).huffSym = s.huffSym := rfl
@[simp] theorem State.withMem_huff (s : State) (v : Memory) : (s.withMem v).huff = s.huff := rfl
@[simp] theorem State.withMem_tablesValid (s : State) (v : Memory) : (s.withMem v).tablesValid = s.tablesValid := rfl
@[simp] theorem State.withMem_luts (s : State) (v : Memory) : (s.withMem v).luts = s.luts := rfl
@[simp] theorem State.withMem_mem (s : State) (v : Memory) : (s.withMem v).mem = v := rfl
@[simp] theorem State.withMem_plat (s : State) (v : Memory) : (s.withMem v).plat = s.plat := rfl
@[simp] theorem State.withMem_inbox (s : State) (v : Memory) : (s.withMem v).inbox = s.inbox := rfl
@[simp] theorem State.withMem_bus (s : State) (v : Memory) : (s.withMem v).bus = s.bus := rfl
@[simp] theorem State.withMem_draws (s : State) (v : Memory) : (s.withMem v).draws = s.draws := rfl
@[simp] theorem State.withMem_races (s : State) (v : Memory) : (s.withMem v).races = s.races := rfl

@[simp] theorem State.withInbox_eng (s : State) (v : List Pending) : (s.withInbox v).eng = s.eng := rfl
@[simp] theorem State.withInbox_ctrl (s : State) (v : List Pending) : (s.withInbox v).ctrl = s.ctrl := rfl
@[simp] theorem State.withInbox_cfg (s : State) (v : List Pending) : (s.withInbox v).cfg = s.cfg := rfl
@[simp] theorem State.withInbox_bufs (s : State) (v : List Pending) : (s.withInbox v).bufs = s.bufs := rfl
@[simp] theorem State.withInbox_seeds (s : State) (v : List Pending) : (s.withInbox v).seeds = s.seeds := rfl
@[simp] theorem State.withInbox_reader (s : State) (v : List Pending) : (s.withInbox v).reader = s.reader := rfl
@[simp] theorem State.withInbox_writer (s : State) (v : List Pending) : (s.withInbox v).writer = s.writer := rfl
@[simp] theorem State.withInbox_region (s : State) (v : List Pending) : (s.withInbox v).region = s.region := rfl
@[simp] theorem State.withInbox_scan (s : State) (v : List Pending) : (s.withInbox v).scan = s.scan := rfl
@[simp] theorem State.withInbox_lastPix (s : State) (v : List Pending) : (s.withInbox v).lastPix = s.lastPix := rfl
@[simp] theorem State.withInbox_geom (s : State) (v : List Pending) : (s.withInbox v).geom = s.geom := rfl
@[simp] theorem State.withInbox_lut (s : State) (v : List Pending) : (s.withInbox v).lut = s.lut := rfl
@[simp] theorem State.withInbox_huffSym (s : State) (v : List Pending) : (s.withInbox v).huffSym = s.huffSym := rfl
@[simp] theorem State.withInbox_huff (s : State) (v : List Pending) : (s.withInbox v).huff = s.huff := rfl
@[simp] theorem State.withInbox_tablesValid (s : State) (v : List Pending) : (s.withInbox v).tablesValid = s.tablesValid := rfl
@[simp] theorem State.withInbox_luts (s : State) (v : List Pending) : (s.withInbox v).luts = s.luts := rfl
@[simp] theorem State.withInbox_mem (s : State) (v : List Pending) : (s.withInbox v).mem = s.mem := rfl
@[simp] theorem State.withInbox_plat (s : State) (v : List Pending) : (s.withInbox v).plat = s.plat := rfl
@[simp] theorem State.withInbox_inbox (s : State) (v : List Pending) : (s.withInbox v).inbox = v := rfl
@[simp] theorem State.withInbox_bus (s : State) (v : List Pending) : (s.withInbox v).bus = s.bus := rfl
@[simp] theorem State.withInbox_draws (s : State) (v : List Pending) : (s.withInbox v).draws = s.draws := rfl
@[simp] theorem State.withInbox_races (s : State) (v : List Pending) : (s.withInbox v).races = s.races := rfl

@[simp] theorem State.withBus_eng (s : State) (v : BusReply) : (s.withBus v).eng = s.eng := rfl
@[simp] theorem State.withBus_ctrl (s : State) (v : BusReply) : (s.withBus v).ctrl = s.ctrl := rfl
@[simp] theorem State.withBus_cfg (s : State) (v : BusReply) : (s.withBus v).cfg = s.cfg := rfl
@[simp] theorem State.withBus_bufs (s : State) (v : BusReply) : (s.withBus v).bufs = s.bufs := rfl
@[simp] theorem State.withBus_seeds (s : State) (v : BusReply) : (s.withBus v).seeds = s.seeds := rfl
@[simp] theorem State.withBus_reader (s : State) (v : BusReply) : (s.withBus v).reader = s.reader := rfl
@[simp] theorem State.withBus_writer (s : State) (v : BusReply) : (s.withBus v).writer = s.writer := rfl
@[simp] theorem State.withBus_region (s : State) (v : BusReply) : (s.withBus v).region = s.region := rfl
@[simp] theorem State.withBus_scan (s : State) (v : BusReply) : (s.withBus v).scan = s.scan := rfl
@[simp] theorem State.withBus_lastPix (s : State) (v : BusReply) : (s.withBus v).lastPix = s.lastPix := rfl
@[simp] theorem State.withBus_geom (s : State) (v : BusReply) : (s.withBus v).geom = s.geom := rfl
@[simp] theorem State.withBus_lut (s : State) (v : BusReply) : (s.withBus v).lut = s.lut := rfl
@[simp] theorem State.withBus_huffSym (s : State) (v : BusReply) : (s.withBus v).huffSym = s.huffSym := rfl
@[simp] theorem State.withBus_huff (s : State) (v : BusReply) : (s.withBus v).huff = s.huff := rfl
@[simp] theorem State.withBus_tablesValid (s : State) (v : BusReply) : (s.withBus v).tablesValid = s.tablesValid := rfl
@[simp] theorem State.withBus_luts (s : State) (v : BusReply) : (s.withBus v).luts = s.luts := rfl
@[simp] theorem State.withBus_mem (s : State) (v : BusReply) : (s.withBus v).mem = s.mem := rfl
@[simp] theorem State.withBus_plat (s : State) (v : BusReply) : (s.withBus v).plat = s.plat := rfl
@[simp] theorem State.withBus_inbox (s : State) (v : BusReply) : (s.withBus v).inbox = s.inbox := rfl
@[simp] theorem State.withBus_bus (s : State) (v : BusReply) : (s.withBus v).bus = v := rfl
@[simp] theorem State.withBus_draws (s : State) (v : BusReply) : (s.withBus v).draws = s.draws := rfl
@[simp] theorem State.withBus_races (s : State) (v : BusReply) : (s.withBus v).races = s.races := rfl

@[simp] theorem State.withDraws_eng (s : State) (v : Nat) : (s.withDraws v).eng = s.eng := rfl
@[simp] theorem State.withDraws_ctrl (s : State) (v : Nat) : (s.withDraws v).ctrl = s.ctrl := rfl
@[simp] theorem State.withDraws_cfg (s : State) (v : Nat) : (s.withDraws v).cfg = s.cfg := rfl
@[simp] theorem State.withDraws_bufs (s : State) (v : Nat) : (s.withDraws v).bufs = s.bufs := rfl
@[simp] theorem State.withDraws_seeds (s : State) (v : Nat) : (s.withDraws v).seeds = s.seeds := rfl
@[simp] theorem State.withDraws_reader (s : State) (v : Nat) : (s.withDraws v).reader = s.reader := rfl
@[simp] theorem State.withDraws_writer (s : State) (v : Nat) : (s.withDraws v).writer = s.writer := rfl
@[simp] theorem State.withDraws_region (s : State) (v : Nat) : (s.withDraws v).region = s.region := rfl
@[simp] theorem State.withDraws_scan (s : State) (v : Nat) : (s.withDraws v).scan = s.scan := rfl
@[simp] theorem State.withDraws_lastPix (s : State) (v : Nat) : (s.withDraws v).lastPix = s.lastPix := rfl
@[simp] theorem State.withDraws_geom (s : State) (v : Nat) : (s.withDraws v).geom = s.geom := rfl
@[simp] theorem State.withDraws_lut (s : State) (v : Nat) : (s.withDraws v).lut = s.lut := rfl
@[simp] theorem State.withDraws_huffSym (s : State) (v : Nat) : (s.withDraws v).huffSym = s.huffSym := rfl
@[simp] theorem State.withDraws_huff (s : State) (v : Nat) : (s.withDraws v).huff = s.huff := rfl
@[simp] theorem State.withDraws_tablesValid (s : State) (v : Nat) : (s.withDraws v).tablesValid = s.tablesValid := rfl
@[simp] theorem State.withDraws_luts (s : State) (v : Nat) : (s.withDraws v).luts = s.luts := rfl
@[simp] theorem State.withDraws_mem (s : State) (v : Nat) : (s.withDraws v).mem = s.mem := rfl
@[simp] theorem State.withDraws_plat (s : State) (v : Nat) : (s.withDraws v).plat = s.plat := rfl
@[simp] theorem State.withDraws_inbox (s : State) (v : Nat) : (s.withDraws v).inbox = s.inbox := rfl
@[simp] theorem State.withDraws_bus (s : State) (v : Nat) : (s.withDraws v).bus = s.bus := rfl
@[simp] theorem State.withDraws_draws (s : State) (v : Nat) : (s.withDraws v).draws = v := rfl
@[simp] theorem State.withDraws_races (s : State) (v : Nat) : (s.withDraws v).races = s.races := rfl

@[simp] theorem State.withRaces_eng (s : State) (v : List Word) : (s.withRaces v).eng = s.eng := rfl
@[simp] theorem State.withRaces_ctrl (s : State) (v : List Word) : (s.withRaces v).ctrl = s.ctrl := rfl
@[simp] theorem State.withRaces_cfg (s : State) (v : List Word) : (s.withRaces v).cfg = s.cfg := rfl
@[simp] theorem State.withRaces_bufs (s : State) (v : List Word) : (s.withRaces v).bufs = s.bufs := rfl
@[simp] theorem State.withRaces_seeds (s : State) (v : List Word) : (s.withRaces v).seeds = s.seeds := rfl
@[simp] theorem State.withRaces_reader (s : State) (v : List Word) : (s.withRaces v).reader = s.reader := rfl
@[simp] theorem State.withRaces_writer (s : State) (v : List Word) : (s.withRaces v).writer = s.writer := rfl
@[simp] theorem State.withRaces_region (s : State) (v : List Word) : (s.withRaces v).region = s.region := rfl
@[simp] theorem State.withRaces_scan (s : State) (v : List Word) : (s.withRaces v).scan = s.scan := rfl
@[simp] theorem State.withRaces_lastPix (s : State) (v : List Word) : (s.withRaces v).lastPix = s.lastPix := rfl
@[simp] theorem State.withRaces_geom (s : State) (v : List Word) : (s.withRaces v).geom = s.geom := rfl
@[simp] theorem State.withRaces_lut (s : State) (v : List Word) : (s.withRaces v).lut = s.lut := rfl
@[simp] theorem State.withRaces_huffSym (s : State) (v : List Word) : (s.withRaces v).huffSym = s.huffSym := rfl
@[simp] theorem State.withRaces_huff (s : State) (v : List Word) : (s.withRaces v).huff = s.huff := rfl
@[simp] theorem State.withRaces_tablesValid (s : State) (v : List Word) : (s.withRaces v).tablesValid = s.tablesValid := rfl
@[simp] theorem State.withRaces_luts (s : State) (v : List Word) : (s.withRaces v).luts = s.luts := rfl
@[simp] theorem State.withRaces_mem (s : State) (v : List Word) : (s.withRaces v).mem = s.mem := rfl
@[simp] theorem State.withRaces_plat (s : State) (v : List Word) : (s.withRaces v).plat = s.plat := rfl
@[simp] theorem State.withRaces_inbox (s : State) (v : List Word) : (s.withRaces v).inbox = s.inbox := rfl
@[simp] theorem State.withRaces_bus (s : State) (v : List Word) : (s.withRaces v).bus = s.bus := rfl
@[simp] theorem State.withRaces_draws (s : State) (v : List Word) : (s.withRaces v).draws = s.draws := rfl
@[simp] theorem State.withRaces_races (s : State) (v : List Word) : (s.withRaces v).races = v := rfl

end Sys2Proof.Machine
end

