-- ==== Sys2Proof/Laws/Command.lean ====
section
/-! SUPPORT. The language of command bodies: what each building block answers, how a sequence splits,
and the one induction behind everything a body keeps. -/

namespace Sys2Proof.Machine

variable {α β : Type}

/-! ### Outcomes of the building blocks -/

theorem Res.out_after (t : List Act) (r : Res α) : (r.after t).out = r.out := by
  cases r <;> rfl

@[simp] theorem Cmd.out_pure (a : α) (s : State) : (Cmd.pure a).out s = .ok a s := rfl

@[simp] theorem Cmd.out_raise (e : ErrCode) (s : State) :
    (Cmd.raise e : Cmd α).out s = .raised e s := rfl

@[simp] theorem Cmd.out_read (f : State → α) (s : State) : (Cmd.read f).out s = .ok (f s) s := rfl

@[simp] theorem Cmd.out_update (rs : List Reg) (f : State → State) (s : State) :
    (Cmd.update rs f).out s = .ok () (f s) := rfl

theorem Cmd.out_check (f : State → ErrCode) (s : State) :
    (Cmd.check f).out s = if f s = .noError then .ok () s else .raised (f s) s := by
  unfold Cmd.out Cmd.check
  split <;> rfl

theorem Cmd.out_require (p : State → Bool) (e : ErrCode) (s : State) (he : e ≠ .noError) :
    (Cmd.require p e).out s = if p s then .ok () s else .raised e s := by
  rw [Cmd.require, Cmd.out_check]
  cases h : p s <;> simp [he]

@[simp] theorem out_memRead (a : Word) (s : State) :
    (memRead a).out s = .ok (s.mem.read a.toNat) s := rfl

@[simp] theorem out_memWrite (a : Word) (v : Byte) (s : State) :
    (memWrite a v).out s = .ok () (s.storeByte a v) := rfl

/-! ### Sequencing -/

/-- A sequence, by the outcome of its first part. -/
theorem Cmd.out_bind (c : Cmd α) (f : α → Cmd β) (s : State) :
    (c.bind f).out s =
      match c.out s with
      | .ok a s' => (f a).out s'
      | .raised e s' => .raised e s' := by
  show (Cmd.bind c f s).out = match (c s).out with
      | .ok a s' => (f a s').out
      | .raised e s' => .raised e s'
  unfold Cmd.bind
  cases c s with
  | ok a s' t => exact Res.out_after t _
  | raised e s' t => rfl

theorem Cmd.out_bind_ok {c : Cmd α} {s s' : State} {a : α} (h : c.out s = .ok a s')
    (f : α → Cmd β) : (c.bind f).out s = (f a).out s' := by
  rw [Cmd.out_bind, h]

theorem Cmd.out_bind_raised {c : Cmd α} {s s' : State} {e : ErrCode} (h : c.out s = .raised e s')
    (f : α → Cmd β) : (c.bind f).out s = .raised e s' := by
  rw [Cmd.out_bind, h]

theorem Cmd.out_seq_ok {c : Cmd α} {s s' : State} {a : α} (h : c.out s = .ok a s')
    (d : Cmd β) : (c.seq d).out s = d.out s' := Cmd.out_bind_ok h _

theorem Cmd.out_seq_raised {c : Cmd α} {s s' : State} {e : ErrCode} (h : c.out s = .raised e s')
    (d : Cmd β) : (c.seq d).out s = .raised e s' := Cmd.out_bind_raised h _

/-- A sequence ends well only if both parts do. -/
theorem Cmd.bind_ok_cases {c : Cmd α} {f : α → Cmd β} {s t : State} {b : β}
    (h : (c.bind f).out s = .ok b t) : ∃ a s', c.out s = .ok a s' ∧ (f a).out s' = .ok b t := by
  rw [Cmd.out_bind] at h
  cases hc : c.out s with
  | ok a s' => exact ⟨a, s', rfl, by simpa [hc] using h⟩
  | raised e s' => simp [hc] at h

/-- A sequence raises in one of its parts. -/
theorem Cmd.bind_raised_cases {c : Cmd α} {f : α → Cmd β} {s t : State} {e : ErrCode}
    (h : (c.bind f).out s = .raised e t) :
    c.out s = .raised e t ∨ ∃ a s', c.out s = .ok a s' ∧ (f a).out s' = .raised e t := by
  rw [Cmd.out_bind] at h
  cases hc : c.out s with
  | ok a s' => exact .inr ⟨a, s', rfl, by simpa [hc] using h⟩
  | raised e' s' => exact .inl (by simpa [hc] using h)

@[simp] theorem Cmd.out_pure_bind (a : α) (f : α → Cmd β) (s : State) :
    ((Cmd.pure a).bind f).out s = (f a).out s := Cmd.out_bind_ok rfl f

@[simp] theorem Cmd.out_raise_bind (e : ErrCode) (f : α → Cmd β) (s : State) :
    ((Cmd.raise e : Cmd α).bind f).out s = .raised e s := Cmd.out_bind_raised rfl f

@[simp] theorem Cmd.out_read_bind (g : State → α) (f : α → Cmd β) (s : State) :
    ((Cmd.read g).bind f).out s = (f (g s)).out s := Cmd.out_bind_ok rfl f

@[simp] theorem Cmd.out_update_bind (rs : List Reg) (g : State → State) (f : Unit → Cmd β)
    (s : State) : ((Cmd.update rs g).bind f).out s = (f ()).out (g s) := Cmd.out_bind_ok rfl f

@[simp] theorem Cmd.out_update_seq (rs : List Reg) (g : State → State) (d : Cmd β) (s : State) :
    ((Cmd.update rs g).seq d).out s = d.out (g s) := Cmd.out_bind_ok rfl _

@[simp] theorem out_memRead_bind (a : Word) (f : Byte → Cmd β) (s : State) :
    ((memRead a).bind f).out s = (f (s.mem.read a.toNat)).out s := Cmd.out_bind_ok rfl f

@[simp] theorem out_memWrite_seq (a : Word) (v : Byte) (d : Cmd β) (s : State) :
    ((memWrite a v).seq d).out s = d.out (s.storeByte a v) := Cmd.out_bind_ok rfl _

theorem Cmd.out_check_seq (f : State → ErrCode) (d : Cmd β) (s : State) :
    ((Cmd.check f).seq d).out s = if f s = .noError then d.out s else .raised (f s) s := by
  rw [Cmd.seq, Cmd.out_bind, Cmd.out_check]
  by_cases h : f s = .noError <;> simp [h]

theorem Cmd.out_require_seq (p : State → Bool) (e : ErrCode) (d : Cmd β) (s : State)
    (he : e ≠ .noError) :
    ((Cmd.require p e).seq d).out s = if p s then d.out s else .raised e s := by
  rw [Cmd.require, Cmd.out_check_seq]
  cases h : p s <;> simp [he]

@[simp] theorem Cmd.bind_assoc_out {γ : Type} (c : Cmd α) (f : α → Cmd β) (g : β → Cmd γ)
    (s : State) : ((c.bind f).bind g).out s = (c.bind fun a => (f a).bind g).out s := by
  rw [Cmd.out_bind, Cmd.out_bind, Cmd.out_bind c]
  cases c.out s with
  | ok a s' => simp only [Cmd.out_bind]
  | raised e s' => rfl

@[simp] theorem Cmd.out_forEach_nil (f : α → Cmd Unit) (s : State) :
    (Cmd.forEach [] f).out s = .ok () s := rfl

theorem Cmd.out_forEach_cons (a : α) (l : List α) (f : α → Cmd Unit) (s : State) :
    (Cmd.forEach (a :: l) f).out s = ((f a).seq (Cmd.forEach l f)).out s := rfl

theorem Cmd.out_forEach_append (l l' : List α) (f : α → Cmd Unit) (s : State) :
    (Cmd.forEach (l ++ l') f).out s = ((Cmd.forEach l f).seq (Cmd.forEach l' f)).out s := by
  induction l generalizing s with
  | nil => simp [Cmd.seq, Cmd.out_bind]
  | cons a l ih =>
    rw [List.cons_append, Cmd.out_forEach_cons, Cmd.seq, Cmd.seq, Cmd.out_bind, Cmd.out_bind,
      Cmd.out_forEach_cons, Cmd.seq, Cmd.out_bind]
    cases (f a).out s with
    | ok u s' => simp only [ih s', Cmd.seq, Cmd.out_bind]
    | raised e s' => rfl

/-! ### A whole command -/

theorem runCommand_ok {c : Cmd Unit} {s t : State} (h : c.out s = .ok () t) :
    runCommand c s = .next t.finish := by
  rw [runCommand, h]

theorem runCommand_raised {c : Cmd Unit} {s t : State} {e : ErrCode}
    (h : c.out s = .raised e t) : runCommand c s = .next (t.raiseEnd e) := by
  rw [runCommand, h]

/-- A command always answers a next state. -/
theorem runCommand_next (c : Cmd Unit) (s : State) : ∃ t, runCommand c s = .next t := by
  unfold runCommand
  split <;> exact ⟨_, rfl⟩

/-- What a whole command can do: end well, or end with the error it raises. -/
theorem runCommand_cases {c : Cmd Unit} {s t : State} (h : runCommand c s = .next t) :
    (∃ s', c.out s = .ok () s' ∧ t = s'.finish) ∨
    (∃ e s', c.out s = .raised e s' ∧ t = s'.raiseEnd e) := by
  unfold runCommand at h
  split at h
  · next u s' hc => exact .inl ⟨s', hc, by simpa using h.symm⟩
  · next e s' hc => exact .inr ⟨e, s', hc, by simpa using h.symm⟩

/-! ### What a body keeps -/

/-- The property holds where a body ends and after each of its actions. -/
def Res.Holds (P : State → Prop) : Res α → Prop
  | .ok _ s t => P s ∧ ∀ a ∈ t, P a.after
  | .raised _ s t => P s ∧ ∀ a ∈ t, P a.after

/-- The body keeps the property: from a state that has it, every state it passes through and the one
it ends in have it. -/
def Cmd.Keeps (P : State → Prop) (c : Cmd α) : Prop := ∀ s, P s → (c s).Holds P

theorem Res.holds_after {P : State → Prop} {t : List Act} {r : Res α} (ht : ∀ a ∈ t, P a.after)
    (hr : r.Holds P) : (r.after t).Holds P := by
  cases r with
  | ok a s t' =>
    exact ⟨hr.1, fun x hx => (List.mem_append.1 hx).elim (ht x) (hr.2 x)⟩
  | raised e s t' =>
    exact ⟨hr.1, fun x hx => (List.mem_append.1 hx).elim (ht x) (hr.2 x)⟩

section
variable {P : State → Prop}

theorem Cmd.keeps_pure (a : α) : (Cmd.pure a).Keeps P := fun _ h => ⟨h, by simp⟩

theorem Cmd.keeps_raise (e : ErrCode) : (Cmd.raise e : Cmd α).Keeps P := fun _ h => ⟨h, by simp⟩

theorem Cmd.keeps_read (f : State → α) : (Cmd.read f).Keeps P := fun _ h => ⟨h, by simp⟩

theorem Cmd.keeps_update {rs : List Reg} {f : State → State} (hf : ∀ s, P s → P (f s)) :
    (Cmd.update rs f).Keeps P :=
  fun s h => ⟨hf s h, by simpa using hf s h⟩

theorem Cmd.keeps_check (f : State → ErrCode) : (Cmd.check f).Keeps P := fun s h => by
  unfold Cmd.check
  split <;> exact ⟨h, by simp⟩

theorem Cmd.keeps_require (p : State → Bool) (e : ErrCode) : (Cmd.require p e).Keeps P :=
  Cmd.keeps_check _

theorem Cmd.keeps_bind {c : Cmd α} {f : α → Cmd β} (hc : c.Keeps P) (hf : ∀ a, (f a).Keeps P) :
    (c.bind f).Keeps P := fun s h => by
  have := hc s h
  unfold Cmd.bind
  cases hs : c s with
  | ok a s' t =>
    rw [hs] at this
    exact Res.holds_after this.2 (hf a s' this.1)
  | raised e s' t => rw [hs] at this; exact this

theorem Cmd.keeps_seq {c : Cmd α} {d : Cmd β} (hc : c.Keeps P) (hd : d.Keeps P) :
    (c.seq d).Keeps P := Cmd.keeps_bind hc fun _ => hd

theorem Cmd.keeps_forEach {l : List α} {f : α → Cmd Unit} (hf : ∀ a, (f a).Keeps P) :
    (Cmd.forEach l f).Keeps P := by
  induction l with
  | nil => exact Cmd.keeps_pure ()
  | cons a l ih => exact Cmd.keeps_seq (hf a) ih

theorem keeps_memRead (a : Word) : (memRead a).Keeps P := fun _ h => ⟨h, by simpa using h⟩

theorem keeps_memWrite {a : Word} {v : Byte} (hs : ∀ s, P s → P (s.storeByte a v)) :
    (memWrite a v).Keeps P := fun s h => ⟨hs s h, by simpa using hs s h⟩

/-- A body that keeps a property keeps it to a good end. -/
theorem Cmd.Keeps.ok {c : Cmd α} (hc : c.Keeps P) {s s' : State} {a : α} (h : P s)
    (ho : c.out s = .ok a s') : P s' := by
  have := hc s h
  unfold Cmd.out at ho
  cases hs : c s with
  | ok b s'' t =>
    rw [hs] at this ho
    simp only [Res.out, Out.ok.injEq] at ho
    exact ho.2 ▸ this.1
  | raised e s'' t => rw [hs] at ho; simp [Res.out] at ho

/-- A body that keeps a property keeps it to a raise. -/
theorem Cmd.Keeps.raised {c : Cmd α} (hc : c.Keeps P) {s s' : State} {e : ErrCode} (h : P s)
    (ho : c.out s = .raised e s') : P s' := by
  have := hc s h
  unfold Cmd.out at ho
  cases hs : c s with
  | ok b s'' t => rw [hs] at ho; simp [Res.out] at ho
  | raised e' s'' t =>
    rw [hs] at this ho
    simp only [Res.out, Out.raised.injEq] at ho
    exact ho.2 ▸ this.1

/-- A whole command keeps what its body and the two ways of ending keep. -/
theorem runCommand_keeps {c : Cmd Unit} (hc : c.Keeps P) (hf : ∀ s, P s → P s.finish)
    (hr : ∀ s e, P s → P (s.raiseEnd e)) {s t : State} (h : P s)
    (ht : runCommand c s = .next t) : P t := by
  rcases runCommand_cases ht with ⟨s', ho, rfl⟩ | ⟨e, s', ho, rfl⟩
  · exact hf _ (hc.ok h ho)
  · exact hr _ _ (hc.raised h ho)

/-- A property of every action holds of every prefix of a body's actions. -/
theorem stateAfter_holds {s : State} {acts : List Act} (h : P s) (ha : ∀ a ∈ acts, P a.after)
    (k : Nat) : P (stateAfter s acts k) := by
  unfold stateAfter
  cases hl : (acts.take k).getLast? with
  | none => exact h
  | some a => exact ha a (List.take_subset k acts (List.mem_of_getLast? hl))

theorem Cmd.Keeps.acts {c : Cmd α} (hc : c.Keeps P) {s : State} (h : P s) :
    ∀ a ∈ c.acts s, P a.after := by
  have := hc s h
  unfold Cmd.acts
  cases hs : c s with
  | ok b s' t => rw [hs] at this; exact this.2
  | raised e s' t => rw [hs] at this; exact this.2

end

end Sys2Proof.Machine
end

