-- ==== Sys2Proof/Laws/Memory.lean ====
section
/-! SUPPORT. Host memory: a read after a write, and the canonical form. -/

namespace Sys2Proof.Machine

/-! ### Read after write -/

theorem Memory.read?_write_same (m : Memory) (k : Nat) (v : Byte) :
    (m.write k v).read? k = some v := by
  induction m with
  | nil => simp [Memory.write, Memory.read?]
  | cons c m ih =>
    obtain ⟨a, w⟩ := c
    by_cases h1 : k < a
    · simp [Memory.write, Memory.read?, h1]
    · by_cases h2 : k = a
      · simp [Memory.write, Memory.read?, h2]
      · simp [Memory.write, Memory.read?, h1, h2, ih]

theorem Memory.read?_write_other (m : Memory) {k j : Nat} (v : Byte) (h : j ≠ k) :
    (m.write k v).read? j = m.read? j := by
  induction m with
  | nil => simp [Memory.write, Memory.read?, h]
  | cons c m ih =>
    obtain ⟨a, w⟩ := c
    by_cases h1 : k < a
    · simp [Memory.write, Memory.read?, h1, h]
    · by_cases h2 : k = a
      · subst h2
        simp [Memory.write, Memory.read?, h]
      · simp [Memory.write, Memory.read?, h1, h2, ih]

@[simp] theorem Memory.read_write_same (m : Memory) (k : Nat) (v : Byte) :
    (m.write k v).read k = v := by
  simp [Memory.read, Memory.read?_write_same]

theorem Memory.read_write_other (m : Memory) {k j : Nat} (v : Byte) (h : j ≠ k) :
    (m.write k v).read j = m.read j := by
  simp [Memory.read, Memory.read?_write_other m v h]

/-- What a byte reads as after a write, once and for all. -/
theorem Memory.read_write (m : Memory) (k j : Nat) (v : Byte) :
    (m.write k v).read j = if j = k then v else m.read j := by
  split
  · next h => subst h; simp
  · next h => exact Memory.read_write_other m v h

/-! ### The canonical form -/

theorem Memory.mem_write {m : Memory} {k : Nat} {v : Byte} {c : Host.Cell}
    (h : c ∈ m.write k v) : c = (k, v) ∨ c ∈ m := by
  induction m with
  | nil => simpa [Memory.write] using h
  | cons d m ih =>
    obtain ⟨a, w⟩ := d
    by_cases h1 : k < a
    · simpa [Memory.write, h1] using h
    · by_cases h2 : k = a
      · simp only [Memory.write, h2, if_true, if_false, lt_irrefl] at h
        rcases List.mem_cons.1 h with h | h
        · exact .inl (by simpa [h2] using h)
        · exact .inr (List.mem_cons_of_mem _ h)
      · simp only [Memory.write, h1, h2, if_false] at h
        rcases List.mem_cons.1 h with h | h
        · exact .inr (by simp [h])
        · rcases ih h with h | h
          · exact .inl h
          · exact .inr (List.mem_cons_of_mem _ h)

theorem Memory.sorted_write {m : Memory} (k : Nat) (v : Byte)
    (h : m.Pairwise fun a b => a.1 < b.1) : (m.write k v).Pairwise fun a b => a.1 < b.1 := by
  induction m with
  | nil => simp [Memory.write]
  | cons d m ih =>
    obtain ⟨a, w⟩ := d
    obtain ⟨hd, hm⟩ := List.pairwise_cons.1 h
    by_cases h1 : k < a
    · simp only [Memory.write, h1, if_true]
      refine List.pairwise_cons.2 ⟨fun c hc => ?_, h⟩
      rcases List.mem_cons.1 hc with rfl | hc
      · exact h1
      · exact h1.trans (hd c hc)
    · by_cases h2 : k = a
      · subst h2
        simp only [Memory.write, lt_irrefl, if_true, if_false]
        exact List.pairwise_cons.2 ⟨hd, hm⟩
      · simp only [Memory.write, h1, h2, if_false]
        refine List.pairwise_cons.2 ⟨fun c hc => ?_, ih hm⟩
        rcases Memory.mem_write hc with rfl | hc
        · have := h1
          have := h2
          simp only
          omega
        · exact hd c hc

/-- A write of a byte of the address space keeps the canonical form. -/
theorem Memory.wf_write {m : Memory} (h : m.wf) {k : Nat} (hk : k < 2 ^ 32) (v : Byte) :
    (m.write k v).wf := by
  refine ⟨Memory.sorted_write k v h.1, fun c hc => ?_⟩
  rcases Memory.mem_write hc with rfl | hc
  · exact hk
  · exact h.2 c hc

theorem Memory.wf_reset : State.reset.mem.wf := by
  simp [State.reset, Memory.wf]

/-! ### A stored byte -/

/-- Without a race, a store writes its byte. -/
theorem State.storeByte_eq {s : State} {a : Word} (h : a ∉ s.races) (v : Byte) :
    s.storeByte a v = s.withMem (s.mem.write a.toNat v) := if_neg h

theorem State.storeByte_read_same {s : State} {a : Word} (h : a ∉ s.races) (v : Byte) :
    (s.storeByte a v).mem.read a.toNat = v := by
  simp [State.storeByte_eq h]

/-- A store changes no other byte, race or not. -/
theorem State.storeByte_read_other (s : State) (a : Word) (v : Byte) {j : Nat} (h : j ≠ a.toNat) :
    (s.storeByte a v).mem.read j = s.mem.read j := by
  unfold State.storeByte
  split
  · rfl
  · simp [Memory.read_write_other _ _ h]

/-- What a byte reads as after a store. -/
theorem State.storeByte_read {s : State} {a : Word} (h : a ∉ s.races) (v : Byte) (j : Nat) :
    (s.storeByte a v).mem.read j = if j = a.toNat then v else s.mem.read j := by
  simp [State.storeByte_eq h, Memory.read_write]

theorem State.storeByte_wf {s : State} (h : s.mem.wf) (a : Word) (v : Byte) :
    (s.storeByte a v).mem.wf := by
  unfold State.storeByte
  split
  · exact h
  · simpa using Memory.wf_write h a.isLt v

/-! ### A store leaves every other part -/

@[simp] theorem State.storeByte_eng (s : State) (a : Word) (v : Byte) :
    (s.storeByte a v).eng = s.eng := by
  unfold State.storeByte; split <;> rfl
@[simp] theorem State.storeByte_ctrl (s : State) (a : Word) (v : Byte) :
    (s.storeByte a v).ctrl = s.ctrl := by
  unfold State.storeByte; split <;> rfl
@[simp] theorem State.storeByte_cfg (s : State) (a : Word) (v : Byte) :
    (s.storeByte a v).cfg = s.cfg := by
  unfold State.storeByte; split <;> rfl
@[simp] theorem State.storeByte_bufs (s : State) (a : Word) (v : Byte) :
    (s.storeByte a v).bufs = s.bufs := by
  unfold State.storeByte; split <;> rfl
@[simp] theorem State.storeByte_seeds (s : State) (a : Word) (v : Byte) :
    (s.storeByte a v).seeds = s.seeds := by
  unfold State.storeByte; split <;> rfl
@[simp] theorem State.storeByte_reader (s : State) (a : Word) (v : Byte) :
    (s.storeByte a v).reader = s.reader := by
  unfold State.storeByte; split <;> rfl
@[simp] theorem State.storeByte_writer (s : State) (a : Word) (v : Byte) :
    (s.storeByte a v).writer = s.writer := by
  unfold State.storeByte; split <;> rfl
@[simp] theorem State.storeByte_region (s : State) (a : Word) (v : Byte) :
    (s.storeByte a v).region = s.region := by
  unfold State.storeByte; split <;> rfl
@[simp] theorem State.storeByte_scan (s : State) (a : Word) (v : Byte) :
    (s.storeByte a v).scan = s.scan := by
  unfold State.storeByte; split <;> rfl
@[simp] theorem State.storeByte_lastPix (s : State) (a : Word) (v : Byte) :
    (s.storeByte a v).lastPix = s.lastPix := by
  unfold State.storeByte; split <;> rfl
@[simp] theorem State.storeByte_geom (s : State) (a : Word) (v : Byte) :
    (s.storeByte a v).geom = s.geom := by
  unfold State.storeByte; split <;> rfl
@[simp] theorem State.storeByte_lut (s : State) (a : Word) (v : Byte) :
    (s.storeByte a v).lut = s.lut := by
  unfold State.storeByte; split <;> rfl
@[simp] theorem State.storeByte_huffSym (s : State) (a : Word) (v : Byte) :
    (s.storeByte a v).huffSym = s.huffSym := by
  unfold State.storeByte; split <;> rfl
@[simp] theorem State.storeByte_huff (s : State) (a : Word) (v : Byte) :
    (s.storeByte a v).huff = s.huff := by
  unfold State.storeByte; split <;> rfl
@[simp] theorem State.storeByte_tablesValid (s : State) (a : Word) (v : Byte) :
    (s.storeByte a v).tablesValid = s.tablesValid := by
  unfold State.storeByte; split <;> rfl
@[simp] theorem State.storeByte_luts (s : State) (a : Word) (v : Byte) :
    (s.storeByte a v).luts = s.luts := by
  unfold State.storeByte; split <;> rfl
@[simp] theorem State.storeByte_plat (s : State) (a : Word) (v : Byte) :
    (s.storeByte a v).plat = s.plat := by
  unfold State.storeByte; split <;> rfl
@[simp] theorem State.storeByte_inbox (s : State) (a : Word) (v : Byte) :
    (s.storeByte a v).inbox = s.inbox := by
  unfold State.storeByte; split <;> rfl
@[simp] theorem State.storeByte_bus (s : State) (a : Word) (v : Byte) :
    (s.storeByte a v).bus = s.bus := by
  unfold State.storeByte; split <;> rfl
@[simp] theorem State.storeByte_draws (s : State) (a : Word) (v : Byte) :
    (s.storeByte a v).draws = s.draws := by
  unfold State.storeByte; split <;> rfl
@[simp] theorem State.storeByte_races (s : State) (a : Word) (v : Byte) :
    (s.storeByte a v).races = s.races := by
  unfold State.storeByte; split <;> rfl

end Sys2Proof.Machine
end

