-- ==== Sys2Proof/Laws/Bits.lean ====
section
/-! SUPPORT. The bit reader and the bit writer: what one bit, a field and an appended list of bits
do. -/

namespace Sys2Proof.Machine

/-! ### Bytes of a stream -/

theorem streamByte_eq (base : Word) {q : Nat} (h : q < 2 ^ 32) :
    streamByte base q = (base.toNat + q / 8) % 2 ^ 32 := by
  have : q % 2 ^ 32 = q := Nat.mod_eq_of_lt h
  simp only [streamByte, bitAddr, BitVec.toNat_add, BitVec.toNat_ushiftRight, BitVec.toNat_ofNat,
    this, Nat.shiftRight_eq_div_pow]

theorem streamByte_pos (base pos : Word) : (bitAddr base pos).toNat = streamByte base pos.toNat := by
  simp [streamByte]

/-- Two positions share a byte exactly when they lie in the same byte of the stream. -/
theorem streamByte_inj (base : Word) {q r : Nat} (hq : q < 2 ^ 32) (hr : r < 2 ^ 32) :
    streamByte base q = streamByte base r ↔ q / 8 = r / 8 := by
  rw [streamByte_eq base hq, streamByte_eq base hr]
  have := base.isLt
  omega

theorem bitAt_pos (m : Memory) (base pos : Word) :
    (m.read (bitAddr base pos).toNat).getLsbD (bitIndex pos) = bitAt m base pos.toNat := by
  simp [bitAt, streamByte_pos, bitIndex]

/-! ### One bit set in a byte -/

theorem setBit_getLsbD (old : Byte) (k j : Nat) (b : Bool) (hj : j < 8) :
    (setBit old k b).getLsbD j = if j = k then b else old.getLsbD j := by
  unfold setBit
  cases b
  · by_cases h : j = k
    · subst h
      simp [hj]
    · simp only [Bool.false_eq_true, if_false, BitVec.getLsbD_and, BitVec.getLsbD_not, hj,
        BitVec.getLsbD_shiftLeft, if_neg h]
      have : (1#8).getLsbD (j - k) = decide (j - k = 0) := by
        simp [BitVec.getLsbD_one]
      rw [this]
      by_cases h1 : j < k
      · simp [h1]
      · have : ¬ (j - k = 0) := by omega
        simp [this]
  · by_cases h : j = k
    · subst h
      simp [hj]
    · simp only [if_true, BitVec.getLsbD_or, BitVec.getLsbD_shiftLeft, if_neg h]
      have : (1#8).getLsbD (j - k) = decide (j - k = 0) := by
        simp [BitVec.getLsbD_one]
      rw [this]
      by_cases h1 : j < k
      · simp [h1]
      · have : ¬ (j - k = 0) := by omega
        simp [this]

/-! ### Reading -/

@[simp] theorem State.consumed_zero (s : State) : s.consumed 0 = s := by
  simp [State.consumed, State.withReader]

theorem State.consumed_consumed (s : State) (m n : Nat) :
    (s.consumed m).consumed n = s.consumed (m + n) := by
  simp [State.consumed, State.withReader, BitVec.ofNat_add, BitVec.add_assoc]

theorem State.bitConsumed_eq (s : State) : s.bitConsumed = s.consumed 1 := rfl

@[simp] theorem State.consumed_mem (s : State) (n : Nat) : (s.consumed n).mem = s.mem := rfl
@[simp] theorem State.consumed_base (s : State) (n : Nat) :
    (s.consumed n).reader.base = s.reader.base := rfl
@[simp] theorem State.consumed_budget (s : State) (n : Nat) :
    (s.consumed n).reader.budget = s.reader.budget := rfl

theorem State.consumed_pos (s : State) {n : Nat} (h : s.canRead n) :
    (s.consumed n).reader.pos.toNat = s.reader.pos.toNat + n := by
  have := s.reader.budget.isLt
  simp only [State.consumed, State.withReader_reader, BitVec.toNat_add, BitVec.toNat_ofNat]
  omega

/-- `ReadBit`: everything it can do (20_memory R110). -/
theorem readBit_out (s : State) :
    readBit.out s =
      if s.reader.pos.toNat < s.reader.budget.toNat then
        .ok (bitAt s.mem s.reader.base s.reader.pos.toNat) (s.consumed 1)
      else .raised .truncated s := by
  unfold readBit
  rw [Cmd.out_require_seq _ _ _ _ (by decide)]
  simp [BitVec.lt_def, bitAt_pos, State.bitConsumed_eq]

theorem readBitsFrom_ok (n v : Nat) (s : State) (h : s.canRead n) :
    (readBitsFrom n v).out s =
      .ok (2 ^ n * v + fieldAt s.mem s.reader.base s.reader.pos.toNat n) (s.consumed n) := by
  induction n generalizing v s with
  | zero => simp [readBitsFrom, fieldAt]
  | succ n ih =>
    have h1 : s.canRead 1 := by simp only [State.canRead] at *; omega
    have h2 : (s.consumed 1).canRead n := by
      simp only [State.canRead, State.consumed_pos s h1, State.consumed_budget] at *; omega
    rw [readBitsFrom, Cmd.out_bind_ok (a := bitAt s.mem s.reader.base s.reader.pos.toNat)
      (s' := s.consumed 1) (by rw [readBit_out, if_pos (by simpa [State.canRead] using h1)]),
      ih _ _ h2, State.consumed_consumed, Nat.add_comm 1 n]
    congr 1
    simp only [State.consumed_mem, State.consumed_base, State.consumed_pos s h1]
    have key : ∀ k, fieldAt s.mem s.reader.base s.reader.pos.toNat (k + 1) =
        2 ^ k * (bitAt s.mem s.reader.base s.reader.pos.toNat).toNat +
          fieldAt s.mem s.reader.base (s.reader.pos.toNat + 1) k := by
      intro k
      induction k with
      | zero => simp [fieldAt]
      | succ k ihk =>
        rw [fieldAt, ihk]
        simp only [fieldAt]
        rw [show s.reader.pos.toNat + (k + 1) = s.reader.pos.toNat + 1 + k by omega]
        ring
    rw [key n]
    ring

/-- `ReadBits` within the budget: the field, and nothing but BR_POS changed (20_memory R111). -/
theorem readBits_ok (n : Nat) (s : State) (h : s.canRead n) :
    (readBits n).out s =
      .ok (fieldAt s.mem s.reader.base s.reader.pos.toNat n) (s.consumed n) := by
  simpa [readBits] using readBitsFrom_ok n 0 s h

/-- `ReadBits` beyond the budget: E_TRUNCATED, the bits up to the budget consumed. -/
theorem readBits_truncated (n v : Nat) (s : State) (h : s.reader.pos.toNat ≤ s.reader.budget.toNat)
    (h' : s.reader.budget.toNat < s.reader.pos.toNat + n) :
    (readBitsFrom n v).out s =
      .raised .truncated (s.consumed (s.reader.budget.toNat - s.reader.pos.toNat)) := by
  induction n generalizing v s with
  | zero => omega
  | succ n ih =>
    by_cases h1 : s.reader.pos.toNat < s.reader.budget.toNat
    · have hc : s.canRead 1 := by simp only [State.canRead]; omega
      rw [readBitsFrom, Cmd.out_bind_ok (by rw [readBit_out, if_pos h1]), ih]
      · rw [State.consumed_consumed, State.consumed_pos s hc, State.consumed_budget]
        congr 2; omega
      · rw [State.consumed_pos s hc, State.consumed_budget]; omega
      · rw [State.consumed_pos s hc, State.consumed_budget]; omega
    · rw [readBitsFrom, Cmd.out_bind_raised (by rw [readBit_out, if_neg h1])]
      rw [show s.reader.budget.toNat - s.reader.pos.toNat = 0 by omega, State.consumed_zero]

theorem readBits_past (n v : Nat) (s : State) (h : s.reader.budget.toNat < s.reader.pos.toNat) :
    (readBitsFrom (n + 1) v).out s = .raised .truncated s := by
  rw [readBitsFrom, Cmd.out_bind_raised (by rw [readBit_out, if_neg (by omega)])]

theorem fieldAt_lt (m : Memory) (base : Word) (q n : Nat) : fieldAt m base q n < 2 ^ n := by
  induction n with
  | zero => simp [fieldAt]
  | succ n ih =>
    have := Bool.toNat_lt (bitAt m base (q + n))
    rw [fieldAt, pow_succ]
    omega

/-! ### Writing -/

@[simp] theorem State.produced_zero (s : State) : s.produced 0 = s := by
  simp [State.produced, State.withWriter]

theorem State.produced_produced (s : State) (m n : Nat) :
    (s.produced m).produced n = s.produced (m + n) := by
  simp [State.produced, State.withWriter, BitVec.ofNat_add, BitVec.add_assoc]

theorem State.bitProduced_eq (s : State) : s.bitProduced = s.produced 1 := rfl

@[simp] theorem State.produced_mem (s : State) (n : Nat) : (s.produced n).mem = s.mem := rfl
@[simp] theorem State.produced_base (s : State) (n : Nat) :
    (s.produced n).writer.base = s.writer.base := rfl
@[simp] theorem State.produced_limit (s : State) (n : Nat) :
    (s.produced n).writer.limit = s.writer.limit := rfl

theorem State.produced_pos (s : State) {n : Nat} (h : s.canWrite n) :
    (s.produced n).writer.pos.toNat = s.writer.pos.toNat + n := by
  have := s.writer.limit.isLt
  simp only [State.produced, State.withWriter_writer, BitVec.toNat_add, BitVec.toNat_ofNat]
  omega

/-- The byte that one written bit leaves at `pos`, over memory `m` (20_memory R113). -/
def byteWritten (m : Memory) (base pos : Word) (b : Bool) : Byte :=
  setBit (if pos.toNat % 8 = 0 then 0 else m.read (bitAddr base pos).toNat) (bitIndex pos) b

/-- The memory after one bit is written at `pos`, without a race. -/
def bitWritten (m : Memory) (base pos : Word) (b : Bool) : Memory :=
  m.write (bitAddr base pos).toNat (byteWritten m base pos b)

/-- `WriteBit`: everything it can do (20_memory R113). -/
theorem writeBit_out (b : Bool) (s : State) :
    (writeBit b).out s =
      if s.writer.pos.toNat < s.writer.limit.toNat then
        .ok () ((s.storeByte (bitAddr s.writer.base s.writer.pos)
          (byteWritten s.mem s.writer.base s.writer.pos b)).produced 1)
      else .raised .outOverflow s := by
  unfold writeBit
  rw [Cmd.out_require_seq _ _ _ _ (by decide)]
  simp only [BitVec.lt_def, decide_eq_true_eq]
  split
  · simp only [Cmd.out_read_bind, oldByte]
    split
    · simp [byteWritten, State.bitProduced_eq, *]
    · simp [byteWritten, State.bitProduced_eq, *]
  · rfl

/-- `WriteBit` without a race. -/
theorem writeBit_calm (b : Bool) {s : State} (hc : s.calm) :
    (writeBit b).out s =
      if s.writer.pos.toNat < s.writer.limit.toNat then
        .ok () ((s.withMem (bitWritten s.mem s.writer.base s.writer.pos b)).produced 1)
      else .raised .outOverflow s := by
  rw [writeBit_out, State.storeByte_eq (by simp [hc])]
  rfl

theorem Appended.nil (m : Memory) (base : Word) (pos : Nat) : Appended m m base pos [] where
  written := by simp
  earlier := by simp
  padding := by simp
  kept := by simp
  others := by simp

/-- One written bit. -/
theorem Appended.bit (m : Memory) (base pos : Word) (b : Bool) :
    Appended m (bitWritten m base pos b) base pos.toNat [b] where
  written k c h := by
    have hk : k = 0 := by
      by_contra hk
      rw [List.getElem?_eq_none (by simp; omega)] at h
      simp at h
    subst hk
    simp only [List.getElem?_cons_zero, Option.some.injEq] at h
    subst h
    simp only [Nat.add_zero, bitAt, bitWritten, byteWritten, streamByte_pos, Memory.read_write_same]
    rw [setBit_getLsbD _ _ _ _ (by omega)]
    simp [bitIndex]
  earlier q hq := by
    have hp := pos.isLt
    simp only [bitAt, bitWritten, byteWritten, streamByte_pos, Memory.read_write]
    split
    · next h =>
      rw [streamByte_inj base (by omega) hp] at h
      rw [setBit_getLsbD _ _ _ _ (by omega), if_neg (by simp only [bitIndex]; omega),
        if_neg (by omega)]
      rw [(streamByte_inj base (by omega) hp).2 h]
    · rfl
  padding q _ h1 h2 h3 := by
    have hp := pos.isLt
    simp only [List.length_cons, List.length_nil, Nat.zero_add, Nat.add_sub_cancel] at h1 h2
    simp only [bitAt, bitWritten, byteWritten, streamByte_pos, Memory.read_write]
    have hq : q < 2 ^ 32 := by omega
    rw [if_pos ((streamByte_inj base hq hp).2 h2), setBit_getLsbD _ _ _ _ (by omega),
      if_neg (by simp only [bitIndex]; omega), if_pos (by omega)]
    simp
  kept q h1 h2 := by
    have hp := pos.isLt
    simp only [List.length_cons, List.length_nil, Nat.zero_add] at h1
    simp only [bitAt, bitWritten, byteWritten, streamByte_pos, Memory.read_write]
    have hq : q < 2 ^ 32 := by omega
    have he := (streamByte_inj base hq hp).2 (by omega)
    rw [if_pos he, setBit_getLsbD _ _ _ _ (by omega), if_neg (by simp only [bitIndex]; omega),
      if_neg (by omega), he]
  others a h := by
    simp only [bitWritten, streamByte_pos]
    rw [Memory.read_write_other]
    rintro rfl
    exact h ⟨0, by simp, by simp⟩

/-- Two appended lists, one after the other. -/
theorem Appended.append {m m1 m2 : Memory} {base : Word} {pos : Nat} {xs ys : List Bool}
    (h1 : Appended m m1 base pos xs) (h2 : Appended m1 m2 base (pos + xs.length) ys)
    (hlt : pos + xs.length + ys.length ≤ 2 ^ 32) : Appended m m2 base pos (xs ++ ys) where
  written k b h := by
    by_cases hk : k < xs.length
    · rw [List.getElem?_append_left hk] at h
      rw [h2.earlier _ (by omega)]
      exact h1.written k b h
    · rw [List.getElem?_append_right (by omega)] at h
      have := h2.written _ b h
      rwa [show pos + xs.length + (k - xs.length) = pos + k by omega] at this
  earlier q hq := by rw [h2.earlier q (by omega), h1.earlier q hq]
  padding q hne hq hb hs := by
    simp only [List.length_append] at hq hb
    by_cases hy : ys = []
    · subst hy
      have hx : xs ≠ [] := by simpa using hne
      simp only [List.length_nil, Nat.add_zero] at hq hb hlt
      have hpos : 0 < xs.length := List.length_pos_iff.2 hx
      have hq32 : q < 2 ^ 32 := by omega
      have : bitAt m2 base q = bitAt m1 base q := by
        unfold bitAt
        rw [h2.others]
        rintro ⟨k, hk, -⟩
        simp at hk
      rw [this]
      exact h1.padding q hx (by omega) (by omega) hs
    · have hy0 : 0 < ys.length := List.length_pos_iff.2 hy
      by_cases hb2 : pos + xs.length ≤ q / 8 * 8
      · exact h2.padding q hy (by omega) (by rw [hb]; congr 1; omega) hb2
      · rw [h2.kept q (by omega) (by omega)]
        by_cases hx : xs = []
        · subst hx
          simp only [List.length_nil, Nat.add_zero] at hb2
          omega
        · have hx0 : 0 < xs.length := List.length_pos_iff.2 hx
          exact h1.padding q hx (by omega) (by omega) hs
  kept q hq hs := by
    simp only [List.length_append] at hq
    rw [h2.kept q (by omega) (by omega), h1.kept q (by omega) hs]
  others a h := by
    rw [h2.others, h1.others]
    · rintro ⟨k, hk, rfl⟩
      exact h ⟨k, by simp; omega, rfl⟩
    · rintro ⟨k, hk, rfl⟩
      exact h ⟨xs.length + k, by simp; omega, by rw [Nat.add_assoc]⟩

theorem msbBits_length (v n : Nat) : (msbBits v n).length = n := by simp [msbBits]

theorem msbBits_succ (v n : Nat) : msbBits v (n + 1) = v.testBit n :: msbBits v n := by
  refine List.ext_getElem? fun k => ?_
  cases k with
  | zero => simp [msbBits]
  | succ k =>
    simp only [msbBits, List.getElem?_cons_succ, List.getElem?_map]
    by_cases h : k < n
    · rw [List.getElem?_range (by omega), List.getElem?_range h]
      simp only [Option.map_some, Option.some.injEq]
      congr 1
      omega
    · rw [List.getElem?_eq_none (by simp; omega), List.getElem?_eq_none (by simp; omega)]
      rfl

/-- `WriteBits` within the limit: the bits appended, and nothing but BW_POS and memory changed
(20_memory R114). -/
theorem writeBits_ok (v n : Nat) (s : State) (hc : s.calm) (h : s.canWrite n) :
    ∃ m, (writeBits v n).out s = .ok () ((s.withMem m).produced n) ∧
      Appended s.mem m s.writer.base s.writer.pos.toNat (msbBits v n) ∧ (s.mem.wf → m.wf) := by
  induction n generalizing s with
  | zero =>
    exact ⟨s.mem, by simp [writeBits, State.withMem], by simpa [msbBits] using Appended.nil _ _ _,
      id⟩
  | succ n ih =>
    have h1 : s.canWrite 1 := by simp only [State.canWrite] at *; omega
    let s1 := (s.withMem (bitWritten s.mem s.writer.base s.writer.pos (v.testBit n))).produced 1
    have hs1 : s1.writer.pos.toNat = s.writer.pos.toNat + 1 := State.produced_pos (s.withMem _) h1
    have h2 : s1.canWrite n := by
      have : s1.writer.limit = s.writer.limit := rfl
      simp only [State.canWrite, hs1, this] at *
      omega
    obtain ⟨m, ho, ha, hw⟩ := ih s1 hc h2
    refine ⟨m, ?_, ?_, fun hm => hw ?_⟩
    · rw [writeBits, Cmd.out_seq_ok (by
        rw [writeBit_calm _ hc, if_pos (by simpa [State.canWrite] using h1)]), ho]
      have hpos : s.writer.pos + 1#32 + BitVec.ofNat 32 n = s.writer.pos + BitVec.ofNat 32 (n + 1) := by
        rw [BitVec.add_assoc, Nat.add_comm n 1, BitVec.ofNat_add]
      simp [s1, State.produced, State.withMem, State.withWriter, hpos]
    · rw [msbBits_succ]
      have hb : s1.writer.base = s.writer.base := rfl
      have := s.writer.limit.isLt
      refine Appended.append (xs := [v.testBit n]) (ys := msbBits v n) (Appended.bit s.mem s.writer.base s.writer.pos _)
        ?_ ?_
      · rw [hs1, hb] at ha
        exact ha
      · simp only [State.canWrite] at h
        simp only [msbBits_length, List.length_cons, List.length_nil]
        omega
    · exact Memory.wf_write hm (bitAddr _ _).isLt _

/-- A written bit that has no room: E_OUT_OVERFLOW, nothing written. -/
theorem writeBit_overflow (b : Bool) (s : State)
    (h : s.writer.limit.toNat ≤ s.writer.pos.toNat) :
    (writeBit b).out s = .raised .outOverflow s := by
  rw [writeBit_out, if_neg (by omega)]

/-- A field at the place where its bits were appended reads back as it was written. -/
theorem fieldAt_appended {m m' : Memory} {base : Word} {pos v n : Nat}
    (h : Appended m m' base pos (msbBits v n)) (hv : v < 2 ^ n) : fieldAt m' base pos n = v := by
  have key : ∀ k, k ≤ n → fieldAt m' base pos k = v / 2 ^ (n - k) := by
    intro k
    induction k with
    | zero => intro _; simp [fieldAt, Nat.div_eq_of_lt hv]
    | succ k ih =>
      intro hk
      have hb : bitAt m' base (pos + k) = v.testBit (n - 1 - k) := by
        refine h.written k _ ?_
        simp [msbBits, List.getElem?_range (show k < n by omega)]
      rw [fieldAt, ih (by omega), hb, Nat.testBit_eq_decide_div_mod_eq,
        show n - k = (n - 1 - k) + 1 by omega, show n - (k + 1) = n - 1 - k by omega, pow_succ,
        ← Nat.div_div_eq_div_mul]
      by_cases h1 : v / 2 ^ (n - 1 - k) % 2 = 1
      · simp only [h1, decide_true, Bool.toNat_true]; omega
      · simp only [h1, decide_false, Bool.toNat_false]; omega
  simpa using key n le_rfl

end Sys2Proof.Machine
end

