-- ==== Sys2Proof/Laws/Errors.lean ====
section
/-! SUPPORT. Recording an error, ending a command, and the resets: what each leaves. -/

namespace Sys2Proof.Machine

/-! ### Ending a command (10_state R34) -/

@[simp] theorem State.finish_eng (s : State) :
    s.finish.eng = { s.eng with running := none, irqDone := true } := rfl

@[simp] theorem State.finish_ctrl (s : State) : s.finish.ctrl = s.ctrl := rfl
@[simp] theorem State.finish_cfg (s : State) : s.finish.cfg = s.cfg := rfl
@[simp] theorem State.finish_bufs (s : State) : s.finish.bufs = s.bufs := rfl
@[simp] theorem State.finish_seeds (s : State) : s.finish.seeds = s.seeds := rfl
@[simp] theorem State.finish_reader (s : State) : s.finish.reader = s.reader := rfl
@[simp] theorem State.finish_writer (s : State) : s.finish.writer = s.writer := rfl
@[simp] theorem State.finish_region (s : State) : s.finish.region = s.region := rfl
@[simp] theorem State.finish_scan (s : State) : s.finish.scan = s.scan := rfl
@[simp] theorem State.finish_lastPix (s : State) : s.finish.lastPix = s.lastPix := rfl
@[simp] theorem State.finish_geom (s : State) : s.finish.geom = s.geom := rfl
@[simp] theorem State.finish_lut (s : State) : s.finish.lut = s.lut := rfl
@[simp] theorem State.finish_huffSym (s : State) : s.finish.huffSym = s.huffSym := rfl
@[simp] theorem State.finish_huff (s : State) : s.finish.huff = s.huff := rfl
@[simp] theorem State.finish_tablesValid (s : State) : s.finish.tablesValid = s.tablesValid := rfl
@[simp] theorem State.finish_luts (s : State) : s.finish.luts = s.luts := rfl
@[simp] theorem State.finish_mem (s : State) : s.finish.mem = s.mem := rfl
@[simp] theorem State.finish_plat (s : State) : s.finish.plat = s.plat := rfl
@[simp] theorem State.finish_inbox (s : State) : s.finish.inbox = s.inbox := rfl
@[simp] theorem State.finish_bus (s : State) : s.finish.bus = s.bus := rfl
@[simp] theorem State.finish_draws (s : State) : s.finish.draws = s.draws := rfl
@[simp] theorem State.finish_races (s : State) : s.finish.races = [] := rfl

/-! ### Recording an error (60_exceptions R603) -/

/-- The first error is recorded. -/
theorem State.recordError_first {s : State} (h : s.eng.err = .noError) (e : ErrCode) (v : Word)
    (r : Bool) :
    s.recordError e v r =
      s.withEng { s.eng with err := e, errCmd := v, errReg := r, irqErr := true } := by
  simp [State.recordError, h]

/-- A later error is not. -/
theorem State.recordError_later {s : State} (h : s.eng.err ≠ .noError) (e : ErrCode) (v : Word)
    (r : Bool) : s.recordError e v r = s := by
  simp [State.recordError, h]

@[simp] theorem State.recordError_running (s : State) (e : ErrCode) (v : Word) (r : Bool) :
    (s.recordError e v r).eng.running = s.eng.running := by
  unfold State.recordError; split <;> rfl
@[simp] theorem State.recordError_cmd (s : State) (e : ErrCode) (v : Word) (r : Bool) :
    (s.recordError e v r).eng.cmd = s.eng.cmd := by
  unfold State.recordError; split <;> rfl
@[simp] theorem State.recordError_irqDone (s : State) (e : ErrCode) (v : Word) (r : Bool) :
    (s.recordError e v r).eng.irqDone = s.eng.irqDone := by
  unfold State.recordError; split <;> rfl

/-- After a record some error stands. -/
theorem State.recordError_err_ne (s : State) {e : ErrCode} (he : e ≠ .noError) (v : Word)
    (r : Bool) : (s.recordError e v r).eng.err ≠ .noError := by
  unfold State.recordError
  split
  · exact he
  · assumption

@[simp] theorem State.recordError_ctrl (s : State) (e : ErrCode) (v : Word) (r : Bool) :
    (s.recordError e v r).ctrl = s.ctrl := by
  unfold State.recordError; split <;> rfl
@[simp] theorem State.recordError_cfg (s : State) (e : ErrCode) (v : Word) (r : Bool) :
    (s.recordError e v r).cfg = s.cfg := by
  unfold State.recordError; split <;> rfl
@[simp] theorem State.recordError_bufs (s : State) (e : ErrCode) (v : Word) (r : Bool) :
    (s.recordError e v r).bufs = s.bufs := by
  unfold State.recordError; split <;> rfl
@[simp] theorem State.recordError_seeds (s : State) (e : ErrCode) (v : Word) (r : Bool) :
    (s.recordError e v r).seeds = s.seeds := by
  unfold State.recordError; split <;> rfl
@[simp] theorem State.recordError_reader (s : State) (e : ErrCode) (v : Word) (r : Bool) :
    (s.recordError e v r).reader = s.reader := by
  unfold State.recordError; split <;> rfl
@[simp] theorem State.recordError_writer (s : State) (e : ErrCode) (v : Word) (r : Bool) :
    (s.recordError e v r).writer = s.writer := by
  unfold State.recordError; split <;> rfl
@[simp] theorem State.recordError_region (s : State) (e : ErrCode) (v : Word) (r : Bool) :
    (s.recordError e v r).region = s.region := by
  unfold State.recordError; split <;> rfl
@[simp] theorem State.recordError_scan (s : State) (e : ErrCode) (v : Word) (r : Bool) :
    (s.recordError e v r).scan = s.scan := by
  unfold State.recordError; split <;> rfl
@[simp] theorem State.recordError_lastPix (s : State) (e : ErrCode) (v : Word) (r : Bool) :
    (s.recordError e v r).lastPix = s.lastPix := by
  unfold State.recordError; split <;> rfl
@[simp] theorem State.recordError_geom (s : State) (e : ErrCode) (v : Word) (r : Bool) :
    (s.recordError e v r).geom = s.geom := by
  unfold State.recordError; split <;> rfl
@[simp] theorem State.recordError_lut (s : State) (e : ErrCode) (v : Word) (r : Bool) :
    (s.recordError e v r).lut = s.lut := by
  unfold State.recordError; split <;> rfl
@[simp] theorem State.recordError_huffSym (s : State) (e : ErrCode) (v : Word) (r : Bool) :
    (s.recordError e v r).huffSym = s.huffSym := by
  unfold State.recordError; split <;> rfl
@[simp] theorem State.recordError_huff (s : State) (e : ErrCode) (v : Word) (r : Bool) :
    (s.recordError e v r).huff = s.huff := by
  unfold State.recordError; split <;> rfl
@[simp] theorem State.recordError_tablesValid (s : State) (e : ErrCode) (v : Word) (r : Bool) :
    (s.recordError e v r).tablesValid = s.tablesValid := by
  unfold State.recordError; split <;> rfl
@[simp] theorem State.recordError_luts (s : State) (e : ErrCode) (v : Word) (r : Bool) :
    (s.recordError e v r).luts = s.luts := by
  unfold State.recordError; split <;> rfl
@[simp] theorem State.recordError_mem (s : State) (e : ErrCode) (v : Word) (r : Bool) :
    (s.recordError e v r).mem = s.mem := by
  unfold State.recordError; split <;> rfl
@[simp] theorem State.recordError_plat (s : State) (e : ErrCode) (v : Word) (r : Bool) :
    (s.recordError e v r).plat = s.plat := by
  unfold State.recordError; split <;> rfl
@[simp] theorem State.recordError_inbox (s : State) (e : ErrCode) (v : Word) (r : Bool) :
    (s.recordError e v r).inbox = s.inbox := by
  unfold State.recordError; split <;> rfl
@[simp] theorem State.recordError_bus (s : State) (e : ErrCode) (v : Word) (r : Bool) :
    (s.recordError e v r).bus = s.bus := by
  unfold State.recordError; split <;> rfl
@[simp] theorem State.recordError_draws (s : State) (e : ErrCode) (v : Word) (r : Bool) :
    (s.recordError e v r).draws = s.draws := by
  unfold State.recordError; split <;> rfl
@[simp] theorem State.recordError_races (s : State) (e : ErrCode) (v : Word) (r : Bool) :
    (s.recordError e v r).races = s.races := by
  unfold State.recordError; split <;> rfl

/-! ### Ending with an error (60_exceptions R602) -/

@[simp] theorem State.raiseEnd_ctrl (s : State) (e : ErrCode) :
    (s.raiseEnd e).ctrl = s.ctrl := by simp [State.raiseEnd]
@[simp] theorem State.raiseEnd_cfg (s : State) (e : ErrCode) :
    (s.raiseEnd e).cfg = s.cfg := by simp [State.raiseEnd]
@[simp] theorem State.raiseEnd_bufs (s : State) (e : ErrCode) :
    (s.raiseEnd e).bufs = s.bufs := by simp [State.raiseEnd]
@[simp] theorem State.raiseEnd_seeds (s : State) (e : ErrCode) :
    (s.raiseEnd e).seeds = s.seeds := by simp [State.raiseEnd]
@[simp] theorem State.raiseEnd_reader (s : State) (e : ErrCode) :
    (s.raiseEnd e).reader = s.reader := by simp [State.raiseEnd]
@[simp] theorem State.raiseEnd_writer (s : State) (e : ErrCode) :
    (s.raiseEnd e).writer = s.writer := by simp [State.raiseEnd]
@[simp] theorem State.raiseEnd_region (s : State) (e : ErrCode) :
    (s.raiseEnd e).region = s.region := by simp [State.raiseEnd]
@[simp] theorem State.raiseEnd_scan (s : State) (e : ErrCode) :
    (s.raiseEnd e).scan = s.scan := by simp [State.raiseEnd]
@[simp] theorem State.raiseEnd_lastPix (s : State) (e : ErrCode) :
    (s.raiseEnd e).lastPix = s.lastPix := by simp [State.raiseEnd]
@[simp] theorem State.raiseEnd_geom (s : State) (e : ErrCode) :
    (s.raiseEnd e).geom = s.geom := by simp [State.raiseEnd]
@[simp] theorem State.raiseEnd_lut (s : State) (e : ErrCode) :
    (s.raiseEnd e).lut = s.lut := by simp [State.raiseEnd]
@[simp] theorem State.raiseEnd_huffSym (s : State) (e : ErrCode) :
    (s.raiseEnd e).huffSym = s.huffSym := by simp [State.raiseEnd]
@[simp] theorem State.raiseEnd_huff (s : State) (e : ErrCode) :
    (s.raiseEnd e).huff = s.huff := by simp [State.raiseEnd]
@[simp] theorem State.raiseEnd_tablesValid (s : State) (e : ErrCode) :
    (s.raiseEnd e).tablesValid = s.tablesValid := by simp [State.raiseEnd]
@[simp] theorem State.raiseEnd_luts (s : State) (e : ErrCode) :
    (s.raiseEnd e).luts = s.luts := by simp [State.raiseEnd]
@[simp] theorem State.raiseEnd_mem (s : State) (e : ErrCode) :
    (s.raiseEnd e).mem = s.mem := by simp [State.raiseEnd]
@[simp] theorem State.raiseEnd_plat (s : State) (e : ErrCode) :
    (s.raiseEnd e).plat = s.plat := by simp [State.raiseEnd]
@[simp] theorem State.raiseEnd_inbox (s : State) (e : ErrCode) :
    (s.raiseEnd e).inbox = s.inbox := by simp [State.raiseEnd]
@[simp] theorem State.raiseEnd_bus (s : State) (e : ErrCode) :
    (s.raiseEnd e).bus = s.bus := by simp [State.raiseEnd]
@[simp] theorem State.raiseEnd_draws (s : State) (e : ErrCode) :
    (s.raiseEnd e).draws = s.draws := by simp [State.raiseEnd]
@[simp] theorem State.raiseEnd_races (s : State) (e : ErrCode) :
    (s.raiseEnd e).races = [] := rfl
@[simp] theorem State.raiseEnd_running (s : State) (e : ErrCode) :
    (s.raiseEnd e).eng.running = none := rfl
@[simp] theorem State.raiseEnd_irqDone (s : State) (e : ErrCode) :
    (s.raiseEnd e).eng.irqDone = true := rfl
@[simp] theorem State.raiseEnd_cmd (s : State) (e : ErrCode) :
    (s.raiseEnd e).eng.cmd = s.eng.cmd := by simp [State.raiseEnd]

/-- The engine after the first error ends a command. -/
theorem State.raiseEnd_eng {s : State} (h : s.eng.err = .noError) (e : ErrCode) :
    (s.raiseEnd e).eng =
      { s.eng with running := none, irqDone := true, err := e, errCmd := s.commandWord,
                   errReg := false, irqErr := true } := by
  simp [State.raiseEnd, State.recordError_first h]

theorem State.raiseEnd_err_ne (s : State) {e : ErrCode} (he : e ≠ .noError) :
    (s.raiseEnd e).eng.err ≠ .noError := by
  simpa [State.raiseEnd] using State.recordError_err_ne s he s.commandWord false

/-! ### Resets (70_reset R700 to R702) -/

@[simp] theorem State.hardReset_eng (s : State) : s.hardReset.eng = State.reset.eng := rfl
@[simp] theorem State.hardReset_ctrl (s : State) : s.hardReset.ctrl = State.reset.ctrl := rfl
@[simp] theorem State.hardReset_cfg (s : State) : s.hardReset.cfg = State.reset.cfg := rfl
@[simp] theorem State.hardReset_bufs (s : State) : s.hardReset.bufs = State.reset.bufs := rfl
@[simp] theorem State.hardReset_seeds (s : State) : s.hardReset.seeds = State.reset.seeds := rfl
@[simp] theorem State.hardReset_reader (s : State) : s.hardReset.reader = State.reset.reader := rfl
@[simp] theorem State.hardReset_writer (s : State) : s.hardReset.writer = State.reset.writer := rfl
@[simp] theorem State.hardReset_region (s : State) : s.hardReset.region = State.reset.region := rfl
@[simp] theorem State.hardReset_scan (s : State) : s.hardReset.scan = State.reset.scan := rfl
@[simp] theorem State.hardReset_lastPix (s : State) : s.hardReset.lastPix = State.reset.lastPix := rfl
@[simp] theorem State.hardReset_geom (s : State) : s.hardReset.geom = State.reset.geom := rfl
@[simp] theorem State.hardReset_lut (s : State) : s.hardReset.lut = State.reset.lut := rfl
@[simp] theorem State.hardReset_huffSym (s : State) : s.hardReset.huffSym = State.reset.huffSym := rfl
@[simp] theorem State.hardReset_huff (s : State) : s.hardReset.huff = State.reset.huff := rfl
@[simp] theorem State.hardReset_tablesValid (s : State) : s.hardReset.tablesValid = State.reset.tablesValid := rfl
@[simp] theorem State.hardReset_luts (s : State) : s.hardReset.luts = State.reset.luts := rfl
@[simp] theorem State.hardReset_mem (s : State) : s.hardReset.mem = s.mem := rfl
@[simp] theorem State.hardReset_plat (s : State) : s.hardReset.plat = s.plat := rfl
@[simp] theorem State.hardReset_inbox (s : State) : s.hardReset.inbox = s.inbox := rfl
@[simp] theorem State.hardReset_bus (s : State) : s.hardReset.bus = s.bus := rfl
@[simp] theorem State.hardReset_draws (s : State) : s.hardReset.draws = s.draws := rfl
@[simp] theorem State.hardReset_races (s : State) : s.hardReset.races = [] := rfl
@[simp] theorem State.softReset_eng (s : State) : s.softReset.eng = State.reset.eng := rfl
@[simp] theorem State.softReset_ctrl (s : State) : s.softReset.ctrl = State.reset.ctrl := rfl
@[simp] theorem State.softReset_cfg (s : State) : s.softReset.cfg = State.reset.cfg := rfl
@[simp] theorem State.softReset_bufs (s : State) : s.softReset.bufs = State.reset.bufs := rfl
@[simp] theorem State.softReset_seeds (s : State) : s.softReset.seeds = State.reset.seeds := rfl
@[simp] theorem State.softReset_reader (s : State) : s.softReset.reader = State.reset.reader := rfl
@[simp] theorem State.softReset_writer (s : State) : s.softReset.writer = State.reset.writer := rfl
@[simp] theorem State.softReset_region (s : State) : s.softReset.region = State.reset.region := rfl
@[simp] theorem State.softReset_scan (s : State) : s.softReset.scan = State.reset.scan := rfl
@[simp] theorem State.softReset_lastPix (s : State) : s.softReset.lastPix = State.reset.lastPix := rfl
@[simp] theorem State.softReset_geom (s : State) : s.softReset.geom = State.reset.geom := rfl
@[simp] theorem State.softReset_lut (s : State) : s.softReset.lut = State.reset.lut := rfl
@[simp] theorem State.softReset_huffSym (s : State) : s.softReset.huffSym = State.reset.huffSym := rfl
@[simp] theorem State.softReset_huff (s : State) : s.softReset.huff = State.reset.huff := rfl
@[simp] theorem State.softReset_tablesValid (s : State) : s.softReset.tablesValid = s.tablesValid := rfl
@[simp] theorem State.softReset_luts (s : State) : s.softReset.luts = s.luts := rfl
@[simp] theorem State.softReset_mem (s : State) : s.softReset.mem = s.mem := rfl
@[simp] theorem State.softReset_plat (s : State) : s.softReset.plat = s.plat := rfl
@[simp] theorem State.softReset_inbox (s : State) : s.softReset.inbox = s.inbox := rfl
@[simp] theorem State.softReset_bus (s : State) : s.softReset.bus = s.bus := rfl
@[simp] theorem State.softReset_draws (s : State) : s.softReset.draws = s.draws := rfl
@[simp] theorem State.softReset_races (s : State) : s.softReset.races = [] := rfl

/-- The reset scan has a legal step. -/
theorem reset_step : State.reset.scan.step = 7#5 := rfl

/-- The reset tables are invalid. -/
theorem reset_table_valid (t : Tbl) : (State.reset.table t).valid = false := by
  cases t <;> rfl

end Sys2Proof.Machine
end

