-- ==== Sys2Proof/Laws/Operands.lean ====
section
/-! SUPPORT. Operand forms, tables and buffers, the checks, and the one shape of every meaning. -/

namespace Sys2Proof.Machine

variable {α : Type}

/-! ### Every meaning is a body run as a whole command -/

theorem exec_eq (i : Instr) (s : State) : exec i s = runCommand (commandBody i) s := by
  cases i <;> rfl

theorem exec_ok {i : Instr} {s t : State} (h : (commandBody i).out s = .ok () t) :
    exec i s = .next t.finish := by
  rw [exec_eq, runCommand_ok h]

theorem exec_raised {i : Instr} {s t : State} {e : ErrCode}
    (h : (commandBody i).out s = .raised e t) : exec i s = .next (t.raiseEnd e) := by
  rw [exec_eq, runCommand_raised h]

/-- A command always answers a next state. -/
theorem exec_next (i : Instr) (s : State) : ∃ t, exec i s = .next t := by
  rw [exec_eq]
  exact runCommand_next _ s

/-! ### PLANE -/

theorem Plane.ofField_legal {f : BitVec 2} (h : planeLegal f = true) :
    ∃ p, Plane.ofField f = some p := by
  have key : ∀ f : BitVec 2, planeLegal f = true → (Plane.ofField f).isSome = true := by decide
  exact Option.isSome_iff_exists.1 (key f h)

theorem Plane.ofField_three : Plane.ofField 3#2 = none := rfl

theorem Plane.ofField_field (p : Plane) : Plane.ofField p.field = some p := by cases p <;> rfl

theorem withPlane_some {f : BitVec 2} {p : Plane} (h : Plane.ofField f = some p)
    (c : Plane → Cmd Unit) : withPlane f c = c p := by
  simp [withPlane, h]

theorem withPlane_none {f : BitVec 2} (h : Plane.ofField f = none) (c : Plane → Cmd Unit) :
    withPlane f c = Cmd.raise .illegalCmd := by
  simp [withPlane, h]

theorem keeps_withPlane {P : State → Prop} {f : BitVec 2} {c : Plane → Cmd Unit}
    (h : ∀ p, (c p).Keeps P) : (withPlane f c).Keeps P := by
  unfold withPlane
  split
  · exact h _
  · exact Cmd.keeps_raise _

/-! ### SYM -/

theorem hopOfNat_val (h : Hop) : hopOfNat h.val = some h := by
  simp [hopOfNat]

theorem hopOfNat_lt {n : Nat} (h : n < 9) : hopOfNat n = some ⟨n, h⟩ := by
  simp [hopOfNat, h]

theorem hopOfNat_ge {n : Nat} (h : 9 ≤ n) : hopOfNat n = none := by
  simp [hopOfNat]; omega

theorem needHop_lt {n : Nat} (h : n < 9) : needHop n = Cmd.pure ⟨n, h⟩ := by
  simp [needHop, hopOfNat_lt h]

theorem needHop_ge {n : Nat} (h : 9 ≤ n) : needHop n = Cmd.raise .hopRange := by
  simp [needHop, hopOfNat_ge h]

/-- A hop symbol operand: everything the check can do (30_encoding R154). -/
theorem needHop_out (n : Nat) (s : State) :
    (needHop n).out s = if h : n < 9 then .ok ⟨n, h⟩ s else .raised .hopRange s := by
  split
  · next h => rw [needHop_lt h]; rfl
  · next h => rw [needHop_ge (by omega)]; rfl

theorem keeps_needHop {P : State → Prop} (n : Nat) : (needHop n).Keeps P := by
  unfold needHop
  split
  · exact Cmd.keeps_pure _
  · exact Cmd.keeps_raise _

/-! ### Nine values -/

theorem Nine.get_set (v : Nine α) (i j : Hop) (a : α) :
    (v.set i a).get j = if j = i then a else v.get j := by
  revert i j
  intro i j
  fin_cases i <;> fin_cases j <;> rfl

@[simp] theorem Nine.get_set_same (v : Nine α) (i : Hop) (a : α) : (v.set i a).get i = a := by
  simp [Nine.get_set]

theorem Nine.get_set_other (v : Nine α) {i j : Hop} (a : α) (h : j ≠ i) :
    (v.set i a).get j = v.get j := by
  simp [Nine.get_set, h]

@[simp] theorem Nine.get_all (a : α) (i : Hop) : (Nine.all a).get i = a := by
  fin_cases i <;> rfl

@[simp] theorem Nine.get_ofFn (f : Hop → α) (i : Hop) : (Nine.ofFn f).get i = f i := by
  fin_cases i <;> rfl

theorem Nine.ext_get {v w : Nine α} (h : ∀ i, v.get i = w.get i) : v = w := by
  obtain ⟨v0, v1, v2, v3, v4, v5, v6, v7, v8⟩ := v
  obtain ⟨w0, w1, w2, w3, w4, w5, w6, w7, w8⟩ := w
  simp only [Nine.mk.injEq]
  exact ⟨h 0, h 1, h 2, h 3, h 4, h 5, h 6, h 7, h 8⟩

theorem mem_allHops (h : Hop) : h ∈ allHops := by
  revert h
  decide

/-! ### Tables and buffers -/

@[simp] theorem State.table_withTable_same (s : State) (t : Tbl) (h : HuffTable) :
    (s.withTable t h).table t = h := by
  cases t <;> rfl

theorem State.table_withTable_other (s : State) {t u : Tbl} (h : HuffTable) (hne : u ≠ t) :
    (s.withTable t h).table u = s.table u := by
  cases t <;> cases u <;> first | rfl | exact absurd rfl hne

/-- What a table update makes of each table. -/
theorem State.table_withTable (s : State) (t u : Tbl) (h : HuffTable) :
    (s.withTable t h).table u = if u = t then h else s.table u := by
  cases t <;> cases u <;> rfl

@[simp] theorem State.buf_withBuf_same (s : State) (p : Plane) (b : PlaneBuf) :
    (s.withBuf p b).buf p = b := by
  cases p <;> rfl

theorem State.buf_withBuf (s : State) (p q : Plane) (b : PlaneBuf) :
    (s.withBuf p b).buf q = if q = p then b else s.buf q := by
  cases p <;> cases q <;> rfl

/-! ### Checks -/

/-- `FrameCheck`: everything it can do (44_frame R402). -/
theorem frameCheck_out (s : State) :
    frameCheck.out s =
      if s.frameError = .noError then .ok () s else .raised s.frameError s :=
  Cmd.out_check _ s

theorem frameCheck_seq (d : Cmd α) (s : State) :
    (frameCheck.seq d).out s = if s.frameError = .noError then d.out s else .raised s.frameError s :=
  Cmd.out_check_seq _ d s

theorem frameCheck_seq_ok {s : State} (h : s.frameOk) (d : Cmd α) :
    (frameCheck.seq d).out s = d.out s := by
  rw [frameCheck_seq, if_pos h]

/-- `RegionCheck`: everything it can do (42_mesh R304). -/
theorem regionCheck_out (p : Plane) (s : State) :
    (regionCheck p).out s =
      if s.regionError p = .noError then .ok () s else .raised (s.regionError p) s :=
  Cmd.out_check _ s

theorem regionCheck_seq_ok {s : State} {p : Plane} (h : s.regionOk p) (d : Cmd α) :
    ((regionCheck p).seq d).out s = d.out s := by
  rw [regionCheck, Cmd.out_check_seq, if_pos h]

/-- A legal region of a legal frame. -/
theorem State.regionOk_iff (s : State) (p : Plane) :
    s.regionOk p ↔ s.frameOk ∧ 1 ≤ s.region.w.toNat ∧ 1 ≤ s.region.h.toNat ∧
      s.region.x0.toNat + s.region.w.toNat ≤ s.cfg.planeW p ∧
      s.region.y0.toNat + s.region.h.toNat ≤ s.cfg.planeH p := by
  unfold State.regionOk State.frameOk State.regionError
  by_cases h : s.frameError = .noError
  · simp only [h, ne_eq, not_true_eq_false, if_false, true_and]
    split
    · simp; omega
    · split
      · simp; omega
      · simp; omega
  · simp [h]

theorem needTables_seq (d : Cmd α) (s : State) :
    (needTables.seq d).out s = if s.tablesValid then d.out s else .raised .sequence s :=
  Cmd.out_require_seq _ _ d s (by decide)

theorem needHuff_seq (t : Tbl) (d : Cmd α) (s : State) :
    ((needHuff t).seq d).out s = if (s.table t).valid then d.out s else .raised .huffInvalid s :=
  Cmd.out_require_seq _ _ d s (by decide)

theorem needScan_seq (d : Cmd α) (s : State) :
    (needScan.seq d).out s = if s.scan.active then d.out s else .raised .sequence s :=
  Cmd.out_require_seq _ _ d s (by decide)

theorem needCursor_seq (d : Cmd α) (s : State) :
    (needCursor.seq d).out s =
      if s.scan.x.toNat < s.region.w.toNat ∧ s.scan.y.toNat < s.region.h.toNat then d.out s
      else .raised .config s := by
  rw [needCursor, Cmd.out_require_seq _ _ _ _ (by decide)]
  simp

end Sys2Proof.Machine
end

