-- ==== Sys2Proof/Laws/Keeps.lean ====
section
/-! SUPPORT. What the shared operations keep: a property that their register and memory updates keep
is kept by every state they pass through. -/

namespace Sys2Proof.Machine

variable {P : State → Prop}

/-! ### Streams -/

theorem keeps_readBit (hr : ∀ s, P s → P s.bitConsumed) : readBit.Keeps P :=
  Cmd.keeps_seq (Cmd.keeps_require _ _) <| Cmd.keeps_bind (Cmd.keeps_read _) fun _ =>
    Cmd.keeps_bind (keeps_memRead _) fun _ =>
      Cmd.keeps_seq (Cmd.keeps_update hr) (Cmd.keeps_pure _)

theorem keeps_readBitsFrom (hr : ∀ s, P s → P s.bitConsumed) (n v : Nat) :
    (readBitsFrom n v).Keeps P := by
  induction n generalizing v with
  | zero => exact Cmd.keeps_pure _
  | succ n ih => exact Cmd.keeps_bind (keeps_readBit hr) fun _ => ih _

theorem keeps_readBits (hr : ∀ s, P s → P s.bitConsumed) (n : Nat) : (readBits n).Keeps P :=
  keeps_readBitsFrom hr n 0

theorem keeps_writeBit (hm : ∀ s a v, P s → P (s.storeByte a v)) (hw : ∀ s, P s → P s.bitProduced)
    (b : Bool) : (writeBit b).Keeps P := by
  refine Cmd.keeps_seq (Cmd.keeps_require _ _) <| Cmd.keeps_bind (Cmd.keeps_read _) fun w =>
    Cmd.keeps_bind ?_ fun _ => Cmd.keeps_seq (keeps_memWrite fun s h => hm s _ _ h)
      (Cmd.keeps_update hw)
  unfold oldByte
  split
  · exact Cmd.keeps_pure _
  · exact keeps_memRead _

theorem keeps_writeBits (hm : ∀ s a v, P s → P (s.storeByte a v))
    (hw : ∀ s, P s → P s.bitProduced) (v n : Nat) : (writeBits v n).Keeps P := by
  induction n with
  | zero => exact Cmd.keeps_pure _
  | succ n ih => exact Cmd.keeps_seq (keeps_writeBit hm hw _) ih

theorem keeps_readLe32 (hr : ∀ s, P s → P s.bitConsumed) : readLe32.Keeps P :=
  Cmd.keeps_bind (keeps_readBits hr 8) fun _ => Cmd.keeps_bind (keeps_readBits hr 8) fun _ =>
    Cmd.keeps_bind (keeps_readBits hr 8) fun _ => Cmd.keeps_bind (keeps_readBits hr 8) fun _ =>
      Cmd.keeps_pure _

theorem keeps_writeLe32 (hm : ∀ s a v, P s → P (s.storeByte a v))
    (hw : ∀ s, P s → P s.bitProduced) (w : Word) : (writeLe32 w).Keeps P :=
  Cmd.keeps_forEach fun _ => keeps_writeBits hm hw _ _

/-! ### Checks -/

theorem keeps_frameCheck : frameCheck.Keeps P := Cmd.keeps_check _
theorem keeps_regionCheck (p : Plane) : (regionCheck p).Keeps P := Cmd.keeps_check _
theorem keeps_needTables : needTables.Keeps P := Cmd.keeps_require _ _
theorem keeps_needHuff (t : Tbl) : (needHuff t).Keeps P := Cmd.keeps_require _ _
theorem keeps_needScan : needScan.Keeps P := Cmd.keeps_require _ _
theorem keeps_needCursor : needCursor.Keeps P := Cmd.keeps_require _ _

/-! ### Mesh and geometry -/

theorem keeps_readCorner (cx cy : Nat) : (readCorner cx cy).Keeps P :=
  Cmd.keeps_bind (Cmd.keeps_read _) fun _ => Cmd.keeps_bind (keeps_memRead _) fun _ => by
    split
    · exact Cmd.keeps_pure _
    · exact Cmd.keeps_raise _

theorem keeps_blockSides (bx row sx sy : Nat) : (blockSides bx row sx sy).Keeps P := by
  refine Cmd.keeps_bind (Cmd.keeps_read _) fun _ => ?_
  split
  · exact Cmd.keeps_bind (Cmd.keeps_bind (keeps_readCorner _ _) fun _ =>
      Cmd.keeps_bind (keeps_readCorner _ _) fun _ => Cmd.keeps_bind (keeps_readCorner _ _) fun _ =>
        Cmd.keeps_bind (keeps_readCorner _ _) fun _ => Cmd.keeps_pure _) fun _ => Cmd.keeps_pure _
  · exact Cmd.keeps_pure _

/-! ### Huffman symbols -/

theorem keeps_decodeFrom (hr : ∀ s, P s → P s.bitConsumed) (t : HuffTable) (left acc n : Nat) :
    (decodeFrom t left acc n).Keeps P := by
  induction left generalizing acc n with
  | zero => exact Cmd.keeps_raise _
  | succ left ih =>
    refine Cmd.keeps_bind (keeps_readBit hr) fun b => ?_
    split
    · exact Cmd.keeps_pure _
    · exact ih _ _

theorem keeps_decodeSymbol (hr : ∀ s, P s → P s.bitConsumed) (t : Tbl) :
    (decodeSymbol t).Keeps P :=
  Cmd.keeps_bind (Cmd.keeps_read _) fun _ => keeps_decodeFrom hr _ _ _ _

theorem keeps_encodeSymbol (hm : ∀ s a v, P s → P (s.storeByte a v))
    (hw : ∀ s, P s → P s.bitProduced) (t : Tbl) (n : Nat) : (encodeSymbol t n).Keeps P :=
  Cmd.keeps_bind (keeps_needHop _) fun _ => Cmd.keeps_bind (Cmd.keeps_read _) fun _ => by
    split
    · exact Cmd.keeps_raise _
    · exact keeps_writeBits hm hw _ _

/-! ### Pixels -/

theorem keeps_predict (p : Plane) (c : PixelClass) (ax ay : Nat) : (predict p c ax ay).Keeps P := by
  have hd : ∀ x y, (readDst p x y).Keeps P := fun x y =>
    Cmd.keeps_bind (Cmd.keeps_read _) fun _ => keeps_memRead _
  unfold predict
  split
  · exact Cmd.keeps_read _
  · exact hd _ _
  · exact hd _ _
  · exact Cmd.keeps_bind (hd _ _) fun _ => Cmd.keeps_bind (hd _ _) fun _ => Cmd.keeps_pure _
  · exact Cmd.keeps_bind (hd _ _) fun _ => Cmd.keeps_bind (hd _ _) fun _ => Cmd.keeps_read _

theorem keeps_pixelHop (hm : ∀ s a v, P s → P (s.storeByte a v)) (p : Plane) (d : Dir)
    (ax ay step : Nat) (pred : Byte) : (pixelHop p d ax ay step pred).Keeps P := by
  unfold pixelHop
  split
  · exact Cmd.keeps_bind (Cmd.keeps_read _) fun _ => Cmd.keeps_bind (keeps_memRead _) fun _ =>
      Cmd.keeps_bind (keeps_needHop _) fun _ => Cmd.keeps_pure _
  · exact Cmd.keeps_bind (Cmd.keeps_read _) fun _ => Cmd.keeps_bind (keeps_memRead _) fun _ =>
      Cmd.keeps_bind (Cmd.keeps_read _) fun _ => Cmd.keeps_bind (Cmd.keeps_read _) fun _ =>
        Cmd.keeps_seq (keeps_memWrite fun s h => hm s _ _ h) (Cmd.keeps_pure _)

theorem keeps_scanLoop (h : cmdHopStep.Keeps P) (n : Nat) : (scanLoop n).Keeps P := by
  induction n with
  | zero => exact Cmd.keeps_pure _
  | succ n ih =>
    refine Cmd.keeps_bind (Cmd.keeps_read _) fun a => ?_
    cases a
    · exact Cmd.keeps_pure _
    · exact Cmd.keeps_seq h ih

theorem keeps_scanRegion (h : cmdHopStep.Keeps P) : scanRegion.Keeps P :=
  Cmd.keeps_bind (Cmd.keeps_read _) fun _ => keeps_scanLoop h _

/-! ### Frames -/

theorem keeps_forBlocks {f : Nat → Nat → Cmd Unit} (h : ∀ x y, (f x y).Keeps P) :
    (forBlocks f).Keeps P :=
  Cmd.keeps_bind (Cmd.keeps_read _) fun _ => Cmd.keeps_forEach fun _ => h _ _

theorem keeps_byMode {a b : Cmd Unit} (ha : a.Keeps P) (hb : b.Keeps P) : (byMode a b).Keeps P :=
  Cmd.keeps_bind (Cmd.keeps_read _) fun c => by
    cases c
    · exact hb
    · exact ha

theorem keeps_forHeaders {f : Tbl → Cmd Unit} (h : ∀ t, (f t).Keeps P) : (forHeaders f).Keeps P :=
  Cmd.keeps_bind (Cmd.keeps_read _) fun _ => Cmd.keeps_forEach h

theorem keeps_withWorkers {d : Dir} {foot : State → Footprint} {c : Cmd Unit} (hc : c.Keeps P)
    (hf : ∀ s l, P s → P (s.failedFrame d l)) : (withWorkers d foot c).Keeps P := fun s h => by
  have hs := hc s h
  unfold withWorkers
  cases hr : c s with
  | ok a s' t => rw [hr] at hs; exact hs
  | raised e s' t =>
    rw [hr] at hs
    dsimp only
    split
    · refine ⟨hf _ _ hs.1, fun a ha => ?_⟩
      rcases List.mem_append.1 ha with ha | ha
      · exact hs.2 a ha
      · rw [List.mem_singleton.1 ha]
        exact hs.1
    · exact hs

/-- Steps of a frame macro that end well end as they would alone. -/
theorem withWorkers_ok {d : Dir} {foot : State → Footprint} {c : Cmd Unit} {s t : State}
    (h : c.out s = .ok () t) : (withWorkers d foot c).out s = .ok () t := by
  unfold Cmd.out withWorkers at *
  cases hr : c s with
  | ok a s' u => rw [hr] at h; exact h
  | raised e s' u => rw [hr] at h; simp [Res.out] at h

/-- Steps of a frame macro that raise, raise their own error; the state is theirs with one worker, and
one with free values with several (44_frame R420). -/
theorem withWorkers_raised {d : Dir} {foot : State → Footprint} {c : Cmd Unit} {s t : State}
    {e : ErrCode} (h : c.out s = .raised e t) :
    ∃ l, (withWorkers d foot c).out s =
      .raised e (if 1 < t.plat.nWorkers then t.failedFrame d l else t) := by
  unfold Cmd.out withWorkers at *
  cases hr : c s with
  | ok a s' u => rw [hr] at h; simp [Res.out] at h
  | raised e' s' u =>
    rw [hr] at h
    simp only [Res.out, Out.raised.injEq] at h
    obtain ⟨rfl, rfl⟩ := h
    refine ⟨u.flatMap Act.writes ++ (foot s).writes.map BitVec.toNat, ?_⟩
    dsimp only
    split <;> rfl

/-- Steps of a frame macro end well only as they would alone. -/
theorem withWorkers_ok_cases {d : Dir} {foot : State → Footprint} {c : Cmd Unit} {s t : State}
    (h : (withWorkers d foot c).out s = .ok () t) : c.out s = .ok () t := by
  cases hc : c.out s with
  | ok a s' => rwa [withWorkers_ok hc] at h
  | raised e s' =>
    obtain ⟨l, hl⟩ := withWorkers_raised (d := d) (foot := foot) hc
    rw [hl] at h
    cases h

end Sys2Proof.Machine
end

