-- ==== Sys2Proof/Laws/Bus.lean ====
section
/-! SUPPORT. The register map and the register port: offsets, and what a step does with the next
access. -/

namespace Sys2Proof.Machine

/-! ### The map (10_state R33) -/

/-- Offsets are aligned and lie in the window. -/
theorem Reg.offset_bounds (r : Reg) : r.offset < 512 ∧ r.offset % 4 = 0 := by
  cases r with
  | srcBase p => cases p <;> decide
  | dstBase p => cases p <;> decide
  | hopBase p => cases p <;> decide
  | stride p => cases p <;> decide
  | huffLenLo t => cases t <;> decide
  | huffLenHi t => cases t <;> decide
  | huffCode t i => cases t <;> (revert i; decide)
  | huffCount t i => cases t <;> (revert i; decide)
  | _ => decide

/-- The map finds every register at its offset: no two share one. -/
theorem Reg.ofOffset_offset (r : Reg) : Reg.ofOffset r.offset = some r := by
  cases r with
  | srcBase p => cases p <;> rfl
  | dstBase p => cases p <;> rfl
  | hopBase p => cases p <;> rfl
  | stride p => cases p <;> rfl
  | huffLenLo t => cases t <;> rfl
  | huffLenHi t => cases t <;> rfl
  | huffCode t i => cases t <;> (fin_cases i <;> rfl)
  | huffCount t i => cases t <;> (fin_cases i <;> rfl)
  | _ => rfl

theorem Reg.toNat_offset (r : Reg) : (BitVec.ofNat 9 r.offset).toNat = r.offset := by
  have := r.offset_bounds
  simp
  omega

/-! ### One step, by the next access -/

/-- A register write to an idle core. -/
theorem step_idle_write {s : State} {r : Reg} {v : Word} {d : Option Nat} {rest : List Pending}
    (h : s.eng.running = none)
    (hi : s.inbox = { access := regWriteOf r v, during := d } :: rest) :
    step s = writeIdle r v (s.withInbox rest) := by
  simp [step, nextEvent, hi, h, accessIdle, regWriteOf, portTakes, r.toNat_offset,
    r.offset_bounds.2, Reg.ofOffset_offset]

/-- A register write that lands while a command runs. -/
theorem step_busy_write {s : State} {r : Reg} {v : Word} {k : Nat} {rest : List Pending}
    {run : Running} (h : s.eng.running = some run)
    (hi : s.inbox = { access := regWriteOf r v, during := some k } :: rest) :
    step s = .next ((writeBusy r v { run with progress := run.progress + k }
      ((s.withInbox rest).advance run k)).withBus .ack) := by
  simp [step, nextEvent, hi, h, accessBusy, regWriteOf, portTakes, r.toNat_offset,
    r.offset_bounds.2, Reg.ofOffset_offset]

/-- With a command running and no access landing in it, the step is the command's end. -/
theorem step_complete {s : State} {run : Running} (h : s.eng.running = some run)
    (hq : ∀ q ∈ s.inbox.head?, q.during = none) : step s = runWord run.word s := by
  have : step s = complete s := by
    unfold step nextEvent
    cases hi : s.inbox with
    | nil => rfl
    | cons q rest => simp [h, hq q (by simp [hi])]
  rw [this, complete, h]

/-- An idle core with no access to take does nothing (60_exceptions R618). -/
theorem step_idle_empty {s : State} (h : s.eng.running = none) (hi : s.inbox = []) :
    step s = .next s := by
  simp [step, nextEvent, hi, complete, h]

end Sys2Proof.Machine
end

