-- ==== Sys2Proof/Laws/Encoding.lean ====
section
/-! SUPPORT. The fields of a packed command word. -/

namespace Sys2Proof

section
variable (op : BitVec 8) (plane : BitVec 2) (tbl : BitVec 1) (sym : BitVec 4) (bx row : BitVec 8)

theorem fieldOp_packWord : fieldOp (packWord op plane tbl sym bx row) = op := by
  ext i hi
  simp only [fieldOp, packWord, BitVec.getElem_extractLsb', BitVec.getLsbD_append]
  simp [hi]

theorem fieldPlane_packWord : fieldPlane (packWord op plane tbl sym bx row) = plane := by
  ext i hi
  simp only [fieldPlane, packWord, BitVec.getElem_extractLsb', BitVec.getLsbD_append]
  simp [hi]

theorem fieldTbl_packWord :
    fieldTbl (packWord op plane tbl sym bx row) = if tbl = 0#1 then .luma else .chroma := by
  have : (packWord op plane tbl sym bx row).extractLsb' 10 1 = tbl := by
    ext i hi
    simp only [packWord, BitVec.getElem_extractLsb', BitVec.getLsbD_append]
    simp [show i = 0 by omega]
  rw [fieldTbl, this]

theorem fieldSym_packWord : fieldSym (packWord op plane tbl sym bx row) = sym := by
  ext i hi
  simp only [fieldSym, packWord, BitVec.getElem_extractLsb', BitVec.getLsbD_append]
  simp [hi, show ¬ 12 + i < 8 by omega, show ¬ 12 + i - 8 < 2 by omega,
    show ¬ 12 + i - 8 - 2 < 1 by omega, show ¬ 12 + i - 8 - 2 - 1 < 1 by omega,
    show 12 + i - 8 - 2 - 1 - 1 = i by omega]

theorem fieldBx_packWord : fieldBx (packWord op plane tbl sym bx row) = bx := by
  ext i hi
  simp only [fieldBx, packWord, BitVec.getElem_extractLsb', BitVec.getLsbD_append]
  simp [hi, show ¬ 16 + i < 8 by omega, show ¬ 16 + i - 8 < 2 by omega,
    show ¬ 16 + i - 8 - 2 < 1 by omega, show ¬ 16 + i - 8 - 2 - 1 < 1 by omega,
    show ¬ 16 + i - 8 - 2 - 1 - 1 < 4 by omega, show 16 + i - 8 - 2 - 1 - 1 - 4 = i by omega]

theorem fieldBy_packWord : fieldBy (packWord op plane tbl sym bx row) = row := by
  ext i hi
  simp only [fieldBy, packWord, BitVec.getElem_extractLsb', BitVec.getLsbD_append]
  simp [show ¬ 24 + i < 8 by omega, show ¬ 24 + i - 8 < 2 by omega,
    show ¬ 24 + i - 8 - 2 < 1 by omega, show ¬ 24 + i - 8 - 2 - 1 < 1 by omega,
    show ¬ 24 + i - 8 - 2 - 1 - 1 < 4 by omega, show ¬ 24 + i - 8 - 2 - 1 - 1 - 4 < 8 by omega,
    show 24 + i - 8 - 2 - 1 - 1 - 4 - 8 = i by omega, BitVec.getLsbD_eq_getElem hi]

theorem bit11_packWord : (packWord op plane tbl sym bx row).getLsbD 11 = false := by
  simp only [packWord, BitVec.getLsbD_append]
  simp

end

theorem Tbl.field_eq_zero (t : Tbl) : (if t.field = 0#1 then Tbl.luma else .chroma) = t := by
  cases t <;> rfl

end Sys2Proof
end

