-- ==== Sys2Proof/Laws/PerInstr.lean ====
section
/-! SUPPORT. Statements made per instruction. -/

namespace Sys2Proof.Laws.EncodeWord

/-- The opcodes of 30_encoding R157. -/
def opcodeMap : List (BitVec 8) :=
  [0x00, 0x01, 0x02, 0x03, 0x04, 0x08, 0x09, 0x0A, 0x0B, 0x10, 0x11, 0x12, 0x13, 0x14, 0x15, 0x16,
   0x20, 0x21, 0x22, 0x23, 0x24, 0x25, 0x26, 0x27, 0x28, 0x29, 0x2A, 0x30, 0x31, 0x38, 0x40, 0x41]

/-- A command's word carries an opcode of the map, and its bit 11 is 0 (30_encoding R150, R157). -/
def Statement (i : Sys2Proof.Instr) : Prop :=
  Sys2Proof.fieldOp (Sys2Proof.encode i) ∈ opcodeMap ∧ (Sys2Proof.encode i).getLsbD 11 = false

/-- Every packed word with an opcode of the map is such a word. -/
theorem packed {i : Sys2Proof.Instr} {op : BitVec 8} {plane : BitVec 2} {tbl : BitVec 1}
    {sym : BitVec 4} {bx row : BitVec 8}
    (h : Sys2Proof.encode i = Sys2Proof.packWord op plane tbl sym bx row) (ho : op ∈ opcodeMap) :
    Statement i := by
  rw [Statement, h, Sys2Proof.fieldOp_packWord, Sys2Proof.bit11_packWord]
  exact ⟨ho, rfl⟩

theorem nop : Statement .nop := packed rfl (by decide)
theorem buildTables : Statement .buildTables := packed rfl (by decide)
theorem lutReadRec : Statement .lutReadRec := packed rfl (by decide)
theorem lutReadBest : Statement .lutReadBest := packed rfl (by decide)
theorem checkConfig : Statement .checkConfig := packed rfl (by decide)
theorem hdrRead : Statement .hdrRead := packed rfl (by decide)
theorem hdrWrite : Statement .hdrWrite := packed rfl (by decide)
theorem seedsRead : Statement .seedsRead := packed rfl (by decide)
theorem seedsWrite : Statement .seedsWrite := packed rfl (by decide)
theorem planeGeom (plane : BitVec 2) : Statement (.planeGeom plane) := packed rfl (by decide)
theorem blockGeom (plane : BitVec 2) (bx row : BitVec 8) : Statement (.blockGeom plane bx row) := packed rfl (by decide)
theorem hopBeginDec (plane : BitVec 2) : Statement (.hopBeginDec plane) := packed rfl (by decide)
theorem hopBeginEnc (plane : BitVec 2) : Statement (.hopBeginEnc plane) := packed rfl (by decide)
theorem hopStep : Statement .hopStep := packed rfl (by decide)
theorem hopDecRegion (plane : BitVec 2) : Statement (.hopDecRegion plane) := packed rfl (by decide)
theorem hopEncRegion (plane : BitVec 2) : Statement (.hopEncRegion plane) := packed rfl (by decide)
theorem huffBuild (t : Sys2Proof.Tbl) : Statement (.huffBuild t) := packed rfl (by decide)
theorem huffReadHdr (t : Sys2Proof.Tbl) : Statement (.huffReadHdr t) := packed rfl (by decide)
theorem huffWriteHdr (t : Sys2Proof.Tbl) : Statement (.huffWriteHdr t) := packed rfl (by decide)
theorem huffClearCounts (t : Sys2Proof.Tbl) : Statement (.huffClearCounts t) := packed rfl (by decide)
theorem huffCountSym (t : Sys2Proof.Tbl) (sym : BitVec 4) : Statement (.huffCountSym t sym) := packed rfl (by decide)
theorem huffCountRegion (plane : BitVec 2) : Statement (.huffCountRegion plane) := packed rfl (by decide)
theorem huffFromCounts (t : Sys2Proof.Tbl) : Statement (.huffFromCounts t) := packed rfl (by decide)
theorem huffDecSym (t : Sys2Proof.Tbl) : Statement (.huffDecSym t) := packed rfl (by decide)
theorem huffEncSym (t : Sys2Proof.Tbl) (sym : BitVec 4) : Statement (.huffEncSym t sym) := packed rfl (by decide)
theorem huffDecRegion (plane : BitVec 2) : Statement (.huffDecRegion plane) := packed rfl (by decide)
theorem huffEncRegion (plane : BitVec 2) : Statement (.huffEncRegion plane) := packed rfl (by decide)
theorem meshRead : Statement .meshRead := packed rfl (by decide)
theorem meshWrite : Statement .meshWrite := packed rfl (by decide)
theorem bwFlush : Statement .bwFlush := packed rfl (by decide)
theorem frameDecode : Statement .frameDecode := packed rfl (by decide)
theorem frameEncode : Statement .frameEncode := packed rfl (by decide)

end Sys2Proof.Laws.EncodeWord
end

