-- ==== Sys2Proof/Laws/Predictor.lean ====
section
/-! SUPPORT. One pixel of a scan: the prediction, the hop, and the whole step. -/

namespace Sys2Proof.Machine

/-- The prediction reads memory and changes nothing (41_predictor R253). -/
theorem predict_out (p : Plane) (c : PixelClass) (ax ay : Nat) (s : State) :
    (predict p c ax ay).out s = .ok (s.predOf p c ax ay) s := by
  unfold predict
  cases c <;> simp [readDst, State.predOf]

/-- Decode direction: the hop byte, if it is one (41_predictor R257). -/
theorem pixelHop_decode (p : Plane) (ax ay step : Nat) (pred : Byte) (s : State) (h : Hop)
    (hh : (s.byteAt (s.hopAddr p ax ay)).toNat = h.val) :
    (pixelHop p .decode ax ay step pred).out s = .ok (h, 0) s := by
  simp only [pixelHop, Cmd.out_read_bind, out_memRead_bind]
  rw [show (s.mem.read (s.hopAddr p ax ay).toNat).toNat = h.val from hh, needHop_lt h.isLt]
  rfl

/-- Decode direction: a byte above 8 raises E_HOP_RANGE. -/
theorem pixelHop_bad (p : Plane) (ax ay step : Nat) (pred : Byte) (s : State)
    (hh : 8 < (s.byteAt (s.hopAddr p ax ay)).toNat) :
    (pixelHop p .decode ax ay step pred).out s = .raised .hopRange s := by
  simp only [pixelHop, Cmd.out_read_bind, out_memRead_bind]
  rw [needHop_ge (show 9 ≤ (s.mem.read (s.hopAddr p ax ay).toNat).toNat from hh)]
  rfl

/-- Encode direction: the best hop, stored in the hop buffer (41_predictor R258). -/
theorem pixelHop_encode (p : Plane) (ax ay step : Nat) (pred : Byte) (s : State) :
    let o := s.byteAt (s.srcAddr p ax ay)
    let h := s.luts.best s.cfg.ratio.toNat step o.toNat pred.toNat
    (pixelHop p .encode ax ay step pred).out s =
      .ok (h, o) (s.storeByte (s.hopAddr p ax ay) (BitVec.ofNat 8 h.val)) := by
  simp only [pixelHop, Cmd.out_read_bind, out_memRead_bind, out_memWrite_seq]
  rfl

/-- The cursor after a pixel (41_predictor R265). -/
theorem Scan.advance_eq {s : State} (hx : s.scan.active = true) (a : Nat × Bool) :
    (s.scan.withHopState a).advance s.region = s.scanAfter a.1 a.2 := by
  unfold Scan.advance Scan.withHopState State.scanAfter
  by_cases h1 : s.scan.x.toNat + 1 = s.region.w.toNat <;>
  by_cases h2 : s.scan.y.toNat + 1 = s.region.h.toNat <;> simp [h1, h2, hx]

/-- The pixel at the cursor, once its hop is known: value, LAST_PIX, HopState and cursor
(41_predictor R265). `m` is memory after the hop has been read or written. -/
theorem stepPixel_ok {s : State} {h : Hop} {o : Byte} {m : Memory} (ha : s.scan.active = true)
    (hh : (pixelHop s.scan.plane s.scan.dir s.cursorX s.cursorY
        (pixelHopState s.cursorClass s.scan.step.toNat s.scan.lastSmall).1
        (s.predOf s.scan.plane s.cursorClass s.cursorX s.cursorY)).out s = .ok (h, o) (s.withMem m)) :
    let u := pixelHopState s.cursorClass s.scan.step.toNat s.scan.lastSmall
    let pred := s.predOf s.scan.plane s.cursorClass s.cursorX s.cursorY
    let value := s.pixelValue s.cursorClass pred u.1 h
    let a := adapt u.1 u.2 h
    stepPixel.out s = .ok () (((((s.withMem m).storeByte
      (s.dstAddr s.scan.plane s.cursorX s.cursorY) value).withLastPix
      { pred := pred, value := value, hop := BitVec.ofNat 4 h.val, orig := o }).withScan
      (s.scanAfter a.1 a.2))) := by
  intro u pred value a
  refine (Cmd.out_read_bind _ _ s).trans ((Cmd.out_bind_ok (predict_out _ _ _ _ s) _).trans
    ((Cmd.out_bind_ok hh _).trans ?_))
  simp only [Cmd.out_read_bind, out_memWrite_seq, Cmd.out_update_seq, Cmd.out_update,
    State.withScan_scan, State.withScan_region, State.withLastPix_scan, State.withLastPix_region,
    State.storeByte_scan, State.storeByte_region, State.withMem_scan, State.withMem_region]
  rw [← Scan.advance_eq ha a]
  rfl

/-- A pixel whose hop raises changes nothing. -/
theorem stepPixel_raised {s t : State} {e : ErrCode}
    (hh : (pixelHop s.scan.plane s.scan.dir s.cursorX s.cursorY
        (pixelHopState s.cursorClass s.scan.step.toNat s.scan.lastSmall).1
        (s.predOf s.scan.plane s.cursorClass s.cursorX s.cursorY)).out s = .raised e t) :
    stepPixel.out s = .raised e t :=
  (Cmd.out_read_bind _ _ s).trans ((Cmd.out_bind_ok (predict_out _ _ _ _ s) _).trans
    (Cmd.out_bind_raised hh _))

/-- HOP_STEP at a pixel it can process is that pixel (41_predictor R265). -/
theorem cmdHopStep_ready {s : State} (h : s.stepReady) : cmdHopStep.out s = stepPixel.out s := by
  rw [cmdHopStep, needScan_seq, if_pos h.active, needTables_seq, if_pos h.tables.1,
    Cmd.out_read_bind, regionCheck_seq_ok h.region, needCursor_seq, if_pos ⟨h.x, h.y⟩]

/-- The scan of a region, one step at a time. -/
theorem scanLoop_succ (n : Nat) (s : State) :
    (scanLoop (n + 1)).out s =
      if s.scan.active then (cmdHopStep.seq (scanLoop n)).out s else .ok () s := by
  rw [scanLoop, Cmd.out_read_bind]
  cases s.scan.active <;> rfl

/-! ### The seed acts at the first step of a scan only (41_predictor R253, R255, R265; 70_reset R709) -/

/-- The same end, in the state that `f` makes of it. -/
def Out.mapState {α : Type} (f : State → State) : Out α → Out α
  | .ok a s => .ok a (f s)
  | .raised e s => .raised e (f s)

theorem pixelClass_topLeft_iff (w i j : Nat) : pixelClass w i j = .topLeft ↔ i = 0 ∧ j = 0 := by
  unfold pixelClass
  split_ifs <;> simp_all

theorem State.withSeeds_storeByte (s : State) (g : SeedRegs) (a : Word) (v : Byte) :
    (s.withSeeds g).storeByte a v = (s.storeByte a v).withSeeds g := by
  unfold State.storeByte
  split <;> simp_all [State.withSeeds, State.withMem]

/-- After a step that leaves the scan active the cursor is at no top-left pixel, whatever the host makes of
the region's width: the first step of a scan is the only one at the seed. -/
theorem Scan.advance_not_topLeft {c : Scan} {r : Region} (hx : c.x.toNat < r.w.toNat)
    (hy : c.y.toNat < r.h.toNat) (ha : (c.advance r).active = true) (w : Nat) :
    pixelClass w (c.advance r).x.toNat (c.advance r).y.toNat ≠ .topLeft := by
  rw [ne_eq, pixelClass_topLeft_iff]
  unfold Scan.advance at ha ⊢
  split
  · have := r.h.isLt
    rw [if_pos ‹_›] at ha
    simp only [Bool.and_eq_true, decide_eq_true_eq] at ha
    rw [BitVec.toNat_add, show (1 : Word).toNat = 1 from rfl]
    omega
  · have := r.w.isLt
    rw [BitVec.toNat_add, show (1 : Word).toNat = 1 from rfl]
    omega

/-- Away from the top-left pixel the prediction reads no seed register. -/
theorem predOf_withSeeds {c : PixelClass} (hc : c ≠ .topLeft) (s : State) (g : SeedRegs) (p : Plane)
    (ax ay : Nat) : (s.withSeeds g).predOf p c ax ay = s.predOf p c ax ay := by
  cases c <;> first | contradiction | rfl

/-- The hop of a pixel depends on no seed register. -/
theorem pixelHop_withSeeds (p : Plane) (d : Dir) (ax ay step : Nat) (pred : Byte) (s : State)
    (g : SeedRegs) :
    (pixelHop p d ax ay step pred).out (s.withSeeds g) =
      ((pixelHop p d ax ay step pred).out s).mapState (·.withSeeds g) := by
  cases d with
  | decode =>
    by_cases h : (s.byteAt (s.hopAddr p ax ay)).toNat < 9
    · rw [pixelHop_decode (h := ⟨_, h⟩) (hh := rfl),
        pixelHop_decode (s := s.withSeeds g) (h := ⟨_, h⟩) (hh := rfl)]
      rfl
    · have h8 : 8 < (s.byteAt (s.hopAddr p ax ay)).toNat := by omega
      rw [pixelHop_bad (s := s) (hh := h8), pixelHop_bad (s := s.withSeeds g) (hh := h8)]
      rfl
  | encode =>
    rw [pixelHop_encode, pixelHop_encode, State.withSeeds_storeByte]
    rfl

/-- Away from the top-left pixel a step does the same whatever SEED_BASE, SEED_INDEX and SEED hold. -/
theorem stepPixel_withSeeds {s : State} (hc : s.cursorClass ≠ .topLeft) (g : SeedRegs) :
    stepPixel.out (s.withSeeds g) = (stepPixel.out s).mapState (·.withSeeds g) := by
  unfold State.cursorClass at hc
  have hr : ∀ s : State, stepPixel.out s = _ := fun s =>
    (Cmd.out_read_bind _ _ s).trans (Cmd.out_bind_ok (predict_out _ _ _ _ s) _)
  rw [hr, hr, Cmd.out_bind, Cmd.out_bind]
  dsimp only [id, State.withSeeds_scan, State.withSeeds_region]
  rw [predOf_withSeeds hc, pixelHop_withSeeds]
  generalize (pixelHop _ _ _ _ _ _).out s = r
  cases r with
  | raised e t => rfl
  | ok a t =>
    simp only [Out.mapState, Cmd.out_read_bind, out_memWrite_seq, Cmd.out_update_seq,
      Cmd.out_update, State.pixelValue, if_neg hc]
    rw [State.withSeeds_storeByte]
    rfl

/-- A hop that is found leaves everything but memory as it was. -/
theorem pixelHop_ok_cases {p : Plane} {d : Dir} {ax ay step : Nat} {pred : Byte} {s t : State}
    {ho : Hop × Byte} (h : (pixelHop p d ax ay step pred).out s = .ok ho t) : ∃ m, t = s.withMem m := by
  cases d with
  | decode =>
    by_cases hb : (s.byteAt (s.hopAddr p ax ay)).toNat < 9
    · rw [pixelHop_decode (h := ⟨_, hb⟩) (hh := rfl)] at h
      cases h
      exact ⟨s.mem, rfl⟩
    · rw [pixelHop_bad (hh := show 8 < _ by omega)] at h
      cases h
  | encode =>
    rw [pixelHop_encode] at h
    cases h
    unfold State.storeByte
    split
    · exact ⟨s.mem, rfl⟩
    · exact ⟨_, rfl⟩

/-- Where the scan stands after a pixel. -/
theorem stepPixel_scan {s t : State} (ha : s.scan.active = true) (h : stepPixel.out s = .ok () t) :
    ∃ a : Nat × Bool, t.scan = (s.scan.withHopState a).advance s.region := by
  cases hh : (pixelHop s.scan.plane s.scan.dir s.cursorX s.cursorY
      (pixelHopState s.cursorClass s.scan.step.toNat s.scan.lastSmall).1
      (s.predOf s.scan.plane s.cursorClass s.cursorX s.cursorY)).out s with
  | ok ho u =>
    obtain ⟨m, rfl⟩ := pixelHop_ok_cases hh
    rw [stepPixel_ok ha hh] at h
    cases h
    exact ⟨_, (Scan.advance_eq ha _).symm⟩
  | raised e u =>
    rw [stepPixel_raised hh] at h
    cases h

/-- 70_reset R709: between two HOP_STEPs of a scan the host may change the seed slot, by SEED_BASE or
SEED_INDEX (`g`), together with anything else but the scan (`u`): the next step does the same as without
that change, because only the first step of a scan is at the seed. -/
theorem seed_slot_between_steps {s t u : State} (hs : s.stepReady)
    (h : cmdHopStep.out s = .ok () t) (ha : t.scan.active = true) (hu : u.scan = t.scan)
    (g : SeedRegs) : stepPixel.out (u.withSeeds g) = (stepPixel.out u).mapState (·.withSeeds g) := by
  rw [cmdHopStep_ready hs] at h
  obtain ⟨a, hscan⟩ := stepPixel_scan hs.active h
  refine stepPixel_withSeeds ?_ g
  rw [State.cursorClass, hu, hscan]
  exact Scan.advance_not_topLeft (c := s.scan.withHopState a) hs.x hs.y (hscan ▸ ha) _

end Sys2Proof.Machine
end

