-- ==== Sys2Proof/Laws/Registers.lean ====
section
/-! SUPPORT. Which registers a body writes: a body logs them if every register it changes, STATUS apart,
stands among those its actions write (10_state R32). -/

namespace Sys2Proof.Machine

variable {α β : Type}

/-- From `s0`, only registers that the actions write have changed. -/
def Res.Logs (s0 : State) : Res α → Prop
  | .ok _ s t => ∀ r, r ≠ .status → (∀ a ∈ t, r ∉ a.regs) → s.readReg r = s0.readReg r
  | .raised _ s t => ∀ r, r ≠ .status → (∀ a ∈ t, r ∉ a.regs) → s.readReg r = s0.readReg r

/-- The body logs the registers it writes. -/
def Cmd.Logs (c : Cmd α) : Prop := ∀ s, (c s).Logs s

/-- Every action of the body writes registers of `l` only. -/
def Cmd.Within (l : List Reg) (c : Cmd α) : Prop := ∀ s, ∀ a ∈ c.acts s, ∀ r ∈ a.regs, r ∈ l

/-! ### Building blocks -/

theorem Cmd.logs_pure (a : α) : (Cmd.pure a).Logs := fun _ _ _ _ => rfl

theorem Cmd.logs_raise (e : ErrCode) : (Cmd.raise e : Cmd α).Logs := fun _ _ _ _ => rfl

theorem Cmd.logs_read (f : State → α) : (Cmd.read f).Logs := fun _ _ _ _ => rfl

theorem Cmd.logs_check (f : State → ErrCode) : (Cmd.check f).Logs := fun s => by
  unfold Cmd.check
  split <;> exact fun _ _ _ => rfl

theorem Cmd.logs_require (p : State → Bool) (e : ErrCode) : (Cmd.require p e).Logs := Cmd.logs_check _

theorem Cmd.logs_update {rs : List Reg} {f : State → State}
    (h : ∀ s r, r ≠ .status → r ∉ rs → (f s).readReg r = s.readReg r) : (Cmd.update rs f).Logs :=
  fun s r hr hn => h s r hr (by simpa using hn)

theorem Cmd.logs_bind {c : Cmd α} {f : α → Cmd β} (hc : c.Logs) (hf : ∀ a, (f a).Logs) :
    (c.bind f).Logs := fun s => by
  have h := hc s
  unfold Cmd.bind
  cases hs : c s with
  | raised e s' t => rw [hs] at h; exact h
  | ok a s' t =>
    rw [hs] at h
    have h' := hf a s'
    dsimp only
    cases hs' : f a s' with
    | ok b s'' t' =>
      rw [hs'] at h'
      exact fun r hr hn => (h' r hr fun x hx => hn x (List.mem_append.2 (.inr hx))).trans
        (h r hr fun x hx => hn x (List.mem_append.2 (.inl hx)))
    | raised e s'' t' =>
      rw [hs'] at h'
      exact fun r hr hn => (h' r hr fun x hx => hn x (List.mem_append.2 (.inr hx))).trans
        (h r hr fun x hx => hn x (List.mem_append.2 (.inl hx)))

theorem Cmd.logs_seq {c : Cmd α} {d : Cmd β} (hc : c.Logs) (hd : d.Logs) : (c.seq d).Logs :=
  Cmd.logs_bind hc fun _ => hd

theorem Cmd.logs_forEach {l : List α} {f : α → Cmd Unit} (hf : ∀ a, (f a).Logs) :
    (Cmd.forEach l f).Logs := by
  induction l with
  | nil => exact Cmd.logs_pure ()
  | cons a l ih => exact Cmd.logs_seq (hf a) ih

theorem logs_memRead (a : Word) : (memRead a).Logs := fun _ _ _ _ => rfl

theorem logs_memWrite (a : Word) (v : Byte) : (memWrite a v).Logs := fun s r hr _ => by
  show (s.storeByte a v).readReg r = s.readReg r
  unfold State.storeByte
  split
  · rfl
  · cases r with
    | status => exact absurd rfl hr
    | srcBase p => cases p <;> rfl
    | dstBase p => cases p <;> rfl
    | hopBase p => cases p <;> rfl
    | stride p => cases p <;> rfl
    | huffLenLo t => cases t <;> rfl
    | huffLenHi t => cases t <;> rfl
    | huffCode t i => cases t <;> rfl
    | huffCount t i => cases t <;> rfl
    | _ => rfl

variable {l : List Reg}

theorem Cmd.within_pure (a : α) : (Cmd.pure a).Within l := fun _ _ h => by cases h

theorem Cmd.within_raise (e : ErrCode) : (Cmd.raise e : Cmd α).Within l := fun _ _ h => by cases h

theorem Cmd.within_read (f : State → α) : (Cmd.read f).Within l := fun _ _ h => by cases h

theorem Cmd.within_check (f : State → ErrCode) : (Cmd.check f).Within l := fun s a h => by
  unfold Cmd.acts Cmd.check at h
  split at h <;> cases h

theorem Cmd.within_require (p : State → Bool) (e : ErrCode) : (Cmd.require p e).Within l :=
  Cmd.within_check _

theorem Cmd.within_update {rs : List Reg} (f : State → State) (h : rs ⊆ l) :
    (Cmd.update rs f).Within l := fun s a ha r hr => by
  rw [show (Cmd.update rs f).acts s = [{ after := f s, regs := rs }] from rfl,
    List.mem_singleton] at ha
  exact h (by simpa [ha] using hr)

theorem Cmd.within_bind {c : Cmd α} {f : α → Cmd β} (hc : c.Within l) (hf : ∀ a, (f a).Within l) :
    (c.bind f).Within l := fun s => by
  have h := hc s
  unfold Cmd.acts Cmd.bind at *
  cases hs : c s with
  | raised e s' t => rw [hs] at h; exact h
  | ok a s' t =>
    rw [hs] at h
    have h' := hf a s'
    unfold Cmd.acts at h'
    dsimp only
    cases hs' : f a s' with
    | ok b s'' t' =>
      rw [hs'] at h'
      exact fun x hx => (List.mem_append.1 hx).elim (h x) (h' x)
    | raised e s'' t' =>
      rw [hs'] at h'
      exact fun x hx => (List.mem_append.1 hx).elim (h x) (h' x)

theorem Cmd.within_seq {c : Cmd α} {d : Cmd β} (hc : c.Within l) (hd : d.Within l) :
    (c.seq d).Within l := Cmd.within_bind hc fun _ => hd

theorem Cmd.within_forEach {k : List α} {f : α → Cmd Unit} (hf : ∀ a, (f a).Within l) :
    (Cmd.forEach k f).Within l := by
  induction k with
  | nil => exact Cmd.within_pure ()
  | cons a k ih => exact Cmd.within_seq (hf a) ih

theorem within_memRead (a : Word) : (memRead a).Within l := fun s x hx r hr => by
  rw [show (memRead a).acts s = [{ after := s, reads := [a.toNat] }] from rfl,
    List.mem_singleton] at hx
  simp [hx] at hr

theorem within_memWrite (a : Word) (v : Byte) : (memWrite a v).Within l := fun s x hx r hr => by
  rw [show (memWrite a v).acts s = [{ after := s.storeByte a v, writes := [a.toNat] }] from rfl,
    List.mem_singleton] at hx
  simp [hx] at hr

/-! ### A failed frame (44_frame R420) -/

/-- What a failed frame command leaves alone, whatever bytes it frees. -/
theorem State.failedFrame_kept (s : State) (d : Dir) (l : List Nat) :
    let t := s.failedFrame d l
    t.eng = s.eng ∧ t.ctrl = s.ctrl ∧ t.bufs = s.bufs ∧ t.lut = s.lut ∧ t.huffSym = s.huffSym ∧
      t.luts = s.luts ∧ t.tablesValid = s.tablesValid ∧ t.plat = s.plat ∧ t.inbox = s.inbox ∧
      t.bus = s.bus ∧ t.races = s.races ∧ t.mem = freeBytes s.draws s.mem l := by
  cases d <;> simp [State.failedFrame, State.freeRegs]

end Sys2Proof.Machine
end

