-- ==== Sys2Proof/Tests/Slice0.lean ====
section
/-! SUPPORT. Tests: the smoke test of WellFormed, a written-out word for every command, one-step tests
whose expected values are the spec's own, and for every obligation with hypotheses a state that meets
them. -/

namespace Sys2Proof.Tests

set_option Elab.async false

open Sys2Proof Sys2Proof.Machine

/-! ### WellFormed: PLANE = 3 is refused in each of the nine plane commands (30_encoding R152) -/

theorem test_wf_planeGeom : (Instr.planeGeom 3).wellFormed = false := by decide
theorem test_wf_blockGeom : (Instr.blockGeom 3 0 0).wellFormed = false := by decide
theorem test_wf_hopBeginDec : (Instr.hopBeginDec 3).wellFormed = false := by decide
theorem test_wf_hopBeginEnc : (Instr.hopBeginEnc 3).wellFormed = false := by decide
theorem test_wf_hopDecRegion : (Instr.hopDecRegion 3).wellFormed = false := by decide
theorem test_wf_hopEncRegion : (Instr.hopEncRegion 3).wellFormed = false := by decide
theorem test_wf_huffCountRegion : (Instr.huffCountRegion 3).wellFormed = false := by decide
theorem test_wf_huffDecRegion : (Instr.huffDecRegion 3).wellFormed = false := by decide
theorem test_wf_huffEncRegion : (Instr.huffEncRegion 3).wellFormed = false := by decide
theorem test_wf_planes : ∀ p ∈ [0#2, 1#2, 2#2], (Instr.planeGeom p).wellFormed = true := by decide
/-- A SYM above 8 is an operand, not an ill-formed command (30_encoding R154). -/
theorem test_wf_sym : (Instr.huffCountSym .luma 9).wellFormed = true := by decide

/-! ### Decode: words written out from 30_encoding R150 and R157

A word is `BY[31:24] BX[23:16] SYM[15:12] 0 TBL[10] PLANE[9:8] OP[7:0]`. -/

theorem test_word_nop : decodeTableWord 32 0x00000000 = some .nop := by decide
theorem test_word_buildTables : decodeTableWord 32 0x00000001 = some .buildTables := by decide
theorem test_word_lutReadRec : decodeTableWord 32 0x00000002 = some .lutReadRec := by decide
theorem test_word_lutReadBest : decodeTableWord 32 0x00000003 = some .lutReadBest := by decide
theorem test_word_checkConfig : decodeTableWord 32 0x00000004 = some .checkConfig := by decide
theorem test_word_hdrRead : decodeTableWord 32 0x00000008 = some .hdrRead := by decide
theorem test_word_hdrWrite : decodeTableWord 32 0x00000009 = some .hdrWrite := by decide
theorem test_word_seedsRead : decodeTableWord 32 0x0000000A = some .seedsRead := by decide
theorem test_word_seedsWrite : decodeTableWord 32 0x0000000B = some .seedsWrite := by decide
/-- PLANE = 2: bits 9:8 are `10`. -/
theorem test_word_planeGeom :
    decodeTableWord 32 0b0000_0000_0000_0000_0000_0010_0001_0000 = some (.planeGeom 2) := by decide
/-- Vector E1: BY = 1, BX = 2, PLANE = 1. -/
theorem test_word_blockGeom :
    decodeTableWord 32 0b0000_0001_0000_0010_0000_0001_0001_0001 = some (.blockGeom 1 2 1) := by
  decide
theorem test_word_hopBeginDec : decodeTableWord 32 0x00000212 = some (.hopBeginDec 2) := by decide
theorem test_word_hopBeginEnc : decodeTableWord 32 0x00000013 = some (.hopBeginEnc 0) := by decide
theorem test_word_hopStep : decodeTableWord 32 0x00000014 = some .hopStep := by decide
theorem test_word_hopDecRegion : decodeTableWord 32 0x00000015 = some (.hopDecRegion 0) := by decide
theorem test_word_hopEncRegion : decodeTableWord 32 0x00000116 = some (.hopEncRegion 1) := by decide
theorem test_word_huffBuild : decodeTableWord 32 0x00000420 = some (.huffBuild .chroma) := by decide
theorem test_word_huffReadHdr : decodeTableWord 32 0x00000021 = some (.huffReadHdr .luma) := by
  decide
theorem test_word_huffWriteHdr : decodeTableWord 32 0x00000422 = some (.huffWriteHdr .chroma) := by
  decide
theorem test_word_huffClearCounts :
    decodeTableWord 32 0x00000423 = some (.huffClearCounts .chroma) := by decide
/-- Vector E10: SYM = 9. -/
theorem test_word_huffCountSym : decodeTableWord 32 0x00009024 = some (.huffCountSym .luma 9) := by
  decide
theorem test_word_huffCountRegion :
    decodeTableWord 32 0x00000225 = some (.huffCountRegion 2) := by decide
theorem test_word_huffFromCounts :
    decodeTableWord 32 0x00000426 = some (.huffFromCounts .chroma) := by decide
theorem test_word_huffDecSym : decodeTableWord 32 0x00000027 = some (.huffDecSym .luma) := by decide
/-- Vector E2: TBL = 1, SYM = 8. -/
theorem test_word_huffEncSym :
    decodeTableWord 32 0b0000_0000_0000_0000_1000_0100_0010_1000 = some (.huffEncSym .chroma 8) := by
  decide
theorem test_word_huffDecRegion : decodeTableWord 32 0x00000129 = some (.huffDecRegion 1) := by
  decide
theorem test_word_huffEncRegion : decodeTableWord 32 0x0000022A = some (.huffEncRegion 2) := by
  decide
theorem test_word_meshRead : decodeTableWord 32 0x00000030 = some .meshRead := by decide
theorem test_word_meshWrite : decodeTableWord 32 0x00000031 = some .meshWrite := by decide
theorem test_word_bwFlush : decodeTableWord 32 0x00000038 = some .bwFlush := by decide
theorem test_word_frameDecode : decodeTableWord 32 0x00000040 = some .frameDecode := by decide
theorem test_word_frameEncode : decodeTableWord 32 0x00000041 = some .frameEncode := by decide
/-- Vectors E7, E8, E9: the fields a command does not use, and bit 11, are ignored. -/
theorem test_word_ignored : decodeTableWord 32 0xFFFFFF00 = some .nop ∧
    decodeTableWord 32 0x00000314 = some .hopStep ∧
    decodeTableWord 32 0x00000820 = some (.huffBuild .luma) := by decide
/-- Vectors E3 to E6. -/
theorem test_word_illegal : ∀ w ∈ [0x00000315, 0x000000FF, 0x00000005, 0x00000042],
    decodeTableWord 32 w = none := by decide
/-- 30_encoding R163: the words of the assembly lines of vectors E1, E2 and E10. -/
theorem test_encode : encode (.blockGeom 1 2 1) = 0x01020111#32 ∧
    encode (.huffEncSym .chroma 8) = 0x00008428#32 ∧ encode (.huffCountSym .luma 9) = 0x00009024#32 := by
  decide

/-! ### Small states -/

/-- The state a command leaves. -/
def after (i : Instr) (s : State) : State :=
  match exec i s with
  | .next t => t
  | _ => s

theorem exec_after (i : Instr) (s : State) : exec i s = .next (after i s) := by
  obtain ⟨t, h⟩ := exec_next i s
  simp [after, h]

/-- Bytes from address `a` on. -/
def bytes (a : Nat) (l : List Byte) : Memory := l.zipIdx.map fun b => (a + b.2, b.1)

/-- Nine values from a list. -/
def nine {α : Type} (d : α) (l : List α) : Nine α := Nine.ofFn fun i => l.getD i.val d

/-- Right after reset, with room for 100 pixels. -/
def fresh : State :=
  { State.reset with plat := { maxPixels := 100, nWorkers := 1, hdrOrder := .chromaFirst } }

/-- The tables are built. -/
def ready : State := { fresh with tablesValid := true, luts := .built }

/-- A frame configuration on `ready`: MODE, sides, grid, chroma factors, CF. -/
def framed (mode : BitVec 8) (w h : Word) (bw bh : BitVec 8) (sx sy : BitVec 4) (cf : BitVec 16) :
    State :=
  { ready with
    cfg := { mode := mode, width := w, height := h, gridW := bw, gridH := bh, ratio := 25, sx := sx,
             sy := sy, cf := cf } }

/-- A table with the given lengths, as HUFF_BUILD leaves it. -/
def built (l : List (BitVec 4)) : HuffTable :=
  { len := nine 15 l, code := assignCodes (nine 15 l), count := Nine.all 0, valid := true }

/-- The lengths of vector H1. -/
def h1 : List (BitVec 4) := [5, 5, 4, 3, 1, 3, 4, 5, 5]
/-- The lengths of vector H3. -/
def h3 : List (BitVec 4) := [15, 15, 15, 15, 1, 1, 15, 15, 15]

/-- Both tables have the given lengths; the reader is at 0x40 and the writer at 0x80. -/
def coded (l : List (BitVec 4)) (budget limit : Word) (input : List Byte) : State :=
  { ready with
    huff := { luma := built l, chroma := built l }
    reader := { base := 0x40, budget := budget, pos := 0 }
    writer := { base := 0x80, limit := limit, pos := 0 }
    mem := bytes 0x40 input }

/-- The buffers of a plane. -/
def planeBuf (src dst hop stride : Word) : PlaneBuf :=
  { src := src, dst := dst, hop := hop, stride := stride }

/-- A 4×3 frame of one block, its region luma's `w` by `h`, stride 16, originals at 0x100,
reconstruction at 0x200, hops at 0x300, seed slot 0x50. -/
def scene (w h : Word) (m : Memory) : State :=
  { framed 0 4 3 1 1 1 1 0 with
    bufs := { luma := planeBuf 0x100 0x200 0x300 16, chromaA := planeBuf 0x110 0x210 0x310 16,
              chromaB := planeBuf 0x120 0x220 0x320 16 }
    seeds := { seedBase := 0x50, meshBase := 0x60, seedIndex := 0, seed := 0 }
    region := { x0 := 0, y0 := 0, w := w, h := h }
    mem := m }

/-- The bytes at the addresses from `a` on. -/
def peek (s : State) (a n : Nat) : List Nat := (List.range n).map fun k => (s.mem.read (a + k)).toNat

/-! ### One step of each command, with the values of 95_test_vectors and of the rules' examples -/

/-- Vector E7. -/
theorem test_nop : (after .nop fresh).readReg .irqStatus = 1 := by decide
/-- Vector T1. -/
theorem test_buildTables : (after .buildTables fresh).statusWord = 2 ∧
    (after .buildTables fresh).readReg .irqStatus = 1 := by decide +kernel
/-- Vector T2. -/
theorem test_lutReadRec :
    (after .lutReadRec (ready.writeReg .lutArgs 0x0A190864)).lut.result = 224 := by decide +kernel
/-- Vector T6: X = 9. -/
theorem test_lutReadRec_config :
    (after .lutReadRec (ready.writeReg .lutArgs 0x0A190964)).eng.err = .config := by decide +kernel
/-- Vector T3. -/
theorem test_lutReadBest :
    (after .lutReadBest (ready.writeReg .lutArgs 0x0A19C864)).lut.result = 8 := by decide +kernel
/-- Vector T7: S = 20. -/
theorem test_lutReadBest_config :
    (after .lutReadBest (ready.writeReg .lutArgs 0x14190864)).eng.err = .config := by decide +kernel
/-- Vector G7: chroma block 3 is empty. -/
theorem test_checkConfig :
    (after .checkConfig (framed 0 10 7 4 1 2 1 0)).eng.err = .malformedHeader := by decide +kernel
/-- Vector G9: SX = 3. -/
theorem test_checkConfig_chroma :
    (after .checkConfig (framed 0 10 7 1 1 3 1 0)).eng.err = .config := by decide +kernel
/-- Vector B4. -/
theorem test_hdrRead :
    let t := after .hdrRead (coded h1 200 200 [0, 4, 0, 0, 0, 2, 0, 0, 0, 1, 1])
    t.cfg.mode = 0 ∧ t.cfg.width = 4 ∧ t.cfg.height = 2 ∧ t.readReg .grid = 0x0101 ∧
      t.reader.pos = 88 ∧ t.quiet := by decide +kernel
/-- Vector F4: mode 3, found after all 88 bits are read. -/
theorem test_hdrRead_mode :
    let t := after .hdrRead (coded h1 200 200 [3, 4, 0, 0, 0, 2, 0, 0, 0, 1, 1])
    t.eng.err = .malformedHeader ∧ t.reader.pos = 88 := by decide +kernel
/-- Vector F1. -/
theorem test_hdrWrite :
    peek (after .hdrWrite
      { framed 2 8 4 2 1 1 1 0 with writer := { base := 0x80, limit := 200, pos := 0 } }) 0x80 11 =
      [2, 8, 0, 0, 0, 4, 0, 0, 0, 2, 1] := by decide +kernel
/-- Vector F2. -/
theorem test_seedsRead :
    peek (after .seedsRead { scene 4 3 (bytes 0x40 [0x64, 0x80, 0x78]) with
      reader := { base := 0x40, budget := 24, pos := 0 } }) 0x50 3 = [100, 128, 120] := by
  decide +kernel
/-- Vector F3. -/
theorem test_seedsWrite :
    peek (after .seedsWrite
      { framed 0 4 2 2 1 1 1 0 with
        seeds := { seedBase := 0x50, meshBase := 0x60, seedIndex := 0, seed := 0 }
        writer := { base := 0x80, limit := 200, pos := 0 }
        mem := bytes 0x50 [10, 200, 128, 128, 100, 120] }) 0x80 6 =
      [0x0A, 0xC8, 0x80, 0x80, 0x64, 0x78] := by decide +kernel
/-- Vector B7. -/
theorem test_bwFlush :
    let t := after .bwFlush
      { fresh with writer := { base := 0x80, limit := 64, pos := 26 }, mem := bytes 0x83 [0xFF] }
    t.writer.pos = 32 ∧ peek t 0x83 1 = [0xC0] := by decide +kernel
/-- Vector B8. -/
theorem test_bwFlush_full :
    let t := after .bwFlush { fresh with writer := { base := 0x80, limit := 30, pos := 26 } }
    t.writer.pos = 26 ∧ t.eng.err = .outOverflow ∧ t.mem = [] := by decide +kernel
/-- Vector G1. -/
theorem test_planeGeom :
    let t := after (.planeGeom 1) (framed 0 10 7 3 2 2 2 0)
    t.region = ⟨0, 0, 5, 4⟩ ∧ t.seeds.seedIndex = 6 ∧ t.geom = ⟨0, 5, 0, 4, 5, 4⟩ := by
  decide +kernel
/-- Vector G4. -/
theorem test_blockGeom :
    let t := after (.blockGeom 1 2 1) (framed 0 10 7 3 2 2 2 0)
    t.geom = ⟨4, 5, 2, 4, 1, 2⟩ ∧ t.seeds.seedIndex = 11 := by decide +kernel
/-- Vector M3: CF 128, sides 6 and 9. -/
theorem test_blockGeom_mesh :
    (after (.blockGeom 0 0 0)
      { framed 2 32 32 2 2 2 2 128 with
        plat := { maxPixels := 1024, nWorkers := 1, hdrOrder := .chromaFirst }
        seeds := { seedBase := 0x50, meshBase := 0x60, seedIndex := 0, seed := 0 }
        mem := bytes 0x60 [0x25, 0x20, 0, 0x22, 0x23] }).region = ⟨0, 0, 6, 9⟩ := by decide +kernel
/-- Vector M11. -/
theorem test_meshRead :
    let t := after .meshRead
      { framed 2 8 4 2 1 2 2 256 with
        seeds := { seedBase := 0x50, meshBase := 0x60, seedIndex := 0, seed := 0 }
        reader := { base := 0x40, budget := 36, pos := 0 }
        mem := bytes 0x40 [0b10110110, 0b11010000, 0b00101101, 0b10110100, 0b00000000] }
    peek t 0x60 6 = [0x2D, 0x2D, 0, 0x2D, 0x2D, 0] ∧ t.reader.pos = 36 := by decide +kernel
/-- Vector M12: code 6. -/
theorem test_meshRead_code :
    let t := after .meshRead
      { framed 2 8 4 2 1 2 2 256 with
        seeds := { seedBase := 0x50, meshBase := 0x60, seedIndex := 0, seed := 0 }
        reader := { base := 0x40, budget := 36, pos := 0 }
        mem := bytes 0x40 [0b11000000] }
    t.eng.err = .malformedHeader ∧ t.reader.pos = 6 ∧ t.mem.read? 0x60 = none := by decide +kernel
/-- Vector M11. -/
theorem test_meshWrite :
    peek (after .meshWrite
      { framed 2 8 4 2 1 2 2 256 with
        seeds := { seedBase := 0x50, meshBase := 0x60, seedIndex := 0, seed := 0 }
        writer := { base := 0x80, limit := 36, pos := 0 }
        mem := bytes 0x60 [0x2D, 0x2D, 0, 0x2D, 0x2D, 0] }) 0x80 5 =
      [0b10110110, 0b11010000, 0b00101101, 0b10110100, 0b00000000] := by decide +kernel
/-- Vector P-1, with the seed slot's region. -/
theorem test_hopBeginDec :
    let s := scene 4 3 (bytes 0x52 [120])
    let t := after (.hopBeginDec 2) (s.withSeeds { s.seeds with seedIndex := 2 })
    t.seeds.seed = 120 ∧ t.readReg .hopState = 7 ∧ t.statusWord = 0x92 := by decide +kernel
/-- Vector P-2. -/
theorem test_hopBeginEnc :
    let t := after (.hopBeginEnc 0) (scene 4 3 (bytes 0x100 [100]))
    t.seeds.seed = 100 ∧ peek t 0x50 1 = [100] := by decide +kernel
/-- Vector P-3, the second step. -/
theorem test_hopStep :
    let s := scene 4 3 (bytes 0x200 [100] ++ bytes 0x300 [4, 8])
    let t := after .hopStep (s.withScan
      { x := 1, y := 0, step := 10, lastSmall := true, active := true, dir := .decode, plane := .luma })
    t.readReg .lastPix = 0x0008E064 ∧ t.readReg .hopState = 0x00A ∧ peek t 0x201 1 = [224] := by
  decide +kernel
/-- Vector P-13. -/
theorem test_hopStep_idle : (after .hopStep (scene 4 3 [])).eng.err = .sequence := by decide +kernel
/-- Vector P-12: a bad hop byte at pixel 1. -/
theorem test_hopDecRegion_range :
    let t := after (.hopDecRegion 0) (scene 4 1 (bytes 0x50 [100] ++ bytes 0x300 [4, 9, 4, 4]))
    t.eng.err = .hopRange ∧ t.scan.x = 1 ∧ t.scan.active = true ∧ t.readReg .hopState = 0x10A := by
  decide +kernel
/-- Scenario B (L1.8). -/
theorem test_hopDecRegion :
    let s := scene 6 1 (bytes 0x50 [100] ++ bytes 0x300 [8, 0, 8, 0, 8, 0])
    let t := after (.hopDecRegion 0) (s.withCfg { s.cfg with width := 6 })
    peek t 0x200 6 = [0x64, 0x14, 0xB0, 0x24, 0xC0, 0x27] ∧ t.readReg .hopState = 0x00A := by
  decide +kernel
/-- Vector P-4. -/
theorem test_hopEncRegion :
    let t := after (.hopEncRegion 0) (scene 4 1 (bytes 0x100 [100, 104, 110, 108]))
    peek t 0x300 4 = [4, 4, 5, 4] ∧ peek t 0x200 4 = [100, 100, 109, 109] ∧
      t.readReg .hopState = 0x107 := by decide +kernel
/-- Vector P-8: the last column of a two-column region. -/
theorem test_hopEncRegion_lastCol :
    let s := scene 2 3 (bytes 0x100 [10, 200] ++ bytes 0x110 [30, 40] ++ bytes 0x120 [250, 5])
    let t := after (.hopEncRegion 0) s
    peek t 0x210 2 = [27, 58] ∧ peek t 0x220 2 = [136, 20] := by decide +kernel
/-- Vector H1. -/
theorem test_huffBuild :
    let s := (fresh.writeReg (.huffLenLo .luma) 0x54313455).writeReg (.huffLenHi .luma) 5
    let t := after (.huffBuild .luma) s
    t.readReg (.huffCode .luma 4) = 0x00010000 ∧ t.readReg (.huffCode .luma 0) = 0x0005001F ∧
      t.readReg (.huffCode .luma 2) = 0x0004000D ∧ t.statusWord = 4 := by decide +kernel
/-- Vector H7: nine lengths of 1. -/
theorem test_huffBuild_kraft :
    let s := (fresh.writeReg (.huffLenLo .luma) 0x11111111).writeReg (.huffLenHi .luma) 1
    let t := after (.huffBuild .luma) s
    t.eng.err = .huffInvalid ∧ t.readReg (.huffCode .luma 7) = 0x00010000 := by decide +kernel
/-- Vector H27. -/
theorem test_huffReadHdr :
    let t := after (.huffReadHdr .chroma) (coded h3 100 100 [0x55, 0x43, 0x13, 0x45, 0x50])
    t.huff.chroma.len = nine 15 h1 ∧ t.huff.chroma.valid = true ∧ t.reader.pos = 36 := by
  decide +kernel
/-- Scenario C (L1.9). -/
theorem test_huffReadHdr_invalid :
    let t := after (.huffReadHdr .luma) (coded h3 40 100 [0x11, 0x11, 0x11, 0x11, 0x10])
    t.eng.err = .huffInvalid ∧ t.huff.luma.valid = false ∧ t.reader.pos = 36 := by decide +kernel
/-- Vector H28. -/
theorem test_huffWriteHdr :
    peek (after (.huffWriteHdr .luma) (coded h1 100 100 [])) 0x80 5 =
      [0x55, 0x43, 0x13, 0x45, 0x50] := by decide +kernel
/-- The example of 43_huffman R357. -/
theorem test_huffClearCounts :
    (after (.huffClearCounts .chroma) (fresh.withTable .chroma
      { fresh.huff.chroma with count := Nine.all 7 })).huff.chroma.count = Nine.all 0 := by
  decide +kernel
/-- Vector H29: a count wraps. -/
theorem test_huffCountSym :
    (after (.huffCountSym .luma 3) (fresh.withTable .luma { fresh.huff.luma with
      count := nine 0 [0, 0, 0, 0xFFFFFFFF] })).readReg (.huffCount .luma 3) = 0 := by decide +kernel
/-- Vector E10. -/
theorem test_huffCountSym_range :
    (after (.huffCountSym .luma 9) fresh).eng.err = .hopRange := by decide +kernel
/-- Vector H32. -/
theorem test_huffCountRegion :
    let t := after (.huffCountRegion 0) (scene 4 2 (bytes 0x300 [4, 4, 5, 4] ++ bytes 0x310 [4, 4, 4, 5]))
    t.readReg (.huffCount .luma 4) = 6 ∧ t.readReg (.huffCount .luma 5) = 2 := by decide +kernel
/-- Vector H12. -/
theorem test_huffFromCounts :
    (after (.huffFromCounts .luma) (fresh.withTable .luma { fresh.huff.luma with
      count := nine 0 [1, 2, 5, 20, 100, 20, 5, 2, 1] })).huff.luma.len =
      nine 15 [6, 6, 5, 2, 1, 3, 5, 6, 6] := by decide +kernel
/-- Vector H16: ties go to the lower rank. -/
theorem test_huffFromCounts_ties :
    (after (.huffFromCounts .luma) (fresh.withTable .luma { fresh.huff.luma with
      count := nine 0 [3, 0, 0, 0, 3, 0, 0, 0, 3] })).huff.luma.len =
      nine 15 [1, 15, 15, 15, 2, 15, 15, 15, 2] := by decide +kernel
/-- Vector H19. -/
theorem test_huffDecSym :
    let t := after (.huffDecSym .luma) (coded h1 8 0 [0b10000000])
    t.huffSym = 5 ∧ t.reader.pos = 3 := by decide +kernel
/-- Vector H25. -/
theorem test_huffDecSym_truncated :
    let t := after (.huffDecSym .luma) (coded h1 3 0 [0b11110000])
    t.eng.err = .truncated ∧ t.reader.pos = 3 ∧ t.huffSym = 0 := by decide +kernel
/-- Vector H20. -/
theorem test_huffEncSym :
    let t := after (.huffEncSym .luma 8) (coded h1 0 100 [])
    t.writer.pos = 5 ∧ peek t 0x80 1 = [0xF0] := by decide +kernel
/-- Vector H21: the code is cut off by the limit. -/
theorem test_huffEncSym_overflow :
    let t := after (.huffEncSym .luma 8) (coded h1 0 3 [])
    t.eng.err = .outOverflow ∧ t.writer.pos = 3 ∧ peek t 0x80 1 = [0xE0] := by decide +kernel
/-- Vector H30. -/
theorem test_huffDecRegion :
    let t := after (.huffDecRegion 0)
      { scene 4 2 (bytes 0x40 [0b00100001]) with
        huff := { luma := built h3, chroma := HuffTable.reset }
        reader := { base := 0x40, budget := 8, pos := 0 } }
    peek t 0x300 4 = [4, 4, 5, 4] ∧ peek t 0x310 4 = [4, 4, 4, 5] ∧ t.reader.pos = 8 := by
  decide +kernel
/-- Vector H31. -/
theorem test_huffEncRegion :
    peek (after (.huffEncRegion 0)
      { scene 4 2 (bytes 0x300 [4, 4, 5, 4] ++ bytes 0x310 [4, 4, 4, 5]) with
        huff := { luma := built h3, chroma := HuffTable.reset }
        writer := { base := 0x80, limit := 8, pos := 0 } }) 0x80 1 = [0b00100001] := by
  decide +kernel

/-- Program P1's frame: 4×2, one block, CHROMA 0x22. -/
def p1 (m : Memory) : State :=
  { framed 0 4 2 1 1 2 2 0 with
    bufs := { luma := planeBuf 0x1000 0x2000 0x3000 16,
              chromaA := planeBuf 0x1100 0x2100 0x3100 16,
              chromaB := planeBuf 0x1200 0x2200 0x3200 16 }
    seeds := { seedBase := 0x4000, meshBase := 0x4100, seedIndex := 0, seed := 0 }
    reader := { base := 0x5000, budget := 200, pos := 0 }
    writer := { base := 0x5000, limit := 2048, pos := 0 }
    mem := m }

/-- The 25 bytes of program P1's frame. -/
def p1Frame : List Byte :=
  [0x00, 0x04, 0x00, 0x00, 0x00, 0x02, 0x00, 0x00, 0x00, 0x01, 0x01, 0x64, 0x80, 0x78, 0xFF, 0x1F,
   0x1F, 0xFF, 0xFF, 0xFF, 0xF1, 0x1F, 0xFF, 0x21, 0x10]

/-- Program P1a. -/
theorem test_frameEncode :
    let t := after .frameEncode (p1 (bytes 0x1000 [100, 104, 110, 108] ++
      bytes 0x1010 [98, 101, 107, 115] ++ bytes 0x1100 [128, 130] ++ bytes 0x1200 [120, 90]))
    peek t 0x5000 25 = p1Frame.map BitVec.toNat ∧ t.writer.pos = 200 ∧ t.statusWord = 0xAE ∧
      t.readReg .lastPix = 0x5A026378 := by decide +kernel
/-- Program P1b. -/
theorem test_frameDecode :
    let t := after .frameDecode ((p1 (bytes 0x5000 p1Frame)).withCfg { ready.cfg with sx := 2, sy := 2 })
    peek t 0x2000 4 = [100, 100, 109, 109] ∧ peek t 0x2010 4 = [100, 104, 106, 115] ∧
      t.reader.pos = 196 ∧ t.statusWord = 0x8E := by decide +kernel

/-! ### The register port (vectors X1 to X10) -/

/-- The state one step leads to. -/
def stepped (s : State) : State :=
  match step s with
  | .next t => t
  | _ => s

/-- `s` with one register write to come. -/
def writing (s : State) (r : Reg) (v : Word) : State :=
  s.withInbox [{ access := regWriteOf r v, during := none }]

/-- A core that runs `w`, with one register write that lands before its first action. -/
def interrupted (w : Word) (r : Reg) (v : Word) : State :=
  (ready.withEng { ready.eng with cmd := w, running := some { word := w, progress := 0 } }).withInbox
    [{ access := regWriteOf r v, during := some 0 }]

/-- `s` with error 2 recorded. -/
def failed (s : State) : State :=
  s.withEng { s.eng with err := .huffInvalid, irqErr := true, irqDone := true }

theorem test_reset : [Reg.status, .irqStatus, .hopState, .ratio, .chroma, .huffLenLo .luma,
    .huffCode .chroma 8].map State.reset.readReg =
    [0, 0, 7, 0x19, 0x11, 0xFFFFFFFF, 0x000F0000] := by decide +kernel
theorem test_fetch : step (State.reset.withFetchWord 32 0x00000001) =
    exec .buildTables (State.reset.accepted 0x00000001 []) := rfl
/-- Vector X2. -/
theorem test_sticky :
    let t := stepped (writing (failed fresh) .cmd 1)
    t.eng.cmd = 1 ∧ t.statusWord = 0x200 := by decide +kernel
/-- Vector X3. -/
theorem test_busy_register :
    let t := stepped (stepped (interrupted 0x00000001 .brPos 5))
    t.readReg .errCmd = 0x00000078 ∧ t.statusWord = 0x00010B02 ∧ t.reader.pos = 0 := by
  decide +kernel
/-- Vector X4. -/
theorem test_busy_cmd :
    let t := stepped (interrupted 0x00000001 .cmd 1)
    t.readReg .errCmd = 0x00000001 ∧ t.eng.err = .busy ∧ t.eng.errReg = false := by decide +kernel
/-- Vector X5. -/
theorem test_irq :
    let s := (after .nop fresh).withCtrl { fresh.ctrl with irqEn := true }
    s.irq = true ∧ (stepped (writing s .irqStatus 1)).irq = false := by decide +kernel
/-- Vector X6. -/
theorem test_irq_keeps_err :
    let t := stepped (writing (failed fresh) .irqStatus 2)
    t.eng.irqErr = false ∧ t.eng.err = .huffInvalid := by decide +kernel
/-- Vector X7. -/
theorem test_softReset :
    let t := stepped (writing (failed (scene 4 3 (bytes 0 [7]))) .ctrl 1)
    t.statusWord = 2 ∧ t.readReg (.stride .luma) = 0 ∧ peek t 0 1 = [7] := by decide +kernel

/-- HOP_BEGIN_DEC of luma runs; the host writes byte `a` before its first action. -/
def raced (a : Word) : State :=
  ((scene 4 3 (bytes 0x50 [100])).withEng
    { ready.eng with cmd := 0x12, running := some { word := 0x12, progress := 0 } }).withInbox
    [{ access := .memWrite a 7, during := some 0 }]

/-- 20_memory R121: the seed slot, which the command reads, is raced until the command ends; its value
is what the command loads. -/
theorem test_race :
    (stepped (raced 0x50)).races = [0x50] ∧ (stepped (stepped (raced 0x50))).races = [] ∧
    (stepped (stepped (raced 0x50))).seeds.seed = (stepped (raced 0x50)).byteAt 0x50 :=
  ⟨rfl, rfl, rfl⟩
/-- 20_memory R121: a byte that the command does not touch takes the host's value. -/
theorem test_no_race : (stepped (raced 0x51)).byteAt 0x51 = 7 ∧
    (stepped (stepped (raced 0x51))).seeds.seed = 100 := by decide +kernel

/-- `s` while the command `w` runs, with one access that lands before its first action. -/
def during (w : Word) (a : HostAccess) (s : State) : State :=
  (s.withEng { s.eng with cmd := w, running := some { word := w, progress := 0 } }).withInbox
    [{ access := a, during := some 0 }]

/-- A read of a register. -/
def readOf (r : Reg) : HostAccess := .regRead 32 (BitVec.ofNat 9 r.offset)

/-- 10_state R32: while HUFF_COUNT_SYM of symbol 4 runs, HUFF_COUNT_0_5 reads its value, and only a read
of HUFF_COUNT_0_4, which the command writes, draws a free value. -/
theorem test_busy_read :
    (stepped (during 0x00004024 (readOf (.huffCount .luma 5)) ready)).bus = .data 0 ∧
    (stepped (during 0x00004024 (readOf (.huffCount .luma 5)) ready)).draws = 0 ∧
    (stepped (during 0x00004024 (readOf (.huffCount .luma 4)) ready)).draws = 1 := by decide +kernel
/-- 10_state R32: an HDR_READ that the budget cuts off writes BR_POS and no MODE. -/
theorem test_busy_read_raising :
    (stepped (during 0x08 (readOf .mode) (coded h1 8 0 [2]))).bus = .data 0 ∧
    (stepped (during 0x08 (readOf .brPos) (coded h1 8 0 [2]))).draws = 1 := by decide +kernel

/-- A 2×2 frame of two blocks, a corner of the second with code 6, on a core with `n` workers. -/
def halfMeshed (n : Nat) : State :=
  { framed 2 2 2 2 1 1 1 0 with
    plat := { maxPixels := 100, nWorkers := n, hdrOrder := .chromaFirst }
    bufs := { luma := planeBuf 0x100 0x200 0x300 16, chromaA := planeBuf 0x120 0x220 0x320 16,
              chromaB := planeBuf 0x140 0x240 0x340 16 }
    seeds := { seedBase := 0x50, meshBase := 0x60, seedIndex := 0, seed := 0 }
    writer := { base := 0x80, limit := 9, pos := 9 }
    mem := bytes 0x60 [0x2D, 0x2D, 6, 0x2D, 0x2D, 0x2D] ++ bytes 0x100 [9, 9] ++ bytes 0x110 [9, 9] ++
      bytes 0x120 [9, 9] ++ bytes 0x130 [9, 9] ++ bytes 0x140 [9, 9] ++ bytes 0x150 [9, 9] }

/-- 44_frame R420: the failed FRAME_ENCODE could write seed slot, DST and HOP of the first block of every
plane, none of the second block, whose corner gives it no region, and no output byte past BW_LIMIT. -/
theorem test_failedFrame_bytes :
    (halfMeshed 2).encodeFootprint.writes =
      [0x50, 0x52, 0x54, 0x300, 0x310, 0x320, 0x330, 0x340, 0x350,
       0x200, 0x210, 0x220, 0x230, 0x240, 0x250] := by decide +kernel
/-- 20_memory R121, 44_frame R420: on several workers a host read of a byte that another worker could
write is a race; on one worker the sequential order never comes to it. -/
theorem test_failedFrame_race :
    (stepped (during 0x41 (.memRead 0x240) (halfMeshed 2))).draws = 1 ∧
    (stepped (during 0x41 (.memRead 0x240) (halfMeshed 1))).draws = 0 ∧
    (after .frameEncode (halfMeshed 2)).eng.err = .malformedHeader := by decide +kernel
/-- 44_frame R420: a FRAME_DECODE in a basic mode could write no mesh byte. -/
theorem test_failedFrame_mesh :
    (0x60 : Word) ∉ (scene 4 3 []).decodeHeadFootprint.writes := by decide +kernel

/-! ### Witnesses: for every obligation with hypotheses, states and operands that meet them -/

theorem witness_DecodeEncodeRoundTrip : (Instr.blockGeom 2 255 255).wellFormed = true := by decide

/-- The first and the last OP value of every hole of the opcode map. -/
theorem witness_IllegalWordsAreTheListedOnes :
    (∀ w ∈ [0x315, 0x05, 0x07, 0x0C, 0x0F, 0x17, 0x1F, 0x2B, 0x2F, 0x32, 0x37, 0x39, 0x3F, 0x42, 0xFF],
      decodeTableWord 32 w = none) ∧
    (∀ i, decode 0x00000315#32 ≠ .ok i) ∧ (∀ i, decode 0x000000FF#32 ≠ .ok i) ∧
    (interrupted 0x00000315 .ctrl 0).eng.running = some { word := 0x00000315, progress := 0 } ∧
    (interrupted 0x00000315 .ctrl 0).quiet := by
  have illegal : ∀ w e, decode w = .error e → ∀ i, decode w ≠ .ok i := fun w e h i hi => by
    rw [h] at hi
    cases hi
  exact ⟨by decide, illegal _ _ rfl, illegal _ _ rfl, rfl, rfl⟩

/-- The listed holes are all the OP values that no command has. -/
theorem test_illegalOp : ∀ op : Fin 256,
    illegalOp op.val ↔ ∀ i ∈ [op.val], decodeTableWord 32 i = none := by
  unfold illegalOp
  decide +kernel

theorem witness_IgnoredFieldsDoNotMatter :
    decode 0x00008428#32 = .ok (.huffEncSym .chroma 8) ∧
    fieldOp 0xFFFF8F28#32 = fieldOp 0x00008428#32 ∧
    fieldTbl 0xFFFF8F28#32 = fieldTbl 0x00008428#32 ∧
    fieldSym 0xFFFF8F28#32 = fieldSym 0x00008428#32 := ⟨rfl, rfl, by decide, by decide⟩

theorem witness_StepRunsTheDecodedCommand :
    decode 0x00000041#32 = .ok .frameEncode ∧
    (let s := writing ready .cmd 0x41
     s.eng.running = none ∧ s.quiet ∧
       s.inbox = [{ access := regWriteOf .cmd 0x41, during := none }]) ∧
    (let s := (interrupted 0x41 .cmd 0).withInbox []
     s.eng.running = some { word := 0x41, progress := 0 } ∧ s.inbox = []) :=
  ⟨rfl, ⟨rfl, rfl, rfl⟩, rfl, rfl⟩

theorem witness_ErrorIsStickyUntilReset :
    let s := writing (failed fresh) .cmd 1
    s.eng.running = none ∧ ¬ s.quiet ∧
      s.inbox = [{ access := regWriteOf .cmd 1, during := none }] ∧ ¬ s.resetNext ∧
      step s = .next (stepped s) := by
  refine ⟨rfl, by decide, rfl, ?_, rfl⟩
  rintro ⟨q, rest, h, hq⟩
  injection h with h1 h2
  subst h1
  rcases hq with h | ⟨v, h, -⟩ <;> simp [regWriteOf, Reg.offset] at h

theorem witness_BusyWriteRecordsBusyError :
    (∀ r ∈ [Reg.cmd, .brPos, .huffCount .chroma 8], r.access = .readWrite ∧ r ≠ .ctrl ∧
      (interrupted 0x40 r 7).eng.running = some { word := 0x40, progress := 0 } ∧
      (interrupted 0x40 r 7).inbox = [{ access := regWriteOf r 7, during := some 0 }] ∧
      (interrupted 0x40 r 7).quiet) ∧
    ¬ (failed (interrupted 0x40 .brPos 7)).quiet := by decide +kernel

theorem witness_EngineDoesNotSteerCommands :
    exec .hopStep ready = .next (after .hopStep ready) ∧
    exec .hopStep (ready.withEng (failed ready).eng) =
      .next (after .hopStep (ready.withEng (failed ready).eng)) :=
  ⟨exec_after _ _, exec_after _ _⟩

theorem witness_SoftResetKeepsTablesAndMemory :
    (1#32).getLsbD 0 = true ∧
    (let s := writing (failed ready) .ctrl 1
     s.eng.running = none ∧ s.inbox = [{ access := regWriteOf .ctrl 1, during := none }]) ∧
    (let s := interrupted 0x41 .ctrl 1
     s.eng.running = some { word := 0x41, progress := 0 } ∧
       s.inbox = [{ access := regWriteOf .ctrl 1, during := some 0 }]) := by
  refine ⟨by decide, ⟨rfl, rfl⟩, rfl, rfl⟩

theorem witness_RegisterWriteThenRead :
    (let s := writing ready (.huffLenLo .luma) 0xFFFFFFFF
     s.eng.running = none ∧ (Reg.huffLenLo .luma).stores = true ∧
       s.inbox = [{ access := regWriteOf (.huffLenLo .luma) 0xFFFFFFFF, during := none }]) ∧
    (let s := writing ready .status 0xFFFFFFFF
     s.eng.running = none ∧ Reg.status.access = .readOnly ∧
       s.inbox = [{ access := regWriteOf .status 0xFFFFFFFF, during := none }]) ∧
    (let s := writing ready .ctrl 0xFFFFFFFE
     s.eng.running = none ∧ (0xFFFFFFFE#32).getLsbD 0 = false ∧
       s.inbox = [{ access := regWriteOf .ctrl 0xFFFFFFFE, during := none }]) ∧
    (let s := interrupted 0x41 .ctrl 0xFFFFFFFE
     s.eng.running = some { word := 0x41, progress := 0 } ∧
       s.inbox = [{ access := regWriteOf .ctrl 0xFFFFFFFE, during := some 0 }]) := by
  refine ⟨⟨rfl, by decide, rfl⟩, ⟨rfl, rfl, rfl⟩, ⟨rfl, by decide, rfl⟩, rfl, rfl⟩

theorem witness_ResetColumnOfTheMap :
    (let s := (failed ready).withInbox [{ access := .hardReset, during := none }]
     s.eng.running = none ∧ s.inbox = [{ access := .hardReset, during := none }]) ∧
    (let s := during 0x41 .hardReset ready
     s.eng.running = some { word := 0x41, progress := 0 } ∧
       s.inbox = [{ access := .hardReset, during := some 0 }]) := ⟨⟨rfl, rfl⟩, rfl, rfl⟩

/-- Vectors X8 and X9: 0x108 is in the window and not in the map; 0x1FC is the window's last word. -/
theorem witness_BusErrorsAndUnmappedOffsets :
    ready.eng.running = none ∧ (16 ≠ 32 ∨ (0#9).toNat % 4 ≠ 0) ∧ (32 ≠ 32 ∨ (2#9).toNat % 4 ≠ 0) ∧
    (0x108#9).toNat % 4 = 0 ∧ (∀ r : Reg, r.offset ≠ (0x108#9).toNat) ∧
    (0x1FC#9).toNat % 4 = 0 ∧ (∀ r : Reg, r.offset ≠ (0x1FC#9).toNat) ∧
    (ready.withInbox [{ access := .regRead 32 0x108, during := none }]).inbox =
      [{ access := .regRead 32 0x108, during := none }] ∧
    (ready.withInbox [{ access := .regRead 32 (BitVec.ofNat 9 Reg.ratio.offset), during := none }]).inbox
      = [{ access := .regRead 32 (BitVec.ofNat 9 Reg.ratio.offset), during := none }] ∧
    (let s := during 0x00004024 (readOf (.huffCount .luma 4)) ready
     let s' := (s.withInbox []).advance { word := 0x00004024, progress := 0 } 0
     s.eng.running = some { word := 0x00004024, progress := 0 } ∧
       s.inbox = [{ access := .regRead 32 (BitVec.ofNat 9 (Reg.huffCount .luma 4).offset),
                    during := some 0 }] ∧
       (∃ a ∈ (wordBody 0x00004024).acts s', Reg.huffCount .luma 4 ∈ a.regs) ∧
       (∀ a ∈ (wordBody 0x00004024).acts s', Reg.huffCount .luma 5 ∉ a.regs)) ∧
    (let s := during 0x41 (.regRead 16 0x108) ready
     s.eng.running = some { word := 0x41, progress := 0 } ∧
       s.inbox = [{ access := .regRead 16 0x108, during := some 0 }]) := by
  have unmapped : ∀ n, Reg.ofOffset n = none → ∀ r : Reg, r.offset ≠ n := fun n h r hr => by
    rw [← hr, Reg.ofOffset_offset] at h
    cases h
  exact ⟨rfl, by decide, by decide, by decide, unmapped _ rfl, by decide, unmapped _ rfl, rfl, rfl,
    ⟨rfl, rfl, by decide +kernel, by decide +kernel⟩, rfl, rfl⟩

theorem witness_IrqFollowsRegistersAndIsWriteOneToClear :
    (let s := writing (failed ready) .irqStatus 3
     s.eng.running = none ∧ s.inbox = [{ access := regWriteOf .irqStatus 3, during := none }]) ∧
    (interrupted 0x41 .irqStatus 3).inbox =
      [{ access := regWriteOf .irqStatus 3, during := some 0 }] := ⟨⟨rfl, rfl⟩, rfl⟩

theorem witness_EveryCommandEndsAndRecordsItsError :
    (commandBody .nop).out ready = .ok () ready ∧
    (commandBody .hopStep).out ready = .raised .sequence ready ∧ ready.quiet ∧
    (commandBody .hopStep).out (failed ready) = .raised .sequence (failed ready) ∧
    ¬ (failed ready).quiet := ⟨rfl, rfl, rfl, rfl, by decide⟩

theorem witness_ChecksComeFirst :
    Plane.ofField 2 = some .chromaB ∧ fresh.tablesValid = false ∧ ready.scan.active = false ∧
    (ready.table .chroma).valid = false ∧ (ready.table Plane.chromaB.tbl).valid = false ∧
    ready.frameFails .malformedHeader ∧ ready.regionFails .chromaB .malformedHeader ∧
    (scene 0 1 []).regionFails .chromaB .config ∧ (scene 5 3 []).regionFails .chromaB .config ∧
    ready.tablesValid = true ∧ ((coded h1 0 0 []).table Plane.chromaB.tbl).valid = true ∧
    (coded h1 0 0 []).regionFails .chromaB .malformedHeader := by
  have malformed : ∀ s : State, s.cfg.width = 0 → s.frameFails .malformedHeader :=
    fun s h => .inl ⟨fun hd => hd.2.1 h, rfl⟩
  exact ⟨rfl, rfl, rfl, rfl, rfl, malformed _ rfl, .inl (malformed _ rfl),
    .inr ⟨by decide +kernel, rfl, by decide +kernel⟩, .inr ⟨by decide +kernel, rfl, by decide +kernel⟩,
    rfl, rfl, .inl (malformed _ rfl)⟩

theorem witness_HostMemoryAccessesAndRaces :
    (let s := ready.withInbox [{ access := .memWrite 0 7, during := none }]
     s.eng.running = none ∧ s.inbox = [{ access := .memWrite 0 7, during := none }]) ∧
    (let s := raced 0x51
     let r : Running := { word := 0x12, progress := 0 }
     s.eng.running = some r ∧ s.inbox = [{ access := .memWrite 0x51 7, during := some 0 }] ∧
       contended r ((s.withInbox []).advance r 0) 0x51 = false) ∧
    (let s := raced 0x50
     let r : Running := { word := 0x12, progress := 0 }
     s.eng.running = some r ∧ s.inbox = [{ access := .memWrite 0x50 7, during := some 0 }] ∧
       contended r ((s.withInbox []).advance r 0) 0x50 = true) := by decide +kernel

theorem ready_inv : ready.Inv where
  memory := Memory.wf_reset
  maxPixels := by decide
  workers := by decide
  tables _ := rfl
  step _ := by decide
  huffman _ t := by cases t <;> decide
  races _ := rfl

theorem witness_StepKeepsMachineInvariant : ready.Inv ∧ step ready = .next (stepped ready) :=
  ⟨ready_inv, rfl⟩

theorem witness_NonStoringCommandsKeepMemory :
    (Instr.huffDecSym .luma).storesNothing = true ∧
    exec (.huffDecSym .luma) ready = .next (after (.huffDecSym .luma) ready) :=
  ⟨by decide, exec_after _ _⟩

/-- Eighteen bits of a header, then the limit. -/
theorem witness_StreamWritersStoreOnlyTheirBits :
    let s := coded h1 0 18 []
    (Instr.huffWriteHdr .luma).storesStream = true ∧
    exec (.huffWriteHdr .luma) s = .next (after (.huffWriteHdr .luma) s) ∧
    s.writer.pos.toNat ≤ s.writer.limit.toNat ∧
    ¬ inStream s.writer.base s.writer.pos.toNat
      ((after (.huffWriteHdr .luma) s).writer.pos.toNat - s.writer.pos.toNat) 0x83 ∧
    inStream s.writer.base s.writer.pos.toNat
      ((after (.huffWriteHdr .luma) s).writer.pos.toNat - s.writer.pos.toNat) 0x82 := by
  refine ⟨by decide, exec_after _ _, by decide, by decide +kernel, by decide +kernel⟩

/-! A region of two pixels. -/

theorem in_pair {s : State} (h : s.region = ⟨0, 0, 2, 1⟩) {x y : Nat} (hr : s.inRegion x y) :
    (x = 0 ∨ x = 1) ∧ y = 0 := by
  simp [State.inRegion, h] at hr
  omega

theorem forall_pair {s : State} (h : s.region = ⟨0, 0, 2, 1⟩) {P : Nat → Nat → Prop} (h0 : P 0 0)
    (h1 : P 1 0) : ∀ x y, s.inRegion x y → P x y := by
  intro x y hr
  obtain ⟨rfl | rfl, rfl⟩ := in_pair h hr
  · exact h0
  · exact h1

theorem distinct_pair {s : State} (h : s.region = ⟨0, 0, 2, 1⟩) {f : Nat → Nat → Word}
    (hf : f 0 0 ≠ f 1 0) : s.distinctOn f := by
  intro x y x' y' hr hr' he
  obtain ⟨rfl | rfl, rfl⟩ := in_pair h hr <;> obtain ⟨rfl | rfl, rfl⟩ := in_pair h hr' <;> simp_all

theorem apart_pair {s : State} (h : s.region = ⟨0, 0, 2, 1⟩) {f g : Nat → Nat → Word}
    (hf : f 0 0 ≠ g 0 0 ∧ f 0 0 ≠ g 1 0 ∧ f 1 0 ≠ g 0 0 ∧ f 1 0 ≠ g 1 0) : s.apartOn f g := by
  intro x y x' y' hr hr'
  obtain ⟨rfl | rfl, rfl⟩ := in_pair h hr <;> obtain ⟨rfl | rfl, rfl⟩ := in_pair h hr' <;> simp_all

/-- Two pixels of luma: originals 100 and 104, hops 4 and 8, seed slot 100. -/
def pair : State := scene 2 1 (bytes 0x50 [100] ++ bytes 0x100 [100, 104] ++ bytes 0x300 [4, 8])

theorem pair_safe : pair.originalsSafe .luma where
  dst := by
    intro x y x' y' hr hr' he
    obtain ⟨rfl | rfl, rfl⟩ := in_pair (s := pair) rfl hr <;>
      obtain ⟨rfl | rfl, rfl⟩ := in_pair (s := pair) rfl hr' <;>
      first | exact ⟨rfl, rfl⟩ | exact absurd he (by decide)
  hop := apart_pair rfl (by decide)
  seed := forall_pair rfl (by decide) (by decide)

theorem witness_BufferWritersStoreOnlyTheirBytes :
    Plane.ofField 0 = some .luma ∧
    (∀ i ∈ [Instr.seedsRead, .meshRead, .hopBeginEnc 0, .hopStep, .hopDecRegion 0, .hopEncRegion 0,
      .huffDecRegion 0], exec i pair = .next (after i pair)) ∧
    (∀ i, i < pair.cfg.seedCount → 0 ≠ (pair.seedSlot i).toNat) ∧
    (∀ k, k < pair.cfg.cornerCount → 0 ≠ (pair.meshByteAddr k).toNat) ∧
    0 ≠ pair.seedAddr.toNat ∧
    0 ≠ (pair.dstAddr pair.scan.plane pair.cursorX pair.cursorY).toNat ∧
    0 ≠ (pair.hopAddr pair.scan.plane pair.cursorX pair.cursorY).toNat ∧
    (∀ x y, pair.inRegion x y → 0 ≠ (pair.dstAddr .luma x y).toNat ∧
      0 ≠ (pair.hopAddr .luma x y).toNat) := by
  refine ⟨rfl, fun i _ => exec_after i _, by decide +kernel, by decide +kernel, by decide, by decide,
    by decide, forall_pair rfl (by decide) (by decide)⟩

/-! Bit streams and tables. -/

/-- Exactly the five bits that are left. -/
theorem witness_WrittenBitsReadBack :
    let s := coded h1 3 5 []
    let r : BitReader := { base := 0x80, budget := 3, pos := 0 }
    5 < 2 ^ 3 ∧ s.calm ∧ s.canWrite (3 + 2) ∧ r.base = s.writer.base ∧ r.pos = s.writer.pos ∧
      s.writer.pos.toNat + 3 ≤ r.budget.toNat := by decide +kernel

/-- One bit short of a header; and a position past the budget. -/
theorem witness_TruncatedHeaderWritesNoRegister :
    (let s := coded h1 87 0 []
     s.reader.budget.toNat < s.reader.pos.toNat + 88) ∧
    (let s := (coded h1 9 0 []).withReader { base := 0x40, budget := 9, pos := 9 }
     s.reader.budget.toNat < s.reader.pos.toNat + 88) := by decide +kernel

theorem witness_LutReadsReturnTableEntries :
    ready.tablesReady ∧
    (ready.writeReg .lutArgs 0x01140800).lut.inDomain = true ∧
    (ready.writeReg .lutArgs 0x132808FF).lut.inDomain = true ∧
    (ready.writeReg .lutArgs 0x132808FF).lut.x.toNat = (8 : Hop).val ∧
    (ready.writeReg .lutArgs 0x01140900).lut.inDomain = true ∧
    8 < (ready.writeReg .lutArgs 0x01140900).lut.x.toNat ∧
    (ready.writeReg .lutArgs 0x01130800).lut.inDomain = false ∧
    (ready.writeReg .lutArgs 0x01290800).lut.inDomain = false ∧
    (ready.writeReg .lutArgs 0x00140800).lut.inDomain = false ∧
    (ready.writeReg .lutArgs 0x14140800).lut.inDomain = false ∧
    (ready.writeReg .lutArgs 0x132808FF).tablesReady := by decide +kernel

theorem witness_MagnitudeIsFloorOfRealFormula :
    (20 ≤ 20 ∧ 20 ≤ 40 ∧ 1 ≤ 1 ∧ 1 ≤ 19 ∧ 0 ≤ 3) ∧ (20 ≤ 40 ∧ 40 ≤ 40 ∧ 1 ≤ 19 ∧ 19 ≤ 19 ∧ 3 ≤ 3) := by
  decide +kernel

theorem witness_RecIsMonotoneInHop :
    255 < 256 ∧ 20 ≤ 40 ∧ 40 ≤ 40 ∧ 1 ≤ 19 ∧ 19 ≤ 19 ∧ (0 : Hop) ≤ 8 := by decide +kernel

theorem witness_BestIsTheUniqueMinimiser :
    100 < 256 ∧ 105 < 256 ∧ 20 ≤ 25 ∧ 25 ≤ 40 ∧ 1 ≤ 10 ∧ 10 ≤ 19 ∧
      (5 : Hop) ≠ bestHop 25 10 105 100 := by decide +kernel

theorem witness_AdaptFollowsTheRule :
    (4 ≤ 4 ∧ 4 ≤ 10) ∧ (4 ≤ 10 ∧ 10 ≤ 10) ∧ (adapt 4 true 4).2 = true ∧ (adapt 10 true 8).2 = false := by
  decide +kernel

/-! Predictor. -/

theorem witness_HopBeginStartsTheScan :
    Plane.ofField 0 = some .luma ∧ pair.tablesValid = true ∧ pair.regionOk .luma ∧
    Plane.ofField 2 = some .chromaB ∧ pair.regionOk .chromaB := by decide +kernel

/-- The scan stands at pixel `x` of `pair`. -/
def scanning (x : Word) (d : Dir) : State :=
  pair.withScan
    { x := x, y := 0, step := 7, lastSmall := false, active := true, dir := d, plane := .luma }

theorem scanning_ready (d : Dir) : (scanning 0 d).stepReady ∧ (scanning 1 d).stepReady := by
  cases d <;> constructor <;> exact ⟨rfl, ⟨rfl, rfl⟩, by decide +kernel, by decide +kernel, by decide +kernel⟩

theorem witness_CommandsWriteOnlyTheirRegisters :
    exec .hopStep ready = .next (after .hopStep ready) ∧
    (∀ a ∈ (commandBody .hopStep).acts (scanning 0 .decode), Reg.brPos ∉ a.regs) ∧
    (∃ a ∈ (commandBody .hopStep).acts (scanning 0 .decode), Reg.lastPix ∈ a.regs) ∧
    exec .hopStep (scanning 0 .decode) = .next (after .hopStep (scanning 0 .decode)) ∧
    Instr.hopStep ≠ .buildTables ∧ Instr.hopStep.writesValid .luma = false ∧
    Instr.nop.writesScan = false := ⟨exec_after _ _, by decide +kernel, by decide +kernel, exec_after _ _,
    by decide, by decide, by decide⟩

/-- The first and the last pixel of the region. -/
theorem witness_HopStepDecodesOnePixel :
    (scanning 0 .decode).stepReady ∧ (scanning 0 .decode).scan.dir = .decode ∧
    ((scanning 0 .decode).byteAt ((scanning 0 .decode).hopAddr .luma 0 0)).toNat = (4 : Hop).val ∧
    (scanning 1 .decode).stepReady ∧ (scanning 1 .decode).scan.dir = .decode ∧
    ((scanning 1 .decode).byteAt ((scanning 1 .decode).hopAddr .luma 1 0)).toNat = (8 : Hop).val :=
  ⟨(scanning_ready _).1, rfl, rfl, (scanning_ready _).2, rfl, rfl⟩

theorem witness_HopStepEncodesOnePixel :
    (scanning 0 .encode).stepReady ∧ (scanning 0 .encode).scan.dir = .encode ∧
    (scanning 1 .encode).stepReady ∧ (scanning 1 .encode).scan.dir = .encode :=
  ⟨(scanning_ready _).1, rfl, (scanning_ready _).2, rfl⟩

/-- An empty region; a cursor at the region's width; a hop byte of 9. -/
theorem witness_HopStepErrorsWriteNothing :
    (let s := (scanning 0 .decode).withRegion ⟨0, 0, 0, 1⟩
     s.scan.active = true ∧ s.tablesValid = true ∧ s.regionFails s.scan.plane .config) ∧
    (let s := scanning 2 .decode
     s.scan.active = true ∧ s.tablesValid = true ∧ s.regionOk s.scan.plane ∧
       s.region.w.toNat ≤ s.scan.x.toNat) ∧
    (let s := (scanning 0 .decode).storeByte 0x300 9
     s.stepReady ∧ s.scan.dir = .decode ∧
       8 < (s.byteAt (s.hopAddr s.scan.plane s.cursorX s.cursorY)).toNat) := by
  refine ⟨⟨rfl, rfl, .inr ⟨by decide +kernel, rfl, .inl rfl⟩⟩,
    ⟨rfl, rfl, by decide +kernel, by decide +kernel⟩, ⟨rfl, ⟨rfl, rfl⟩, by decide +kernel, by decide +kernel, by decide +kernel⟩, rfl, by decide +kernel⟩

theorem witness_HopDecRegionCompletes :
    Plane.ofField 0 = some .luma ∧ pair.calm ∧ pair.tablesReady ∧ pair.regionOk .luma ∧
    (∀ x y, pair.inRegion x y →
      (pair.byteAt (pair.hopAddr .luma x y)).toNat = (if x = 0 then (4 : Hop) else 8).val) ∧
    pair.distinctOn (pair.dstAddr .luma) ∧ pair.apartOn (pair.dstAddr .luma) (pair.hopAddr .luma) :=
  ⟨rfl, rfl, ⟨rfl, rfl⟩, by decide +kernel, forall_pair rfl (by decide +kernel) (by decide +kernel), distinct_pair rfl (by decide +kernel),
    apart_pair rfl (by decide +kernel)⟩

theorem witness_HopEncRegionCompletes :
    Plane.ofField 0 = some .luma ∧ pair.calm ∧ pair.tablesReady ∧ pair.regionOk .luma ∧
    pair.distinctOn (pair.dstAddr .luma) ∧ pair.distinctOn (pair.hopAddr .luma) ∧
    pair.apartOn (pair.dstAddr .luma) (pair.hopAddr .luma) ∧ pair.originalsSafe .luma ∧
    (∀ x y, pair.inRegion x y →
      pair.dstAddr .luma x y ≠ pair.seedAddr ∧ pair.hopAddr .luma x y ≠ pair.seedAddr) :=
  ⟨rfl, rfl, ⟨rfl, rfl⟩, by decide +kernel, distinct_pair rfl (by decide +kernel), distinct_pair rfl (by decide +kernel),
    apart_pair rfl (by decide +kernel), pair_safe, forall_pair rfl (by decide +kernel) (by decide +kernel)⟩

theorem pair_encoded :
    let t := after (.hopEncRegion 0) pair
    t.calm ∧ t.tablesReady ∧ t.regionOk .luma ∧ t.region = pair.region ∧ t.cfg.ratio = pair.cfg.ratio ∧
    t.ctrl.interiorVariant = pair.ctrl.interiorVariant ∧ t.bufs = pair.bufs ∧
    t.seeds.seedBase + t.seeds.seedIndex = pair.seeds.seedBase + pair.seeds.seedIndex := by
  decide +kernel

/-- The encoder's own state after the scan, which decodes its hops over its reconstruction. -/
theorem witness_DecodeReproducesTheEncoder : ∃ t : State,
    pair.calm ∧ pair.tablesReady ∧ pair.regionOk .luma ∧ pair.originalsSafe .luma ∧
    exec (.hopEncRegion 0) pair = .next t ∧
    t.calm ∧ t.tablesReady ∧ t.regionOk .luma ∧ t.region = pair.region ∧ t.cfg.ratio = pair.cfg.ratio ∧
    t.ctrl.interiorVariant = pair.ctrl.interiorVariant ∧
    t.distinctOn (t.dstAddr .luma) ∧ t.apartOn (t.dstAddr .luma) (t.hopAddr .luma) ∧
    t.byteAt t.seedAddr = t.byteAt pair.seedAddr ∧
    (∀ x y, pair.inRegion x y → t.byteAt (t.hopAddr .luma x y) = t.byteAt (pair.hopAddr .luma x y)) := by
  refine ⟨after (.hopEncRegion 0) pair, ?_⟩
  have h := exec_after (.hopEncRegion 0) pair
  have f := pair_encoded
  generalize after (.hopEncRegion 0) pair = t at h f
  obtain ⟨f0, f1, f2, f3, f4, f5, f6, f7⟩ := f
  have dst : t.dstAddr .luma = pair.dstAddr .luma := by
    simp only [funext_iff, State.dstAddr, State.buf, f6, implies_true]
  have hop : t.hopAddr .luma = pair.hopAddr .luma := by
    simp only [funext_iff, State.hopAddr, State.buf, f6, implies_true]
  refine ⟨rfl, ⟨rfl, rfl⟩, by decide +kernel, pair_safe, h, f0, f1, f2, f3, f4, f5, ?_, ?_, ?_, ?_⟩
  · rw [dst]
    exact distinct_pair f3 (by decide)
  · rw [dst, hop]
    exact apart_pair f3 (by decide)
  · rw [State.seedAddr, f7]
    rfl
  · intro x y _
    rw [hop]

/-! Geometry and mesh. -/

/-- The frame of the partition of 95_test_vectors L2.4. -/
def parted : State := framed 0 10 7 3 2 2 2 0

/-- The frame of vectors M1 to M9 with the given mesh bytes. -/
def meshed (m : List Byte) : State :=
  { framed 2 32 32 2 2 2 2 256 with
    plat := { maxPixels := 1024, nWorkers := 1, hdrOrder := .chromaFirst }
    seeds := { seedBase := 0x50, meshBase := 0x60, seedIndex := 0, seed := 0 }
    mem := bytes 0x60 m }

/-- RATIO at both ends of its range, CF at its greatest value, one past each, and vector G7; then one
state for each check of 44_frame R402, in its order, that the checks before it let through. -/
theorem witness_CheckConfigAcceptsExactlyLegalFrames :
    parted.frameOk ∧ (meshed []).frameOk ∧
    (parted.withCfg { parted.cfg with ratio := 20 }).frameOk ∧
    (parted.withCfg { parted.cfg with ratio := 40 }).frameOk ∧
    ¬ (parted.withCfg { parted.cfg with ratio := 19 }).frameOk ∧
    ¬ (parted.withCfg { parted.cfg with ratio := 41 }).frameOk ∧
    ¬ (parted.withCfg { parted.cfg with cf := 257 }).frameOk ∧
    ¬ (framed 0 10 7 4 1 2 1 0).frameOk ∧
    (framed 3 10 7 1 1 1 1 0).frameFails .malformedHeader ∧
    (framed 0 10 7 1 1 3 1 0).frameFails .config ∧
    (framed 0 65536 65536 1 1 1 1 0).frameFails .malformedHeader ∧
    (framed 0 101 1 1 1 1 1 0).frameFails .alloc ∧
    (framed 0 10 7 4 1 2 1 0).frameFails .malformedHeader ∧
    (framed 0 10 7 1 1 1 1 257).frameFails .config := by
  refine ⟨by decide +kernel, by decide +kernel, by decide +kernel, by decide +kernel, by decide +kernel,
    by decide +kernel, by decide +kernel, by decide +kernel, .inl ⟨by decide, rfl⟩,
    .inr (.inl ⟨by decide, by decide, rfl⟩), .inr (.inr (.inl ⟨by decide, by decide, by decide, rfl⟩)),
    .inr (.inr (.inr (.inl ⟨by decide, by decide, by decide, by decide, rfl⟩))),
    .inr (.inr (.inr (.inr (.inl ⟨by decide, by decide, by decide, by decide, ?_, rfl⟩)))),
    .inr (.inr (.inr (.inr (.inr ⟨by decide, by decide, by decide, by decide, ?_, by decide, rfl⟩))))⟩
  · exact fun h => absurd (h.1 .chromaA 3 (by decide)) (by decide)
  · constructor <;> intro p k hk <;> cases p <;>
      obtain rfl : k = 0 := by simpa [framed] using hk
    all_goals decide

theorem witness_PlaneGeomCoversThePlane :
    Plane.ofField 1 = some .chromaA ∧ parted.frameOk := by decide +kernel

/-- The last block of the grid; legal corners; vector M9's corner code 6; one block past the grid. -/
theorem witness_BlockGeomStoresTheBlock :
    Plane.ofField 0 = some .luma ∧ parted.frameOk ∧
    ((2#8).toNat < parted.cfg.gridW.toNat ∧ (1#8).toNat < parted.cfg.gridH.toNat) ∧
    parted.cornersOk 2 1 ∧ ¬ (3#8).toNat < parted.cfg.gridW.toNat ∧
    (let s := meshed [0x25, 0x20, 0, 0x22, 0x23]
     s.frameOk ∧ s.cfg.mode = 2 ∧ s.cornersOk 0 0) ∧
    (let s := meshed [0x06, 0, 0, 0, 0]
     s.frameOk ∧ (0#8).toNat < s.cfg.gridW.toNat ∧ (0#8).toNat < s.cfg.gridH.toNat ∧
       ¬ s.cornersOk 0 0) := by decide +kernel

theorem witness_BlocksTileThePlane :
    parted.frameOk ∧ 9 < parted.cfg.planeW .luma ∧ 6 < parted.cfg.planeH .luma := by decide +kernel

/-- A side of 1, the greatest CF, and the levels 0 and 1. -/
theorem witness_DownsampledSidesFollowTheRationalFormula :
    1 ≤ 1 ∧ 256 ≤ 256 ∧ Corners.legal { tl := 0x00, tr := 0x2D, bl := 0x05, br := 0x28 } ∧ 5 ≤ 5 := by
  decide

theorem witness_DownsampledSideStaysInBounds :
    meshX 0x2D = 5 ∧ meshY 0x2D = 5 := by decide

/-- Vector M11, with exactly 36 bits left on either side. -/
theorem witness_MeshCommandsMoveTheMeshArray :
    let s : State := { framed 2 8 4 2 1 2 2 256 with
      seeds := { seedBase := 0x50, meshBase := 0x60, seedIndex := 0, seed := 0 }
      reader := { base := 0x40, budget := 36, pos := 0 }
      writer := { base := 0x80, limit := 36, pos := 0 }
      mem := bytes 0x40 [0b10110110, 0b11010000, 0b00101101, 0b10110100, 0b00000000] ++
        bytes 0x60 [0x2D, 0x2D, 0, 0x2D, 0x2D, 0] }
    s.calm ∧ s.frameOk ∧ s.cfg.cornerCount = 6 ∧ s.canRead (6 * 6) ∧
    (∀ k, k < 6 → s.inputField (6 * k) 3 ≤ 5 ∧ s.inputField (6 * k + 3) 3 ≤ 5) ∧
    (∀ k, k < 6 →
      ¬ inStream s.reader.base s.reader.pos.toNat (6 * 6) (s.meshByteAddr k).toNat) ∧
    s.canWrite (6 * 6) ∧
    (∀ k, k < 6 → meshLegal (s.byteAt (s.meshByteAddr k)) = true) ∧
    (∀ k, k < 6 →
      ¬ inStream s.writer.base s.writer.pos.toNat (6 * 6) (s.meshByteAddr k).toNat) := by
  decide +kernel

/-! Huffman tables and symbols. -/

/-- Vectors H1 and H2 (valid), H7 to H9 (invalid). -/
theorem witness_HuffBuildValidatesAndAssigns :
    (∀ l ∈ [h1, [14, 14, 14, 14, 14, 14, 14, 14, 14]],
      lensValid ((fresh.withTable .luma (built l)).table .luma).len = true) ∧
    (∀ l ∈ [[1, 1, 1, 1, 1, 1, 1, 1, 1], [], [0, 15, 15, 15, 1]],
      lensValid ((fresh.withTable .luma (built l)).table .luma).len = false) := by decide +kernel

theorem witness_CanonicalCodesArePrefixFree :
    lensValid (nine 15 h1) = true ∧ liveLen ((nine 15 h1).get 0) = true ∧
    liveLen ((nine 15 h1).get 4) = true ∧ (4 : Hop) ≠ 0 ∧
    ((nine 15 h1).get 4).toNat ≤ ((nine 15 h1).get 0).toNat := by decide +kernel

/-- Vectors H27 and L1.9, with exactly 36 bits left. -/
theorem witness_HuffHeadersCarryTheLengths :
    (let s := coded h1 36 36 [0x55, 0x43, 0x13, 0x45, 0x50]
     s.canRead 36 ∧
       lensValid (Nine.ofFn fun i => BitVec.ofNat 4 (s.inputField (4 * i.val) 4)) = true ∧
       (s.table .luma).valid = true ∧ s.calm ∧ s.canWrite 36) ∧
    (let s := coded h1 36 36 [0x11, 0x11, 0x11, 0x11, 0x10]
     s.canRead 36 ∧
       lensValid (Nine.ofFn fun i => BitVec.ofNat 4 (s.inputField (4 * i.val) 4)) = false) := by
  decide +kernel

theorem witness_CountCommandsChangeOnlyCounts :
    (8#4).toNat = (8 : Hop).val ∧ 8 < (9#4).toNat := by decide

theorem witness_CountRegionCountsEveryPixel :
    Plane.ofField 0 = some .luma ∧ pair.regionOk .luma ∧
    (∀ x y, pair.inRegion x y → (pair.byteAt (pair.hopAddr .luma x y)).toNat ≤ 8) :=
  ⟨rfl, by decide +kernel, forall_pair rfl (by decide +kernel) (by decide +kernel)⟩

/-- One symbol, two symbols, no symbol. -/
theorem witness_FromCountsBuildsAValidTable :
    (nine (0 : Word) [0, 0, 0, 0, 7]).get 4 ≠ 0 ∧
    2 ≤ (usedHops (nine (0 : Word) [0, 0, 0, 5, 5])).length ∧
    liveLen ((huffLengths (nine (0 : Word) [0, 0, 0, 5, 5])).get 3) = true ∧
    (∀ h, (nine (0 : Word) []).get h = 0) := by decide +kernel

/-- Vector H19, with exactly three bits left, and vector H24's table and stream. -/
theorem witness_DecSymReadsTheCodeInTheStream :
    (let s := coded h1 3 0 [0b10000000]
     (s.table .luma).ready ∧ liveLen ((s.table .luma).len.get 5) = true ∧
       s.canRead ((s.table .luma).len.get 5).toNat ∧
       s.inputField 0 ((s.table .luma).len.get 5).toNat = ((s.table .luma).code.get 5).toNat) ∧
    (let s := coded [15, 15, 15, 15, 1, 2, 15, 15, 15] 2 0 [0b11000000]
     (s.table .luma).ready ∧ s.canRead (maxLen (s.table .luma).len) ∧
       ∀ h, liveLen ((s.table .luma).len.get h) = true →
         s.inputField 0 ((s.table .luma).len.get h).toNat ≠ ((s.table .luma).code.get h).toNat) := by
  decide +kernel

/-- Vectors H20 (exactly five bits left), H22 and H23. -/
theorem witness_EncSymAppendsTheCode :
    (let s := coded h1 0 5 []
     (s.table .luma).valid = true ∧ (8#4).toNat = (8 : Hop).val ∧
       liveLen ((s.table .luma).len.get 8) = true ∧ s.calm ∧ s.canWrite ((s.table .luma).len.get 8).toNat) ∧
    (let s := coded h3 0 5 []
     (s.table .luma).valid = true ∧ (0#4).toNat = (0 : Hop).val ∧
       liveLen ((s.table .luma).len.get 0) = false) ∧
    8 < (9#4).toNat := by decide +kernel

/-- A region of two pixels with the codes of 4 and 5 in the stream at 0x40, both bits that are left,
and the hops 4 and 5 in the hop buffer. -/
def symbols : State :=
  { scene 2 1 (bytes 0x40 [0b01000000] ++ bytes 0x300 [4, 5]) with
    huff := { luma := built h3, chroma := HuffTable.reset }
    reader := { base := 0x40, budget := 2, pos := 0 }
    writer := { base := 0x80, limit := 2, pos := 0 } }

theorem witness_DecRegionStoresTheHopsInTheStream :
    Plane.ofField 0 = some .luma ∧ symbols.calm ∧ (symbols.table Plane.luma.tbl).ready ∧ symbols.regionOk .luma ∧
    [(4 : Hop), 5].length = symbols.region.pixels.length ∧
    codesAt symbols.mem symbols.reader.base (symbols.table Plane.luma.tbl)
      symbols.reader.pos.toNat [4, 5] ∧
    symbols.canRead (codeBits (symbols.table Plane.luma.tbl) [4, 5]) ∧
    symbols.distinctOn (symbols.hopAddr .luma) ∧
    (∀ x y, symbols.inRegion x y → ¬ inStream symbols.reader.base symbols.reader.pos.toNat
      (codeBits (symbols.table Plane.luma.tbl) [4, 5]) (symbols.hopAddr .luma x y).toNat) := by
  refine ⟨rfl, rfl, by decide +kernel, by decide +kernel, by decide +kernel, ?_, by decide +kernel,
    distinct_pair rfl (by decide +kernel), forall_pair rfl (by decide +kernel) (by decide +kernel)⟩
  unfold codesAt codesAt codesAt
  decide +kernel

theorem witness_EncRegionAppendsTheCodes :
    Plane.ofField 0 = some .luma ∧ symbols.calm ∧ (symbols.table Plane.luma.tbl).valid = true ∧
    symbols.regionOk .luma ∧
    [(4 : Hop), 5].map Fin.val = symbols.region.pixels.map
      (fun (q : Nat × Nat) => (symbols.byteAt (symbols.hopAddr .luma q.1 q.2)).toNat) ∧
    (∀ h ∈ [(4 : Hop), 5], liveLen ((symbols.table Plane.luma.tbl).len.get h) = true) ∧
    symbols.canWrite (codeBits (symbols.table Plane.luma.tbl) [4, 5]) ∧
    (∀ x y, symbols.inRegion x y → ¬ inStream symbols.writer.base symbols.writer.pos.toNat
      (codeBits (symbols.table Plane.luma.tbl) [4, 5]) (symbols.hopAddr .luma x y).toNat) := by
  refine ⟨rfl, rfl, by decide +kernel, by decide +kernel, by decide +kernel, by decide +kernel,
    by decide +kernel, forall_pair rfl (by decide +kernel) (by decide +kernel)⟩

/-! Header, seeds and frames. -/

/-- Vectors B7 with exactly its six bits left, and B8; on a byte boundary, no bit at all. -/
theorem witness_NopAndFlush :
    (let s : State := { fresh with writer := { base := 0x80, limit := 32, pos := 26 } }
     (8 - s.writer.pos.toNat % 8) % 8 = 6 ∧ s.calm ∧ s.canWrite 6) ∧
    (let s : State := { fresh with writer := { base := 0x80, limit := 31, pos := 26 } }
     (8 - s.writer.pos.toNat % 8) % 8 = 6 ∧ ¬ s.canWrite 6) ∧
    (let s : State := { fresh with writer := { base := 0x80, limit := 32, pos := 32 } }
     (8 - s.writer.pos.toNat % 8) % 8 = 0 ∧ s.calm ∧ s.canWrite 0) := by decide +kernel

/-- Vectors B4, F4 and F1, with exactly 88 bits left. -/
theorem witness_HeaderCommandsMoveTheHeader :
    (coded h1 88 0 [0, 4, 0, 0, 0, 2, 0, 0, 0, 1, 1]).canRead 88 ∧
    (after .hdrRead (coded h1 88 0 [0, 4, 0, 0, 0, 2, 0, 0, 0, 1, 1])).frameOk ∧
    (coded h1 88 0 [3, 4, 0, 0, 0, 2, 0, 0, 0, 1, 1]).canRead 88 ∧
    (after .hdrRead (coded h1 88 0 [3, 4, 0, 0, 0, 2, 0, 0, 0, 1, 1])).frameFails .malformedHeader ∧
    (let s : State := { framed 2 8 4 2 1 1 1 0 with writer := { base := 0x80, limit := 88, pos := 0 } }
     s.calm ∧ s.frameOk ∧ s.canWrite 88) :=
  ⟨by decide +kernel, by decide +kernel, by decide +kernel, .inl ⟨by decide +kernel, rfl⟩,
    by decide +kernel⟩

/-- Vectors F2 and F3, with exactly the bits of the seeds left. -/
theorem witness_SeedCommandsMoveTheSeedArray :
    let s : State := { scene 4 3 (bytes 0x40 [0x64, 0x80, 0x78] ++ bytes 0x50 [1, 2, 3]) with
      reader := { base := 0x40, budget := 24, pos := 0 }
      writer := { base := 0x80, limit := 24, pos := 0 } }
    s.calm ∧ s.frameOk ∧ 3 * s.cfg.gridW.toNat * s.cfg.gridH.toNat = 3 ∧ s.canRead (8 * 3) ∧
    (∀ i, i < 3 → ¬ inStream s.reader.base s.reader.pos.toNat (8 * 3) (s.seedSlot i).toNat) ∧
    s.canWrite (8 * 3) ∧
    (∀ i, i < 3 → ¬ inStream s.writer.base s.writer.pos.toNat (8 * 3) (s.seedSlot i).toNat) := by
  decide +kernel

/-- A frame of one pixel a plane, with nothing overlapping and exactly the room a frame may need. -/
def pixel : State :=
  { framed 0 1 1 1 1 1 1 0 with
    bufs := { luma := planeBuf 0x10 0x11 0x12 4, chromaA := planeBuf 0x13 0x14 0x15 4,
              chromaB := planeBuf 0x16 0x17 0x18 4 }
    seeds := { seedBase := 0x20, meshBase := 0x30, seedIndex := 0, seed := 0 }
    region := ⟨0, 0, 1, 1⟩
    reader := { base := 0x40, budget := 187, pos := 0 }
    writer := { base := 0x80, limit := 239, pos := 0 }
    mem := bytes 0x10 [100] ++ bytes 0x13 [128] ++ bytes 0x16 [120] }

theorem pixel_ready : pixel.encodeReady where
  quiet := rfl
  calm := rfl
  tables := ⟨rfl, rfl⟩
  frame := by decide +kernel
  mesh := by decide
  room := by decide +kernel
  apart := by decide +kernel

theorem witness_FrameEncodeCompletes : pixel.encodeReady := pixel_ready

/-- A basic frame of seeds 100, 128, 120 and hops 4, at 0x40, with exactly its 187 bits left. -/
def basicPixel : State := pixel.withMem (bytes 0x40 [0, 1, 0, 0, 0, 1, 0, 0, 0, 1, 1, 100, 128, 120,
  0xFF, 0xFF, 0x1F, 0xFF, 0xFF, 0xFF, 0xF1, 0xFF, 0xFF, 0])

/-- An advanced frame: both tables with the lengths of vector H1, every corner (5, 5), hops 8, 4, 5. -/
def advancedPixel : State :=
  (pixel.withReader { base := 0x40, budget := 217, pos := 0 }).withMem
    (bytes 0x40 [2, 1, 0, 0, 0, 1, 0, 0, 0, 1, 1, 100, 128, 120,
      0x55, 0x43, 0x13, 0x45, 0x55, 0x54, 0x31, 0x34, 0x55, 0b10110110, 0b11011011, 0b01101101,
      0b11110010, 0b00000000])

theorem basicPixel_holds : basicPixel.HoldsOnePixelFrame fun _ => 4 where
  budget := by decide +kernel
  width := by decide +kernel
  height := by decide +kernel
  gridW := by decide +kernel
  gridH := by decide +kernel
  legal := by decide +kernel
  tables := by decide +kernel
  mesh := by decide +kernel
  luma := ⟨by decide +kernel, by decide +kernel, trivial⟩
  chroma := ⟨by decide +kernel, by decide +kernel, by decide +kernel, by decide +kernel, trivial⟩
  apart := by decide +kernel

/-- The hops of `advancedPixel`. -/
def advancedHop : Plane → Hop
  | .luma => 8
  | .chromaA => 4
  | .chromaB => 5

theorem advancedPixel_holds : advancedPixel.HoldsOnePixelFrame advancedHop where
  budget := by decide +kernel
  width := by decide +kernel
  height := by decide +kernel
  gridW := by decide +kernel
  gridH := by decide +kernel
  legal := by decide +kernel
  tables := by decide +kernel
  mesh := by decide +kernel
  luma := ⟨by decide +kernel, by decide +kernel, trivial⟩
  chroma := ⟨by decide +kernel, by decide +kernel, by decide +kernel, by decide +kernel, trivial⟩
  apart := by decide +kernel

/-- A basic and an advanced frame, each with exactly the bits that are left. -/
theorem witness_FrameDecodeOnePixelFrame :
    (basicPixel.calm ∧ basicPixel.tablesReady ∧ basicPixel.HoldsOnePixelFrame (fun _ => 4) ∧
      basicPixel.pixelBits (fun _ => 4) = 187) ∧
    (advancedPixel.calm ∧ advancedPixel.tablesReady ∧ advancedPixel.HoldsOnePixelFrame advancedHop ∧
      advancedPixel.pixelBits advancedHop = 217) :=
  ⟨⟨rfl, ⟨rfl, rfl⟩, basicPixel_holds, by decide +kernel⟩, rfl, ⟨rfl, rfl⟩, advancedPixel_holds,
    by decide +kernel⟩

theorem pixel_encoded :
    let t := after .frameEncode pixel
    t.quiet ∧ t.calm ∧ t.tablesReady ∧ t.cfg = pixel.cfg ∧ t.ctrl = pixel.ctrl ∧ t.plat = pixel.plat ∧
    t.bufs = pixel.bufs ∧ t.seeds.seedBase = pixel.seeds.seedBase ∧ t.seeds.meshBase = pixel.seeds.meshBase ∧
    t.writer.pos = 192 := by decide +kernel

/-- The decoder is the encoder's core after the frame, its reader pointed at the frame. -/
theorem witness_FrameRoundTrip : ∃ t d : State,
    pixel.encodeReady ∧ exec .frameEncode pixel = .next t ∧
    d.quiet ∧ d.calm ∧ d.tablesReady ∧ d.cfg.sx = pixel.cfg.sx ∧ d.cfg.sy = pixel.cfg.sy ∧
    d.cfg.ratio = pixel.cfg.ratio ∧ d.cfg.cf = pixel.cfg.cf ∧
    d.ctrl.interiorVariant = pixel.ctrl.interiorVariant ∧ d.plat.hdrOrder = pixel.plat.hdrOrder ∧
    pixel.cfg.width.toNat * pixel.cfg.height.toNat ≤ d.plat.maxPixels ∧
    d.canRead (t.writer.pos.toNat - pixel.writer.pos.toNat) ∧
    (∀ k, k < t.writer.pos.toNat - pixel.writer.pos.toNat →
      bitAt d.mem d.reader.base (d.reader.pos.toNat + k) =
        bitAt t.mem pixel.writer.base (pixel.writer.pos.toNat + k)) ∧
    (d.withCfg pixel.cfg).buffersApart
      (streamBytes d.reader.base d.reader.pos.toNat
        (t.writer.pos.toNat - pixel.writer.pos.toNat)) := by
  have h := exec_after .frameEncode pixel
  have f := pixel_encoded
  generalize after .frameEncode pixel = t at h f
  obtain ⟨f1, f0, f2, f3, f4, f5, f6, f7, f8, f9⟩ := f
  refine ⟨t, t.withReader { base := 0x80, budget := 192, pos := 0 }, pixel_ready, h, f1, f0, f2, ?_⟩
  have hp : t.writer.pos.toNat - pixel.writer.pos.toNat = 192 := by
    rw [f9]
    rfl
  have apart : pixel.buffersApart (streamBytes 0x80 (0#32).toNat 192) := by decide +kernel
  refine ⟨congrArg _ f3, congrArg _ f3, congrArg _ f3, congrArg _ f3, congrArg _ f4, congrArg _ f5,
    ?_, ?_, fun _ _ => rfl, ?_⟩
  · rw [State.withReader_plat, f5]
    decide
  · rw [hp]
    exact (by decide : (0#32).toNat + 192 ≤ (192#32).toNat)
  · rw [hp]
    simp only [State.buffersApart, State.hopBytes, State.dstBytes, State.seedBytes,
      State.meshBytes, State.hopAddr, State.dstAddr, State.buf, State.withCfg_cfg,
      State.withCfg_bufs, State.withCfg_seeds, State.withReader_bufs,
      State.withReader_seeds, State.withReader_reader, f6, f7, f8] at apart ⊢
    exact apart

end Sys2Proof.Tests
end

section
/-! PROOFS. Family 10_state: every register write of a command body is granted by its rule, every
command ends, and every step keeps the invariant. -/

namespace Sys2Proof.Machine

-- One theorem at a time: many checked at once need more threads than the memory limit allows.
set_option Elab.async false

/-! ### Reads of a state with one group replaced -/

theorem mem_codeRegs {t u : Tbl} {i : Hop} : Reg.huffCode u i ∈ codeRegs t ↔ u = t := by
  simp [codeRegs, mem_allHops, eq_comm]

theorem mem_countRegs {t u : Tbl} {i : Hop} : Reg.huffCount u i ∈ countRegs t ↔ u = t := by
  simp [countRegs, mem_allHops, eq_comm]

/-- A new table `t` changes a register other than STATUS only if that register shows `t`, and then as the
table's words do. -/
theorem State.readReg_withTable {s : State} {t : Tbl} {h : HuffTable} {r : Reg} (hr : r ≠ .status)
    (hlo : r = .huffLenLo t → h.lenLoWord = (s.table t).lenLoWord)
    (hhi : r = .huffLenHi t → h.lenHiWord = (s.table t).lenHiWord)
    (hcode : ∀ i, r = .huffCode t i → h.codeWord i = (s.table t).codeWord i)
    (hcount : ∀ i, r = .huffCount t i → h.count.get i = (s.table t).count.get i) :
    (s.withTable t h).readReg r = s.readReg r := by
  cases r with
  | status => exact absurd rfl hr
  | huffLenLo u =>
    simp only [State.readReg, State.table_withTable]
    split
    · next e => subst e; exact hlo rfl
    · rfl
  | huffLenHi u =>
    simp only [State.readReg, State.table_withTable]
    split
    · next e => subst e; exact hhi rfl
    · rfl
  | huffCode u i =>
    simp only [State.readReg, State.table_withTable]
    split
    · next e => subst e; exact hcode i rfl
    · rfl
  | huffCount u i =>
    simp only [State.readReg, State.table_withTable]
    split
    · next e => subst e; exact hcount i rfl
    · rfl
  | _ => cases t <;> rfl

/-! ### What no command looks at -/

/-- `s` with another engine, other accesses to come and another answer on the bus: what no body reads. -/
def State.withOuter (s : State) (e : Engine) (l : List Pending) (b : BusReply) : State :=
  ((s.withEng e).withInbox l).withBus b

/-- The same action, in the state that `f` makes of it. -/
def Act.mapState (f : State → State) (a : Act) : Act := { a with after := f a.after }

/-- The same end and actions, in the states that `f` makes of them. -/
def Res.mapState {α : Type} (f : State → State) : Res α → Res α
  | .ok a s t => .ok a (f s) (t.map (Act.mapState f))
  | .raised e s t => .raised e (f s) (t.map (Act.mapState f))

/-- The body does the same whatever the engine, the accesses to come and the bus hold. -/
def Cmd.Blind {α : Type} (c : Cmd α) : Prop :=
  ∀ s e l b, c (s.withOuter e l b) = (c s).mapState (·.withOuter e l b)

theorem State.withOuter_storeByte (s : State) (e : Engine) (l : List Pending) (b : BusReply) (a : Word)
    (v : Byte) : (s.withOuter e l b).storeByte a v = (s.storeByte a v).withOuter e l b := by
  by_cases h : a ∈ s.races
  · rw [State.storeByte, State.storeByte, if_pos h, if_pos (show a ∈ (s.withOuter e l b).races from h)]
  · rw [State.storeByte_eq h, State.storeByte_eq (show a ∉ (s.withOuter e l b).races from h)]
    rfl

theorem stateAfter_mapState (f : State → State) (s : State) (t : List Act) (k : Nat) :
    stateAfter (f s) (t.map (Act.mapState f)) k = f (stateAfter s t k) := by
  rw [stateAfter, stateAfter, ← List.map_take, List.getLast?_map]
  cases (t.take k).getLast? <;> rfl

section
variable {α β : Type} {c : Cmd α}

theorem Res.mapState_after (f : State → State) (t : List Act) (r : Res α) :
    (r.after t).mapState f = (r.mapState f).after (t.map (Act.mapState f)) := by
  cases r <;> simp [Res.mapState, Res.after]

theorem Cmd.blind_read {f : State → α} (h : ∀ s e l b, f (State.withOuter s e l b) = f s) :
    (Cmd.read f).Blind := fun s e l b => by
  simp [Cmd.read, Res.mapState, h]

theorem Cmd.blind_check {f : State → ErrCode} (h : ∀ s e l b, f (State.withOuter s e l b) = f s) :
    (Cmd.check f).Blind := fun s e l b => by
  rw [Cmd.check, Cmd.check, h]
  split <;> rfl

theorem Cmd.blind_update {rs : List Reg} {f : State → State}
    (h : ∀ s e l b, f (State.withOuter s e l b) = (f s).withOuter e l b) :
    (Cmd.update rs f).Blind := fun s e l b => by
  simp [Cmd.update, Res.mapState, Act.mapState, h]

theorem blind_memWrite (a : Word) (v : Byte) : (memWrite a v).Blind := fun s e l b => by
  simp [memWrite, Res.mapState, Act.mapState, State.withOuter_storeByte]

theorem Cmd.blind_bind {f : α → Cmd β} (hc : c.Blind) (hf : ∀ a, (f a).Blind) :
    (c.bind f).Blind := fun s e l b => by
  rw [Cmd.bind, Cmd.bind, hc]
  cases c s with
  | ok a s' t => exact (congrArg (Res.after _) (hf a s' e l b)).trans (Res.mapState_after _ _ _).symm
  | raised err s' t => rfl

theorem Cmd.Blind.out (h : c.Blind) (s : State) (e : Engine) (l : List Pending) (b : BusReply) :
    c.out (s.withOuter e l b) = (c.out s).mapState (·.withOuter e l b) := by
  rw [Cmd.out, Cmd.out, h]
  cases c s <;> rfl

theorem Cmd.Blind.acts (h : c.Blind) (s : State) (e : Engine) (l : List Pending) (b : BusReply) :
    c.acts (s.withOuter e l b) = (c.acts s).map (Act.mapState (·.withOuter e l b)) := by
  rw [Cmd.acts, Cmd.acts, h]
  cases c s <;> rfl

end

/-! ### What a command is granted to change -/

/-- What the rules let a command change: the registers `regs`, the lookup tables, the lengths, codes and
flag of a Huffman table, the scan. -/
structure Grant where
  regs : List Reg
  luts : Bool
  huff : Tbl → Bool
  scan : Bool

/-- What the rule of a command grants it. -/
def grantOf (i : Instr) : Grant where
  regs := writesRegs i
  luts := decide (i = .buildTables)
  huff u := i.writesValid u
  scan := i.writesScan

/-- From `s` to `t` only what is granted has changed, and never the engine, the platform's parameters, the
host's accesses, their answers or the races. -/
structure Grant.Frame (g : Grant) (s t : State) : Prop where
  eng : t.eng = s.eng
  plat : t.plat = s.plat
  inbox : t.inbox = s.inbox
  bus : t.bus = s.bus
  races : t.races = s.races
  luts : g.luts = false → t.tablesValid = s.tablesValid ∧ t.luts = s.luts
  huff : ∀ u, g.huff u = false → (t.table u).valid = (s.table u).valid ∧
    (t.table u).len = (s.table u).len ∧ (t.table u).code = (s.table u).code
  scan : g.scan = false → t.scan = s.scan

/-- An update that names the registers `rs` names all it changes, STATUS apart, and stays within the
grant. -/
structure Grant.Writes (g : Grant) (rs : List Reg) (f : State → State) : Prop where
  granted : rs ⊆ g.regs
  named : ∀ s r, r ≠ .status → r ∉ rs → (f s).readReg r = s.readReg r
  frame : ∀ s, g.Frame s (f s)

section
variable {g : Grant} {s t u : State}

theorem Grant.Frame.refl (g : Grant) (s : State) : g.Frame s s :=
  ⟨rfl, rfl, rfl, rfl, rfl, fun _ => ⟨rfl, rfl⟩, fun _ _ => ⟨rfl, rfl, rfl⟩, fun _ => rfl⟩

theorem Grant.Frame.trans (h : g.Frame s t) (k : g.Frame t u) : g.Frame s u where
  eng := k.eng.trans h.eng
  plat := k.plat.trans h.plat
  inbox := k.inbox.trans h.inbox
  bus := k.bus.trans h.bus
  races := k.races.trans h.races
  luts hg := ⟨(k.luts hg).1.trans (h.luts hg).1, (k.luts hg).2.trans (h.luts hg).2⟩
  huff w hg := by
    obtain ⟨hv, hl, hc⟩ := h.huff w hg
    obtain ⟨kv, kl, kc⟩ := k.huff w hg
    exact ⟨kv.trans hv, kl.trans hl, kc.trans hc⟩
  scan hg := (k.scan hg).trans (h.scan hg)

theorem Grant.frame_storeByte (a : Word) (v : Byte) : g.Frame s (s.storeByte a v) := by
  unfold State.storeByte
  split
  · exact .refl g s
  · exact ⟨rfl, rfl, rfl, rfl, rfl, fun _ => ⟨rfl, rfl⟩, fun _ _ => ⟨rfl, rfl, rfl⟩, fun _ => rfl⟩

/-- A granted table may take any lengths, codes and flag; the others keep theirs. -/
theorem Grant.frame_withTable {w : Tbl} (hw : g.huff w = true) (h : HuffTable) :
    g.Frame s (s.withTable w h) := by
  have other : ∀ x, g.huff x = false → (s.withTable w h).table x = s.table x := fun x hx =>
    s.table_withTable_other h (by rintro rfl; simp [hw] at hx)
  cases w <;> exact ⟨rfl, rfl, rfl, rfl, rfl, fun _ => ⟨rfl, rfl⟩,
    fun x hx => by simp [other x hx], fun _ => rfl⟩

/-- Counts need no grant but that of their registers. -/
theorem Grant.frame_withCount (w : Tbl) (c : Nine Word) :
    g.Frame s (s.withTable w { s.table w with count := c }) := by
  cases w <;> exact ⟨rfl, rfl, rfl, rfl, rfl, fun _ => ⟨rfl, rfl⟩,
    fun x _ => by cases x <;> exact ⟨rfl, rfl, rfl⟩, fun _ => rfl⟩

/-- The scan, where it is granted. -/
theorem Grant.frame_withScan (hg : g.scan = true) (c : Scan) : g.Frame s (s.withScan c) :=
  ⟨rfl, rfl, rfl, rfl, rfl, fun _ => ⟨rfl, rfl⟩, fun _ _ => ⟨rfl, rfl, rfl⟩, by simp [hg]⟩

/-- A state that differs only in groups that no grant guards. -/
theorem Grant.frame_of_eq (eng : t.eng = s.eng) (plat : t.plat = s.plat) (inbox : t.inbox = s.inbox)
    (bus : t.bus = s.bus) (races : t.races = s.races) (valid : t.tablesValid = s.tablesValid)
    (luts : t.luts = s.luts) (huff : t.huff = s.huff) (scan : t.scan = s.scan) : g.Frame s t :=
  ⟨eng, plat, inbox, bus, races, fun _ => ⟨valid, luts⟩,
    fun w _ => by cases w <;> simp [State.table, huff], fun _ => scan⟩

/-! ### The updates that bodies make -/

theorem Grant.writes_bitConsumed (h : .brPos ∈ g.regs) : g.Writes [.brPos] State.bitConsumed where
  granted := by simpa using h
  named s r _ hr := by cases r <;> simp at hr <;> rfl
  frame _ := frame_of_eq rfl rfl rfl rfl rfl rfl rfl rfl rfl

theorem Grant.writes_bitProduced (h : .bwPos ∈ g.regs) : g.Writes [.bwPos] State.bitProduced where
  granted := by simpa using h
  named s r _ hr := by cases r <;> simp at hr <;> rfl
  frame _ := frame_of_eq rfl rfl rfl rfl rfl rfl rfl rfl rfl

theorem Grant.writes_lut (h : .lutResult ∈ g.regs) (v : State → Byte) :
    g.Writes [.lutResult] fun s => s.withLut { s.lut with result := v s } where
  granted := by simpa using h
  named s r _ hr := by cases r <;> simp at hr <;> rfl
  frame _ := frame_of_eq rfl rfl rfl rfl rfl rfl rfl rfl rfl

theorem Grant.writes_header (h : [.mode, .width, .height, .grid] ⊆ g.regs) (m w h' gw gh : Nat) :
    g.Writes [.mode, .width, .height, .grid] fun s => s.withHeader m w h' gw gh where
  granted := h
  named s r _ hr := by cases r <;> simp at hr <;> rfl
  frame _ := frame_of_eq rfl rfl rfl rfl rfl rfl rfl rfl rfl

theorem Grant.writes_block (h : geomRegs ⊆ g.regs) (f : State → Nat) (xIni xFin yIni yFin dsX dsY : State → Nat) :
    g.Writes geomRegs fun s =>
      s.withBlock (xIni s) (xFin s) (yIni s) (yFin s) (dsX s) (dsY s) (f s) where
  granted := h
  named s r _ hr := by cases r <;> simp [geomRegs] at hr <;> rfl
  frame _ := frame_of_eq rfl rfl rfl rfl rfl rfl rfl rfl rfl

theorem Grant.writes_seed (h : .seed ∈ g.regs) (v : Byte) :
    g.Writes [.seed] fun s => s.withSeeds { s.seeds with seed := v } where
  granted := by simpa using h
  named s r _ hr := by cases r <;> simp at hr <;> rfl
  frame _ := frame_of_eq rfl rfl rfl rfl rfl rfl rfl rfl rfl

theorem Grant.writes_scanStart (h : [.scanX, .scanY, .hopState] ⊆ g.regs) (hg : g.scan = true) (d : Dir)
    (p : Plane) : g.Writes [.scanX, .scanY, .hopState] fun s => s.withScan (Scan.start d p) where
  granted := h
  named s r hs hr := by cases r <;> simp at hr hs <;> rfl
  frame _ := frame_withScan hg _

theorem Grant.writes_hopState (h : .hopState ∈ g.regs) (hg : g.scan = true) (a : Nat × Bool) :
    g.Writes [.hopState] fun s => s.withScan (s.scan.withHopState a) where
  granted := by simpa using h
  named s r hs hr := by cases r <;> simp at hr hs <;> rfl
  frame _ := frame_withScan hg _

theorem Grant.writes_cursor (h : [.scanX, .scanY] ⊆ g.regs) (hg : g.scan = true) :
    g.Writes [.scanX, .scanY] fun s => s.withScan (s.scan.advance s.region) where
  granted := h
  named s r hs hr := by
    have hop : (s.scan.advance s.region).hopStateWord = s.scan.hopStateWord := by
      unfold Scan.advance
      split <;> rfl
    cases r with
    | hopState => exact hop
    | status => exact absurd rfl hs
    | scanX => simp at hr
    | scanY => simp at hr
    | _ => rfl
  frame _ := frame_withScan hg _

theorem Grant.writes_lastPix (h : .lastPix ∈ g.regs) (v : LastPix) :
    g.Writes [.lastPix] fun s => s.withLastPix v where
  granted := by simpa using h
  named s r hs hr := by cases r <;> simp at hr hs <;> rfl
  frame _ := frame_of_eq rfl rfl rfl rfl rfl rfl rfl rfl rfl

theorem Grant.writes_huffSym (h : .huffSym ∈ g.regs) (v : BitVec 4) :
    g.Writes [.huffSym] fun s => s.withHuffSym v where
  granted := by simpa using h
  named s r hs hr := by cases r <;> simp at hr hs <;> rfl
  frame _ := frame_of_eq rfl rfl rfl rfl rfl rfl rfl rfl rfl

theorem Grant.writes_luts (hg : g.luts = true) : g.Writes [] fun s => s.withLuts .built where
  granted := by simp
  named s r hs _ := by cases r <;> rfl
  frame _ := ⟨rfl, rfl, rfl, rfl, rfl, by simp [hg], fun _ _ => ⟨rfl, rfl, rfl⟩, fun _ => rfl⟩

theorem Grant.writes_tablesValid (hg : g.luts = true) :
    g.Writes [] fun s => s.withTablesValid true where
  granted := by simp
  named s r hs _ := by cases r <;> simp at hs <;> rfl
  frame _ := ⟨rfl, rfl, rfl, rfl, rfl, by simp [hg], fun _ _ => ⟨rfl, rfl, rfl⟩, fun _ => rfl⟩

/-- Codes and the flag of table `t` show in its code registers only. -/
theorem Grant.writes_codes {w : Tbl} (h : codeRegs w ⊆ g.regs) (hg : g.huff w = true)
    {f : State → HuffTable} (hlen : ∀ s, (f s).len = (s.table w).len)
    (hcount : ∀ s, (f s).count = (s.table w).count) :
    g.Writes (codeRegs w) fun s => s.withTable w (f s) where
  granted := h
  named s r hs hr := by
    refine State.readReg_withTable hs (fun _ => ?_) (fun _ => ?_) ?_ (fun i _ => ?_)
    · simp [HuffTable.lenLoWord, hlen]
    · simp [HuffTable.lenHiWord, hlen]
    · rintro i rfl
      exact absurd (mem_codeRegs.2 rfl) hr
    · rw [hcount]
  frame _ := frame_withTable hg _

theorem HuffTable.codeWord_congr {h k : HuffTable} {i : Hop} (hv : h.valid = k.valid)
    (hl : h.len.get i = k.len.get i) (hc : h.code = k.code) : h.codeWord i = k.codeWord i := by
  simp [HuffTable.codeWord, hv, hl, hc]

/-- One length shows in its length register and its symbol's code register. -/
theorem Grant.writes_len {w : Tbl} (i : Hop) (h : [lenReg w i, .huffCode w i] ⊆ g.regs)
    (hg : g.huff w = true) (v : BitVec 4) :
    g.Writes [lenReg w i, .huffCode w i] fun s => s.withLen w i v where
  granted := h
  named s r hs hr := by
    refine State.readReg_withTable hs ?_ ?_ ?_ (fun _ _ => rfl)
    · rintro rfl
      fin_cases i <;> first | rfl | simp [lenReg] at hr
    · rintro rfl
      fin_cases i <;> first | rfl | simp [lenReg] at hr
    · rintro j rfl
      refine HuffTable.codeWord_congr rfl (Nine.get_set_other _ _ ?_) rfl
      rintro rfl
      simp at hr
  frame _ := frame_withTable hg _

theorem Grant.writes_lens {w : Tbl} (h : lenRegs w ⊆ g.regs) (hg : g.huff w = true)
    (l : State → Nine (BitVec 4)) : g.Writes (lenRegs w) fun s => s.withLens w (l s) where
  granted := h
  named s r hs hr := by
    refine State.readReg_withTable hs ?_ ?_ ?_ (fun _ _ => rfl)
    · rintro rfl
      simp [lenRegs] at hr
    · rintro rfl
      simp [lenRegs] at hr
    · rintro j rfl
      simp [lenRegs, mem_codeRegs] at hr
  frame _ := frame_withTable hg _

theorem Grant.writes_clearCounts {w : Tbl} (h : countRegs w ⊆ g.regs) :
    g.Writes (countRegs w) fun s => s.withTable w { s.table w with count := Nine.all 0 } where
  granted := h
  named s r hs hr := by
    refine State.readReg_withTable hs (fun _ => rfl) (fun _ => rfl) (fun _ _ => rfl) ?_
    rintro j rfl
    exact absurd (mem_countRegs.2 rfl) hr
  frame _ := frame_withCount _ _

theorem Grant.writes_countHop {w : Tbl} {i : Hop} (h : .huffCount w i ∈ g.regs) :
    g.Writes [.huffCount w i] fun s => s.countHop w i where
  granted := by simpa using h
  named s r hs hr := by
    refine State.readReg_withTable hs (fun _ => rfl) (fun _ => rfl) (fun _ _ => rfl) ?_
    rintro j rfl
    refine Nine.get_set_other _ _ ?_
    rintro rfl
    simp at hr
  frame _ := frame_withCount _ _

/-- The registers that a failed frame command leaves, besides those of `failedFrame_kept`. -/
theorem State.failedFrame_regs (s : State) (d : Dir) (l : List Nat) :
    let t := s.failedFrame d l
    (t.seeds.seedBase = s.seeds.seedBase ∧ t.seeds.meshBase = s.seeds.meshBase) ∧
    (t.cfg.ratio = s.cfg.ratio ∧ t.cfg.sx = s.cfg.sx ∧ t.cfg.sy = s.cfg.sy ∧ t.cfg.cf = s.cfg.cf) ∧
    (t.reader.base = s.reader.base ∧ t.reader.budget = s.reader.budget) ∧
    (t.writer.base = s.writer.base ∧ t.writer.limit = s.writer.limit) := by
  cases d <;> simp [State.failedFrame, State.freeRegs]

/-- A failed FRAME_DECODE writes no stream and counts no symbol. -/
theorem State.failedFrame_decode (s : State) (l : List Nat) :
    (s.failedFrame .decode l).writer = s.writer ∧
    ∀ u, ((s.failedFrame .decode l).table u).count = (s.table u).count :=
  ⟨by simp [State.failedFrame, State.freeRegs], fun u => by
    cases u <;> simp [State.failedFrame, State.freeRegs, State.table, freeTable]⟩

/-- A failed FRAME_ENCODE reads no stream and no header. -/
theorem State.failedFrame_encode (s : State) (l : List Nat) :
    (s.failedFrame .encode l).reader = s.reader ∧ (s.failedFrame .encode l).cfg = s.cfg := by
  simp [State.failedFrame, State.freeRegs]

theorem lenReg_mem_frameRegs (d : Dir) (u : Tbl) (i : Hop) :
    Reg.huffLenLo u ∈ frameRegs d ∧ Reg.huffLenHi u ∈ frameRegs d ∧
      Reg.huffCode u i ∈ frameRegs d := by
  cases u <;> simp [frameRegs, lenRegs, mem_codeRegs]

theorem countReg_mem_frameRegs (u : Tbl) (i : Hop) : Reg.huffCount u i ∈ frameRegs .encode := by
  cases u <;> simp [frameRegs, mem_countRegs]

/-- A failed frame command changes the registers of `frameRegs` and STATUS only. -/
theorem State.readReg_failedFrame (s : State) (d : Dir) (l : List Nat) {r : Reg} (hr : r ≠ .status)
    (hn : r ∉ frameRegs d) : (s.failedFrame d l).readReg r = s.readReg r := by
  obtain ⟨eng, ctrl, bufs, lut, huffSym, -⟩ := s.failedFrame_kept d l
  obtain ⟨⟨sb, mb⟩, ⟨ra, sx, sy, cf⟩, ⟨rb, rl⟩, wb, wl⟩ := s.failedFrame_regs d l
  have hdec := s.failedFrame_decode l
  have henc := s.failedFrame_encode l
  cases r with
  | status => exact absurd rfl hr
  | huffLenLo u => exact absurd (lenReg_mem_frameRegs d u 0).1 hn
  | huffLenHi u => exact absurd (lenReg_mem_frameRegs d u 0).2.1 hn
  | huffCode u i => exact absurd (lenReg_mem_frameRegs d u i).2.2 hn
  | huffCount u i =>
    cases d with
    | decode => exact congrArg (Nine.get · i) (hdec.2 u)
    | encode => exact absurd (countReg_mem_frameRegs u i) hn
  | mode => cases d with
    | decode => simp [frameRegs] at hn
    | encode => simp only [State.readReg, henc.2]
  | width => cases d with
    | decode => simp [frameRegs] at hn
    | encode => simp only [State.readReg, henc.2]
  | height => cases d with
    | decode => simp [frameRegs] at hn
    | encode => simp only [State.readReg, henc.2]
  | grid => cases d with
    | decode => simp [frameRegs] at hn
    | encode => simp only [State.readReg, henc.2]
  | brPos => cases d with
    | decode => simp [frameRegs] at hn
    | encode => simp only [State.readReg, henc.1]
  | bwPos => cases d with
    | decode => simp only [State.readReg, hdec.1]
    | encode => simp [frameRegs] at hn
  | srcBase p => simp only [State.readReg, State.buf, bufs]
  | dstBase p => simp only [State.readReg, State.buf, bufs]
  | hopBase p => simp only [State.readReg, State.buf, bufs]
  | stride p => simp only [State.readReg, State.buf, bufs]
  | chroma => simp only [State.readReg, FrameConfig.chromaWord, sx, sy]
  | irqStatus => simp only [State.readReg, State.irqStatusWord, eng]
  | ctrl => simp only [State.readReg, State.ctrlWord, ctrl]
  | _ =>
    first
    | simp only [State.readReg, eng, lut, huffSym, sb, mb, ra, cf, rb, rl, wb, wl]; done
    | simp [frameRegs, geomRegs, beginRegs, stepRegs] at hn

/-- With several workers a failed frame writes its registers, both tables and the scan (44_frame R420). -/
theorem Grant.writes_failedFrame {d : Dir} (h : frameRegs d ⊆ g.regs) (hg : ∀ w, g.huff w = true)
    (hs : g.scan = true) (l : List Nat) : g.Writes (frameRegs d) fun s => s.failedFrame d l where
  granted := h
  named s _ hr hn := s.readReg_failedFrame d l hr hn
  frame s := by
    obtain ⟨eng, -, -, -, -, luts, valid, plat, inbox, bus, races, -⟩ := s.failedFrame_kept d l
    exact ⟨eng, plat, inbox, bus, races, fun _ => ⟨valid, luts⟩, by simp [hg], by simp [hs]⟩

end

/-! ### Steps of a frame command -/

section
variable {d : Dir} {foot : State → Footprint} {c : Cmd Unit}

/-- Steps of a frame command raise only what they would raise alone. -/
theorem withWorkers_raised_cases {s t : State} {e : ErrCode}
    (h : (withWorkers d foot c).out s = .raised e t) : ∃ s', c.out s = .raised e s' := by
  cases hc : c.out s with
  | ok a s' => rw [withWorkers_ok hc] at h; cases h
  | raised e' s' =>
    obtain ⟨l, hl⟩ := withWorkers_raised (d := d) (foot := foot) hc
    rw [hl] at h
    cases h
    exact ⟨s', rfl⟩

/-- What other workers could touch is reckoned from the registers and memory alone. -/
theorem blind_withWorkers (hc : c.Blind)
    (hfoot : ∀ s e q b, foot (State.withOuter s e q b) = foot s) : (withWorkers d foot c).Blind :=
  fun s e l b => by
  rw [withWorkers, withWorkers, hc, hfoot]
  cases c s with
  | ok a s' t => rfl
  | raised err s' t =>
    have hw : (t.map (Act.mapState (·.withOuter e l b))).flatMap Act.writes = t.flatMap Act.writes := by
      rw [List.flatMap_map]
      rfl
    have hn : (s'.withOuter e l b).plat = s'.plat := rfl
    simp only [Res.mapState, hw, hn]
    split
    · have hf : ∀ k, (s'.withOuter e l b).failedFrame d k = (s'.failedFrame d k).withOuter e l b :=
        fun k => by cases d <;> rfl
      simp [hf, Act.mapState]
    · rfl

theorem within_withWorkers {l : List Reg} (hc : c.Within l) (hd : frameRegs d ⊆ l) :
    (withWorkers d foot c).Within l := fun s => by
  have h := hc s
  unfold Cmd.acts withWorkers at *
  cases hs : c s with
  | ok a s' t => rw [hs] at h; exact h
  | raised e s' t =>
    rw [hs] at h
    dsimp only
    split
    · intro x hx
      rcases List.mem_append.1 hx with hx | hx
      · exact h x hx
      · rw [List.mem_singleton.1 hx]
        exact fun r hr => hd hr
    · exact h

theorem logs_withWorkers (hc : c.Logs)
    (hf : ∀ (l : List Nat) (s : State) (r : Reg), r ≠ .status → r ∉ frameRegs d →
      (s.failedFrame d l).readReg r = s.readReg r) :
    (withWorkers d foot c).Logs := fun s => by
  have h := hc s
  unfold withWorkers
  cases hs : c s with
  | ok a s' t => rw [hs] at h; exact h
  | raised e s' t =>
    rw [hs] at h
    dsimp only
    split
    · intro r hr hn
      have hd : r ∉ frameRegs d := hn _ (List.mem_append.2 (.inr (List.mem_singleton.2 rfl)))
      exact (hf _ s' r hr hd).trans (h r hr fun x hx => hn x (List.mem_append.2 (.inl hx)))
    · exact h

end

/-! ### Bodies made of granted writes -/

/-- The body is made of reads and checks of the registers and memory, raises of real errors, memory
accesses, and updates that the grant covers. -/
inductive Cmd.Made (g : Grant) : {α : Type} → Cmd α → Prop
  | pure {α : Type} (a : α) : Made g (Cmd.pure a)
  | raise {α : Type} {e : ErrCode} (he : e ≠ .noError) : Made g (Cmd.raise e : Cmd α)
  | read {α : Type} (f : State → α)
      (hf : ∀ s e l b, f (State.withOuter s e l b) = f s := by intros; rfl) : Made g (Cmd.read f)
  | check (f : State → ErrCode)
      (hf : ∀ s e l b, f (State.withOuter s e l b) = f s := by intros; rfl) : Made g (Cmd.check f)
  | update {rs : List Reg} {f : State → State} (hf : g.Writes rs f)
      (hm : ∀ s, (f s).mem = s.mem := by intros; rfl)
      (hb : ∀ s e l b, f (State.withOuter s e l b) = (f s).withOuter e l b := by intros; rfl) :
      Made g (Cmd.update rs f)
  | memRead (a : Word) : Made g (memRead a)
  | memWrite (a : Word) (v : Byte) : Made g (memWrite a v)
  | bind {α β : Type} {c : Cmd α} {f : α → Cmd β} (hc : Made g c) (hf : ∀ a, Made g (f a)) :
      Made g (c.bind f)
  | withWorkers {d : Dir} {foot : State → Footprint} {c : Cmd Unit}
      (hd : ∀ l, g.Writes (frameRegs d) fun s => s.failedFrame d l) (hc : Made g c)
      (hfoot : ∀ s e l b, foot (State.withOuter s e l b) = foot s) :
      Made g (withWorkers d foot c)

section
variable {g : Grant} {α β : Type} {c : Cmd α}

theorem Cmd.Made.seq {d : Cmd β} (hc : c.Made g) (hd : d.Made g) : (c.seq d).Made g :=
  hc.bind fun _ => hd

theorem Cmd.Made.require (p : State → Bool) (e : ErrCode)
    (hp : ∀ s e l b, p (State.withOuter s e l b) = p s := by intros; rfl) : (Cmd.require p e).Made g :=
  .check _ fun s e l b => by rw [hp]

/-- Every state that the body passes through differs from its first in granted things only. -/
theorem Cmd.Made.keeps_frame (h : c.Made g) (s0 : State) : c.Keeps (g.Frame s0) := by
  induction h with
  | pure a => exact Cmd.keeps_pure a
  | raise he => exact Cmd.keeps_raise _
  | read f hf => exact Cmd.keeps_read f
  | check f hf => exact Cmd.keeps_check f
  | update hf hm hb => exact Cmd.keeps_update fun s hs => hs.trans (hf.frame s)
  | memRead a => exact keeps_memRead a
  | memWrite a v => exact keeps_memWrite fun s hs => hs.trans (Grant.frame_storeByte a v)
  | bind hc hf ihc ihf => exact Cmd.keeps_bind ihc ihf
  | withWorkers hd hc hfoot ih => exact keeps_withWorkers ih fun s l hs => hs.trans ((hd l).frame s)

theorem Cmd.Made.frame_ok (h : c.Made g) {s t : State} {a : α} (ho : c.out s = .ok a t) :
    g.Frame s t := (h.keeps_frame s).ok (.refl g s) ho

theorem Cmd.Made.frame_raised (h : c.Made g) {s t : State} {e : ErrCode}
    (ho : c.out s = .raised e t) : g.Frame s t := (h.keeps_frame s).raised (.refl g s) ho

/-- The actions write granted registers only. -/
theorem Cmd.Made.within (h : c.Made g) : c.Within g.regs := by
  induction h with
  | pure a => exact Cmd.within_pure a
  | raise he => exact Cmd.within_raise _
  | read f hf => exact Cmd.within_read f
  | check f hf => exact Cmd.within_check f
  | update hf hm hb => exact Cmd.within_update _ hf.granted
  | memRead a => exact within_memRead a
  | memWrite a v => exact within_memWrite a v
  | bind hc hf ihc ihf => exact Cmd.within_bind ihc ihf
  | withWorkers hd hc hfoot ih => exact within_withWorkers ih (hd []).granted

/-- Every register that the body changes, STATUS apart, stands among those its actions write. -/
theorem Cmd.Made.logs (h : c.Made g) : c.Logs := by
  induction h with
  | pure a => exact Cmd.logs_pure a
  | raise he => exact Cmd.logs_raise _
  | read f hf => exact Cmd.logs_read f
  | check f hf => exact Cmd.logs_check f
  | update hf hm hb => exact Cmd.logs_update hf.named
  | memRead a => exact logs_memRead a
  | memWrite a v => exact logs_memWrite a v
  | bind hc hf ihc ihf => exact Cmd.logs_bind ihc ihf
  | withWorkers hd hc hfoot ih => exact logs_withWorkers ih fun l => (hd l).named

/-- The body looks at the registers and memory only. -/
theorem Cmd.Made.blind (h : c.Made g) : c.Blind := by
  induction h with
  | pure a => exact fun _ _ _ _ => rfl
  | raise he => exact fun _ _ _ _ => rfl
  | read f hf => exact Cmd.blind_read hf
  | check f hf => exact Cmd.blind_check hf
  | update hf hm hb => exact Cmd.blind_update hb
  | memRead a => exact fun _ _ _ _ => rfl
  | memWrite a v => exact blind_memWrite a v
  | bind hc hf ihc ihf => exact Cmd.blind_bind ihc ihf
  | withWorkers hd hc hfoot ih => exact blind_withWorkers ih hfoot

/-- What a body raises is an error. -/
theorem Cmd.Made.raised_ne (h : c.Made g) {s t : State} {e : ErrCode} (ho : c.out s = .raised e t) :
    e ≠ .noError := by
  induction h generalizing s t with
  | pure a => cases ho
  | raise he => cases ho; exact he
  | read f hf => cases ho
  | check f hf =>
    rw [Cmd.out_check] at ho
    split at ho
    · cases ho
    · next hne => cases ho; exact hne
  | update hf hm hb => cases ho
  | memRead a => cases ho
  | memWrite a v => cases ho
  | bind hc hf ihc ihf =>
    rcases Cmd.bind_raised_cases ho with ho | ⟨a, s', -, ho⟩
    · exact ihc ho
    · exact ihf a ho
  | withWorkers hd hc hfoot ih =>
    obtain ⟨s', ho⟩ := withWorkers_raised_cases ho
    exact ih ho

end

end Sys2Proof.Machine
end

section
namespace Sys2Proof.Machine

-- One theorem at a time: many checked at once need more threads than the memory limit allows.
set_option Elab.async false

/-! ### Loops and frame commands, for any property of bodies that sequencing keeps -/

/-- The property holds of doing nothing, and sequencing and reading keep it. -/
structure Composes (Φ : Cmd Unit → Prop) : Prop where
  skip : Φ (Cmd.pure ())
  seq : ∀ {c d : Cmd Unit}, Φ c → Φ d → Φ (c.seq d)
  read : ∀ {α : Type} (f : State → α) {k : α → Cmd Unit}, (∀ a, Φ (k a)) →
    (hf : ∀ s e l b, f (State.withOuter s e l b) = f s) → Φ ((Cmd.read f).bind k)

namespace Composes

variable {Φ : Cmd Unit → Prop} (h : Composes Φ)
include h

theorem forEach {α : Type} {f : α → Cmd Unit} (hf : ∀ a, Φ (f a)) (l : List α) :
    Φ (Cmd.forEach l f) := by
  induction l with
  | nil => exact h.skip
  | cons a l ih => exact h.seq (hf a) ih

theorem forBlocks {f : Nat → Nat → Cmd Unit} (hf : ∀ x y, Φ (f x y)) : Φ (forBlocks f) :=
  h.read _ (fun _ => h.forEach (fun _ => hf _ _) _) fun _ _ _ _ => rfl

theorem byMode {a b : Cmd Unit} (ha : Φ a) (hb : Φ b) : Φ (byMode a b) :=
  h.read _ (hf := fun _ _ _ _ => rfl) fun c => by
    cases c
    · exact hb
    · exact ha

theorem forHeaders {f : Tbl → Cmd Unit} (hf : ∀ t, Φ (f t)) : Φ (forHeaders f) :=
  h.read _ (fun _ => h.forEach hf _) fun _ _ _ _ => rfl

theorem scanLoop (hs : Φ cmdHopStep) (n : Nat) : Φ (scanLoop n) := by
  induction n with
  | zero => exact h.skip
  | succ n ih =>
    refine h.read _ (fun a => ?_) fun _ _ _ _ => rfl
    cases a
    · exact h.skip
    · exact h.seq hs ih

theorem scanRegion (hs : Φ cmdHopStep) : Φ scanRegion := 
  h.read _ (fun _ => h.scanLoop hs _) fun _ _ _ _ => rfl

/-- FRAME_DECODE has a property that its inner commands have (44_frame R418). -/
theorem frameDecode (hw : ∀ {foot : State → Footprint} {c : Cmd Unit},
      (∀ s e l b, foot (State.withOuter s e l b) = foot s) → Φ c → Φ (withWorkers .decode foot c))
    (tables : Φ needTables) (hdr : Φ cmdHdrRead) (seeds : Φ cmdSeedsRead)
    (huff : ∀ t, Φ (cmdHuffReadHdr t)) (mesh : Φ cmdMeshRead) (plane : ∀ p, Φ (cmdPlaneGeom p))
    (block : ∀ p bx row, Φ (cmdBlockGeom p bx row)) (hops : ∀ p, Φ (cmdHuffDecRegion p))
    (scan : ∀ p, Φ (cmdHopDecRegion p)) : Φ cmdFrameDecode :=
  h.seq tables <| h.seq (hw (fun _ _ _ _ => rfl) hdr) <|
    h.seq (hw (fun _ _ _ _ => rfl)
      (h.seq seeds (h.seq (h.forHeaders huff) (h.byMode mesh h.skip)))) <|
      hw (fun _ _ _ _ => rfl) (h.forEach (fun p => h.byMode
        (h.forBlocks fun x y => h.seq (block p x y) (h.seq (hops p) (scan p)))
        (h.seq (plane p) (h.seq (hops p) (h.forBlocks fun x y => h.seq (block p x y) (scan p))))) _)

/-- FRAME_ENCODE has a property that its inner commands have (44_frame R419). -/
theorem frameEncode (hw : ∀ {foot : State → Footprint} {c : Cmd Unit},
      (∀ s e l b, foot (State.withOuter s e l b) = foot s) → Φ c → Φ (withWorkers .encode foot c))
    (tables : Φ needTables) (frame : Φ frameCheck) (clear : ∀ t, Φ (cmdHuffClearCounts t))
    (plane : ∀ p, Φ (cmdPlaneGeom p)) (block : ∀ p bx row, Φ (cmdBlockGeom p bx row))
    (scan : ∀ p, Φ (cmdHopEncRegion p)) (count : ∀ p, Φ (cmdHuffCountRegion p))
    (build : ∀ t, Φ (cmdHuffFromCounts t)) (hdr : Φ cmdHdrWrite) (seeds : Φ cmdSeedsWrite)
    (huff : ∀ t, Φ (cmdHuffWriteHdr t)) (mesh : Φ cmdMeshWrite) (emit : ∀ p, Φ (cmdHuffEncRegion p))
    (flush : Φ cmdBwFlush) : Φ cmdFrameEncode :=
  h.seq tables <| h.seq (hw (fun _ _ _ _ => rfl) frame) <| hw (fun _ _ _ _ => rfl) <|
    h.seq (clear _) <| h.seq (clear _) <|
      h.seq (h.forEach (fun p => h.forBlocks fun x y =>
        h.seq (block p x y) (h.seq (scan p) (count p))) _) <|
      h.seq (build _) <| h.seq (build _) <| h.seq hdr <| h.seq seeds <| h.seq (h.forHeaders huff) <|
      h.seq (h.byMode mesh h.skip) <|
      h.seq (h.forEach (fun p => h.byMode
        (h.forBlocks fun x y => h.seq (block p x y) (emit p)) (h.seq (plane p) (emit p))) _) flush

end Composes

/-! ### Every body is made of what its rule grants -/

section
variable {g : Grant}

theorem Cmd.Made.composes (g : Grant) : Composes (Cmd.Made g) where
  skip := .pure ()
  seq hc hd := hc.seq hd
  read f _ hk hf := (Cmd.Made.read f hf).bind hk

theorem Cmd.Made.forEach {α : Type} {f : α → Cmd Unit} (hf : ∀ a, (f a).Made g) (l : List α) :
    (Cmd.forEach l f).Made g := (Cmd.Made.composes g).forEach hf l

/-- A look at the whole state, of which what follows uses registers and memory only. -/
theorem Cmd.Made.readAll {β : Type} {k : State → Cmd β} (hk : ∀ s, (k s).Made g)
    (hb : ∀ s e l b, k (State.withOuter s e l b) = k s) : ((Cmd.read id).bind k).Made g := by
  have same : (Cmd.read id).bind k =
      (Cmd.read fun s => s.withOuter State.reset.eng [] .idle).bind k := by
    funext s
    show (k s s).after [] = (k (s.withOuter State.reset.eng [] .idle) s).after []
    rw [hb]
  rw [same]
  exact (Cmd.Made.read _).bind hk

theorem made_needHop (n : Nat) : (needHop n).Made g := by
  unfold needHop
  split
  · exact .pure _
  · exact .raise (by nofun)

/-! #### Streams -/

theorem made_readBit (h : .brPos ∈ g.regs) : readBit.Made g :=
  (Cmd.Made.require _ _).seq <| (Cmd.Made.read _).bind fun _ => (Cmd.Made.memRead _).bind fun _ =>
    (Cmd.Made.update (Grant.writes_bitConsumed h)).seq (.pure _)

theorem made_readBits (h : .brPos ∈ g.regs) (n : Nat) : (readBits n).Made g := by
  have from' : ∀ v, (readBitsFrom n v).Made g := by
    induction n with
    | zero => exact fun v => .pure v
    | succ n ih => exact fun v => (made_readBit h).bind fun b => ih _
  exact from' 0

theorem made_readLe32 (h : .brPos ∈ g.regs) : readLe32.Made g :=
  (made_readBits h 8).bind fun _ => (made_readBits h 8).bind fun _ =>
    (made_readBits h 8).bind fun _ => (made_readBits h 8).bind fun _ => .pure _

theorem made_writeBit (h : .bwPos ∈ g.regs) (b : Bool) : (writeBit b).Made g := by
  have old : ∀ a pos, (oldByte a pos).Made g := fun a pos => by
    unfold oldByte
    split
    · exact .pure _
    · exact .memRead _
  exact (Cmd.Made.require _ _).seq <| (Cmd.Made.read _).bind fun _ => (old _ _).bind fun _ =>
    (Cmd.Made.memWrite _ _).seq <| .update (Grant.writes_bitProduced h)

theorem made_writeBits (h : .bwPos ∈ g.regs) (v n : Nat) : (writeBits v n).Made g := by
  induction n with
  | zero => exact .pure _
  | succ n ih => exact (made_writeBit h _).seq ih

theorem made_writeLe32 (h : .bwPos ∈ g.regs) (w : Word) : (writeLe32 w).Made g :=
  .forEach (fun _ => made_writeBits h _ _) _

/-! #### Tables of 40_tables -/

theorem made_cmdBuildTables (h : g.luts = true) : cmdBuildTables.Made g :=
  (Cmd.Made.update (Grant.writes_luts h)).seq <|
    .update (Grant.writes_tablesValid h)

theorem made_cmdLutReadRec (h : .lutResult ∈ g.regs) : cmdLutReadRec.Made g :=
  (Cmd.Made.require _ _).seq <| (Cmd.Made.require _ _).seq <| (Cmd.Made.read _).bind fun x => by
    cases x with
    | none => exact .raise (by nofun)
    | some i => exact .update (Grant.writes_lut h _)

theorem made_cmdLutReadBest (h : .lutResult ∈ g.regs) : cmdLutReadBest.Made g :=
  (Cmd.Made.require _ _).seq <| (Cmd.Made.require _ _).seq <|
    .update (Grant.writes_lut h _)

/-! #### Header and seeds -/

theorem made_cmdHdrRead (h : [.mode, .width, .height, .grid] ⊆ g.regs) (hp : .brPos ∈ g.regs) :
    cmdHdrRead.Made g :=
  (made_readBits hp _).bind fun _ => (made_readLe32 hp).bind fun _ =>
    (made_readLe32 hp).bind fun _ => (made_readBits hp _).bind fun _ =>
      (made_readBits hp _).bind fun _ =>
        (Cmd.Made.update (Grant.writes_header h _ _ _ _ _)).seq (.check _)

theorem made_cmdHdrWrite (h : .bwPos ∈ g.regs) : cmdHdrWrite.Made g :=
  (Cmd.Made.check _).seq <| (Cmd.Made.read _).bind fun _ => (made_writeBits h _ _).seq <|
    (made_writeLe32 h _).seq <| (made_writeLe32 h _).seq <| (made_writeBits h _ _).seq <|
      made_writeBits h _ _

theorem made_cmdSeedsRead (h : .brPos ∈ g.regs) : cmdSeedsRead.Made g :=
  (Cmd.Made.check _).seq <| (Cmd.Made.read _).bind fun _ => .forEach (fun _ =>
    (made_readBits h _).bind fun _ => (Cmd.Made.read _).bind fun _ => .memWrite _ _) _

theorem made_cmdSeedsWrite (h : .bwPos ∈ g.regs) : cmdSeedsWrite.Made g :=
  (Cmd.Made.check _).seq <| (Cmd.Made.read _).bind fun _ => .forEach (fun _ =>
    (Cmd.Made.read _).bind fun _ => (Cmd.Made.memRead _).bind fun _ => made_writeBits h _ _) _

theorem made_cmdBwFlush (h : .bwPos ∈ g.regs) : cmdBwFlush.Made g :=
  (Cmd.Made.require _ _).seq <| (Cmd.Made.read _).bind fun _ => made_writeBits h _ _

/-! #### Geometry and mesh -/

theorem made_readCorner (cx cy : Nat) : (readCorner cx cy).Made g :=
  (Cmd.Made.read _).bind fun _ => (Cmd.Made.memRead _).bind fun _ => by
    split
    · exact .pure _
    · exact .raise (by nofun)

theorem made_blockSides (bx row sx sy : Nat) : (blockSides bx row sx sy).Made g := by
  refine (Cmd.Made.read _).bind fun _ => ?_
  split
  · exact Cmd.Made.bind ((made_readCorner _ _).bind fun _ => (made_readCorner _ _).bind fun _ =>
      (made_readCorner _ _).bind fun _ => (made_readCorner _ _).bind fun _ => .pure _) fun _ => .pure _
  · exact .pure _

theorem made_cmdPlaneGeom (h : geomRegs ⊆ g.regs) (p : Plane) : (cmdPlaneGeom p).Made g :=
  (Cmd.Made.check _).seq <| .update (Grant.writes_block h _ _ _ _ _ _ _)

theorem made_cmdBlockGeom (h : geomRegs ⊆ g.regs) (p : Plane) (bx row : Nat) :
    (cmdBlockGeom p bx row).Made g :=
  (Cmd.Made.check _).seq <| (Cmd.Made.require _ _).seq <| (Cmd.Made.read _).bind fun _ =>
    (made_blockSides _ _ _ _).bind fun _ =>
      .update (Grant.writes_block h _ _ _ _ _ _ _)

theorem made_cmdMeshRead (h : .brPos ∈ g.regs) : cmdMeshRead.Made g :=
  (Cmd.Made.check _).seq <| (Cmd.Made.read _).bind fun _ => .forEach (fun k =>
    (made_readBits h _).bind fun _ => (made_readBits h _).bind fun _ => by
      split
      · exact .raise (by nofun)
      · exact (Cmd.Made.read _).bind fun _ => .memWrite _ _) _

theorem made_cmdMeshWrite (h : .bwPos ∈ g.regs) : cmdMeshWrite.Made g :=
  (Cmd.Made.check _).seq <| (Cmd.Made.read _).bind fun _ => .forEach (fun _ =>
    (made_readCorner _ _).bind fun _ => (made_writeBits h _ _).seq (made_writeBits h _ _)) _

/-! #### Huffman coder -/

theorem made_decodeSymbol (h : .brPos ∈ g.regs) (t : Tbl) : (decodeSymbol t).Made g := by
  have loop : ∀ k left acc n, (decodeFrom k left acc n).Made g := by
    intro k left
    induction left with
    | zero => exact fun _ _ => .raise (by nofun)
    | succ left ih =>
      refine fun _ _ => (made_readBit h).bind fun b => ?_
      split
      · exact .pure _
      · exact ih _ _
  exact (Cmd.Made.read _).bind fun _ => loop _ _ _ _

theorem made_encodeSymbol (h : .bwPos ∈ g.regs) (t : Tbl) (n : Nat) : (encodeSymbol t n).Made g :=
  (made_needHop n).bind fun _ => (Cmd.Made.read _).bind fun _ => by
    split
    · exact .raise (by nofun)
    · exact made_writeBits h _ _

theorem made_updateTable {t : Tbl} {rs : List Reg} {f : State → HuffTable}
    (h : g.Writes rs fun s => s.withTable t (f s))
    (hf : ∀ s e l b, f (State.withOuter s e l b) = f s := by intros; rfl) :
    (Cmd.update rs fun s => s.withTable t (f s)).Made g :=
  .update h (fun _ => by cases t <;> rfl) fun s e l b => by
    rw [hf]
    cases t <;> rfl

/-- Codes and flag of a table. -/
theorem made_codes {t : Tbl} (h : codeRegs t ⊆ g.regs) (hg : g.huff t = true) {f : State → HuffTable}
    (hlen : ∀ s, (f s).len = (s.table t).len) (hcount : ∀ s, (f s).count = (s.table t).count)
    (hf : ∀ s e l b, f (State.withOuter s e l b) = f s := by intros; rfl) :
    (Cmd.update (codeRegs t) fun s => s.withTable t (f s)).Made g :=
  made_updateTable (Grant.writes_codes h hg hlen hcount) hf

theorem made_cmdHuffBuild {t : Tbl} (h : codeRegs t ⊆ g.regs) (hg : g.huff t = true) :
    (cmdHuffBuild t).Made g := (Cmd.Made.read _).bind fun ok => by
  split
  · refine Cmd.Made.seq (made_codes h hg ?_ ?_) (made_codes h hg ?_ ?_) <;> exact fun _ => rfl
  · refine Cmd.Made.seq (made_codes h hg ?_ ?_) (.raise (e := .huffInvalid) (by nofun)) <;>
      exact fun _ => rfl

theorem codeRegs_subset_lenRegs (t : Tbl) : codeRegs t ⊆ lenRegs t := fun _ hr =>
  List.mem_cons_of_mem _ (List.mem_cons_of_mem _ hr)

theorem lenReg_subset_lenRegs (t : Tbl) (i : Hop) : [lenReg t i, .huffCode t i] ⊆ lenRegs t := by
  have hl : lenReg t i ∈ lenRegs t := by
    unfold lenReg
    split <;> simp [lenRegs]
  simpa [hl] using codeRegs_subset_lenRegs t (mem_codeRegs.2 rfl)

/-- HUFF_VALID_t falls before its lengths change. -/
theorem made_invalidate {t : Tbl} (h : codeRegs t ⊆ g.regs) (hg : g.huff t = true) :
    (Cmd.update (codeRegs t) fun s => s.withHuffValid t false).Made g :=
  made_codes h hg (fun _ => rfl) fun _ => rfl

/-- The nine lengths of a table header (43_huffman R365). -/
theorem made_readLens {t : Tbl} (h : lenRegs t ⊆ g.regs) (hp : .brPos ∈ g.regs)
    (hg : g.huff t = true) :
    (Cmd.forEach allHops fun i => (readBits 4).bind fun v =>
      Cmd.update [lenReg t i, .huffCode t i] fun s => s.withLen t i (BitVec.ofNat 4 v)).Made g :=
  .forEach (fun i => (made_readBits hp _).bind fun _ => made_updateTable
    (Grant.writes_len i (fun _ hr => h (lenReg_subset_lenRegs t i hr)) hg _)) _

theorem made_cmdHuffReadHdr {t : Tbl} (h : lenRegs t ⊆ g.regs) (hp : .brPos ∈ g.regs)
    (hg : g.huff t = true) : (cmdHuffReadHdr t).Made g := by
  have hc : codeRegs t ⊆ g.regs := fun _ hr => h (codeRegs_subset_lenRegs t hr)
  exact (made_invalidate hc hg).seq <| (made_readLens h hp hg).seq <| made_cmdHuffBuild hc hg

/-- The lengths of HUFF_FROM_COUNTS (43_huffman R367). -/
theorem made_lensFromCounts {t : Tbl} (h : lenRegs t ⊆ g.regs) (hg : g.huff t = true) :
    (Cmd.update (lenRegs t) fun s => s.withLens t (huffLengths (s.table t).count)).Made g :=
  made_updateTable (Grant.writes_lens h hg _)

theorem made_cmdHuffFromCounts {t : Tbl} (h : lenRegs t ⊆ g.regs) (hg : g.huff t = true) :
    (cmdHuffFromCounts t).Made g := by
  have hc : codeRegs t ⊆ g.regs := fun _ hr => h (codeRegs_subset_lenRegs t hr)
  exact (made_invalidate hc hg).seq <|
    (made_lensFromCounts h hg).seq <| made_cmdHuffBuild hc hg

theorem made_cmdHuffWriteHdr (h : .bwPos ∈ g.regs) (t : Tbl) : (cmdHuffWriteHdr t).Made g :=
  (Cmd.Made.require _ _).seq <| (Cmd.Made.read _).bind fun _ =>
    .forEach (fun _ => made_writeBits h _ _) _

theorem made_cmdHuffClearCounts {t : Tbl} (h : countRegs t ⊆ g.regs) :
    (cmdHuffClearCounts t).Made g :=
  made_updateTable (Grant.writes_clearCounts h)

theorem made_countHop {t : Tbl} {i : Hop} (h : .huffCount t i ∈ g.regs) :
    (Cmd.update [.huffCount t i] fun s => s.countHop t i).Made g :=
  made_updateTable (Grant.writes_countHop h)

theorem Cmd.pure_bind {α β : Type} (a : α) (f : α → Cmd β) : (Cmd.pure a).bind f = f a := by
  funext s
  show (f a s).after [] = f a s
  cases f a s <;> rfl

theorem made_cmdHuffCountSym {t : Tbl} {sym : BitVec 4} (h : symCountRegs t sym ⊆ g.regs) :
    (cmdHuffCountSym t sym.toNat).Made g := by
  unfold cmdHuffCountSym needHop
  cases hi : hopOfNat sym.toNat with
  | none => exact Cmd.Made.raise (e := .hopRange) (by nofun)
  | some i =>
    rw [symCountRegs, hi] at h
    simp only [Cmd.pure_bind]
    exact made_countHop (h List.mem_cons_self)

theorem made_cmdHuffCountRegion {p : Plane} (h : countRegs p.tbl ⊆ g.regs) :
    (cmdHuffCountRegion p).Made g :=
  (Cmd.Made.check _).seq <| (Cmd.Made.read _).bind fun _ => .forEach (fun _ =>
    (Cmd.Made.read _).bind fun _ => (Cmd.Made.memRead _).bind fun _ => (made_needHop _).bind fun _ =>
      made_countHop (h (mem_countRegs.2 rfl))) _

theorem made_cmdHuffDecSym (h : .brPos ∈ g.regs) (hs : .huffSym ∈ g.regs) (t : Tbl) :
    (cmdHuffDecSym t).Made g :=
  (Cmd.Made.require _ _).seq <| (made_decodeSymbol h t).bind fun _ =>
    .update (Grant.writes_huffSym hs _)

theorem made_cmdHuffEncSym (h : .bwPos ∈ g.regs) (t : Tbl) (n : Nat) : (cmdHuffEncSym t n).Made g :=
  (Cmd.Made.require _ _).seq (made_encodeSymbol h t n)

theorem made_cmdHuffDecRegion (h : .brPos ∈ g.regs) (p : Plane) : (cmdHuffDecRegion p).Made g :=
  (Cmd.Made.require _ _).seq <| (Cmd.Made.check _).seq <| (Cmd.Made.read _).bind fun _ =>
    .forEach (fun _ => (made_decodeSymbol h _).bind fun _ => (Cmd.Made.read _).bind fun _ =>
      .memWrite _ _) _

theorem made_cmdHuffEncRegion (h : .bwPos ∈ g.regs) (p : Plane) : (cmdHuffEncRegion p).Made g :=
  (Cmd.Made.require _ _).seq <| (Cmd.Made.check _).seq <| (Cmd.Made.read _).bind fun _ =>
    .forEach (fun _ => (Cmd.Made.read _).bind fun _ => (Cmd.Made.memRead _).bind fun _ =>
      made_encodeSymbol h _ _) _

/-! #### Predictor -/

section
variable (hs : g.scan = true)
include hs

theorem made_cmdHopBeginDec (h : beginRegs ⊆ g.regs) (p : Plane) : (cmdHopBeginDec p).Made g :=
  (Cmd.Made.require _ _).seq <| (Cmd.Made.check _).seq <| (Cmd.Made.read _).bind fun _ =>
    (Cmd.Made.memRead _).bind fun _ =>
      (Cmd.Made.update (Grant.writes_seed (h List.mem_cons_self) _)).seq <|
        .update (Grant.writes_scanStart (fun _ hr => h (List.mem_cons_of_mem _ hr)) hs _ _)

theorem made_cmdHopBeginEnc (h : beginRegs ⊆ g.regs) (p : Plane) : (cmdHopBeginEnc p).Made g :=
  (Cmd.Made.require _ _).seq <| (Cmd.Made.check _).seq <| (Cmd.Made.read _).bind fun _ =>
    (Cmd.Made.memRead _).bind fun _ =>
      (Cmd.Made.update (Grant.writes_seed (h List.mem_cons_self) _)).seq <|
        (Cmd.Made.read _).bind fun _ => (Cmd.Made.memWrite _ _).seq <|
        .update (Grant.writes_scanStart (fun _ hr => h (List.mem_cons_of_mem _ hr)) hs _ _)

omit hs in
theorem made_readDst (p : Plane) (x y : Nat) : (readDst p x y).Made g :=
  (Cmd.Made.read _).bind fun _ => .memRead _

omit hs in
theorem made_predict (p : Plane) (c : PixelClass) (ax ay : Nat) : (predict p c ax ay).Made g := by
  unfold predict
  split
  · exact .read _
  · exact made_readDst _ _ _
  · exact made_readDst _ _ _
  · exact (made_readDst _ _ _).bind fun _ => (made_readDst _ _ _).bind fun _ => .pure _
  · exact (made_readDst _ _ _).bind fun _ => (made_readDst _ _ _).bind fun _ => .read _

omit hs in
theorem made_pixelHop (p : Plane) (d : Dir) (ax ay step : Nat) (pred : Byte) :
    (pixelHop p d ax ay step pred).Made g := by
  unfold pixelHop
  split
  · exact (Cmd.Made.read _).bind fun _ => (Cmd.Made.memRead _).bind fun _ =>
      (made_needHop _).bind fun _ => .pure _
  · exact (Cmd.Made.read _).bind fun _ => (Cmd.Made.memRead _).bind fun _ =>
      (Cmd.Made.read _).bind fun _ => (Cmd.Made.read _).bind fun _ =>
        (Cmd.Made.memWrite _ _).seq (.pure _)

theorem made_stepPixel (h : stepRegs ⊆ g.regs) : stepPixel.Made g :=
  Cmd.Made.readAll (hb := fun _ _ _ _ => rfl) fun _ => (made_predict _ _ _ _).bind fun _ =>
    (made_pixelHop _ _ _ _ _ _).bind fun _ => (Cmd.Made.read _).bind fun _ =>
      (Cmd.Made.read _).bind fun _ => (Cmd.Made.memWrite _ _).seq <|
        (Cmd.Made.update (Grant.writes_lastPix (h (by simp [stepRegs])) _)).seq <|
          (Cmd.Made.update (Grant.writes_hopState (h (by simp [stepRegs])) hs _)).seq <|
            .update (Grant.writes_cursor (fun _ hr => h (by revert hr; simp [stepRegs]; tauto)) hs)

theorem made_cmdHopStep (h : stepRegs ⊆ g.regs) : cmdHopStep.Made g :=
  (Cmd.Made.require _ _).seq <| (Cmd.Made.require _ _).seq <| (Cmd.Made.read _).bind fun _ =>
    (Cmd.Made.check _).seq <| (Cmd.Made.require _ _).seq (made_stepPixel hs h)

theorem made_cmdHopDecRegion (hb : beginRegs ⊆ g.regs) (h : stepRegs ⊆ g.regs) (p : Plane) :
    (cmdHopDecRegion p).Made g :=
  (made_cmdHopBeginDec hs hb p).seq ((Cmd.Made.composes g).scanRegion (made_cmdHopStep hs h))

theorem made_cmdHopEncRegion (hb : beginRegs ⊆ g.regs) (h : stepRegs ⊆ g.regs) (p : Plane) :
    (cmdHopEncRegion p).Made g :=
  (made_cmdHopBeginEnc hs hb p).seq ((Cmd.Made.composes g).scanRegion (made_cmdHopStep hs h))

end

/-! #### Frame commands -/

/-- The registers that both frame commands write. -/
theorem subset_frameRegs (d : Dir) : geomRegs ⊆ frameRegs d ∧ beginRegs ⊆ frameRegs d ∧
    stepRegs ⊆ frameRegs d ∧ ∀ t, lenRegs t ⊆ frameRegs d := by
  refine ⟨?_, ?_, ?_, fun t => ?_⟩
  · intro r hr
    simp [frameRegs, hr]
  · intro r hr
    simp [frameRegs, hr]
  · intro r hr
    simp [frameRegs, hr]
  · intro r hr
    cases t <;> simp [frameRegs, hr]

theorem subset_frameRegs_decode : [.mode, .width, .height, .grid] ⊆ frameRegs .decode ∧
    .brPos ∈ frameRegs .decode := by
  simp [frameRegs]

theorem subset_frameRegs_encode : .bwPos ∈ frameRegs .encode ∧
    ∀ t, countRegs t ⊆ frameRegs .encode := by
  refine ⟨by simp [frameRegs], fun t r hr => ?_⟩
  cases t <;> simp [frameRegs, hr]

theorem made_cmdFrameDecode : cmdFrameDecode.Made (grantOf .frameDecode) := by
  obtain ⟨geom, begins, steps, lens⟩ := subset_frameRegs .decode
  obtain ⟨hdr, pos⟩ := subset_frameRegs_decode
  exact (Cmd.Made.composes _).frameDecode
    (fun hf hc => .withWorkers (Grant.writes_failedFrame (fun _ h => h) (fun _ => rfl) rfl) hc hf)
    (.require _ _) (made_cmdHdrRead hdr pos) (made_cmdSeedsRead pos)
    (fun t => made_cmdHuffReadHdr (lens t) pos rfl) (made_cmdMeshRead pos) (made_cmdPlaneGeom geom)
    (made_cmdBlockGeom geom) (made_cmdHuffDecRegion pos) (made_cmdHopDecRegion rfl begins steps)

theorem made_cmdFrameEncode : cmdFrameEncode.Made (grantOf .frameEncode) := by
  obtain ⟨geom, begins, steps, lens⟩ := subset_frameRegs .encode
  obtain ⟨pos, counts⟩ := subset_frameRegs_encode
  exact (Cmd.Made.composes _).frameEncode
    (fun hf hc => .withWorkers (Grant.writes_failedFrame (fun _ h => h) (fun _ => rfl) rfl) hc hf)
    (.require _ _) (.check _) (fun t => made_cmdHuffClearCounts (counts t)) (made_cmdPlaneGeom geom)
    (made_cmdBlockGeom geom) (made_cmdHopEncRegion rfl begins steps)
    (fun p => made_cmdHuffCountRegion (counts p.tbl)) (fun t => made_cmdHuffFromCounts (lens t) rfl)
    (made_cmdHdrWrite pos) (made_cmdSeedsWrite pos) (made_cmdHuffWriteHdr pos) (made_cmdMeshWrite pos)
    (made_cmdHuffEncRegion pos) (made_cmdBwFlush pos)

theorem made_withPlane {f : BitVec 2} {c : Plane → Cmd Unit}
    (h : ∀ p, Plane.ofField f = some p → (c p).Made g) : (withPlane f c).Made g := by
  unfold withPlane
  split
  · next p hp => exact h p hp
  · exact .raise (by nofun)

end

/-- Every body is made of reads, checks, memory accesses and the register writes its rule grants. -/
theorem made_commandBody (i : Instr) : (commandBody i).Made (grantOf i) := by
  cases i with
  | nop => exact .pure ()
  | buildTables => exact made_cmdBuildTables rfl
  | lutReadRec => exact made_cmdLutReadRec List.mem_cons_self
  | lutReadBest => exact made_cmdLutReadBest List.mem_cons_self
  | checkConfig => exact .check _
  | hdrRead => exact made_cmdHdrRead (by simp [grantOf, writesRegs]) (by simp [grantOf, writesRegs])
  | hdrWrite => exact made_cmdHdrWrite List.mem_cons_self
  | seedsRead => exact made_cmdSeedsRead List.mem_cons_self
  | seedsWrite => exact made_cmdSeedsWrite List.mem_cons_self
  | planeGeom f => exact made_withPlane fun p _ => made_cmdPlaneGeom (List.Subset.refl _) p
  | blockGeom f bx row =>
    exact made_withPlane fun p _ => made_cmdBlockGeom (List.Subset.refl _) p _ _
  | hopBeginDec f => exact made_withPlane fun p _ => made_cmdHopBeginDec rfl (List.Subset.refl _) p
  | hopBeginEnc f => exact made_withPlane fun p _ => made_cmdHopBeginEnc rfl (List.Subset.refl _) p
  | hopStep => exact made_cmdHopStep rfl (List.Subset.refl _)
  | hopDecRegion f =>
    exact made_withPlane fun p _ => made_cmdHopDecRegion rfl (List.subset_append_left _ _)
      (List.subset_append_right _ _) p
  | hopEncRegion f =>
    exact made_withPlane fun p _ => made_cmdHopEncRegion rfl (List.subset_append_left _ _)
      (List.subset_append_right _ _) p
  | huffBuild t => exact made_cmdHuffBuild (List.Subset.refl _) (by simp [grantOf, Instr.writesValid])
  | huffReadHdr t =>
    exact made_cmdHuffReadHdr (List.subset_cons_self _ _) List.mem_cons_self
      (by simp [grantOf, Instr.writesValid])
  | huffWriteHdr t => exact made_cmdHuffWriteHdr List.mem_cons_self t
  | huffClearCounts t => exact made_cmdHuffClearCounts (List.Subset.refl _)
  | huffCountSym t sym => exact made_cmdHuffCountSym (List.Subset.refl _)
  | huffCountRegion f =>
    refine made_withPlane fun p hp => made_cmdHuffCountRegion ?_
    simp [grantOf, writesRegs, planeCountRegs, hp]
  | huffFromCounts t =>
    exact made_cmdHuffFromCounts (List.Subset.refl _) (by simp [grantOf, Instr.writesValid])
  | huffDecSym t => exact made_cmdHuffDecSym List.mem_cons_self (by simp [grantOf, writesRegs]) t
  | huffEncSym t sym => exact made_cmdHuffEncSym List.mem_cons_self t _
  | huffDecRegion f => exact made_withPlane fun p _ => made_cmdHuffDecRegion List.mem_cons_self p
  | huffEncRegion f => exact made_withPlane fun p _ => made_cmdHuffEncRegion List.mem_cons_self p
  | meshRead => exact made_cmdMeshRead List.mem_cons_self
  | meshWrite => exact made_cmdMeshWrite List.mem_cons_self
  | bwFlush => exact made_cmdBwFlush List.mem_cons_self
  | frameDecode => exact made_cmdFrameDecode
  | frameEncode => exact made_cmdFrameEncode

end Sys2Proof.Machine
end

section
namespace Sys2Proof.Machine

-- One theorem at a time: many checked at once need more threads than the memory limit allows.
set_option Elab.async false

/-! ### What a command leaves -/

section
variable {i : Instr} {s t u : State} {e : ErrCode}

/-- A command ends well, or with an error that it raises; either way its body has changed granted things
only. -/
theorem exec_cases (h : exec i s = .next t) :
    (∃ u, (commandBody i).out s = .ok () u ∧ (grantOf i).Frame s u ∧ t = u.finish) ∨
    (∃ e u, (commandBody i).out s = .raised e u ∧ e ≠ .noError ∧ (grantOf i).Frame s u ∧
      t = u.raiseEnd e) := by
  rw [exec_eq] at h
  rcases runCommand_cases h with ⟨u, ho, rfl⟩ | ⟨e, u, ho, rfl⟩
  · exact .inl ⟨u, ho, (made_commandBody i).frame_ok ho, rfl⟩
  · exact .inr ⟨e, u, ho, (made_commandBody i).raised_ne ho, (made_commandBody i).frame_raised ho, rfl⟩

/-- The command's word depends on the engine alone. -/
theorem State.commandWord_congr (h : t.eng = s.eng) : t.commandWord = s.commandWord := by
  simp [State.commandWord, h]

/-- A raise that ends a command changes only the engine and the races. -/
theorem State.raiseEnd_undo (u : State) (e : ErrCode) :
    ((u.raiseEnd e).withEng u.eng).withRaces u.races = u := by
  unfold State.raiseEnd State.recordError
  split <;> rfl

/-- A later error leaves the record. -/
theorem State.raiseEnd_eng_later (h : ¬ u.quiet) (e : ErrCode) :
    (u.raiseEnd e).eng = { u.eng with running := none, irqDone := true } := by
  rw [State.raiseEnd, State.recordError_later h]
  rfl

/-- The engine after a raise: the first error is recorded. -/
theorem State.raiseEnd_eng_cases (u : State) (e : ErrCode) :
    (u.raiseEnd e).eng = { u.eng with running := none, irqDone := true } ∨
    (u.quiet ∧ (u.raiseEnd e).eng = { u.eng with
      running := none, irqDone := true, err := e, errCmd := u.commandWord, errReg := false,
      irqErr := true }) := by
  by_cases h : u.quiet
  · exact .inr ⟨h, State.raiseEnd_eng h e⟩
  · exact .inl (State.raiseEnd_eng_later h e)

/-- Ending a command changes no register but STATUS, IRQ_STATUS and ERR_CMD. -/
theorem State.readReg_finish (u : State) {r : Reg} (hs : r ≠ .status) (hi : r ≠ .irqStatus) :
    u.finish.readReg r = u.readReg r := by
  cases r <;> simp at hs hi <;> rfl

theorem State.readReg_recordError (u : State) (e : ErrCode) (w : Word) (b : Bool) {r : Reg}
    (hs : r ≠ .status) (hi : r ≠ .irqStatus) (he : r ≠ .errCmd) :
    (u.recordError e w b).readReg r = u.readReg r := by
  unfold State.recordError
  split
  · cases r <;> simp at hs hi he <;> rfl
  · rfl

theorem State.readReg_raiseEnd (u : State) (e : ErrCode) {r : Reg} (hs : r ≠ .status)
    (hi : r ≠ .irqStatus) (he : r ≠ .errCmd) : (u.raiseEnd e).readReg r = u.readReg r :=
  (State.readReg_finish _ hs hi).trans (u.readReg_recordError _ _ _ hs hi he)

end

/-- Settles O14: by the two ways a body can end, its engine being that of the start. -/
theorem everyCommandEndsAndRecordsItsError : Obligations.EveryCommandEndsAndRecordsItsError := by
  intro i s
  have hm := made_commandBody i
  cases ho : (commandBody i).out s with
  | ok a u =>
    have heng := (hm.frame_ok ho).eng
    refine ⟨u.finish, exec_ok ho, rfl, rfl, by simp [heng], rfl, ?_, ?_⟩
    · rintro v hv
      cases hv
      exact ⟨rfl, heng⟩
    · rintro e v hv
      cases hv
  | raised e u =>
    have heng := (hm.frame_raised ho).eng
    refine ⟨u.raiseEnd e, exec_raised ho, rfl, rfl, by simp [heng], rfl, ?_, ?_⟩
    · rintro v hv
      cases hv
    · rintro e' v hv
      cases hv
      refine ⟨hm.raised_ne ho, State.raiseEnd_undo u e, heng, fun hq => ?_, fun hq => ?_⟩
      · rw [State.raiseEnd_eng (heng ▸ hq), State.commandWord_congr heng]
        exact ⟨rfl, rfl, rfl, rfl⟩
      · rw [State.raiseEnd_eng_later (by rwa [State.quiet, heng]), heng]
        exact ⟨rfl, rfl, rfl, rfl⟩

/-- Where a body that logs its writes ends, a register that no action writes reads as before. -/
theorem Cmd.Logs.out_readReg {α : Type} {c : Cmd α} (h : c.Logs) {s u : State} {r : Reg}
    (hu : (∃ a, c.out s = .ok a u) ∨ ∃ e, c.out s = .raised e u) (hr : r ≠ .status)
    (hn : ∀ a ∈ c.acts s, r ∉ a.regs) : u.readReg r = s.readReg r := by
  have hl := h s
  unfold Cmd.acts at hn
  unfold Cmd.out at hu
  cases hc : c s with
  | ok a s' t =>
    rw [hc] at hl hn hu
    obtain ⟨b, hb⟩ | ⟨e, he⟩ := hu
    · cases hb
      exact hl r hr hn
    · cases he
  | raised e s' t =>
    rw [hc] at hl hn hu
    obtain ⟨b, hb⟩ | ⟨e, he⟩ := hu
    · cases hb
    · cases he
      exact hl r hr hn

/-- Settles O19: the body keeps the frame of its grant, and each way of ending touches the engine and the
races only. -/
theorem commandsWriteOnlyTheirRegisters : Obligations.CommandsWriteOnlyTheirRegisters := by
  intro i s t h
  have hm := made_commandBody i
  refine ⟨hm.within s, ?_⟩
  rcases exec_cases h with ⟨u, ho, hf, rfl⟩ | ⟨e, u, ho, -, hf, rfl⟩
  · refine ⟨fun r hr hs hi _ => ?_, .inl ?_, fun hb => hf.luts (by simp [grantOf, hb]),
      fun w hw => (hf.huff w hw).1, hf.scan, hf.plat, hf.inbox, hf.bus⟩
    · rw [State.readReg_finish u hs hi]
      exact hm.logs.out_readReg (.inl ⟨(), ho⟩) hs hr
    · rw [State.finish_eng, hf.eng]
  · refine ⟨fun r hr hs hi he => ?_, ?_, fun hb => ?_, fun w hw => ?_, fun hw => ?_, ?_, ?_, ?_⟩
    · rw [State.readReg_raiseEnd u e hs hi he]
      exact hm.logs.out_readReg (.inr ⟨e, ho⟩) hs hr
    · rw [← State.commandWord_congr hf.eng, State.quiet, ← hf.eng]
      exact (u.raiseEnd_eng_cases e).imp id fun h => ⟨e, h⟩
    · simpa using hf.luts (by simp [grantOf, hb])
    · simpa [State.table] using (hf.huff w hw).1
    · simpa using hf.scan hw
    · simpa using hf.plat
    · simpa using hf.inbox
    · simpa using hf.bus

end Sys2Proof.Machine
end

section
namespace Sys2Proof.Machine

-- One theorem at a time: many checked at once need more threads than the memory limit allows.
set_option Elab.async false

/-! ### What a register reads as after a write (10_state R32, R57, R64) -/

section
variable {s t : State} {r r' : Reg} {v : Word}

/-- A register reads its own groups only: the bus and the accesses to come show in none. -/
theorem State.readReg_withBus (s : State) (b : BusReply) (r : Reg) :
    (s.withBus b).readReg r = s.readReg r := by
  cases r <;> rfl

theorem State.readReg_withInbox (s : State) (l : List Pending) (r : Reg) :
    (s.withInbox l).readReg r = s.readReg r := by
  cases r <;> rfl

@[simp] theorem State.table_withBus (s : State) (b : BusReply) (u : Tbl) :
    (s.withBus b).table u = s.table u := by
  cases u <;> rfl

@[simp] theorem State.table_withInbox (s : State) (l : List Pending) (u : Tbl) :
    (s.withInbox l).table u = s.table u := by
  cases u <;> rfl

/-! The words of the map, field by field, as masks of the value written. -/

theorem byte_eq_mask (v : Word) : (v.extractLsb' 0 8).setWidth 32 = v &&& 0x000000FF#32 := by
  refine BitVec.eq_of_getLsbD_eq fun i hi => ?_
  simp only [BitVec.getLsbD_setWidth, BitVec.getLsbD_extractLsb', BitVec.getLsbD_and]
  interval_cases i <;> simp

theorem half_eq_mask (v : Word) : (v.extractLsb' 0 16).setWidth 32 = v &&& 0x0000FFFF#32 := by
  refine BitVec.eq_of_getLsbD_eq fun i hi => ?_
  simp only [BitVec.getLsbD_setWidth, BitVec.getLsbD_extractLsb', BitVec.getLsbD_and]
  interval_cases i <;> simp

theorem grid_eq_mask (v : Word) :
    (0#16 ++ v.extractLsb' 8 8 ++ v.extractLsb' 0 8 : Word) = v &&& 0x0000FFFF#32 := by
  refine BitVec.eq_of_getLsbD_eq fun i hi => ?_
  simp only [BitVec.getLsbD_append, BitVec.getLsbD_extractLsb', BitVec.getLsbD_and]
  interval_cases i <;> simp

theorem chroma_eq_mask (v : Word) :
    (0#24 ++ v.extractLsb' 4 4 ++ v.extractLsb' 0 4 : Word) = v &&& 0x000000FF#32 := by
  refine BitVec.eq_of_getLsbD_eq fun i hi => ?_
  simp only [BitVec.getLsbD_append, BitVec.getLsbD_extractLsb', BitVec.getLsbD_and]
  interval_cases i <;> simp

theorem lutArgs_eq_mask (v : Word) :
    (0#3 ++ v.extractLsb' 24 5 ++ 0#2 ++ v.extractLsb' 16 6 ++ v.extractLsb' 8 8 ++
      v.extractLsb' 0 8 : Word) = v &&& 0x1F3FFFFF#32 := by
  refine BitVec.eq_of_getLsbD_eq fun i hi => ?_
  simp only [BitVec.getLsbD_append, BitVec.getLsbD_extractLsb', BitVec.getLsbD_and]
  interval_cases i <;> simp

theorem lenLo_eq_mask (v : Word) :
    (v.extractLsb' 28 4 ++ v.extractLsb' 24 4 ++ v.extractLsb' 20 4 ++ v.extractLsb' 16 4 ++
      v.extractLsb' 12 4 ++ v.extractLsb' 8 4 ++ v.extractLsb' 4 4 ++ v.extractLsb' 0 4 : Word) =
      v &&& 0xFFFFFFFF#32 := by
  refine BitVec.eq_of_getLsbD_eq fun i hi => ?_
  simp only [BitVec.getLsbD_append, BitVec.getLsbD_extractLsb', BitVec.getLsbD_and]
  interval_cases i <;> simp

theorem lenHi_eq_mask (v : Word) :
    (0#28 ++ v.extractLsb' 0 4 : Word) = v &&& 0x0000000F#32 := by
  refine BitVec.eq_of_getLsbD_eq fun i hi => ?_
  simp only [BitVec.getLsbD_append, BitVec.getLsbD_extractLsb', BitVec.getLsbD_and]
  interval_cases i <;> simp

theorem word_eq_mask (v : Word) : v = v &&& 0xFFFFFFFF#32 :=
  (BitVec.and_allOnes (x := v)).symm

/-- A stored value reads back truncated to the register's fields. -/
theorem State.readReg_writeReg_same (h : r.stores = true) :
    (s.writeReg r v).readReg r = v &&& r.writeMask := by
  cases r with
  | mode => exact byte_eq_mask v
  | ratio => exact byte_eq_mask v
  | comp => exact half_eq_mask v
  | grid => exact grid_eq_mask v
  | chroma => exact chroma_eq_mask v
  | lutArgs => exact lutArgs_eq_mask v
  | huffLenLo t => cases t <;> exact lenLo_eq_mask v
  | huffLenHi t => cases t <;> exact lenHi_eq_mask v
  | huffCount t i =>
    simp only [State.writeReg, State.readReg, State.table_withTable_same, Nine.get_set_same]
    exact word_eq_mask v
  | srcBase p => cases p <;> exact word_eq_mask v
  | dstBase p => cases p <;> exact word_eq_mask v
  | hopBase p => cases p <;> exact word_eq_mask v
  | stride p => cases p <;> exact word_eq_mask v
  | _ => first | exact word_eq_mask v | cases h

/-- STATUS shows no table but by its flag. -/
theorem State.statusWord_withTable {u : Tbl} {h : HuffTable} (hv : h.valid = (s.table u).valid) :
    (s.withTable u h).statusWord = s.statusWord := by
  cases u <;> simp_all [State.statusWord, State.withTable, State.table, State.busy]

/-- New buffer registers of plane `p` show in the fields that changed only. -/
theorem State.readReg_withBuf {p : Plane} {b : PlaneBuf} (hsrc : r = .srcBase p → b.src = (s.buf p).src)
    (hdst : r = .dstBase p → b.dst = (s.buf p).dst) (hhop : r = .hopBase p → b.hop = (s.buf p).hop)
    (hstride : r = .stride p → b.stride = (s.buf p).stride) :
    (s.withBuf p b).readReg r = s.readReg r := by
  have key : ∀ q, q ≠ p → (s.withBuf p b).buf q = s.buf q := fun q hq => by
    rw [State.buf_withBuf, if_neg hq]
  cases r with
  | srcBase q =>
    by_cases hq : q = p
    · subst hq
      simpa [State.readReg] using hsrc rfl
    · simp [State.readReg, key q hq]
  | dstBase q =>
    by_cases hq : q = p
    · subst hq
      simpa [State.readReg] using hdst rfl
    · simp [State.readReg, key q hq]
  | hopBase q =>
    by_cases hq : q = p
    · subst hq
      simpa [State.readReg] using hhop rfl
    · simp [State.readReg, key q hq]
  | stride q =>
    by_cases hq : q = p
    · subst hq
      simpa [State.readReg] using hstride rfl
    · simp [State.readReg, key q hq]
  | _ => cases p <;> rfl

theorem Reg.ne_of_not_affectedBy (h : r'.affectedBy r = false) : r' ≠ r := by
  rintro rfl
  simp [Reg.affectedBy] at h

/-- A write changes no register that it does not affect. -/
theorem State.readReg_writeReg_other (h : r.stores = true) (hr : r'.affectedBy r = false) :
    (s.writeReg r v).readReg r' = s.readReg r' := by
  cases r with
  | huffLenLo t =>
    simp only [Reg.affectedBy, Bool.or_eq_false_iff, beq_eq_false_iff_ne, List.contains_eq_mem,
      decide_eq_false_iff_not] at hr
    obtain ⟨hne, hst, hc⟩ := hr
    exact State.readReg_withTable hst (fun e => absurd e hne) (fun _ => rfl)
      (fun i e => absurd (e ▸ mem_codeRegs.2 rfl) hc) fun _ _ => rfl
  | huffLenHi t =>
    simp only [Reg.affectedBy, Bool.or_eq_false_iff, beq_eq_false_iff_ne, List.contains_eq_mem,
      decide_eq_false_iff_not] at hr
    obtain ⟨hne, hst, hc⟩ := hr
    exact State.readReg_withTable hst (fun _ => rfl) (fun e => absurd e hne)
      (fun i e => absurd (e ▸ mem_codeRegs.2 rfl) hc) fun _ _ => rfl
  | huffCount t i =>
    by_cases hst : r' = .status
    · subst hst
      exact State.statusWord_withTable rfl
    · refine State.readReg_withTable hst (fun _ => rfl) (fun _ => rfl) (fun _ _ => rfl) ?_
      rintro j rfl
      refine Nine.get_set_other _ _ ?_
      rintro rfl
      simp [Reg.affectedBy] at hr
  | srcBase p =>
    have hne := Reg.ne_of_not_affectedBy hr
    exact State.readReg_withBuf (absurd · hne) (fun _ => rfl) (fun _ => rfl) fun _ => rfl
  | dstBase p =>
    have hne := Reg.ne_of_not_affectedBy hr
    exact State.readReg_withBuf (fun _ => rfl) (absurd · hne) (fun _ => rfl) fun _ => rfl
  | hopBase p =>
    have hne := Reg.ne_of_not_affectedBy hr
    exact State.readReg_withBuf (fun _ => rfl) (fun _ => rfl) (absurd · hne) fun _ => rfl
  | stride p =>
    have hne := Reg.ne_of_not_affectedBy hr
    exact State.readReg_withBuf (fun _ => rfl) (fun _ => rfl) (fun _ => rfl) (absurd · hne)
  | _ => first | (cases h; done) | (cases r' <;> first | rfl | cases hr)

/-- What a register write on an idle core leaves alone. -/
theorem State.writeReg_kept (s : State) (r : Reg) (v : Word) :
    let t := s.writeReg r v
    t.mem = s.mem ∧ t.plat = s.plat ∧ t.tablesValid = s.tablesValid ∧ t.luts = s.luts ∧
      t.scan = s.scan ∧ t.races = s.races ∧ t.eng.err = s.eng.err ∧ t.eng.running = s.eng.running := by
  cases r with
  | srcBase p => cases p <;> exact ⟨rfl, rfl, rfl, rfl, rfl, rfl, rfl, rfl⟩
  | dstBase p => cases p <;> exact ⟨rfl, rfl, rfl, rfl, rfl, rfl, rfl, rfl⟩
  | hopBase p => cases p <;> exact ⟨rfl, rfl, rfl, rfl, rfl, rfl, rfl, rfl⟩
  | stride p => cases p <;> exact ⟨rfl, rfl, rfl, rfl, rfl, rfl, rfl, rfl⟩
  | huffLenLo t => cases t <;> exact ⟨rfl, rfl, rfl, rfl, rfl, rfl, rfl, rfl⟩
  | huffLenHi t => cases t <;> exact ⟨rfl, rfl, rfl, rfl, rfl, rfl, rfl, rfl⟩
  | huffCount t i => cases t <;> exact ⟨rfl, rfl, rfl, rfl, rfl, rfl, rfl, rfl⟩
  | _ => exact ⟨rfl, rfl, rfl, rfl, rfl, rfl, rfl, rfl⟩

/-- A length write takes its table's flag down; every other write leaves the tables' lengths, codes and
flags (10_state R57). -/
theorem State.writeReg_table (s : State) (r : Reg) (v : Word) (u : Tbl) :
    ((r = .huffLenLo u ∨ r = .huffLenHi u) ∧ ((s.writeReg r v).table u).valid = false) ∨
    (r ≠ .huffLenLo u ∧ r ≠ .huffLenHi u ∧ ((s.writeReg r v).table u).valid = (s.table u).valid ∧
      ((s.writeReg r v).table u).len = (s.table u).len ∧
      ((s.writeReg r v).table u).code = (s.table u).code) := by
  cases r with
  | huffLenLo t =>
    by_cases h : u = t
    · subst h
      simp [State.writeReg, State.setLenLo]
    · simp [State.writeReg, State.setLenLo, State.table_withTable_other s _ h, Ne.symm h]
  | huffLenHi t =>
    by_cases h : u = t
    · subst h
      simp [State.writeReg, State.setLenHi]
    · simp [State.writeReg, State.setLenHi, State.table_withTable_other s _ h, Ne.symm h]
  | huffCount t i =>
    by_cases h : u = t
    · subst h
      simp [State.writeReg]
    · simp [State.writeReg, State.table_withTable_other s _ h]
  | srcBase p => cases p <;> exact .inr ⟨by simp, by simp, rfl, rfl, rfl⟩
  | dstBase p => cases p <;> exact .inr ⟨by simp, by simp, rfl, rfl, rfl⟩
  | hopBase p => cases p <;> exact .inr ⟨by simp, by simp, rfl, rfl, rfl⟩
  | stride p => cases p <;> exact .inr ⟨by simp, by simp, rfl, rfl, rfl⟩
  | _ => exact .inr ⟨by simp, by simp, rfl, rfl, rfl⟩

theorem writeIdle_eq (hc : r ≠ .cmd) (ht : r ≠ .ctrl) :
    writeIdle r v s = .next ((s.writeReg r v).withBus .ack) := by
  cases r <;> first | rfl | contradiction

/-- A read-only register takes no write (10_state R32). -/
theorem State.writeReg_readOnly (h : r.access = .readOnly) : s.writeReg r v = s := by
  cases r <;> first | rfl | cases h

/-- CTRL with the stored bits of a write (10_state R37). -/
theorem ctrl_eq_mask (v : Word) :
    (0#29 ++ bit (v.getLsbD 2) ++ bit (v.getLsbD 1) ++ 0#1 : Word) = v &&& 6#32 := by
  refine BitVec.eq_of_getLsbD_eq fun i hi => ?_
  simp only [BitVec.getLsbD_append, BitVec.getLsbD_and, bit, BitVec.getLsbD_ofBool]
  interval_cases i <;> simp

theorem ctrl_busy_eq_mask (v : Word) (a b : Bool) :
    (0#29 ++ bit (v.getLsbD 2) ++ bit b ++ 0#1 : Word) =
      (v &&& 4#32) ||| ((0#29 ++ bit a ++ bit b ++ 0#1 : Word) &&& 2#32) := by
  refine BitVec.eq_of_getLsbD_eq fun i hi => ?_
  simp only [BitVec.getLsbD_append, BitVec.getLsbD_and, BitVec.getLsbD_or, bit,
    BitVec.getLsbD_ofBool]
  interval_cases i <;> simp

theorem State.readReg_withCtrl (s : State) (c : Control) (h : r ≠ .ctrl) :
    (s.withCtrl c).readReg r = s.readReg r := by
  cases r <;> first | rfl | contradiction

/-- A running command that goes on shows in no register. -/
theorem State.readReg_advance {run run' : Running} (h : s.eng.running = some run') (k : Nat) :
    (s.advance run k).readReg r = s.readReg r := by
  cases r with
  | status => simp [State.readReg, State.statusWord, State.advance, State.busy, h]
  | _ => rfl

end

/-- Settles O10: from what a write stores, and what it leaves. -/
theorem registerWriteThenRead : Obligations.RegisterWriteThenRead := by
  intro s r v d rest hi
  refine ⟨fun hn hs => ?_, fun hn ha => ?_, fun hn hr hv => ?_, fun run k hrun hd hr hv => ?_⟩
  · have hc : r ≠ .cmd := by rintro rfl; cases hs
    have ht : r ≠ .ctrl := by rintro rfl; cases hs
    refine ⟨_, (step_idle_write hn hi).trans (writeIdle_eq hc ht), ?_, fun r' hr' => ?_, fun u => ?_,
      ((s.withInbox rest).writeReg_kept r v).1, rfl⟩
    · rw [State.readReg_withBus, State.readReg_writeReg_same hs]
    · rw [State.readReg_withBus, State.readReg_writeReg_other hs hr', State.readReg_withInbox]
    · rcases (s.withInbox rest).writeReg_table r v u with ⟨hr, hv⟩ | ⟨hlo, hhi, hv, -, -⟩
      · rcases hr with rfl | rfl <;> simpa using hv
      · simpa [hlo, hhi] using hv
  · have hc : r ≠ .cmd := by rintro rfl; cases ha
    have ht : r ≠ .ctrl := by rintro rfl; cases ha
    refine ⟨_, (step_idle_write hn hi).trans (writeIdle_eq hc ht), fun r' => ?_, ?_, rfl⟩
    · rw [State.readReg_withBus, State.writeReg_readOnly ha, State.readReg_withInbox]
    · exact ((s.withInbox rest).writeReg_kept r v).1
  · subst hr
    refine ⟨_, step_idle_write hn hi, ?_⟩
    simp only [State.writeCtrl, hv, Bool.false_eq_true, if_false, State.setCtrl]
    refine ⟨ctrl_eq_mask v, fun r' hr' => ?_, rfl, rfl⟩
    rw [State.readReg_withBus, State.readReg_withCtrl _ _ hr', State.readReg_withInbox]
  · subst hr hd
    refine ⟨_, step_busy_write hrun hi, ?_⟩
    simp only [writeBusy, hv, Bool.false_eq_true, if_false]
    refine ⟨ctrl_busy_eq_mask v _ _, fun r' hr' => ?_, rfl, rfl, rfl⟩
    rw [State.readReg_withBus, State.readReg_withCtrl _ _ hr', State.readReg_advance (by simpa using hrun),
      State.readReg_withInbox]

end Sys2Proof.Machine
end

section
namespace Sys2Proof.Machine

-- One theorem at a time: many checked at once need more threads than the memory limit allows.
set_option Elab.async false

/-! ### Starting a command (10_state R34) -/

theorem decodePlane_wellFormed {w : Word} {f : BitVec 2 → Instr} {i : Instr}
    (hf : ∀ p, (f p).wellFormed = planeLegal p) (h : decodePlane w f = .ok i) :
    i.wellFormed = true := by
  unfold decodePlane at h
  split at h
  · next hp =>
    cases h
    rw [hf, hp]
  · cases h

/-- The decoder answers well-formed commands only (30_encoding R152, R159). -/
theorem decode_wellFormed {w : Word} {i : Instr} (h : decode w = .ok i) : i.wellFormed = true := by
  unfold decode at h
  split at h <;> first | exact decodePlane_wellFormed (fun _ => rfl) h | (cases h <;> rfl)

theorem runWord_ok {w : Word} {i : Instr} (h : decode w = .ok i) (s : State) :
    runWord w s = exec i s := by
  rw [runWord, h]

/-- No access lands in the command that starts now. -/
theorem overlapNext_eq_false {s : State} (h : ∀ q ∈ s.inbox.head?, q.during = none) :
    overlapNext s = false := by
  unfold overlapNext
  cases hi : s.inbox with
  | nil => rfl
  | cons q l => simp [h q (by simp [hi])]

/-- A command word written to an idle core with no error, with no access landing in the command, runs to
its end. -/
theorem writeCmd_runs {s : State} {w : Word} (hq : s.quiet)
    (hl : ∀ q ∈ s.inbox.head?, q.during = none) :
    writeCmd w s = runWord w (((s.withEng { s.eng with cmd := w }).withBus .ack).accept w) := by
  let u := (s.withEng { s.eng with cmd := w }).withBus .ack
  have ho : overlapNext u = false := overlapNext_eq_false hl
  calc writeCmd w s
      = if u.eng.err ≠ .noError then .next u
        else if overlapNext u then .next (u.accept w) else complete (u.accept w) := rfl
    _ = complete (u.accept w) := by
        rw [if_neg (show ¬ u.eng.err ≠ .noError from not_not.2 hq), if_neg (by simp [ho])]

/-- Settles O5: the write is accepted and completes in its step; a running command completes in the
next. -/
theorem stepRunsTheDecodedCommand : Obligations.StepRunsTheDecodedCommand := by
  intro s w i hd
  refine ⟨decode_wellFormed hd, fun d rest hn hq hi hl => ?_, fun r hr hw hl => ?_⟩
  · calc step s = writeCmd w (s.withInbox rest) := step_idle_write hn hi
      _ = runWord w (s.accepted w rest) := writeCmd_runs (s := s.withInbox rest) hq hl
      _ = exec i (s.accepted w rest) := runWord_ok hd _
  · rw [step_complete hr hl, hw, runWord_ok hd]

/-! ### Resets (10_state R33, 70_reset R700) -/

/-- The reset state reads the map's reset column. -/
theorem readReg_reset (r : Reg) : State.reset.readReg r = r.resetValue := by
  cases r with
  | srcBase p => cases p <;> decide
  | dstBase p => cases p <;> decide
  | hopBase p => cases p <;> decide
  | stride p => cases p <;> decide
  | huffLenLo t => cases t <;> decide
  | huffLenHi t => cases t <;> decide
  | huffCode t i => cases t <;> (revert i; decide)
  | huffCount t i => cases t <;> (revert i; decide)
  | _ => decide

/-- After hard reset every register reads the map's reset column. -/
theorem State.readReg_hardReset (s : State) (r : Reg) : s.hardReset.readReg r = r.resetValue := by
  have same : s.hardReset.readReg r = State.reset.readReg r := by cases r <;> rfl
  rw [same, readReg_reset]

section
variable {s : State} {a : HostAccess} {d : Option Nat} {rest : List Pending}

/-- The next access to an idle core. -/
theorem step_idle_access (h : s.eng.running = none)
    (hi : s.inbox = { access := a, during := d } :: rest) :
    step s = accessIdle a (s.withInbox rest) := by
  simp [step, nextEvent, hi, h]

/-- The next access, landing while a command runs. -/
theorem step_busy_access {run : Running} {k : Nat} (h : s.eng.running = some run)
    (hi : s.inbox = { access := a, during := some k } :: rest) :
    step s = accessBusy a { run with progress := run.progress + k }
      ((s.withInbox rest).advance run k) := by
  simp [step, nextEvent, hi, h]

end

/-! ### The body of a command word -/

/-- The body of a command word is blind, and writes what the rule of a command grants; an illegal word's
body does nothing but raise. -/
theorem wordBody_made (w : Word) : ∃ i, (wordBody w).Made (grantOf i) := by
  unfold wordBody
  split
  · exact ⟨_, made_commandBody _⟩
  · exact ⟨.nop, .raise (by nofun)⟩

theorem wordBody_blind (w : Word) : (wordBody w).Blind := (wordBody_made w).elim fun _ h => h.blind

/-- The accesses to come and how far the command has run do not show in its actions. -/
theorem progressState_advance (s : State) (run run' : Running) (k : Nat) (l : List Pending) :
    progressState run ((s.withInbox l).advance run' k) =
      (stateAfter s ((wordBody run.word).acts s) run.progress).withOuter
        ((s.withInbox l).advance run' k).eng l s.bus := by
  have hs : (s.withInbox l).advance run' k =
      s.withOuter ((s.withInbox l).advance run' k).eng l s.bus := rfl
  rw [hs]
  generalize ((s.withInbox l).advance run' k).eng = e
  rw [progressState, runningActs, (wordBody_blind _).acts]
  exact stateAfter_mapState (·.withOuter e l s.bus) _ _ _

/-- Settles O11: the reset column holds after any hard reset, and the step that takes one hard-resets. -/
theorem resetColumnOfTheMap : Obligations.ResetColumnOfTheMap := by
  unfold Obligations.ResetColumnOfTheMap
  intro column
  have hard : ∀ s : State, column s.hardReset := fun s => ⟨s.readReg_hardReset, rfl, rfl, rfl⟩
  refine ⟨hard State.reset, fun s d rest hi => ⟨fun hn => ?_, fun r k hr hd => ?_⟩⟩
  · exact ⟨_, step_idle_access hn hi, hard _, rfl, rfl⟩
  · subst hd
    refine ⟨_, step_busy_access hr hi, hard _, rfl, ?_⟩
    show (progressState { r with progress := r.progress + k } _).mem = _
    rw [progressState_advance]
    rfl

/-! ### The register port (10_state R32) -/

/-- The registers of the engine, which no command's actions write. -/
def engineRegs : List Reg := [.cmd, .status, .irqStatus, .ctrl, .errCmd]

theorem engineRegs_not_written (i : Instr) : ∀ r ∈ engineRegs, r ∉ writesRegs i := by
  cases i with
  | huffBuild t => cases t <;> decide
  | huffReadHdr t => cases t <;> decide
  | huffClearCounts t => cases t <;> decide
  | huffFromCounts t => cases t <;> decide
  | huffCountSym t sym =>
    intro r hr h
    rw [writesRegs, symCountRegs] at h
    split at h
    · rw [List.mem_singleton.1 h] at hr
      simp [engineRegs] at hr
    · exact List.not_mem_nil h
  | huffCountRegion f =>
    rw [writesRegs, planeCountRegs]
    split
    · next p _ => cases p <;> decide
    · decide
  | _ =>
    rw [writesRegs]
    decide

section
variable {s : State} {run : Running} {r : Reg}

theorem writesReg_iff : writesReg run s r = true ↔ ∃ a ∈ (wordBody run.word).acts s, r ∈ a.regs := by
  simp [writesReg, runningActs]

theorem writesReg_engine (h : r ∈ engineRegs) : writesReg run s r = false := by
  obtain ⟨i, hm⟩ := wordBody_made run.word
  refine Bool.eq_false_iff.2 fun hw => ?_
  obtain ⟨a, ha, hr⟩ := writesReg_iff.1 hw
  exact engineRegs_not_written i r h (hm.within s a ha r hr)

/-- A read while a command runs, of a register that the command does not write. -/
theorem readBusy_of_not_writes (hs : r ≠ .status) (h : writesReg run s r = false) :
    readBusy r run s = s.withBus (.data (s.readReg r)) := by
  unfold readBusy
  split
  · exact absurd rfl hs
  all_goals first | rfl | rw [h]; rfl

/-- A read while a command runs, of a register that the command writes: a fresh free value. -/
theorem readBusy_of_writes (h : writesReg run s r = true) :
    readBusy r run s = (s.withBus (.data (Config.busyRead s.draws))).withDraws (s.draws + 1) := by
  have hne : r ∉ engineRegs := fun hm => by rw [writesReg_engine hm] at h; cases h
  unfold readBusy
  split
  all_goals first | exact absurd (by decide) hne | rw [if_pos h]

theorem Reg.ofOffset_none {n : Nat} (h : ∀ r : Reg, r.offset ≠ n) : Reg.ofOffset n = none :=
  List.find?_eq_none.2 fun r _ => by simpa using h r

theorem portTakes_eq_false {bits : Nat} {off : BitVec 9} (h : bits ≠ 32 ∨ off.toNat % 4 ≠ 0) :
    portTakes bits off = false := by
  simpa [portTakes, or_iff_not_imp_left] using h

theorem portTakes_eq_true {off : BitVec 9} (h : off.toNat % 4 = 0) : portTakes 32 off = true := by
  simp [portTakes, h]

theorem portTakes_offset (r : Reg) : portTakes 32 (BitVec.ofNat 9 r.offset) = true :=
  portTakes_eq_true (by rw [r.toNat_offset]; exact r.offset_bounds.2)

/-- An access that the port refuses: the bus error, idle or busy. -/
theorem access_refused {a : HostAccess} {bits : Nat} {off : BitVec 9} {v : Word} (s : State)
    (run : Running) (ha : a = .regWrite bits off v ∨ a = .regRead bits off)
    (hp : portTakes bits off = false) :
    accessIdle a s = .next (s.withBus .busError) ∧ accessBusy a run s = .next (s.withBus .busError) := by
  rcases ha with rfl | rfl <;> simp [accessIdle, accessBusy, hp, State.busFault]

/-- An access to an offset that the map does not list. -/
theorem access_unmapped {off : BitVec 9} (v : Word) (s : State) (run : Running)
    (hp : portTakes 32 off = true) (hn : Reg.ofOffset off.toNat = none) :
    accessIdle (.regWrite 32 off v) s = .next (s.withBus .ack) ∧
    accessBusy (.regWrite 32 off v) run s = .next (s.withBus .ack) ∧
    accessIdle (.regRead 32 off) s = .next (s.withBus (.data 0)) ∧
    accessBusy (.regRead 32 off) run s = .next (s.withBus (.data 0)) := by
  simp [accessIdle, accessBusy, hp, hn]

/-- A read of register `r`. -/
theorem access_read (r : Reg) (s : State) (run : Running) :
    accessIdle (.regRead 32 (BitVec.ofNat 9 r.offset)) s = .next (s.withBus (.data (s.readReg r))) ∧
    accessBusy (.regRead 32 (BitVec.ofNat 9 r.offset)) run s = .next (readBusy r run s) := by
  simp only [accessIdle, accessBusy, portTakes_offset, r.toNat_offset, Reg.ofOffset_offset, if_true,
    and_self]

end

/-- Settles O12: the port's cases, on an idle core and on one that runs a command. -/
theorem busErrorsAndUnmappedOffsets : Obligations.BusErrorsAndUnmappedOffsets := by
  unfold Obligations.BusErrorsAndUnmappedOffsets
  intro s bits off v d rest hd k s'
  cases hrun : s.eng.running with
  | none =>
    have hs' : s' = s.withInbox rest := by simp only [s', hrun]
    have hstep : ∀ {a}, s.inbox = { access := a, during := d } :: rest → step s = accessIdle a s' :=
      fun hi => hs' ▸ step_idle_access hrun hi
    refine ⟨fun a ha hi hb => ?_, fun hi ho hn => ?_, fun hi ho hn => ?_, fun reg hi =>
      ⟨fun _ => ?_, fun r hr => nomatch hr⟩⟩
    · rw [hstep hi, (access_refused s' ⟨0, 0⟩ ha (portTakes_eq_false hb)).1]
    · rw [hstep hi, (access_unmapped v s' ⟨0, 0⟩ (portTakes_eq_true ho) (Reg.ofOffset_none hn)).1]
    · rw [hstep hi, (access_unmapped v s' ⟨0, 0⟩ (portTakes_eq_true ho) (Reg.ofOffset_none hn)).2.2.1]
    · rw [hstep hi, (access_read reg s' ⟨0, 0⟩).1, hs', State.readReg_withInbox]
  | some run =>
    obtain ⟨k', rfl⟩ : ∃ k, d = some k := hd.resolve_left (by simp [hrun])
    have hs' : s' = (s.withInbox rest).advance run k' := by simp only [s', hrun, k, Option.getD_some]
    let now : Running := { run with progress := run.progress + k' }
    have hstep : ∀ {a}, s.inbox = { access := a, during := some k' } :: rest →
        step s = accessBusy a now s' := fun hi => hs' ▸ step_busy_access hrun hi
    have hread : ∀ r, s'.readReg r = s.readReg r := fun r => by
      rw [hs', State.readReg_advance (by simpa using hrun), State.readReg_withInbox]
    refine ⟨fun a ha hi hb => ?_, fun hi ho hn => ?_, fun hi ho hn => ?_, fun reg hi =>
      ⟨fun h => (nomatch h), fun r hr => ?_⟩⟩
    · rw [hstep hi, (access_refused s' now ha (portTakes_eq_false hb)).2]
    · rw [hstep hi, (access_unmapped v s' now (portTakes_eq_true ho) (Reg.ofOffset_none hn)).2.1]
    · rw [hstep hi, (access_unmapped v s' now (portTakes_eq_true ho) (Reg.ofOffset_none hn)).2.2.2]
    · cases hr
      rw [hstep hi, (access_read reg s' now).2]
      have unwritten : reg ≠ .status → writesReg now s' reg = false →
          readBusy reg now s' = s'.withBus (.data (s.readReg reg)) := fun hst hw => by
        rw [readBusy_of_not_writes hst hw, hread]
      refine ⟨fun hst => ?_, fun he => ?_, fun hst ha => ?_, fun hw => ?_⟩
      · subst hst
        rfl
      · rw [unwritten (by rintro rfl; simp at he)
          (writesReg_engine (by rcases he with rfl | rfl | rfl | rfl <;> decide))]
      · rw [unwritten hst (Bool.eq_false_iff.2 fun hw => ?_)]
        obtain ⟨a, hm, hr⟩ := writesReg_iff.1 hw
        exact ha a hm hr
      · have hdraws : s'.draws = s.draws := by rw [hs']; rfl
        exact ⟨_, by rw [readBusy_of_writes (writesReg_iff (run := now).2 hw), hdraws]⟩

end Sys2Proof.Machine
end

section
namespace Sys2Proof.Machine

-- One theorem at a time: many checked at once need more threads than the memory limit allows.
set_option Elab.async false

/-! ### Memory stays in canonical form -/

/-- Every byte that the body's actions write has an address. -/
def Cmd.Addressed {α : Type} (c : Cmd α) : Prop :=
  ∀ s, ∀ a ∈ c.acts s, ∀ k ∈ a.writes, k < 2 ^ 32

section
variable {α β : Type} {c : Cmd α}

theorem Cmd.acts_bind (c : Cmd α) (f : α → Cmd β) (s : State) {x : Act}
    (hx : x ∈ (c.bind f).acts s) :
    x ∈ c.acts s ∨ ∃ a s', c.out s = .ok a s' ∧ x ∈ (f a).acts s' := by
  unfold Cmd.acts Cmd.bind at hx
  unfold Cmd.acts Cmd.out
  cases hs : c s with
  | raised e s' t =>
    rw [hs] at hx
    exact .inl hx
  | ok a s' t =>
    rw [hs] at hx
    have hx' : x ∈ t ++ (f a s').acts := by
      cases hf : f a s' <;> simpa [hf, Res.after, Res.acts] using hx
    rcases List.mem_append.1 hx' with h | h
    · exact .inl h
    · exact .inr ⟨a, s', rfl, h⟩

theorem addressed_withWorkers {d : Dir} {foot : State → Footprint} {c : Cmd Unit}
    (hc : c.Addressed) : (withWorkers d foot c).Addressed := fun s => by
  have h := hc s
  unfold Cmd.acts withWorkers at *
  cases hs : c s with
  | ok a s' t => rw [hs] at h; exact h
  | raised e s' t =>
    rw [hs] at h
    dsimp only
    split
    · intro x hx
      rcases List.mem_append.1 hx with hx | hx
      · exact h x hx
      · rw [List.mem_singleton.1 hx]
        intro k hk
        rcases List.mem_append.1 hk with hk | hk
        · obtain ⟨y, hy, hk⟩ := List.mem_flatMap.1 hk
          exact h y hy k hk
        · obtain ⟨w, -, rfl⟩ := List.mem_map.1 hk
          exact w.isLt
    · exact h

theorem Cmd.Made.addressed {g : Grant} (h : c.Made g) : c.Addressed := by
  induction h with
  | pure a => exact fun _ _ hx => nomatch hx
  | raise he => exact fun _ _ hx => nomatch hx
  | read f hf => exact fun _ _ hx => nomatch hx
  | check f hf =>
    intro s x hx
    unfold Cmd.acts Cmd.check at hx
    split at hx <;> cases hx
  | update hf hm hb =>
    intro s x hx k hk
    cases List.mem_singleton.1 hx
    cases hk
  | memRead a =>
    intro s x hx k hk
    cases List.mem_singleton.1 hx
    cases hk
  | memWrite a v =>
    intro s x hx k hk
    cases List.mem_singleton.1 hx
    rw [List.mem_singleton.1 hk]
    exact a.isLt
  | bind hc hf ihc ihf =>
    intro s x hx
    rcases Cmd.acts_bind _ _ s hx with hx | ⟨a, s', -, hx⟩
    · exact ihc s x hx
    · exact ihf a s' x hx
  | withWorkers hd hc hfoot ih => exact addressed_withWorkers ih

theorem freeBytes_wf (draw : Nat) {m : Memory} (hm : m.wf) {l : List Nat} (hl : ∀ k ∈ l, k < 2 ^ 32) :
    (freeBytes draw m l).wf := by
  induction l generalizing m with
  | nil => exact hm
  | cons a l ih =>
    exact ih (Memory.wf_write hm (hl a List.mem_cons_self) _)
      fun k hk => hl k (List.mem_cons_of_mem a hk)

/-- Steps of a frame command that keep memory in canonical form do so also where they fail: the bytes that a
failed frame frees are addresses. -/
theorem wf_withWorkers {d : Dir} {foot : State → Footprint} {c : Cmd Unit}
    (hc : c.Keeps fun s => s.mem.wf) (ha : c.Addressed) :
    (withWorkers d foot c).Keeps fun s => s.mem.wf := fun s h => by
  have hs := hc s h
  have hx := ha s
  unfold Cmd.acts at hx
  unfold withWorkers
  cases hr : c s with
  | ok a s' t => rw [hr] at hs; exact hs
  | raised e s' t =>
    rw [hr] at hs hx
    dsimp only
    split
    · have hl : ∀ k ∈ t.flatMap Act.writes ++ (foot s).writes.map BitVec.toNat, k < 2 ^ 32 := by
        intro k hk
        rcases List.mem_append.1 hk with hk | hk
        · obtain ⟨y, hy, hk⟩ := List.mem_flatMap.1 hk
          exact hx y hy k hk
        · obtain ⟨w, -, rfl⟩ := List.mem_map.1 hk
          exact w.isLt
      refine ⟨freeBytes_wf _ hs.1 hl, fun a ha => ?_⟩
      rcases List.mem_append.1 ha with ha | ha
      · exact hs.2 a ha
      · rw [List.mem_singleton.1 ha]
        exact hs.1
    · exact hs

/-- Memory stays in canonical form wherever a body stops. -/
theorem Cmd.Made.keeps_wf {g : Grant} (h : c.Made g) : c.Keeps fun s => s.mem.wf := by
  induction h with
  | pure a => exact Cmd.keeps_pure a
  | raise he => exact Cmd.keeps_raise _
  | read f hf => exact Cmd.keeps_read f
  | check f hf => exact Cmd.keeps_check f
  | update hf hm hb => exact Cmd.keeps_update fun s hs => by rwa [hm]
  | memRead a => exact keeps_memRead a
  | memWrite a v => exact keeps_memWrite fun s hs => State.storeByte_wf hs a v
  | bind hc hf ihc ihf => exact Cmd.keeps_bind ihc ihf
  | withWorkers hd hc hfoot ih => exact wf_withWorkers ih hc.addressed

end

/-! ### Good ends -/

/-- From a state with `P`, the body ends well only in a state with `Q`. -/
def Cmd.Leads {α : Type} (P Q : State → Prop) (c : Cmd α) : Prop :=
  ∀ s a t, P s → c.out s = .ok a t → Q t

section
variable {α β : Type} {P Q R : State → Prop} {c : Cmd α}

theorem Cmd.Leads.bind {f : α → Cmd β} (hc : c.Leads P Q) (hf : ∀ a, (f a).Leads Q R) :
    (c.bind f).Leads P R := fun s b t hs ho => by
  obtain ⟨a, s', hc', hf'⟩ := Cmd.bind_ok_cases ho
  exact hf a s' b t (hc s a s' hs hc') hf'

theorem Cmd.Leads.seq {d : Cmd β} (hc : c.Leads P Q) (hd : d.Leads Q R) : (c.seq d).Leads P R :=
  hc.bind fun _ => hd

theorem Cmd.leads_true : c.Leads P fun _ => True := fun _ _ _ _ _ => trivial

theorem Cmd.leads_read (f : State → α) : (Cmd.read f).Leads P P := fun s a t hs ho => by
  cases ho
  exact hs

theorem Cmd.leads_update {rs : List Reg} {f : State → State} (hf : ∀ s, P s → Q (f s)) :
    (Cmd.update rs f).Leads P Q := fun s a t hs ho => by
  cases ho
  exact hf s hs

theorem Cmd.Leads.withWorkers {d : Dir} {foot : State → Footprint} {c : Cmd Unit} (hc : c.Leads P Q) :
    (withWorkers d foot c).Leads P Q := fun s _ t hs ho => hc s () t hs (withWorkers_ok_cases ho)

/-- A property of the state that a body keeps to its good ends composes. -/
theorem Cmd.leads_composes (P : State → Prop) : Composes (Cmd.Leads P P) where
  skip := fun s a t hs ho => by cases ho; exact hs
  seq hc hd := hc.seq hd
  read f _ hk _ := (Cmd.leads_read f).bind hk

end

/-! ### HopState and Huffman codes while no error stands (10_state R52, R61) -/

/-- STEP in [4, 10] (41_predictor R260). -/
def State.StepLegal (s : State) : Prop :=
  Config.minStep ≤ s.scan.step.toNat ∧ s.scan.step.toNat ≤ Config.maxStep

/-- No stale code in either table (10_state R61). -/
def State.CodesSound (s : State) : Prop := ∀ t, (s.table t).sound

/-- Both. -/
def State.Steady (s : State) : Prop := s.StepLegal ∧ s.CodesSound

section
variable {g : Grant} {α : Type} {c : Cmd α}

theorem State.StepLegal.congr {s t : State} (h : s.StepLegal) (he : t.scan = s.scan) : t.StepLegal := by
  rwa [State.StepLegal, he]

theorem HuffTable.sound_congr {h k : HuffTable} (hs : h.sound) (hv : k.valid = h.valid)
    (hl : k.len = h.len) (hc : k.code = h.code) : k.sound := by
  rwa [HuffTable.sound, hv, hl, hc]

/-- A table that a body is not granted stays sound. -/
theorem Grant.Frame.sound {s t : State} (h : g.Frame s t) {u : Tbl} (hg : g.huff u = false)
    (hs : (s.table u).sound) : (t.table u).sound := by
  obtain ⟨hv, hl, hc⟩ := h.huff u hg
  exact HuffTable.sound_congr hs hv hl hc

theorem Cmd.Made.leads_stepLegal (h : c.Made g) (hg : g.scan = false) :
    c.Leads State.StepLegal State.StepLegal := fun _ _ _ hs ho => hs.congr ((h.frame_ok ho).scan hg)

theorem Cmd.Made.leads_codesSound (h : c.Made g) (hg : ∀ u, g.huff u = false) :
    c.Leads State.CodesSound State.CodesSound := fun _ _ _ hs ho u => (h.frame_ok ho).sound (hg u) (hs u)

theorem Cmd.Leads.steady (h1 : c.Leads State.StepLegal State.StepLegal)
    (h2 : c.Leads State.CodesSound State.CodesSound) : c.Leads State.Steady State.Steady :=
  fun s a t hs ho => ⟨h1 s a t hs.1 ho, h2 s a t hs.2 ho⟩

/-- A body that is granted neither the scan nor a table keeps both. -/
theorem Cmd.Made.leads_steady (h : c.Made g) (hs : g.scan = false) (hg : ∀ u, g.huff u = false) :
    c.Leads State.Steady State.Steady := (h.leads_stepLegal hs).steady (h.leads_codesSound hg)

end

/-! #### The predictor -/

/-- The next step lies in [4, 10] (41_predictor R256). -/
theorem adapt_step_legal {step : Nat} (h : step ≤ Config.maxStep) (last : Bool) (i : Hop) :
    Config.minStep ≤ (adapt step last i).1 ∧ (adapt step last i).1 ≤ Config.maxStep := by
  unfold adapt
  simp only [Config.minStep, Config.maxStep] at *
  split <;> omega

theorem pixelHopState_step_le {c : PixelClass} {step : Nat} (h : step ≤ Config.maxStep) (last : Bool) :
    (pixelHopState c step last).1 ≤ Config.maxStep := by
  unfold pixelHopState
  split
  · decide
  · exact h

/-- A pixel leaves a legal step (41_predictor R256, R265). -/
theorem stepPixel_stepLegal {s t : State} (ha : s.scan.active = true) (hs : s.StepLegal)
    (ho : stepPixel.out s = .ok () t) : t.StepLegal := by
  cases hh : (pixelHop s.scan.plane s.scan.dir s.cursorX s.cursorY
      (pixelHopState s.cursorClass s.scan.step.toNat s.scan.lastSmall).1
      (s.predOf s.scan.plane s.cursorClass s.cursorX s.cursorY)).out s with
  | raised e u =>
    rw [stepPixel_raised hh] at ho
    cases ho
  | ok p u =>
    obtain ⟨m, rfl⟩ := pixelHop_ok_cases hh
    rw [stepPixel_ok ha hh] at ho
    cases ho
    obtain ⟨hlo, hhi⟩ := adapt_step_legal (pixelHopState_step_le (c := s.cursorClass) hs.2 s.scan.lastSmall)
      (pixelHopState s.cursorClass s.scan.step.toNat s.scan.lastSmall).2 p.1
    have hmax : Config.maxStep < 2 ^ 5 := by decide
    simp only [State.StepLegal, State.withScan_scan, State.scanAfter, BitVec.toNat_ofNat]
    rw [Nat.mod_eq_of_lt (by omega)]
    exact ⟨hlo, hhi⟩

theorem leads_cmdHopStep : cmdHopStep.Leads State.StepLegal State.StepLegal := by
  intro s _ t hs ho
  rw [cmdHopStep, needScan_seq] at ho
  split at ho
  · next ha =>
    rw [needTables_seq] at ho
    split at ho
    · rw [Cmd.out_read_bind, regionCheck, Cmd.out_check_seq] at ho
      split at ho
      · rw [needCursor_seq] at ho
        split at ho
        · exact stepPixel_stepLegal ha hs ho
        · cases ho
      · cases ho
    · cases ho
  · cases ho

theorem scanStart_stepLegal (s : State) (d : Dir) (p : Plane) :
    (s.withScan (Scan.start d p)).StepLegal := by
  have hs : (s.withScan (Scan.start d p)).scan.step = 7#5 := rfl
  rw [State.StepLegal, hs]
  decide

/-- HOP_BEGIN_* ends in the begin of a scan. -/
theorem leads_cmdHopBeginDec (p : Plane) :
    (cmdHopBeginDec p).Leads State.StepLegal State.StepLegal :=
  Cmd.leads_true.seq <| Cmd.leads_true.seq <| Cmd.leads_true.bind fun _ => Cmd.leads_true.bind fun _ =>
    Cmd.leads_true.seq <| Cmd.leads_update fun _ _ => scanStart_stepLegal _ _ _

theorem leads_cmdHopBeginEnc (p : Plane) :
    (cmdHopBeginEnc p).Leads State.StepLegal State.StepLegal :=
  Cmd.leads_true.seq <| Cmd.leads_true.seq <| Cmd.leads_true.bind fun _ => Cmd.leads_true.bind fun _ =>
    Cmd.leads_true.seq <| Cmd.leads_true.bind fun _ => Cmd.leads_true.seq <|
      Cmd.leads_update fun _ _ => scanStart_stepLegal _ _ _

theorem leads_scanRegion : scanRegion.Leads State.StepLegal State.StepLegal :=
  (Cmd.leads_composes _).scanRegion leads_cmdHopStep

theorem leads_cmdHopDecRegion (p : Plane) :
    (cmdHopDecRegion p).Leads State.StepLegal State.StepLegal :=
  (leads_cmdHopBeginDec p).seq leads_scanRegion

theorem leads_cmdHopEncRegion (p : Plane) :
    (cmdHopEncRegion p).Leads State.StepLegal State.StepLegal :=
  (leads_cmdHopBeginEnc p).seq leads_scanRegion

/-! #### The Huffman tables -/

/-- Every table but `t` is sound. -/
def State.SoundBut (t : Tbl) (s : State) : Prop := ∀ u, u ≠ t → (s.table u).sound

/-- HUFF_BUILD that ends well has made its table sound (43_huffman R356). -/
theorem leads_cmdHuffBuild (t : Tbl) : (cmdHuffBuild t).Leads (State.SoundBut t) State.CodesSound := by
  intro s _ v hs ho
  rw [cmdHuffBuild, Cmd.out_read_bind] at ho
  split at ho
  · next hv =>
    rw [Cmd.out_update_seq, Cmd.out_update] at ho
    cases ho
    intro u
    by_cases hu : u = t
    · subst hu
      simp [State.withHuffValid, HuffTable.sound, hv]
    · rw [State.withHuffValid, State.table_withTable_other _ _ hu, State.table_withTable_other _ _ hu]
      exact hs u hu
  · rw [Cmd.out_update_seq] at ho
    cases ho

theorem State.CodesSound.soundBut {s : State} (h : s.CodesSound) (t : Tbl) : s.SoundBut t :=
  fun u _ => h u

/-- Steps granted table `t` alone, then HUFF_BUILD. -/
theorem Cmd.Made.leads_soundBut {g : Grant} {α : Type} {c : Cmd α} {t : Tbl} (h : c.Made g)
    (hg : ∀ u, u ≠ t → g.huff u = false) : c.Leads (State.SoundBut t) (State.SoundBut t) :=
  fun _ _ _ hs ho u hu => (h.frame_ok ho).sound (hg u hu) (hs u hu)

theorem Cmd.Leads.weaken {α : Type} {P P' Q : State → Prop} {c : Cmd α} (h : c.Leads P Q)
    (hp : ∀ s, P' s → P s) : c.Leads P' Q := fun s a t hs ho => h s a t (hp s hs) ho

/-- The commands that build table `t` are granted it alone. -/
theorem grantOf_huff {i : Instr} {t : Tbl} (hi : i = .huffReadHdr t ∨ i = .huffFromCounts t) :
    (grantOf i).huff t = true ∧ ∀ u, u ≠ t → (grantOf i).huff u = false := by
  rcases hi with rfl | rfl <;>
    exact ⟨by simp [grantOf, Instr.writesValid], fun u hu => by
      simp [grantOf, Instr.writesValid, hu.symm]⟩

theorem leads_cmdHuffReadHdr (t : Tbl) :
    (cmdHuffReadHdr t).Leads State.CodesSound State.CodesSound := by
  obtain ⟨hg, hn⟩ := grantOf_huff (i := .huffReadHdr t) (.inl rfl)
  have hl : lenRegs t ⊆ (grantOf (.huffReadHdr t)).regs := List.subset_cons_self _ _
  refine Cmd.Leads.weaken (P := State.SoundBut t) ?_ fun s hs => hs.soundBut t
  exact ((made_invalidate (fun _ hr => hl (codeRegs_subset_lenRegs t hr)) hg).leads_soundBut hn).seq <|
    ((made_readLens hl List.mem_cons_self hg).leads_soundBut hn).seq (leads_cmdHuffBuild t)

theorem leads_cmdHuffFromCounts (t : Tbl) :
    (cmdHuffFromCounts t).Leads State.CodesSound State.CodesSound := by
  obtain ⟨hg, hn⟩ := grantOf_huff (i := .huffFromCounts t) (.inr rfl)
  have hl : lenRegs t ⊆ (grantOf (.huffFromCounts t)).regs := List.Subset.refl _
  refine Cmd.Leads.weaken (P := State.SoundBut t) ?_ fun s hs => hs.soundBut t
  exact ((made_invalidate (fun _ hr => hl (codeRegs_subset_lenRegs t hr)) hg).leads_soundBut hn).seq <|
    ((made_lensFromCounts hl hg).leads_soundBut hn).seq (leads_cmdHuffBuild t)

/-! #### Every command -/

/-- What the rules of no scan and no table command grant: all registers, and neither guarded group. -/
def plainGrant : Grant where
  regs := allRegs
  luts := false
  huff _ := false
  scan := false

theorem mem_allRegs (r : Reg) : r ∈ allRegs := List.mem_of_find?_eq_some r.ofOffset_offset

theorem subset_plainGrant (l : List Reg) : l ⊆ plainGrant.regs := fun r _ => mem_allRegs r

theorem Cmd.Made.plain {α : Type} {c : Cmd α} (h : c.Made plainGrant) :
    c.Leads State.Steady State.Steady := h.leads_steady rfl fun _ => rfl

/-- What is granted the scan and no table. -/
def scanGrant : Grant := { plainGrant with scan := true }

theorem leads_cmdFrameDecode : cmdFrameDecode.Leads State.Steady State.Steady :=
  (Cmd.leads_composes _).frameDecode (fun _ hc => hc.withWorkers)
    (Cmd.Made.plain (.require _ _)) (made_cmdHdrRead (subset_plainGrant _) (mem_allRegs _)).plain
    (made_cmdSeedsRead (mem_allRegs _)).plain
    (fun t => ((made_commandBody (.huffReadHdr t)).leads_stepLegal rfl).steady (leads_cmdHuffReadHdr t))
    (made_cmdMeshRead (mem_allRegs _)).plain
    (fun p => (made_cmdPlaneGeom (subset_plainGrant _) p).plain)
    (fun p bx row => (made_cmdBlockGeom (subset_plainGrant _) p bx row).plain)
    (fun p => (made_cmdHuffDecRegion (mem_allRegs _) p).plain)
    (fun p => (leads_cmdHopDecRegion p).steady
      ((made_cmdHopDecRegion (g := scanGrant) rfl (subset_plainGrant _) (subset_plainGrant _)
        p).leads_codesSound fun _ => rfl))

theorem leads_cmdFrameEncode : cmdFrameEncode.Leads State.Steady State.Steady :=
  (Cmd.leads_composes _).frameEncode (fun _ hc => hc.withWorkers)
    (Cmd.Made.plain (.require _ _)) (Cmd.Made.plain (.check _))
    (fun t => (made_cmdHuffClearCounts (subset_plainGrant _)).plain)
    (fun p => (made_cmdPlaneGeom (subset_plainGrant _) p).plain)
    (fun p bx row => (made_cmdBlockGeom (subset_plainGrant _) p bx row).plain)
    (fun p => (leads_cmdHopEncRegion p).steady
      ((made_cmdHopEncRegion (g := scanGrant) rfl (subset_plainGrant _) (subset_plainGrant _)
        p).leads_codesSound fun _ => rfl))
    (fun p => (made_cmdHuffCountRegion (subset_plainGrant _)).plain)
    (fun t => ((made_commandBody (.huffFromCounts t)).leads_stepLegal rfl).steady
      (leads_cmdHuffFromCounts t))
    (made_cmdHdrWrite (mem_allRegs _)).plain (made_cmdSeedsWrite (mem_allRegs _)).plain
    (fun t => (made_cmdHuffWriteHdr (mem_allRegs _) t).plain) (made_cmdMeshWrite (mem_allRegs _)).plain
    (fun p => (made_cmdHuffEncRegion (mem_allRegs _) p).plain) (made_cmdBwFlush (mem_allRegs _)).plain

theorem leads_withPlane {P Q : State → Prop} {f : BitVec 2} {c : Plane → Cmd Unit}
    (h : ∀ p, (c p).Leads P Q) : (withPlane f c).Leads P Q := by
  unfold withPlane
  split
  · exact h _
  · intro s a t _ ho
    cases ho

/-- A command that ends well leaves a legal step and sound codes where they were so (10_state R52,
R61). -/
theorem leads_commandBody (i : Instr) : (commandBody i).Leads State.Steady State.Steady := by
  have hm := made_commandBody i
  cases i with
  | hopBeginDec f =>
    exact (leads_withPlane leads_cmdHopBeginDec).steady (hm.leads_codesSound fun _ => rfl)
  | hopBeginEnc f =>
    exact (leads_withPlane leads_cmdHopBeginEnc).steady (hm.leads_codesSound fun _ => rfl)
  | hopStep => exact leads_cmdHopStep.steady (hm.leads_codesSound fun _ => rfl)
  | hopDecRegion f =>
    exact (leads_withPlane leads_cmdHopDecRegion).steady (hm.leads_codesSound fun _ => rfl)
  | hopEncRegion f =>
    exact (leads_withPlane leads_cmdHopEncRegion).steady (hm.leads_codesSound fun _ => rfl)
  | huffBuild t =>
    exact (hm.leads_stepLegal rfl).steady ((leads_cmdHuffBuild t).weaken fun s hs => hs.soundBut t)
  | huffReadHdr t => exact (hm.leads_stepLegal rfl).steady (leads_cmdHuffReadHdr t)
  | huffFromCounts t => exact (hm.leads_stepLegal rfl).steady (leads_cmdHuffFromCounts t)
  | frameDecode => exact leads_cmdFrameDecode
  | frameEncode => exact leads_cmdFrameEncode
  | _ => exact hm.leads_steady rfl fun _ => rfl

end Sys2Proof.Machine
end

section
namespace Sys2Proof.Machine

-- One theorem at a time: many checked at once need more threads than the memory limit allows.
set_option Elab.async false

/-! ### The invariant, step by step -/

/-- What the invariant says whether or not an error stands or a command runs. -/
structure State.Lasting (s : State) : Prop where
  memory : s.mem.wf
  maxPixels : 1 ≤ s.plat.maxPixels ∧ s.plat.maxPixels < 2 ^ 32
  workers : 1 ≤ s.plat.nWorkers
  tables : s.tablesValid = true → s.luts = .built

section
variable {s t u : State}

theorem State.Inv.lasting (h : s.Inv) : s.Lasting := ⟨h.memory, h.maxPixels, h.workers, h.tables⟩

theorem State.Inv.steady (h : s.Inv) (hq : s.quiet) : s.Steady := ⟨h.step hq, h.huffman hq⟩

theorem State.Lasting.inv (h : s.Lasting) (hs : s.quiet → s.Steady)
    (hr : s.eng.running = none → s.calm) : s.Inv where
  memory := h.memory
  maxPixels := h.maxPixels
  workers := h.workers
  tables := h.tables
  step hq := (hs hq).1
  huffman hq := (hs hq).2
  races := hr

theorem State.Lasting.congr (h : s.Lasting) (hm : t.mem.wf) (hp : t.plat = s.plat)
    (hv : t.tablesValid = s.tablesValid) (hl : t.luts = s.luts) : t.Lasting where
  memory := hm
  maxPixels := hp ▸ h.maxPixels
  workers := hp ▸ h.workers
  tables ht := by
    rw [hl]
    exact h.tables (hv ▸ ht)

/-- A change that makes no error go away, keeps the scan and makes no table unsound. -/
theorem State.Inv.congr (h : s.Inv) (hm : t.mem.wf) (hp : t.plat = s.plat)
    (hv : t.tablesValid = s.tablesValid) (hl : t.luts = s.luts) (hq : t.quiet → s.quiet)
    (hsc : t.scan = s.scan) (hc : s.CodesSound → t.CodesSound)
    (hr : t.eng.running = none → t.calm) : t.Inv :=
  (h.lasting.congr hm hp hv hl).inv
    (fun ht => ⟨(h.steady (hq ht)).1.congr hsc, hc (h.steady (hq ht)).2⟩) hr

/-- The answer on the bus and the accesses to come are outside the invariant. -/
theorem State.Inv.withBus (h : s.Inv) (b : BusReply) : (s.withBus b).Inv :=
  h.congr h.memory rfl rfl rfl id rfl id h.races

theorem State.Inv.withInbox (h : s.Inv) (l : List Pending) : (s.withInbox l).Inv :=
  h.congr h.memory rfl rfl rfl id rfl id h.races

theorem State.Inv.withDraws (h : s.Inv) (n : Nat) : (s.withDraws n).Inv :=
  h.congr h.memory rfl rfl rfl id rfl id h.races

/-- A change of the engine that makes no error go away and stops no command. -/
theorem State.Inv.withEng (h : s.Inv) {e : Engine} (hq : e.err = .noError → s.quiet)
    (hr : e.running = none → s.eng.running = none) : (s.withEng e).Inv :=
  h.congr h.memory rfl rfl rfl hq rfl id fun hn => h.races (hr hn)

theorem State.Inv.withCtrl (h : s.Inv) (c : Control) : (s.withCtrl c).Inv :=
  h.congr h.memory rfl rfl rfl id rfl id h.races

theorem State.Inv.withMem (h : s.Inv) {m : Memory} (hm : m.wf) : (s.withMem m).Inv :=
  h.congr hm rfl rfl rfl id rfl id h.races

theorem State.Inv.recordError (h : s.Inv) {e : ErrCode} (he : e ≠ .noError) (v : Word) (r : Bool) :
    (s.recordError e v r).Inv := by
  unfold State.recordError
  split
  · exact h.withEng (fun hn => absurd hn he) id
  · exact h

/-! #### The end of a command -/

theorem State.Lasting.finish (h : u.Lasting) (hs : u.quiet → u.Steady) : u.finish.Inv :=
  (h.congr (t := u.finish) h.memory rfl rfl rfl).inv hs fun _ => rfl

/-- After a raise an error stands. -/
theorem State.Lasting.raiseEnd (h : u.Lasting) {e : ErrCode} (he : e ≠ .noError) :
    (u.raiseEnd e).Inv :=
  (h.congr (t := u.raiseEnd e) (by simpa using h.memory) (by simp) (by simp) (by simp)).inv
    (fun hq => absurd hq (u.raiseEnd_err_ne he)) fun _ => rfl

/-- BUILD_TABLES builds the tables before it marks them valid (40_tables R210). -/
theorem exec_tables {i : Instr} (hf : (grantOf i).Frame s u) (h : s.Lasting)
    (ho : (commandBody i).out s = .ok () u ∨ ∃ e, (commandBody i).out s = .raised e u)
    (hv : u.tablesValid = true) : u.luts = .built := by
  by_cases hi : i = .buildTables
  · subst hi
    have hb : (commandBody .buildTables).out s = .ok () ((s.withLuts .built).withTablesValid true) := rfl
    rw [hb] at ho
    obtain h1 | ⟨e, h2⟩ := ho
    · cases h1
      rfl
    · cases h2
  · obtain ⟨hvu, hlu⟩ := hf.luts (by simp [grantOf, hi])
    rw [hlu]
    exact h.tables (hvu ▸ hv)

theorem exec_lasting {i : Instr} (hf : (grantOf i).Frame s u) (h : s.Lasting)
    (ho : (commandBody i).out s = .ok () u ∨ ∃ e, (commandBody i).out s = .raised e u) :
    u.Lasting where
  memory := by
    have hk := (made_commandBody i).keeps_wf
    obtain ho | ⟨e, ho⟩ := ho
    · exact hk.ok h.memory ho
    · exact hk.raised h.memory ho
  maxPixels := hf.plat ▸ h.maxPixels
  workers := hf.plat ▸ h.workers
  tables := exec_tables hf h ho

/-- A command keeps the invariant. -/
theorem exec_inv {i : Instr} (h : s.Inv) (he : exec i s = .next t) : t.Inv := by
  rcases exec_cases he with ⟨u, ho, hf, rfl⟩ | ⟨e, u, ho, hne, hf, rfl⟩
  · refine (exec_lasting hf h.lasting (.inl ho)).finish fun hq => ?_
    have hqs : s.quiet := by rwa [State.quiet, ← hf.eng]
    exact leads_commandBody i s () u (h.steady hqs) ho
  · exact (exec_lasting hf h.lasting (.inr ⟨e, ho⟩)).raiseEnd hne

theorem runWord_inv {w : Word} (h : s.Inv) (he : runWord w s = .next t) : t.Inv := by
  unfold runWord at he
  split at he
  · exact exec_inv h he
  · cases he
    exact h.lasting.raiseEnd (by nofun)

theorem complete_inv (h : s.Inv) (he : complete s = .next t) : t.Inv := by
  unfold complete at he
  split at he
  · exact runWord_inv h he
  · cases he
    exact h

/-! #### Resets -/

theorem steady_reset : State.reset.Steady :=
  ⟨by unfold State.StepLegal; decide, fun u hv => by rw [reset_table_valid] at hv; cases hv⟩

theorem State.Lasting.hardReset (h : s.Lasting) : s.hardReset.Inv :=
  State.Lasting.inv ⟨h.memory, h.maxPixels, h.workers, fun hv => nomatch hv⟩
    (fun _ => steady_reset) fun _ => rfl

theorem State.Lasting.softReset (h : s.Lasting) : s.softReset.Inv :=
  State.Lasting.inv ⟨h.memory, h.maxPixels, h.workers, h.tables⟩ (fun _ => steady_reset) fun _ => rfl

/-- An abandoned command has left memory in canonical form. -/
theorem State.Lasting.abandon (h : s.Lasting) (run : Running) : (s.abandon run).Lasting := by
  obtain ⟨i, hm⟩ := wordBody_made run.word
  have hw : (progressState run s).mem.wf :=
    stateAfter_holds (P := fun s => s.mem.wf) h.memory (hm.keeps_wf.acts h.memory) run.progress
  exact h.congr hw rfl rfl rfl

/-! #### Accesses -/

/-- A write makes no table unsound: a length write takes the flag down (70_reset R708). -/
theorem State.CodesSound.writeReg (h : s.CodesSound) (r : Reg) (v : Word) :
    (s.writeReg r v).CodesSound := fun w => by
  rcases s.writeReg_table r v w with ⟨-, hv⟩ | ⟨-, -, hv, hl, hc⟩
  · exact fun hv' => by rw [hv] at hv'; cases hv'
  · exact HuffTable.sound_congr (h w) hv hl hc

theorem State.Inv.writeReg (h : s.Inv) (r : Reg) (v : Word) : (s.writeReg r v).Inv := by
  obtain ⟨hm, hp, hv, hl, hsc, hra, he, hr⟩ := s.writeReg_kept r v
  exact h.congr (hm ▸ h.memory) hp hv hl (fun hq => he.symm.trans hq) hsc (fun hc => hc.writeReg r v)
    fun hn => hra.trans (h.races (hr.symm.trans hn))

theorem State.Inv.writeCtrl (h : s.Inv) (v : Word) : (s.writeCtrl v).Inv := by
  unfold State.writeCtrl
  split
  · exact h.lasting.softReset
  · exact h.withCtrl _

theorem writeCmd_inv {w : Word} (h : s.Inv) (he : writeCmd w s = .next t) : t.Inv := by
  have hc : ((s.withEng { s.eng with cmd := w }).withBus .ack).Inv :=
    (h.withEng (e := { s.eng with cmd := w }) id id).withBus _
  have ha : (((s.withEng { s.eng with cmd := w }).withBus .ack).accept w).Inv :=
    hc.withEng id fun hn => nomatch hn
  unfold writeCmd at he
  dsimp only at he
  split at he
  · cases he
    exact hc
  · split at he
    · cases he
      exact ha
    · exact complete_inv ha he

theorem writeIdle_inv {r : Reg} {v : Word} (h : s.Inv) (he : writeIdle r v s = .next t) : t.Inv := by
  by_cases hc : r = .cmd
  · subst hc
    exact writeCmd_inv h he
  · by_cases ht : r = .ctrl
    · subst ht
      cases he
      exact (h.writeCtrl v).withBus _
    · rw [writeIdle_eq hc ht] at he
      cases he
      exact (h.writeReg r v).withBus _

theorem accessIdle_inv {a : HostAccess} (h : s.Inv) (he : accessIdle a s = .next t) : t.Inv := by
  cases a with
  | regWrite bits off v =>
    simp only [accessIdle] at he
    split at he
    · split at he
      · exact writeIdle_inv h he
      · cases he
        exact h.withBus _
    · cases he
      exact h.withBus _
  | regRead bits off =>
    simp only [accessIdle] at he
    split at he
    · split at he <;> (cases he; exact h.withBus _)
    · cases he
      exact h.withBus _
  | memWrite a v =>
    cases he
    exact (h.withMem (Memory.wf_write h.memory a.isLt v)).withBus _
  | memRead a =>
    cases he
    exact h.withBus _
  | hardReset =>
    cases he
    exact h.lasting.hardReset

theorem writeBusy_inv {run : Running} (h : s.Inv) (r : Reg) (v : Word) : (writeBusy r v run s).Inv := by
  unfold writeBusy
  split
  · exact (h.withEng (e := { s.eng with cmd := v }) id id).recordError (by nofun) _ _
  · split
    · exact (h.lasting.abandon run).softReset
    · exact h.withCtrl _
  · exact h.withEng (e := { s.eng with
      irqDone := s.eng.irqDone && !v.getLsbD 0, irqErr := s.eng.irqErr && !v.getLsbD 1 }) id id
  · split
    · exact h.recordError (by nofun) _ _
    · exact h
    · exact h

theorem readBusy_inv {run : Running} (h : s.Inv) (r : Reg) : (readBusy r run s).Inv := by
  unfold readBusy
  split
  all_goals first | exact h.withBus _ | skip
  split
  · exact (h.withBus _).withDraws _
  · exact h.withBus _

/-- A racing write is one while a command runs. -/
theorem State.Inv.race (h : s.Inv) (hr : s.eng.running ≠ none) (a : Word) : (s.race a).Inv :=
  h.congr (t := s.race a) (Memory.wf_write h.memory a.isLt _) rfl rfl rfl id rfl id
    fun hn => absurd hn hr

theorem accessBusy_inv {a : HostAccess} {run : Running} (h : s.Inv) (hr : s.eng.running ≠ none)
    (he : accessBusy a run s = .next t) : t.Inv := by
  cases a with
  | regWrite bits off v =>
    simp only [accessBusy] at he
    split at he
    · split at he
      · cases he
        exact (writeBusy_inv h _ v).withBus _
      · cases he
        exact h.withBus _
    · cases he
      exact h.withBus _
  | regRead bits off =>
    simp only [accessBusy] at he
    split at he
    · split at he
      · cases he
        exact readBusy_inv h _
      · cases he
        exact h.withBus _
    · cases he
      exact h.withBus _
  | memWrite a v =>
    simp only [accessBusy] at he
    split at he
    · cases he
      exact (h.race hr a).withBus _
    · cases he
      exact (h.withMem (Memory.wf_write h.memory a.isLt v)).withBus _
  | memRead a =>
    simp only [accessBusy] at he
    split at he
    · cases he
      exact (h.withBus _).withDraws _
    · cases he
      exact h.withBus _
  | hardReset =>
    cases he
    exact (h.lasting.abandon run).hardReset

end

/-- Settles O17: by the next event, and for a command by its body, which keeps the lasting part of the
invariant wherever it stops and the rest of it where it ends well; a raise leaves an error. -/
theorem stepKeepsMachineInvariant : Obligations.StepKeepsMachineInvariant := by
  intro s t h he
  unfold step nextEvent at he
  split at he
  · exact complete_inv h he
  · next q rest _ =>
    split at he
    · exact accessIdle_inv (h.withInbox rest) he
    · next r _ =>
      split at he
      · exact complete_inv h he
      · next k _ =>
        have ha : ((s.withInbox rest).advance r k).Inv :=
          (h.withInbox rest).withEng id fun hn => nomatch hn
        exact accessBusy_inv ha (fun hn => nomatch hn) he

end Sys2Proof.Machine
end

section
/-! PROOFS. Family 20_memory: what the commands store, host accesses to memory, bits that are written and
read back, and a header that is cut off. -/

namespace Sys2Proof.Machine

-- One theorem at a time: many checked at once need more threads than the memory limit allows.
set_option Elab.async false

/-! ### Where a body ends -/

/-- The state in which a body ends, well or with an error. -/
def Out.state {α : Type} : Out α → State
  | .ok _ s => s
  | .raised _ s => s

/-- A body started in a state with the property ends in one with it, well or with an error. -/
def Cmd.Stays {α : Type} (P : State → Prop) (c : Cmd α) : Prop := ∀ s, P s → P (c.out s).state

section
variable {α β : Type} {P Q : State → Prop}

theorem Cmd.Keeps.stays {c : Cmd α} (h : c.Keeps P) : c.Stays P := fun s hs => by
  cases ho : c.out s with
  | ok a t => exact h.ok hs ho
  | raised e t => exact h.raised hs ho

theorem Cmd.stays_bind {c : Cmd α} {f : α → Cmd β} (hc : c.Stays P) (hf : ∀ a, (f a).Stays P) :
    (c.bind f).Stays P := fun s hs => by
  have h := hc s hs
  rw [Cmd.out_bind]
  cases ho : c.out s with
  | ok a t =>
    rw [ho] at h
    exact hf a t h
  | raised e t =>
    rw [ho] at h
    exact h

theorem Cmd.stays_seq {c : Cmd α} {d : Cmd β} (hc : c.Stays P) (hd : d.Stays P) : (c.seq d).Stays P :=
  Cmd.stays_bind hc fun _ => hd

/-- What follows a body may rest on what the good end of that body gives. -/
theorem Cmd.stays_seq_of_leads {c : Cmd α} {d : Cmd β} (hc : c.Stays P) (hl : c.Leads P Q)
    (hd : d.Stays Q) (hq : ∀ s, Q s → P s) : (c.seq d).Stays P := fun s hs => by
  have h := hc s hs
  rw [Cmd.seq, Cmd.out_bind]
  cases ho : c.out s with
  | ok a t => exact hq _ (hd t (hl s a t hs ho))
  | raised e t =>
    rw [ho] at h
    exact h

theorem Cmd.stays_composes (P : State → Prop) : Composes (Cmd.Stays P) where
  skip := (Cmd.keeps_pure ()).stays
  seq := Cmd.stays_seq
  read f _ hk _ := Cmd.stays_bind (Cmd.keeps_read f).stays hk

theorem stays_withPlane {f : BitVec 2} {c : Plane → Cmd Unit} (h : ∀ p, (c p).Stays P) :
    (withPlane f c).Stays P := by
  unfold withPlane
  split
  · exact h _
  · exact (Cmd.keeps_raise _).stays

/-- What holds where a command's body ends, and the two ways of ending keep, holds after the command. -/
theorem exec_ends {i : Instr} {s t : State} (h : P ((commandBody i).out s).state)
    (hf : ∀ s, P s → P s.finish) (hr : ∀ s e, P s → P (s.raiseEnd e)) (ht : exec i s = .next t) :
    P t := by
  rw [exec_eq] at ht
  rcases runCommand_cases ht with ⟨u, ho, rfl⟩ | ⟨e, u, ho, rfl⟩
  · rw [ho] at h
    exact hf u h
  · rw [ho] at h
    exact hr u e h

/-- What follows a look at the state knows where the value comes from. -/
theorem Cmd.keeps_read_bind {f : State → α} {k : α → Cmd β} (h : ∀ s, P s → (k (f s)).Keeps P) :
    ((Cmd.read f).bind k).Keeps P := fun s hs =>
  Res.holds_after (r := k (f s) s) (by simp) (h s hs s hs)

theorem Cmd.keeps_forEach_mem {l : List α} {f : α → Cmd Unit} (hf : ∀ a ∈ l, (f a).Keeps P) :
    (Cmd.forEach l f).Keeps P := by
  induction l with
  | nil => exact Cmd.keeps_pure ()
  | cons a l ih =>
    exact Cmd.keeps_seq (hf a List.mem_cons_self) (ih fun b hb => hf b (List.mem_cons_of_mem a hb))

end

/-! ### Commands that store nothing -/

/-- Memory is `m`. -/
def State.HasMem (m : Memory) (s : State) : Prop := s.mem = m

@[simp] theorem State.withTable_mem (s : State) (t : Tbl) (h : HuffTable) :
    (s.withTable t h).mem = s.mem := by
  cases t <;> rfl

section
variable {m : Memory}

theorem keepsMem_update (rs : List Reg) {f : State → State}
    (hf : ∀ s, (f s).mem = s.mem := by intros; rfl) : (Cmd.update rs f).Keeps (State.HasMem m) :=
  Cmd.keeps_update fun s hs => (hf s).trans hs

theorem keepsMem_updateTable (rs : List Reg) (t : Tbl) (f : State → HuffTable) :
    (Cmd.update rs fun s => s.withTable t (f s)).Keeps (State.HasMem m) :=
  keepsMem_update rs fun s => s.withTable_mem t (f s)

theorem keepsMem_readBits (n : Nat) : (readBits n).Keeps (State.HasMem m) :=
  keeps_readBits (fun _ h => h) n

theorem keepsMem_readLe32 : readLe32.Keeps (State.HasMem m) := keeps_readLe32 fun _ h => h

theorem keepsMem_cmdBuildTables : cmdBuildTables.Keeps (State.HasMem m) :=
  Cmd.keeps_seq (keepsMem_update _) (keepsMem_update _)

theorem keepsMem_cmdLutReadRec : cmdLutReadRec.Keeps (State.HasMem m) :=
  Cmd.keeps_seq keeps_needTables <| Cmd.keeps_seq (Cmd.keeps_require _ _) <|
    Cmd.keeps_bind (Cmd.keeps_read _) fun x => by
      cases x with
      | none => exact Cmd.keeps_raise _
      | some h => exact keepsMem_update _

theorem keepsMem_cmdLutReadBest : cmdLutReadBest.Keeps (State.HasMem m) :=
  Cmd.keeps_seq keeps_needTables <| Cmd.keeps_seq (Cmd.keeps_require _ _) (keepsMem_update _)

theorem keepsMem_cmdHdrRead : cmdHdrRead.Keeps (State.HasMem m) :=
  Cmd.keeps_bind (keepsMem_readBits 8) fun _ => Cmd.keeps_bind keepsMem_readLe32 fun _ =>
    Cmd.keeps_bind keepsMem_readLe32 fun _ => Cmd.keeps_bind (keepsMem_readBits 8) fun _ =>
      Cmd.keeps_bind (keepsMem_readBits 8) fun _ => Cmd.keeps_seq (keepsMem_update _) keeps_frameCheck

theorem keepsMem_cmdPlaneGeom (p : Plane) : (cmdPlaneGeom p).Keeps (State.HasMem m) :=
  Cmd.keeps_seq keeps_frameCheck (keepsMem_update _)

theorem keepsMem_cmdBlockGeom (p : Plane) (bx row : Nat) :
    (cmdBlockGeom p bx row).Keeps (State.HasMem m) :=
  Cmd.keeps_seq keeps_frameCheck <| Cmd.keeps_seq (Cmd.keeps_require _ _) <|
    Cmd.keeps_bind (Cmd.keeps_read _) fun _ => Cmd.keeps_bind (keeps_blockSides _ _ _ _) fun _ =>
      keepsMem_update _

theorem keepsMem_cmdHopBeginDec (p : Plane) : (cmdHopBeginDec p).Keeps (State.HasMem m) :=
  Cmd.keeps_seq keeps_needTables <| Cmd.keeps_seq (keeps_regionCheck p) <|
    Cmd.keeps_bind (Cmd.keeps_read _) fun _ => Cmd.keeps_bind (keeps_memRead _) fun _ =>
      Cmd.keeps_seq (keepsMem_update _) (keepsMem_update _)

theorem keepsMem_cmdHuffBuild (t : Tbl) : (cmdHuffBuild t).Keeps (State.HasMem m) :=
  Cmd.keeps_bind (Cmd.keeps_read _) fun ok => by
    cases ok
    · exact Cmd.keeps_seq (keepsMem_updateTable _ _ _) (Cmd.keeps_raise _)
    · exact Cmd.keeps_seq (keepsMem_updateTable _ _ _) (keepsMem_updateTable _ _ _)

theorem keepsMem_cmdHuffReadHdr (t : Tbl) : (cmdHuffReadHdr t).Keeps (State.HasMem m) :=
  Cmd.keeps_seq (keepsMem_updateTable _ _ _) <| Cmd.keeps_seq
    (Cmd.keeps_forEach fun _ => Cmd.keeps_bind (keepsMem_readBits 4) fun _ =>
      keepsMem_updateTable _ _ _)
    (keepsMem_cmdHuffBuild t)

theorem keepsMem_cmdHuffFromCounts (t : Tbl) : (cmdHuffFromCounts t).Keeps (State.HasMem m) :=
  Cmd.keeps_seq (keepsMem_updateTable _ _ _) <| Cmd.keeps_seq (keepsMem_updateTable _ _ _)
    (keepsMem_cmdHuffBuild t)

theorem keepsMem_cmdHuffCountSym (t : Tbl) (n : Nat) : (cmdHuffCountSym t n).Keeps (State.HasMem m) :=
  Cmd.keeps_bind (keeps_needHop n) fun _ => keepsMem_updateTable _ _ _

theorem keepsMem_cmdHuffCountRegion (p : Plane) : (cmdHuffCountRegion p).Keeps (State.HasMem m) :=
  Cmd.keeps_seq (keeps_regionCheck p) <| Cmd.keeps_bind (Cmd.keeps_read _) fun _ =>
    Cmd.keeps_forEach fun _ => Cmd.keeps_bind (Cmd.keeps_read _) fun _ =>
      Cmd.keeps_bind (keeps_memRead _) fun _ => Cmd.keeps_bind (keeps_needHop _) fun _ =>
        keepsMem_updateTable _ _ _

theorem keepsMem_cmdHuffDecSym (t : Tbl) : (cmdHuffDecSym t).Keeps (State.HasMem m) :=
  Cmd.keeps_seq (keeps_needHuff t) <| Cmd.keeps_bind (keeps_decodeSymbol (fun _ h => h) t) fun _ =>
    keepsMem_update _

/-- The body of a command that stores nothing passes through states with one memory only. -/
theorem keepsMem_commandBody {i : Instr} (h : i.storesNothing = true) :
    (commandBody i).Keeps (State.HasMem m) := by
  cases i with
  | nop => exact Cmd.keeps_pure ()
  | buildTables => exact keepsMem_cmdBuildTables
  | lutReadRec => exact keepsMem_cmdLutReadRec
  | lutReadBest => exact keepsMem_cmdLutReadBest
  | checkConfig => exact keeps_frameCheck
  | hdrRead => exact keepsMem_cmdHdrRead
  | planeGeom f => exact keeps_withPlane keepsMem_cmdPlaneGeom
  | blockGeom f bx row => exact keeps_withPlane fun p => keepsMem_cmdBlockGeom p _ _
  | hopBeginDec f => exact keeps_withPlane keepsMem_cmdHopBeginDec
  | huffBuild t => exact keepsMem_cmdHuffBuild t
  | huffReadHdr t => exact keepsMem_cmdHuffReadHdr t
  | huffClearCounts t => exact keepsMem_updateTable _ _ _
  | huffCountSym t sym => exact keepsMem_cmdHuffCountSym t _
  | huffCountRegion f => exact keeps_withPlane keepsMem_cmdHuffCountRegion
  | huffFromCounts t => exact keepsMem_cmdHuffFromCounts t
  | huffDecSym t => exact keepsMem_cmdHuffDecSym t
  | _ => cases h

end

/-- Settles O20: no action of these sixteen bodies stores a byte, and ending a command stores none. -/
theorem nonStoringCommandsKeepMemory : Obligations.NonStoringCommandsKeepMemory := by
  intro i s t hi ht
  exact exec_ends (P := State.HasMem s.mem) ((keepsMem_commandBody hi).stays s rfl) (fun _ h => h)
    (fun u e h => (u.raiseEnd_mem e).trans h) ht

end Sys2Proof.Machine
end

section
namespace Sys2Proof.Machine

-- One theorem at a time: many checked at once need more threads than the memory limit allows.
set_option Elab.async false

/-! ### Commands that write through the bit writer (20_memory R113) -/

/-- From `s` to `t` the bit writer has gone forward in its stream, never past the limit, and no byte has
changed but those of the bits between its two positions. -/
structure State.StreamFrame (s t : State) : Prop where
  base : t.writer.base = s.writer.base
  limit : t.writer.limit = s.writer.limit
  forward : s.writer.pos.toNat ≤ t.writer.pos.toNat
  room : s.writer.pos.toNat ≤ s.writer.limit.toNat → t.writer.pos.toNat ≤ s.writer.limit.toNat
  kept : ∀ a, ¬ inStream s.writer.base s.writer.pos.toNat
    (t.writer.pos.toNat - s.writer.pos.toNat) a → t.mem.read a = s.mem.read a

section
variable {s t u : State}

theorem State.StreamFrame.refl (s : State) : s.StreamFrame s :=
  ⟨rfl, rfl, le_rfl, id, fun _ _ => rfl⟩

/-- The bits of two runs of the writer, one after the other, are those of both together. -/
theorem State.StreamFrame.trans (h : s.StreamFrame t) (k : t.StreamFrame u) : s.StreamFrame u where
  base := k.base.trans h.base
  limit := k.limit.trans h.limit
  forward := h.forward.trans k.forward
  room hs := h.limit ▸ k.room (h.limit ▸ h.room hs)
  kept a ha := by
    have hst := h.forward
    have htu := k.forward
    have later : t.mem.read a = s.mem.read a :=
      h.kept a fun ⟨j, hj, hja⟩ => ha ⟨j, by omega, hja⟩
    refine (k.kept a fun ⟨j, hj, hja⟩ =>
      ha ⟨t.writer.pos.toNat - s.writer.pos.toNat + j, by omega, ?_⟩).trans later
    rwa [← Nat.add_assoc, Nat.add_sub_cancel' hst, ← h.base]

/-- A change that leaves the writer and memory alone. -/
theorem State.StreamFrame.congr (h : s.StreamFrame t) (hw : u.writer = t.writer) (hm : u.mem = t.mem) :
    s.StreamFrame u := by
  obtain ⟨base, limit, forward, room, kept⟩ := h
  rw [← hw] at base limit forward room kept
  exact ⟨base, limit, forward, room, by rwa [hm]⟩

/-- One written bit. -/
theorem writeBit_streamFrame (b : Bool) (s : State) : s.StreamFrame ((writeBit b).out s).state := by
  rw [writeBit_out]
  split
  · next hlt =>
    let v := byteWritten s.mem s.writer.base s.writer.pos b
    let u := s.storeByte (bitAddr s.writer.base s.writer.pos) v
    have hw : u.writer = s.writer := s.storeByte_writer _ v
    have hpos : (u.produced 1).writer.pos.toNat = s.writer.pos.toNat + 1 := by
      rw [u.produced_pos (n := 1) (by rw [State.canWrite, hw]; omega), hw]
    refine ⟨(u.produced_base 1).trans (congrArg BitWriter.base hw),
      (u.produced_limit 1).trans (congrArg BitWriter.limit hw), ?_, fun _ => ?_, fun a ha => ?_⟩
    · exact hpos.symm ▸ Nat.le_succ _
    · exact hpos.symm ▸ hlt
    · refine s.storeByte_read_other _ v fun he => ha ⟨0, ?_, he.trans (streamByte_pos _ _)⟩
      exact hpos.symm ▸ by omega
  · exact .refl s

end

section
variable {s0 : State}

theorem stream_writeBits (v n : Nat) : (writeBits v n).Stays s0.StreamFrame := by
  induction n with
  | zero => exact (Cmd.keeps_pure ()).stays
  | succ n ih => exact Cmd.stays_seq (fun s h => h.trans (writeBit_streamFrame _ s)) ih

theorem stream_writeLe32 (w : Word) : (writeLe32 w).Stays s0.StreamFrame :=
  (Cmd.stays_composes _).forEach (fun _ => stream_writeBits _ _) _

theorem stream_cmdHdrWrite : cmdHdrWrite.Stays s0.StreamFrame :=
  Cmd.stays_seq keeps_frameCheck.stays <| Cmd.stays_bind (Cmd.keeps_read _).stays fun _ =>
    Cmd.stays_seq (stream_writeBits _ _) <| Cmd.stays_seq (stream_writeLe32 _) <|
      Cmd.stays_seq (stream_writeLe32 _) <| Cmd.stays_seq (stream_writeBits _ _) (stream_writeBits _ _)

theorem stream_cmdSeedsWrite : cmdSeedsWrite.Stays s0.StreamFrame :=
  Cmd.stays_seq keeps_frameCheck.stays <| Cmd.stays_bind (Cmd.keeps_read _).stays fun _ =>
    (Cmd.stays_composes _).forEach (fun _ => Cmd.stays_bind (Cmd.keeps_read _).stays fun _ =>
      Cmd.stays_bind (keeps_memRead _).stays fun _ => stream_writeBits _ _) _

theorem stream_cmdMeshWrite : cmdMeshWrite.Stays s0.StreamFrame :=
  Cmd.stays_seq keeps_frameCheck.stays <| Cmd.stays_bind (Cmd.keeps_read _).stays fun _ =>
    (Cmd.stays_composes _).forEach (fun _ => Cmd.stays_bind (keeps_readCorner _ _).stays fun _ =>
      Cmd.stays_seq (stream_writeBits _ _) (stream_writeBits _ _)) _

theorem stream_cmdBwFlush : cmdBwFlush.Stays s0.StreamFrame :=
  Cmd.stays_seq (Cmd.keeps_require _ _).stays <| Cmd.stays_bind (Cmd.keeps_read _).stays fun _ =>
    stream_writeBits _ _

theorem stream_cmdHuffWriteHdr (t : Tbl) : (cmdHuffWriteHdr t).Stays s0.StreamFrame :=
  Cmd.stays_seq (keeps_needHuff t).stays <| Cmd.stays_bind (Cmd.keeps_read _).stays fun _ =>
    (Cmd.stays_composes _).forEach (fun _ => stream_writeBits _ _) _

theorem stream_encodeSymbol (t : Tbl) (n : Nat) : (encodeSymbol t n).Stays s0.StreamFrame :=
  Cmd.stays_bind (keeps_needHop n).stays fun _ => Cmd.stays_bind (Cmd.keeps_read _).stays fun _ => by
    split
    · exact (Cmd.keeps_raise _).stays
    · exact stream_writeBits _ _

theorem stream_cmdHuffEncSym (t : Tbl) (n : Nat) : (cmdHuffEncSym t n).Stays s0.StreamFrame :=
  Cmd.stays_seq (keeps_needHuff t).stays (stream_encodeSymbol t n)

theorem stream_cmdHuffEncRegion (p : Plane) : (cmdHuffEncRegion p).Stays s0.StreamFrame :=
  Cmd.stays_seq (keeps_needHuff p.tbl).stays <| Cmd.stays_seq (keeps_regionCheck p).stays <|
    Cmd.stays_bind (Cmd.keeps_read _).stays fun _ => (Cmd.stays_composes _).forEach
      (fun _ => Cmd.stays_bind (Cmd.keeps_read _).stays fun _ =>
        Cmd.stays_bind (keeps_memRead _).stays fun _ => stream_encodeSymbol _ _) _

/-- The body of a command that stores through the bit writer stores its bits only. -/
theorem stream_commandBody {i : Instr} (h : i.storesStream = true) :
    (commandBody i).Stays s0.StreamFrame := by
  cases i with
  | hdrWrite => exact stream_cmdHdrWrite
  | seedsWrite => exact stream_cmdSeedsWrite
  | meshWrite => exact stream_cmdMeshWrite
  | bwFlush => exact stream_cmdBwFlush
  | huffWriteHdr t => exact stream_cmdHuffWriteHdr t
  | huffEncSym t sym => exact stream_cmdHuffEncSym t _
  | huffEncRegion f => exact stays_withPlane stream_cmdHuffEncRegion
  | _ => cases h

end

/-- Settles O21: one written bit stores its own byte, and the bits of a body follow one another. -/
theorem streamWritersStoreOnlyTheirBits : Obligations.StreamWritersStoreOnlyTheirBits := by
  intro i s t hi ht
  have h : s.StreamFrame t := exec_ends (stream_commandBody hi s (.refl s))
    (fun u h => h.congr u.finish_writer u.finish_mem)
    (fun u e h => h.congr (u.raiseEnd_writer e) (u.raiseEnd_mem e)) ht
  exact ⟨h.forward, h.base, h.room, h.kept⟩

end Sys2Proof.Machine
end

section
namespace Sys2Proof.Machine

-- One theorem at a time: many checked at once need more threads than the memory limit allows.
set_option Elab.async false

/-! ### Commands that store in buffers (20_memory R104, R106) -/

/-- From `s` to `t` no byte outside `A` has changed, and none of the registers that buffer addresses are
made of. -/
structure State.StoresIn (A : Nat → Prop) (s t : State) : Prop where
  cfg : t.cfg = s.cfg
  seedBase : t.seeds.seedBase = s.seeds.seedBase
  seedIndex : t.seeds.seedIndex = s.seeds.seedIndex
  meshBase : t.seeds.meshBase = s.seeds.meshBase
  bufs : t.bufs = s.bufs
  region : t.region = s.region
  kept : ∀ a, ¬ A a → t.mem.read a = s.mem.read a

section
variable {A : Nat → Prop} {s t u : State}

theorem State.StoresIn.refl (A : Nat → Prop) (s : State) : s.StoresIn A s :=
  ⟨rfl, rfl, rfl, rfl, rfl, rfl, fun _ _ => rfl⟩

/-- A change that leaves memory and the registers of addresses alone. -/
theorem State.StoresIn.congr (h : s.StoresIn A t) (cfg : u.cfg = t.cfg := by rfl)
    (bufs : u.bufs = t.bufs := by rfl) (region : u.region = t.region := by rfl)
    (mem : u.mem = t.mem := by rfl) (seedBase : u.seeds.seedBase = t.seeds.seedBase := by rfl)
    (seedIndex : u.seeds.seedIndex = t.seeds.seedIndex := by rfl)
    (meshBase : u.seeds.meshBase = t.seeds.meshBase := by rfl) : s.StoresIn A u :=
  ⟨cfg.trans h.cfg, seedBase.trans h.seedBase, seedIndex.trans h.seedIndex, meshBase.trans h.meshBase,
    bufs.trans h.bufs, region.trans h.region, mem ▸ h.kept⟩

theorem State.StoresIn.withMem (h : s.StoresIn A t) {m : Memory}
    (hm : ∀ a, ¬ A a → m.read a = t.mem.read a) : s.StoresIn A (t.withMem m) :=
  ⟨h.cfg, h.seedBase, h.seedIndex, h.meshBase, h.bufs, h.region,
    fun a ha => (hm a ha).trans (h.kept a ha)⟩

theorem State.StoresIn.storeByte (h : s.StoresIn A t) {a : Word} (ha : A a.toNat) (v : Byte) :
    s.StoresIn A (t.storeByte a v) := by
  unfold State.storeByte
  split
  · exact h
  · exact h.withMem fun b hb => Memory.read_write_other _ v (by rintro rfl; exact hb ha)

theorem State.StoresIn.finish (h : s.StoresIn A t) : s.StoresIn A t.finish :=
  h.congr

theorem State.StoresIn.raiseEnd (h : s.StoresIn A t) (e : ErrCode) : s.StoresIn A (t.raiseEnd e) :=
  h.congr (t.raiseEnd_cfg e) (t.raiseEnd_bufs e) (t.raiseEnd_region e) (t.raiseEnd_mem e)
    (congrArg SeedRegs.seedBase (t.raiseEnd_seeds e)) (congrArg SeedRegs.seedIndex (t.raiseEnd_seeds e))
    (congrArg SeedRegs.meshBase (t.raiseEnd_seeds e))

/-! Addresses made of registers that have not changed. -/

theorem State.StoresIn.seedSlot (h : s.StoresIn A t) (i : Nat) : t.seedSlot i = s.seedSlot i := by
  rw [State.seedSlot, h.seedBase, State.seedSlot]

theorem State.StoresIn.seedAddr (h : s.StoresIn A t) : t.seedAddr = s.seedAddr := by
  rw [State.seedAddr, h.seedBase, h.seedIndex, State.seedAddr]

theorem State.StoresIn.meshAddr (h : s.StoresIn A t) (cx cy : Nat) :
    t.meshAddr cx cy = s.meshAddr cx cy := by
  rw [State.meshAddr, h.meshBase, h.cfg, State.meshAddr]

theorem State.StoresIn.buf (h : s.StoresIn A t) (p : Plane) : t.buf p = s.buf p := by
  cases p <;> simp only [State.buf, h.bufs]

theorem State.StoresIn.dstAddr (h : s.StoresIn A t) (p : Plane) (x y : Nat) :
    t.dstAddr p x y = s.dstAddr p x y := by
  rw [State.dstAddr, h.buf, State.dstAddr]

theorem State.StoresIn.hopAddr (h : s.StoresIn A t) (p : Plane) (x y : Nat) :
    t.hopAddr p x y = s.hopAddr p x y := by
  rw [State.hopAddr, h.buf, State.hopAddr]

theorem State.StoresIn.inRegion_iff (h : s.StoresIn A t) (x y : Nat) :
    t.inRegion x y ↔ s.inRegion x y := by
  rw [State.inRegion, h.region]

/-- A command whose body stores in `A` only leaves every other byte. -/
theorem exec_storesIn {i : Instr} (h : s.StoresIn A ((commandBody i).out s).state)
    (ht : exec i s = .next t) {a : Nat} (ha : ¬ A a) : t.mem.read a = s.mem.read a :=
  (exec_ends h (fun _ h => h.finish) (fun _ e h => h.raiseEnd e) ht).kept a ha

theorem Cmd.Stays.storesIn {c : Cmd Unit} (h : c.Stays (s.StoresIn A)) : s.StoresIn A (c.out s).state :=
  h s (.refl A s)

end

/-! #### Lists of coordinates -/

theorem mem_raster {w h : Nat} {q : Nat × Nat} : q ∈ raster w h ↔ q.1 < w ∧ q.2 < h := by
  obtain ⟨x, y⟩ := q
  simp [raster]
  tauto

theorem Region.mem_pixels {r : Region} {q : Nat × Nat} (hq : q ∈ r.pixels) :
    r.x0.toNat ≤ q.1 ∧ q.1 < r.x0.toNat + r.w.toNat ∧
      r.y0.toNat ≤ q.2 ∧ q.2 < r.y0.toNat + r.h.toNat := by
  obtain ⟨d, hd, rfl⟩ := List.mem_map.1 hq
  obtain ⟨hx, hy⟩ := mem_raster.1 hd
  refine ⟨?_, ?_, ?_, ?_⟩ <;> dsimp only <;> omega

/-- The number of a corner in row-major order. -/
theorem FrameConfig.corner_lt {c : FrameConfig} {k : Nat × Nat} (hk : k ∈ c.corners) :
    k.2 * (c.blocksW + 1) + k.1 < c.cornerCount := by
  obtain ⟨hx, hy⟩ := mem_raster.1 hk
  calc k.2 * (c.blocksW + 1) + k.1 < (k.2 + 1) * (c.blocksW + 1) := by rw [Nat.succ_mul]; omega
    _ ≤ (c.blocksH + 1) * (c.blocksW + 1) := Nat.mul_le_mul_right _ hy
    _ = c.cornerCount := Nat.mul_comm _ _

/-! #### The bytes that the rules name -/

/-- A byte of the seed array (44_frame R406). -/
def State.IsSeedByte (s : State) (a : Nat) : Prop :=
  ∃ i, i < s.cfg.seedCount ∧ a = (s.seedSlot i).toNat

/-- A byte of the mesh array (42_mesh R305). -/
def State.IsMeshByte (s : State) (a : Nat) : Prop :=
  ∃ k, k < s.cfg.cornerCount ∧ a = (s.meshByteAddr k).toNat

/-- The byte of the current seed slot (41_predictor R264). -/
def State.IsSlotByte (s : State) (a : Nat) : Prop := a = s.seedAddr.toNat

/-- The reconstruction of a pixel of the region. -/
def State.IsDstByte (s : State) (p : Plane) (a : Nat) : Prop :=
  ∃ x y, s.inRegion x y ∧ a = (s.dstAddr p x y).toNat

/-- The hop of a pixel of the region. -/
def State.IsHopByte (s : State) (p : Plane) (a : Nat) : Prop :=
  ∃ x y, s.inRegion x y ∧ a = (s.hopAddr p x y).toNat

/-- What HOP_STEP stores at the cursor: the reconstruction, and the hop when encoding (41_predictor
R265). -/
def State.IsStepByte (s : State) (a : Nat) : Prop :=
  a = (s.dstAddr s.scan.plane s.cursorX s.cursorY).toNat ∨
  (s.scan.dir = .encode ∧ a = (s.hopAddr s.scan.plane s.cursorX s.cursorY).toNat)

/-- What the scan of a region stores. -/
def State.IsScanByte (s : State) (d : Dir) (p : Plane) (a : Nat) : Prop :=
  s.IsDstByte p a ∨ (d = .encode ∧ s.IsHopByte p a)

/-! #### Commands that store what they read from a stream -/

section
variable {A : Nat → Prop} {s : State}

theorem storesIn_readBits (n : Nat) : (readBits n).Keeps (s.StoresIn A) :=
  keeps_readBits (fun _ h => h.congr) n

theorem storesIn_memWrite {a : Word} (ha : A a.toNat) (v : Byte) :
    (memWrite a v).Keeps (s.StoresIn A) := keeps_memWrite fun _ h => h.storeByte ha v

theorem storesIn_cmdSeedsRead : cmdSeedsRead.Keeps (s.StoresIn s.IsSeedByte) :=
  Cmd.keeps_seq keeps_frameCheck <| Cmd.keeps_read_bind fun u hu => Cmd.keeps_forEach_mem fun i hi =>
    Cmd.keeps_bind (storesIn_readBits 8) fun _ => Cmd.keeps_read_bind fun w hw => storesIn_memWrite
      ⟨i, by simpa [hu.cfg] using hi, by rw [hw.seedSlot]⟩ _

theorem storesIn_cmdMeshRead : cmdMeshRead.Keeps (s.StoresIn s.IsMeshByte) :=
  Cmd.keeps_seq keeps_frameCheck <| Cmd.keeps_read_bind fun _ hu => Cmd.keeps_forEach_mem fun k hk =>
    Cmd.keeps_bind (storesIn_readBits 3) fun _ => Cmd.keeps_bind (storesIn_readBits 3) fun _ => by
      rw [hu.cfg] at hk
      split
      · exact Cmd.keeps_raise _
      · exact Cmd.keeps_read_bind fun w hw => storesIn_memWrite
          ⟨_, FrameConfig.corner_lt hk, by rw [hw.meshAddr]; rfl⟩ _

theorem storesIn_cmdHuffDecRegion (p : Plane) :
    (cmdHuffDecRegion p).Keeps (s.StoresIn (s.IsHopByte p)) :=
  Cmd.keeps_seq (keeps_needHuff _) <| Cmd.keeps_seq (keeps_regionCheck _) <|
    Cmd.keeps_read_bind fun u hu => Cmd.keeps_forEach_mem fun q hq =>
      Cmd.keeps_bind (keeps_decodeSymbol (fun _ h => h.congr) _) fun _ =>
        Cmd.keeps_read_bind fun w hw => storesIn_memWrite
          ⟨q.1, q.2, (hu.inRegion_iff _ _).1 (Region.mem_pixels hq), by rw [hw.hopAddr]⟩ _

/-! #### The predictor -/

theorem storesIn_cmdHopBeginDec (p : Plane) : (cmdHopBeginDec p).Keeps (s.StoresIn A) :=
  Cmd.keeps_seq keeps_needTables <| Cmd.keeps_seq (keeps_regionCheck p) <|
    Cmd.keeps_bind (Cmd.keeps_read _) fun _ => Cmd.keeps_bind (keeps_memRead _) fun _ =>
      Cmd.keeps_seq (Cmd.keeps_update fun _ h => h.congr)
        (Cmd.keeps_update fun _ h => h.congr)

theorem storesIn_cmdHopBeginEnc (p : Plane) (hA : A s.seedAddr.toNat) :
    (cmdHopBeginEnc p).Keeps (s.StoresIn A) :=
  Cmd.keeps_seq keeps_needTables <| Cmd.keeps_seq (keeps_regionCheck p) <|
    Cmd.keeps_bind (Cmd.keeps_read _) fun _ => Cmd.keeps_bind (keeps_memRead _) fun _ =>
      Cmd.keeps_seq (Cmd.keeps_update fun _ h => h.congr) <|
        Cmd.keeps_read_bind fun _ hu => Cmd.keeps_seq (storesIn_memWrite (hu.seedAddr.symm ▸ hA) _)
          (Cmd.keeps_update fun _ h => h.congr)

end

section
variable {A : Nat → Prop} {s t : State} {d : Dir} {p : Plane}

/-- A pixel's hop: found, with at most its hop byte stored, or an error that leaves the state. -/
theorem pixelHop_stores (p : Plane) (d : Dir) (ax ay step : Nat) (pred : Byte) (s : State) :
    (∃ ho m, (pixelHop p d ax ay step pred).out s = .ok ho (s.withMem m) ∧
      ∀ a, ¬ (d = .encode ∧ a = (s.hopAddr p ax ay).toNat) → m.read a = s.mem.read a) ∨
    ∃ e, (pixelHop p d ax ay step pred).out s = .raised e s := by
  cases d with
  | decode =>
    by_cases hb : (s.byteAt (s.hopAddr p ax ay)).toNat < 9
    · exact .inl ⟨_, s.mem, pixelHop_decode p ax ay step pred s ⟨_, hb⟩ rfl, fun _ _ => rfl⟩
    · exact .inr ⟨_, pixelHop_bad p ax ay step pred s (by omega)⟩
  | encode =>
    have ho := pixelHop_encode p ax ay step pred s
    obtain ⟨m, hm⟩ := pixelHop_ok_cases ho
    refine .inl ⟨_, m, ho.trans (congrArg (Out.ok _) hm), fun a ha => ?_⟩
    have hk := s.storeByte_read_other (s.hopAddr p ax ay) (BitVec.ofNat 8
      (s.luts.best s.cfg.ratio.toNat step (s.byteAt (s.srcAddr p ax ay)).toNat pred.toNat).val)
      fun he => ha ⟨rfl, he⟩
    rwa [hm] at hk

/-- The scan is one of plane `p` in direction `d`, and from `s0` only bytes in `A` have changed. -/
structure State.Scans (A : Nat → Prop) (d : Dir) (p : Plane) (s0 s : State) : Prop where
  stores : s0.StoresIn A s
  dir : s.scan.dir = d
  plane : s.scan.plane = p

/-- A pixel stores its own bytes, and keeps the plane and the direction of the scan (41_predictor R265). -/
theorem stepPixel_scans {s0 s : State} (h : s0.Scans A d p s) (ha : s.scan.active = true)
    (hA : ∀ a, s.IsStepByte a → A a) : s0.Scans A d p (stepPixel.out s).state := by
  rcases pixelHop_stores s.scan.plane s.scan.dir s.cursorX s.cursorY
      (pixelHopState s.cursorClass s.scan.step.toNat s.scan.lastSmall).1
      (s.predOf s.scan.plane s.cursorClass s.cursorX s.cursorY) s with ⟨ho, m, hh, hm⟩ | ⟨e, hh⟩
  · rw [stepPixel_ok ha hh]
    refine ⟨?_, h.dir, h.plane⟩
    have hop : s0.StoresIn A (s.withMem m) :=
      h.stores.withMem fun a ha => hm a fun hb => ha (hA a (.inr hb))
    exact (hop.storeByte (hA _ (.inl rfl)) _).congr
  · rw [stepPixel_raised hh]
    exact h

/-- HOP_STEP does nothing but raise, or it is the pixel at a cursor in the region. -/
theorem cmdHopStep_cases (s : State) : (∃ e, cmdHopStep.out s = .raised e s) ∨
    (s.scan.active = true ∧ s.inRegion s.cursorX s.cursorY ∧ cmdHopStep.out s = stepPixel.out s) := by
  rw [cmdHopStep, needScan_seq]
  split
  · next ha =>
    rw [needTables_seq]
    split
    · rw [Cmd.out_read_bind, regionCheck, Cmd.out_check_seq]
      split
      · rw [needCursor_seq]
        split
        · next hc =>
          refine .inr ⟨ha, ?_, rfl⟩
          simp only [State.inRegion, State.cursorX, State.cursorY]
          omega
        · exact .inl ⟨_, rfl⟩
      · exact .inl ⟨_, rfl⟩
    · exact .inl ⟨_, rfl⟩
  · exact .inl ⟨_, rfl⟩

theorem storesIn_cmdHopStep (s : State) : s.StoresIn s.IsStepByte (cmdHopStep.out s).state := by
  rcases cmdHopStep_cases s with ⟨e, ho⟩ | ⟨ha, -, ho⟩
  · rw [ho]
    exact .refl _ s
  · rw [ho]
    exact (stepPixel_scans ⟨.refl _ s, rfl, rfl⟩ ha fun _ h => h).stores

/-- Each step of a scan stores bytes of the region's pixels. -/
theorem scans_cmdHopStep {s0 : State} (hA : ∀ a, s0.IsScanByte d p a → A a) :
    cmdHopStep.Stays (s0.Scans A d p) := fun s h => by
  rcases cmdHopStep_cases s with ⟨e, ho⟩ | ⟨ha, hr, ho⟩
  · rw [ho]
    exact h
  · rw [ho]
    refine stepPixel_scans h ha fun a hs => hA a ?_
    have hr0 := (h.stores.inRegion_iff _ _).1 hr
    rcases hs with rfl | ⟨hd, rfl⟩
    · exact .inl ⟨_, _, hr0, by rw [h.stores.dstAddr, h.plane]⟩
    · exact .inr ⟨h.dir.symm.trans hd, _, _, hr0, by rw [h.stores.hopAddr, h.plane]⟩

/-- A begin that starts a scan of plane `p`, then the scan (41_predictor R266, R267). -/
theorem storesIn_scanRegion {s0 : State} {c : Cmd Unit} (hc : c.Keeps (s0.StoresIn A))
    (hs : c.Leads (fun _ => True) fun t => t.scan = Scan.start d p)
    (hA : ∀ a, s0.IsScanByte d p a → A a) : (c.seq scanRegion).Stays (s0.StoresIn A) :=
  Cmd.stays_seq_of_leads hc.stays
    (fun s a t h ho => ⟨hc.ok h ho, by rw [hs s a t trivial ho]; rfl, by rw [hs s a t trivial ho]; rfl⟩)
    ((Cmd.stays_composes _).scanRegion (scans_cmdHopStep hA)) fun _ h => h.stores

theorem cmdHopBeginDec_starts (p : Plane) :
    (cmdHopBeginDec p).Leads (fun _ => True) fun t => t.scan = Scan.start .decode p :=
  Cmd.leads_true.seq <| Cmd.leads_true.seq <| Cmd.leads_true.bind fun _ => Cmd.leads_true.bind fun _ =>
    Cmd.leads_true.seq <| Cmd.leads_update fun _ _ => rfl

theorem cmdHopBeginEnc_starts (p : Plane) :
    (cmdHopBeginEnc p).Leads (fun _ => True) fun t => t.scan = Scan.start .encode p :=
  Cmd.leads_true.seq <| Cmd.leads_true.seq <| Cmd.leads_true.bind fun _ => Cmd.leads_true.bind fun _ =>
    Cmd.leads_true.seq <| Cmd.leads_true.bind fun _ => Cmd.leads_true.seq <|
      Cmd.leads_update fun _ _ => rfl

theorem storesIn_cmdHopDecRegion (p : Plane) :
    (cmdHopDecRegion p).Stays (s.StoresIn (s.IsScanByte .decode p)) :=
  storesIn_scanRegion (storesIn_cmdHopBeginDec p) (cmdHopBeginDec_starts p) fun _ h => h

theorem storesIn_cmdHopEncRegion (p : Plane) :
    (cmdHopEncRegion p).Stays (s.StoresIn fun a => s.IsSlotByte a ∨ s.IsScanByte .encode p a) :=
  storesIn_scanRegion (storesIn_cmdHopBeginEnc p (.inl rfl)) (cmdHopBeginEnc_starts p) fun _ h => .inr h

/-- The body of a plane command stores what that of the plane does that its field names. -/
theorem storesIn_withPlane {f : BitVec 2} (hp : Plane.ofField f = some p) {c : Plane → Cmd Unit}
    (h : (c p).Stays (s.StoresIn A)) : s.StoresIn A ((withPlane f c).out s).state := by
  rw [withPlane_some hp]
  exact h.storesIn

end

/-- Settles O22: each command's stores go to bytes its rule names, whose addresses are made of registers
that the command leaves alone. -/
theorem bufferWritersStoreOnlyTheirBytes : Obligations.BufferWritersStoreOnlyTheirBytes := by
  intro s t f p a hp
  refine ⟨fun ht hn => ?_, fun ht hn => ?_, fun ht hn => ?_, fun ht hd hh => ?_, fun ht hd => ?_,
    fun ht hs hn => ?_, fun ht hn => ?_⟩
  · exact exec_storesIn storesIn_cmdSeedsRead.stays.storesIn ht fun ⟨i, hi, h⟩ => hn i hi h
  · exact exec_storesIn storesIn_cmdMeshRead.stays.storesIn ht fun ⟨k, hk, h⟩ => hn k hk h
  · exact exec_storesIn (storesIn_withPlane hp
      (storesIn_cmdHopBeginEnc (A := s.IsSlotByte) p rfl).stays) ht hn
  · refine exec_storesIn (storesIn_cmdHopStep s) ht ?_
    rintro (h | ⟨he, h⟩)
    · exact hd h
    · exact hh he h
  · refine exec_storesIn (storesIn_withPlane hp (storesIn_cmdHopDecRegion p)) ht ?_
    rintro (⟨x, y, hr, h⟩ | ⟨h, -⟩)
    · exact hd x y hr h
    · cases h
  · refine exec_storesIn (storesIn_withPlane hp (storesIn_cmdHopEncRegion p)) ht ?_
    rintro (h | ⟨x, y, hr, h⟩ | ⟨-, x, y, hr, h⟩)
    · exact hs h
    · exact (hn x y hr).1 h
    · exact (hn x y hr).2 h
  · exact exec_storesIn (storesIn_withPlane hp (storesIn_cmdHuffDecRegion p).stays) ht
      fun ⟨x, y, hr, h⟩ => hn x y hr h

end Sys2Proof.Machine
end

section
namespace Sys2Proof.Machine

-- One theorem at a time: many checked at once need more threads than the memory limit allows.
set_option Elab.async false

/-! ### Host accesses to memory (20_memory R121) -/

section
variable {s : State} {run : Running} {a : Word}

/-- The state after a host write to plain memory. -/
def State.hostWrite (s : State) (a : Word) (v : Byte) : State :=
  (s.withMem (s.mem.write a.toNat v)).withBus .ack

/-- An access to an idle core is one to plain memory. -/
theorem accessIdle_memory (s : State) (a : Word) (v : Byte) :
    accessIdle (.memWrite a v) s = .next (s.hostWrite a v) ∧
    accessIdle (.memRead a) s = .next (s.withBus (.byte (s.byteAt a))) := ⟨rfl, rfl⟩

/-- So is one to a byte that the running command does not touch. -/
theorem accessBusy_apart (h : contended run s a = false) (v : Byte) :
    accessBusy (.memWrite a v) run s = .next (s.hostWrite a v) ∧
    accessBusy (.memRead a) run s = .next (s.withBus (.byte (s.byteAt a))) := by
  simp [accessBusy, h, State.hostWrite]

/-- An access to a byte that it touches is a race. -/
theorem accessBusy_contended (h : contended run s a = true) (v : Byte) :
    accessBusy (.memWrite a v) run s = .next ((s.race a).withBus .ack) ∧
    accessBusy (.memRead a) run s =
      .next ((s.withBus (.byte (Config.raceRead s.draws))).withDraws (s.draws + 1)) := by
  simp [accessBusy, h]

/-- A write at one address leaves the bytes of all others. -/
theorem Memory.read_write_word (m : Memory) (a : Word) (v : Byte) {b : Word} (h : b ≠ a) :
    (m.write a.toNat v).read b.toNat = m.read b.toNat :=
  m.read_write_other v fun he => h (BitVec.eq_of_toNat_eq he)

theorem State.hostWrite_same (s : State) (a : Word) (v : Byte) : (s.hostWrite a v).byteAt a = v :=
  s.mem.read_write_same _ v

theorem State.hostWrite_other (s : State) (v : Byte) {b : Word} (h : b ≠ a) :
    (s.hostWrite a v).byteAt b = s.byteAt b := s.mem.read_write_word a v h

/-- Nothing else has changed. -/
theorem State.hostWrite_undo (s : State) (l : List Pending) (a : Word) (v : Byte) :
    ((((s.withInbox l).hostWrite a v).withMem s.mem).withInbox s.inbox).withBus s.bus = s := by
  simp only [State.hostWrite, State.withMem, State.withInbox, State.withBus]

theorem State.race_other (s : State) {b : Word} (h : b ≠ a) : (s.race a).byteAt b = s.byteAt b :=
  s.mem.read_write_word a _ h

end

/-- Settles O16: an access to an idle core is plain; one to a busy core is plain or a race, as the byte is
apart from the command's or contended. -/
theorem hostMemoryAccessesAndRaces : Obligations.HostMemoryAccessesAndRaces := by
  intro s a v d rest
  refine ⟨fun hn => ⟨fun hi => ?_, fun hi => ?_⟩, ?_⟩
  · let u := s.withInbox rest
    exact ⟨u.hostWrite a v, (step_idle_access hn hi).trans (accessIdle_memory u a v).1,
      u.hostWrite_same a v, fun b hb => u.hostWrite_other v hb, s.hostWrite_undo rest a v⟩
  · exact (step_idle_access hn hi).trans (accessIdle_memory _ a v).2
  · intro r k hr hd r' s'
    subst hd
    have busy : ∀ {acc}, s.inbox = { access := acc, during := some k } :: rest →
        step s = accessBusy acc r' s' := fun hi => step_busy_access hr hi
    cases hc : contended r' s' a with
    | false =>
      obtain ⟨write, read⟩ := accessBusy_apart hc v
      refine ⟨fun hi => ⟨s'.hostWrite a v, (busy hi).trans write, rfl,
        fun b hb => s'.hostWrite_other v hb, fun _ => ⟨s'.hostWrite_same a v, rfl⟩, nofun⟩,
        fun hi => ⟨fun _ => (busy hi).trans read, nofun⟩⟩
    | true =>
      obtain ⟨write, read⟩ := accessBusy_contended hc v
      refine ⟨fun hi => ⟨(s'.race a).withBus .ack, (busy hi).trans write, rfl,
        fun b hb => s'.race_other hb, nofun, fun _ => rfl⟩,
        fun hi => ⟨nofun, fun _ => ⟨_, (busy hi).trans read⟩⟩⟩

/-! ### Bits written and read back (20_memory R115) -/

/-- A field depends on its own bits alone. -/
theorem fieldAt_congr {m m' : Memory} {base : Word} {q n : Nat}
    (h : ∀ k, k < n → bitAt m' base (q + k) = bitAt m base (q + k)) :
    fieldAt m' base q n = fieldAt m base q n := by
  induction n with
  | zero => rfl
  | succ n ih =>
    rw [fieldAt, fieldAt, ih fun k hk => h k (Nat.lt_succ_of_lt hk), h n (Nat.lt_succ_self n)]

/-- Bits appended after a field leave it. -/
theorem fieldAt_append {m m' m'' : Memory} {base : Word} {pos v n : Nat} {bits : List Bool}
    (h : Appended m m' base pos (msbBits v n)) (h' : Appended m' m'' base (pos + n) bits)
    (hv : v < 2 ^ n) : fieldAt m'' base pos n = v :=
  (fieldAt_congr fun k hk => h'.earlier (pos + k) (Nat.add_lt_add_left hk pos)).trans
    (fieldAt_appended h hv)

/-- Settles O23: the field's bits stand where the reader looks, and the later bits come after them. -/
theorem writtenBitsReadBack : Obligations.WrittenBitsReadBack := by
  intro v n u k s r hv hc hw hb hp hr
  have hn : s.canWrite n := by simp only [State.canWrite] at *; omega
  obtain ⟨m, ho, ha, -⟩ := writeBits_ok v n s hc hn
  let s1 := (s.withMem m).produced n
  have hpos : s1.writer.pos.toNat = s.writer.pos.toNat + n := State.produced_pos (s.withMem m) hn
  have hlim : s1.writer.limit = s.writer.limit := rfl
  have hk : s1.canWrite k := by simp only [State.canWrite, hpos, hlim] at *; omega
  obtain ⟨m', ho', ha', -⟩ := writeBits_ok u k s1 hc hk
  refine ⟨(s1.withMem m').produced k, (Cmd.out_seq_ok ho _).trans ho', ?_⟩
  have field : fieldAt m' r.base r.pos.toNat n = v := by
    rw [hpos] at ha'
    rw [hb, hp]
    exact fieldAt_append ha ha' hv
  rw [← field]
  exact readBits_ok n (((s1.withMem m').produced k).withReader r) (by rw [← hp] at hr; exact hr)

/-! ### A header that is cut off (20_memory R111, 44_frame R413) -/

/-- The reader at its budget, or where it was if it was past it. -/
def State.truncated (s : State) : State :=
  s.withReader { s.reader with
    pos := if s.reader.pos < s.reader.budget then s.reader.budget else s.reader.pos }

/-- The body reads `n` bits where the budget leaves them, and changes nothing but BR_POS. -/
def Cmd.Takes {α : Type} (n : Nat) (c : Cmd α) : Prop :=
  ∀ s, s.canRead n → ∃ a, c.out s = .ok a (s.consumed n)

/-- With fewer than `n` bits left the body raises E_TRUNCATED, the bits up to the budget consumed. -/
def Cmd.Truncates {α : Type} (n : Nat) (c : Cmd α) : Prop :=
  ∀ s, s.reader.budget.toNat < s.reader.pos.toNat + n → c.out s = .raised .truncated s.truncated

/-- Up to the budget: what is left of it is consumed. -/
theorem State.consumed_budget_eq {s : State} (h : s.reader.pos.toNat ≤ s.reader.budget.toNat) :
    s.consumed (s.reader.budget.toNat - s.reader.pos.toNat) = s.truncated := by
  have hpos : s.reader.pos + BitVec.ofNat 32 (s.reader.budget.toNat - s.reader.pos.toNat) =
      if s.reader.pos < s.reader.budget then s.reader.budget else s.reader.pos := by
    apply BitVec.eq_of_toNat_eq
    rw [BitVec.toNat_add, BitVec.toNat_ofNat]
    split
    · omega
    · next hge =>
      rw [BitVec.lt_def] at hge
      omega
  rw [State.consumed, State.truncated, hpos]

/-- Past the budget no bit is consumed. -/
theorem State.truncated_past {s : State} (h : s.reader.budget.toNat < s.reader.pos.toNat) :
    s.truncated = s := by
  have hpos : ¬ s.reader.pos < s.reader.budget := by rw [BitVec.lt_def]; omega
  rw [State.truncated, if_neg hpos]
  rfl

/-- Bits that were there before the budget ran out leave the same truncation. -/
theorem State.consumed_truncated {s : State} {n : Nat} (h : s.canRead n) :
    (s.consumed n).truncated = s.truncated := by
  have hs : s.reader.pos.toNat ≤ s.reader.budget.toNat := by simp only [State.canRead] at h; omega
  have hpos := s.consumed_pos h
  rw [← State.consumed_budget_eq hs, ← State.consumed_budget_eq (by rw [hpos]; exact h),
    State.consumed_consumed, hpos, State.consumed_budget]
  congr 1
  simp only [State.canRead] at h
  omega

theorem readBits_takes (n : Nat) : (readBits n).Takes n := fun s h => ⟨_, readBits_ok n s h⟩

theorem readBits_truncates (n : Nat) : (readBits (n + 1)).Truncates (n + 1) := fun s h => by
  by_cases hs : s.reader.pos.toNat ≤ s.reader.budget.toNat
  · rw [readBits, readBits_truncated _ _ _ hs h, State.consumed_budget_eq hs]
  · rw [readBits, readBits_past _ _ _ (by omega), State.truncated_past (by omega)]

section
variable {α β : Type} {m n : Nat} {c : Cmd α} {f : α → Cmd β}

theorem Cmd.takes_pure (a : α) : (Cmd.pure a).Takes 0 := fun s _ => ⟨a, by simp⟩

theorem Cmd.Takes.bind (hc : c.Takes m) (hf : ∀ a, (f a).Takes n) : (c.bind f).Takes (m + n) :=
  fun s h => by
  have hm : s.canRead m := by simp only [State.canRead] at *; omega
  have hn : (s.consumed m).canRead n := by
    simp only [State.canRead, s.consumed_pos hm, State.consumed_budget] at *; omega
  obtain ⟨a, ho⟩ := hc s hm
  obtain ⟨b, ho'⟩ := hf a _ hn
  exact ⟨b, by rw [Cmd.out_bind_ok ho, ho', State.consumed_consumed]⟩

/-- The budget runs out in the first part, or in the second. -/
theorem Cmd.Truncates.bind (hc : c.Truncates m) (ht : c.Takes m) (hf : ∀ a, (f a).Truncates n) :
    (c.bind f).Truncates (m + n) := fun s h => by
  by_cases hm : s.canRead m
  · obtain ⟨a, ho⟩ := ht s hm
    have hn : (s.consumed m).reader.budget.toNat < (s.consumed m).reader.pos.toNat + n := by
      rw [s.consumed_pos hm, State.consumed_budget]; omega
    rw [Cmd.out_bind_ok ho, hf a _ hn, State.consumed_truncated hm]
  · exact Cmd.out_bind_raised (hc s (Nat.lt_of_not_le hm)) f

/-- A raise ends the whole. -/
theorem Cmd.Truncates.bind_left (hc : c.Truncates m) : (c.bind f).Truncates m := fun s h =>
  Cmd.out_bind_raised (hc s h) f

end

theorem readLe32_takes : readLe32.Takes 32 :=
  (readBits_takes 8).bind (n := 24) fun _ => (readBits_takes 8).bind (n := 16) fun _ =>
    (readBits_takes 8).bind (n := 8) fun _ => (readBits_takes 8).bind (n := 0) fun _ => Cmd.takes_pure _

theorem readLe32_truncates : readLe32.Truncates 32 :=
  (readBits_truncates 7).bind (n := 24) (readBits_takes 8) fun _ =>
    (readBits_truncates 7).bind (n := 16) (readBits_takes 8) fun _ =>
      (readBits_truncates 7).bind (n := 8) (readBits_takes 8) fun _ => (readBits_truncates 7).bind_left

/-- HDR_READ takes its 88 bits before it writes a register (44_frame R413). -/
theorem cmdHdrRead_truncates : cmdHdrRead.Truncates 88 :=
  (readBits_truncates 7).bind (n := 80) (readBits_takes 8) fun _ =>
    readLe32_truncates.bind (n := 48) readLe32_takes fun _ =>
      readLe32_truncates.bind (n := 16) readLe32_takes fun _ =>
        (readBits_truncates 7).bind (n := 8) (readBits_takes 8) fun _ => (readBits_truncates 7).bind_left

/-- Settles O24: the budget runs out among the 88 bits that HDR_READ reads first. -/
theorem truncatedHeaderWritesNoRegister : Obligations.TruncatedHeaderWritesNoRegister := fun s h =>
  exec_raised (cmdHdrRead_truncates s h)

end Sys2Proof.Machine
end

section
namespace Sys2Proof

-- One theorem at a time: many checked at once need more threads than the memory limit allows.
set_option Elab.async false

/-! ### Words and the command they carry (30_encoding R150, R156, R157) -/

/-- The two words agree in OP and in every field the command reads. -/
structure Instr.SameFields (i : Instr) (w w' : Word) : Prop where
  op : fieldOp w = fieldOp w'
  plane : i.readsPlane = true → fieldPlane w = fieldPlane w'
  tbl : i.readsTbl = true → fieldTbl w = fieldTbl w'
  sym : i.readsSym = true → fieldSym w = fieldSym w'
  block : i.readsBlock = true → fieldBx w = fieldBx w' ∧ fieldBy w = fieldBy w'

/-- The word carries the command: it differs from the command's own word in ignored bits only. -/
def Instr.CarriedBy (i : Instr) (w : Word) : Prop := i.SameFields w (encode i)

theorem Instr.carriedBy_encode (i : Instr) : i.CarriedBy (encode i) :=
  ⟨rfl, fun _ => rfl, fun _ => rfl, fun _ => rfl, fun _ => ⟨rfl, rfl⟩⟩

theorem Instr.CarriedBy.congr {i : Instr} {w w' : Word} (h : i.CarriedBy w) (hw : i.SameFields w' w) :
    i.CarriedBy w' where
  op := hw.op.trans h.op
  plane hr := (hw.plane hr).trans (h.plane hr)
  tbl hr := (hw.tbl hr).trans (h.tbl hr)
  sym hr := (hw.sym hr).trans (h.sym hr)
  block hr := ⟨(hw.block hr).1.trans (h.block hr).1, (hw.block hr).2.trans (h.block hr).2⟩

section
variable {i : Instr} {w : Word} {op : BitVec 8} {plane : BitVec 2} {tbl : BitVec 1} {sym : BitVec 4}
  {bx row : BitVec 8}

/-- A command is carried by a word that has its OP and the operands it was packed from. -/
theorem Instr.CarriedBy.packed (he : encode i = packWord op plane tbl sym bx row)
    (hop : (fieldOp w).toNat = op.toNat) (hp : i.readsPlane = true → plane = fieldPlane w)
    (ht : i.readsTbl = true → tbl = (fieldTbl w).field) (hs : i.readsSym = true → sym = fieldSym w)
    (hb : i.readsBlock = true → bx = fieldBx w ∧ row = fieldBy w) : i.CarriedBy w := by
  rw [Instr.CarriedBy, he]
  constructor
  · rw [fieldOp_packWord]
    exact BitVec.eq_of_toNat_eq hop
  · intro hr
    rw [fieldPlane_packWord, hp hr]
  · intro hr
    rw [fieldTbl_packWord, ht hr, Tbl.field_eq_zero]
  · intro hr
    rw [fieldSym_packWord, hs hr]
  · intro hr
    rw [fieldBx_packWord, fieldBy_packWord]
    exact ⟨(hb hr).1.symm, (hb hr).2.symm⟩

section
variable (h : i.CarriedBy w) (he : encode i = packWord op plane tbl sym bx row)
include h he

theorem Instr.CarriedBy.fieldOp_eq : fieldOp w = op := by
  rw [h.op, he, fieldOp_packWord]

theorem Instr.CarriedBy.fieldPlane_eq (hr : i.readsPlane = true) : fieldPlane w = plane := by
  rw [h.plane hr, he, fieldPlane_packWord]

theorem Instr.CarriedBy.fieldTbl_eq {t : Tbl} (hr : i.readsTbl = true) (ht : t.field = tbl) :
    fieldTbl w = t := by
  rw [h.tbl hr, he, fieldTbl_packWord, ← ht, Tbl.field_eq_zero]

theorem Instr.CarriedBy.fieldSym_eq (hr : i.readsSym = true) : fieldSym w = sym := by
  rw [h.sym hr, he, fieldSym_packWord]

theorem Instr.CarriedBy.fieldBlock_eq (hr : i.readsBlock = true) :
    fieldBx w = bx ∧ fieldBy w = row := by
  rw [(h.block hr).1, (h.block hr).2, he, fieldBx_packWord, fieldBy_packWord]
  exact ⟨rfl, rfl⟩

end

end

/-! ### What the decoder answers (30_encoding R152, R157, R158) -/

theorem planeLegal_iff {p : BitVec 2} : planeLegal p = true ↔ p ≠ 3#2 := by
  simp [planeLegal]

theorem decodePlane_ok {w : Word} {f : BitVec 2 → Instr} {p : BitVec 2} (hp : fieldPlane w = p)
    (hl : planeLegal p = true) : decodePlane w f = .ok (f p) := by
  rw [decodePlane, hp, if_pos hl]

theorem decodePlane_illegal {w : Word} (f : BitVec 2 → Instr) (hp : fieldPlane w = 3#2) :
    decodePlane w f = .error (.illegalPlane (fieldOp w)) :=
  if_neg fun hl => planeLegal_iff.1 hl hp

/-- A well-formed command is the reading of every word that carries it. -/
theorem decode_of_carriedBy {i : Instr} {w : Word} (hwf : i.wellFormed = true)
    (h : i.CarriedBy w) : decode w = .ok i := by
  cases i with
  | nop | buildTables | lutReadRec | lutReadBest | checkConfig | hdrRead | hdrWrite | seedsRead
  | seedsWrite | hopStep | meshRead | meshWrite | bwFlush | frameDecode | frameEncode =>
    rw [decode, h.fieldOp_eq rfl]
    rfl
  | planeGeom p | hopBeginDec p | hopBeginEnc p | hopDecRegion p | hopEncRegion p
  | huffCountRegion p | huffDecRegion p | huffEncRegion p =>
    rw [decode, h.fieldOp_eq rfl]
    exact decodePlane_ok (h.fieldPlane_eq rfl rfl) hwf
  | blockGeom p bx row =>
    obtain ⟨hx, hy⟩ := h.fieldBlock_eq rfl rfl
    rw [decode, h.fieldOp_eq rfl, hx, hy]
    exact decodePlane_ok (h.fieldPlane_eq rfl rfl) hwf
  | huffBuild t | huffReadHdr t | huffWriteHdr t | huffClearCounts t | huffFromCounts t
  | huffDecSym t =>
    rw [decode, h.fieldOp_eq rfl, h.fieldTbl_eq rfl rfl rfl]
    rfl
  | huffCountSym t sym | huffEncSym t sym =>
    rw [decode, h.fieldOp_eq rfl, h.fieldTbl_eq rfl rfl rfl, h.fieldSym_eq rfl rfl]
    rfl

/-- What the decoder answers on a word with the OP value `n`: a listed value is refused, a plane command
needs a legal plane, and any other value gives the command the word carries. -/
inductive Reading (w : Word) (n : Nat) : Except DecodeError Instr → Prop where
  | hole (ho : illegalOp n) : Reading w n (.error (.illegalOpcode (fieldOp w)))
  | plain {i : Instr} (ho : ¬ illegalOp n) (hn : n ∉ planeOps) (hc : i.CarriedBy w) :
      Reading w n (.ok i)
  | plane {f : BitVec 2 → Instr} (ho : ¬ illegalOp n) (hn : n ∈ planeOps)
      (hc : (f (fieldPlane w)).CarriedBy w) : Reading w n (decodePlane w f)

theorem Reading.at_op {w : Word} {n : Nat} {r : Except DecodeError Instr}
    (h : (fieldOp w).toNat = n) (hr : Reading w n r) : Reading w (fieldOp w).toNat r :=
  h ▸ hr

/-- Every row of the decoder gives such an answer; the rows are numbered in the order of their opcodes. -/
theorem decode_reading (w : Word) : Reading w (fieldOp w).toNat (decode w) := by
  have hlt := (fieldOp w).isLt
  unfold decode
  split
  case h_33 =>
    simp only [imp_false] at *
    exact .hole (by unfold illegalOp; omega)
  -- the plane commands
  case h_10 h | h_12 h | h_13 h | h_15 h | h_16 h | h_22 h | h_26 h | h_27 h =>
    exact .at_op h (.plane (by unfold illegalOp; decide) (by decide)
      (.packed rfl h (fun _ => rfl) nofun nofun nofun))
  case h_11 h =>
    exact .at_op h (.plane (f := fun p => .blockGeom p (fieldBx w) (fieldBy w))
      (by unfold illegalOp; decide) (by decide)
      (.packed rfl h (fun _ => rfl) nofun nofun fun _ => ⟨rfl, rfl⟩))
  -- the table commands, with and without a symbol
  case h_17 h | h_18 h | h_19 h | h_20 h | h_23 h | h_24 h =>
    exact .at_op h (.plain (by unfold illegalOp; decide) (by decide)
      (.packed rfl h nofun (fun _ => rfl) nofun nofun))
  case h_21 h | h_25 h =>
    exact .at_op h (.plain (by unfold illegalOp; decide) (by decide)
      (.packed rfl h nofun (fun _ => rfl) (fun _ => rfl) nofun))
  -- the commands with no operand
  all_goals
    next h =>
    exact .at_op h (.plain (by unfold illegalOp; decide) (by decide)
      (.packed rfl h nofun nofun nofun nofun))

/-- The command that the decoder reads from a word is carried by it. -/
theorem carriedBy_of_decode {w : Word} {i : Instr} (h : decode w = .ok i) : i.CarriedBy w := by
  have hr := decode_reading w
  generalize decode w = r at h hr
  cases hr with
  | hole ho => cases h
  | plain ho hn hc =>
    cases h
    exact hc
  | plane ho hn hc =>
    unfold decodePlane at h
    split at h
    · cases h
      exact hc
    · cases h

/-- Exactly the words of R158 stand for no command. -/
theorem decode_ne_ok_iff (w : Word) : (∀ i, decode w ≠ .ok i) ↔
    illegalOp (fieldOp w).toNat ∨ ((fieldOp w).toNat ∈ planeOps ∧ fieldPlane w = 3#2) := by
  have hr := decode_reading w
  generalize decode w = r at hr
  cases hr with
  | hole ho => exact iff_of_true nofun (.inl ho)
  | @plain i ho hn hc => exact iff_of_false (fun h => h i rfl) (not_or.2 ⟨ho, fun h => hn h.1⟩)
  | @plane f ho hn hc =>
    by_cases hp : fieldPlane w = 3#2
    · rw [decodePlane_illegal f hp]
      exact iff_of_true nofun (.inr ⟨hn, hp⟩)
    · rw [decodePlane_ok rfl (planeLegal_iff.2 hp)]
      exact iff_of_false (fun h => h _ rfl) (not_or.2 ⟨ho, fun h => hp h.2⟩)

end Sys2Proof

/-! ### The encoding statements (30_encoding R156 to R158, R165) -/

namespace Sys2Proof.Machine

-- One theorem at a time: many checked at once need more threads than the memory limit allows.
set_option Elab.async false

/-- An illegal word raises E_ILLEGAL_CMD. -/
theorem runWord_illegal {w : Word} (h : ∀ i, decode w ≠ .ok i) (s : State) :
    runWord w s = .next (s.raiseEnd .illegalCmd) := by
  unfold runWord
  split
  · next i hi => exact absurd hi (h i)
  · exact runCommand_raised (Cmd.out_raise _ s)

/-- Settles O2: a well-formed command is the reading of any word that carries it, and its own word does. -/
theorem decodeEncodeRoundTrip : Obligations.DecodeEncodeRoundTrip := fun i hwf =>
  decode_of_carriedBy hwf i.carriedBy_encode

/-- Settles O3: the decoder's answer is of one of three kinds, and a raise touches only the engine and the
races. -/
theorem illegalWordsAreTheListedOnes : Obligations.IllegalWordsAreTheListedOnes := by
  refine fun w => ⟨decode_ne_ok_iff w, fun h s r hr hw => ?_⟩
  refine ⟨s.raiseEnd .illegalCmd, runWord_illegal h s, s.raiseEnd_undo _, s.raiseEnd_running _,
    s.raiseEnd_irqDone _, s.raiseEnd_cmd _, fun hq => ?_⟩
  have hword : s.commandWord = w := by simp [State.commandWord, hr, hw]
  rw [State.raiseEnd_eng hq, hword]
  exact ⟨rfl, rfl, rfl, rfl⟩

/-- Settles O4: the second word carries the command that the first one carries. -/
theorem ignoredFieldsDoNotMatter : Obligations.IgnoredFieldsDoNotMatter :=
  fun _ _ _ hd hop hp ht hs hb =>
    decode_of_carriedBy (decode_wellFormed hd) ((carriedBy_of_decode hd).congr ⟨hop, hp, ht, hs, hb⟩)

/-- Settles O1: the two legal words by the round trip, the two illegal ones by R158's list. -/
theorem decodeReadsWrittenWords : Obligations.DecodeReadsWrittenWords := by
  have hblock : encode (.blockGeom 1#2 2#8 1#8) = 0x01020111#32 := by decide
  have hsym : encode (.huffEncSym .chroma 8#4) = 0x00008428#32 := by decide
  refine ⟨hblock, ?_, hsym, ?_, by decide, runWord_illegal ?_, runWord_illegal ?_⟩
  · exact hblock ▸ decodeEncodeRoundTrip (.blockGeom 1#2 2#8 1#8) rfl
  · exact hsym ▸ decodeEncodeRoundTrip (.huffEncSym .chroma 8#4) rfl
  · exact (decode_ne_ok_iff _).2 (.inr (by decide))
  · exact (decode_ne_ok_iff _).2 (.inl (by unfold illegalOp; decide))

end Sys2Proof.Machine
end

section
/-! PROOFS. Family 40_tables: the integer arithmetic of the table functions against the real formula, the
order of the reconstructions, the best hop, and the three table commands. -/

namespace Sys2Proof.Machine

-- One theorem at a time: many checked at once need more threads than the memory limit allows.
set_option Elab.async false

/-! ### The integer cube root (40_tables R203) -/

/-- The search of `b` bits above `c` ends at the root, if the root lies less than `2 ^ b` above `c`. -/
theorem icbrtBits_spec {b n c : Nat} (hlo : c ^ 3 ≤ n) (hhi : n < (c + 2 ^ b) ^ 3) :
    icbrtBits b n c ^ 3 ≤ n ∧ n < (icbrtBits b n c + 1) ^ 3 := by
  induction b generalizing c with
  | zero => exact ⟨hlo, hhi⟩
  | succ b ih =>
    rw [icbrtBits]
    split
    · next hle =>
      have hsum : c + 2 ^ (b + 1) = c + 2 ^ b + 2 ^ b := by ring
      exact ih hle (hsum ▸ hhi)
    · next hgt => exact ih hlo (not_le.1 hgt)

theorem icbrt_spec (n : Nat) : icbrt n ^ 3 ≤ n ∧ n < (icbrt n + 1) ^ 3 := by
  refine icbrtBits_spec (Nat.zero_le n) ?_
  calc n < 2 ^ (n.log2 + 1) := Nat.lt_log2_self
    _ ≤ 2 ^ ((n.log2 / 3 + 1) * 3) := Nat.pow_le_pow_right two_pos (by omega)
    _ = (0 + 2 ^ (n.log2 / 3 + 1)) ^ 3 := by rw [zero_add, pow_mul]

/-- `floor(cbrt(X)) = icbrt(floor(X))`, with `X = x³` (40_tables R203). -/
theorem icbrt_floor_cube {x : ℝ} (hx : 0 ≤ x) : icbrt ⌊x ^ 3⌋₊ = ⌊x⌋₊ := by
  obtain ⟨hlo, hhi⟩ := icbrt_spec ⌊x ^ 3⌋₊
  rw [Nat.le_floor_iff (by positivity)] at hlo
  rw [Nat.floor_lt (by positivity)] at hhi
  push_cast at hlo hhi
  exact ((Nat.floor_eq_iff hx).2 ⟨le_of_pow_le_pow_left₀ three_ne_zero hx hlo,
    lt_of_pow_lt_pow_left₀ 3 (by positivity) hhi⟩).symm

/-! ### The real formula (40_tables R202) -/

/-- `g`, the uncapped growth from hop to hop. -/
noncomputable def hopGrowth (s d : Nat) : ℝ := ((4 * d : ℝ) / (5 * s)) ^ ((1 : ℝ) / 3)

/-- `f`, the factor from hop to hop. -/
noncomputable def hopFactor (r s d : Nat) : ℝ := max 1 (min ((r : ℝ) / 10) (hopGrowth s d))

theorem hopGrowth_nonneg (s d : Nat) : 0 ≤ hopGrowth s d := by
  unfold hopGrowth
  positivity

theorem one_le_hopFactor (r s d : Nat) : 1 ≤ hopFactor r s d := le_max_left _ _

theorem hopGrowth_cube (s d : Nat) : hopGrowth s d ^ 3 = (4 * d : ℝ) / (5 * s) := by
  rw [hopGrowth, ← Real.rpow_mul_natCast (by positivity)]
  norm_num

/-- The cap is more than 1, so it may be taken last. -/
theorem hopFactor_eq_min {r : Nat} (hr : 20 ≤ r) (s d : Nat) :
    hopFactor r s d = min ((r : ℝ) / 10) (max 1 (hopGrowth s d)) := by
  have hr' : (20 : ℝ) ≤ r := by exact_mod_cast hr
  rw [hopFactor, max_min_distrib_left, max_eq_right (by linarith : (1 : ℝ) ≤ (r : ℝ) / 10)]

theorem floor_mul_growth_pow (s d k : Nat) :
    ⌊(s : ℝ) * hopGrowth s d ^ k⌋₊ = icbrt (s ^ 3 * (4 * d) ^ k / (5 * s) ^ k) := by
  have hg := hopGrowth_nonneg s d
  have hcube : ((s : ℝ) * hopGrowth s d ^ k) ^ 3 =
      ((s ^ 3 * (4 * d) ^ k : Nat) : ℝ) / ((5 * s) ^ k : Nat) := by
    rw [mul_pow, pow_right_comm, hopGrowth_cube, div_pow]
    push_cast
    ring
  rw [← icbrt_floor_cube (by positivity), hcube, Nat.floor_div_eq_div]

theorem floor_mul_cap_pow (s r k : Nat) : ⌊(s : ℝ) * ((r : ℝ) / 10) ^ k⌋₊ = s * r ^ k / 10 ^ k := by
  rw [← Nat.floor_div_eq_div (K := ℝ)]
  push_cast
  rw [div_pow, mul_div_assoc]

theorem floor_mul_pow_monotoneOn (s k : Nat) :
    MonotoneOn (fun x : ℝ => ⌊(s : ℝ) * x ^ k⌋₊) (Set.Ici 0) := fun _ hx _ _ hxy =>
  Nat.floor_mono (mul_le_mul_of_nonneg_left (pow_le_pow_left₀ hx hxy k) s.cast_nonneg)

/-- The floor of the formula, part by part: it commutes with the minimum and the maximum in `f`. -/
theorem magnitude_eq_floor {r : Nat} (hr : 20 ≤ r) (s k d : Nat) :
    magnitude r s k d = ⌊(s : ℝ) * hopFactor r s d ^ k⌋₊ := by
  rcases eq_or_ne k 0 with rfl | hk
  · simp [magnitude]
  have hmono := floor_mul_pow_monotoneOn s k
  have hone : (0 : ℝ) ≤ 1 := zero_le_one
  have hg := hopGrowth_nonneg s d
  have hcap : (0 : ℝ) ≤ (r : ℝ) / 10 := by positivity
  have hmin := hmono.map_min hcap (le_max_of_le_left hone : 0 ≤ max 1 (hopGrowth s d))
  have hmax := hmono.map_max hone hg
  rw [hopFactor_eq_min hr, hmin, hmax, floor_mul_cap_pow, floor_mul_growth_pow, one_pow, mul_one,
    Nat.floor_natCast, magnitude, if_neg hk]

/-- Settles O27: the search finds the root, and the floor commutes with the parts of the formula. -/
theorem magnitudeIsFloorOfRealFormula : Obligations.MagnitudeIsFloorOfRealFormula :=
  ⟨icbrt_spec, fun _ s k d hr _ _ _ _ => magnitude_eq_floor hr s k d⟩

/-! ### The order of the reconstructions (40_tables R207) -/

/-- The factor is at least 1, so each further hop is at least as large. -/
theorem magnitude_mono {r : Nat} (hr : 20 ≤ r) (s d : Nat) {k k' : Nat} (hk : k ≤ k') :
    magnitude r s k d ≤ magnitude r s k' d := by
  rw [magnitude_eq_floor hr, magnitude_eq_floor hr]
  exact Nat.floor_mono <| mul_le_mul_of_nonneg_left
    (pow_le_pow_right₀ (one_le_hopFactor r s d) hk) s.cast_nonneg

theorem clampPixel_mono {v w : Nat} (h : v ≤ w) : clampPixel v ≤ clampPixel w :=
  max_le_max le_rfl (min_le_min le_rfl h)

@[simp] theorem recValue_null (p r s : Nat) : recValue p r s 4 = clampPixel p := rfl

theorem recValue_below (p r s : Nat) {h : Hop} (hh : h.val < 4) :
    recValue p r s h = clampPixel (p - magnitude r s (3 - h.val) p) := by
  rw [recValue, if_neg hh.ne, if_neg hh.not_gt]

theorem recValue_above (p r s : Nat) {h : Hop} (hh : 4 < h.val) :
    recValue p r s h = clampPixel (p + magnitude r s (h.val - 5) (255 - p)) := by
  rw [recValue, if_neg hh.ne', if_pos hh]

/-- The hops up to the null hop take away from the prediction. -/
theorem recValue_le_null (p r s : Nat) {h : Hop} (hh : h.val ≤ 4) :
    recValue p r s h ≤ recValue p r s 4 := by
  rcases hh.lt_or_eq with hlt | heq
  · rw [recValue_below p r s hlt]
    exact clampPixel_mono (Nat.sub_le _ _)
  · rw [show h = 4 from Fin.ext heq]

/-- The hops from the null hop on add to the prediction. -/
theorem null_le_recValue (p r s : Nat) {h : Hop} (hh : 4 ≤ h.val) :
    recValue p r s 4 ≤ recValue p r s h := by
  rcases hh.lt_or_eq with hlt | heq
  · rw [recValue_above p r s hlt]
    exact clampPixel_mono (Nat.le_add_right _ _)
  · rw [show h = 4 from Fin.ext heq.symm]

theorem recValue_mono (p : Nat) {r : Nat} (hr : 20 ≤ r) (s : Nat) {h h' : Hop} (hh : h ≤ h') :
    recValue p r s h ≤ recValue p r s h' := by
  have hval : h.val ≤ h'.val := hh
  by_cases hlo : h'.val < 4
  · rw [recValue_below p r s hlo, recValue_below p r s (hval.trans_lt hlo)]
    exact clampPixel_mono (Nat.sub_le_sub_left (magnitude_mono hr s p (by omega)) p)
  by_cases hhi : 4 < h.val
  · rw [recValue_above p r s hhi, recValue_above p r s (hhi.trans_le hval)]
    exact clampPixel_mono (Nat.add_le_add_left (magnitude_mono hr s _ (by omega)) p)
  · exact (recValue_le_null p r s (not_lt.1 hhi)).trans (null_le_recValue p r s (not_lt.1 hlo))

/-- Settles O28: magnitudes grow with the distance from the null hop, and clamping keeps the order. -/
theorem recIsMonotoneInHop : Obligations.RecIsMonotoneInHop :=
  fun p _ s _ _ _ hr _ _ _ hh => recValue_mono p hr s hh

/-! ### The best hop (40_tables R208) -/

/-- `keyLess` is the lexicographic order. -/
theorem keyLess_iff {a b : Nat × Nat} : keyLess a b = true ↔ toLex a < toLex b := by
  simp [keyLess, Prod.Lex.toLex_lt_toLex]

/-- A fold that keeps the element with the smaller key ends at the smallest. -/
theorem foldl_keepLess_le (key : Hop → Nat × Nat) (l : List Hop) (a : Hop) :
    let m := l.foldl (fun acc h => if keyLess (key h) (key acc) then h else acc) a
    toLex (key m) ≤ toLex (key a) ∧ ∀ h ∈ l, toLex (key m) ≤ toLex (key h) := by
  induction l generalizing a with
  | nil => exact ⟨le_rfl, nofun⟩
  | cons b l ih =>
    by_cases hlt : keyLess (key b) (key a)
    · obtain ⟨hb, hl⟩ := ih b
      simp only [List.foldl_cons, hlt, if_true, List.forall_mem_cons]
      exact ⟨hb.trans (keyLess_iff.1 hlt).le, hb, hl⟩
    · obtain ⟨ha, hl⟩ := ih a
      simp only [List.foldl_cons, hlt, List.forall_mem_cons]
      exact ⟨ha, ha.trans (not_lt.1 (mt keyLess_iff.2 hlt)), hl⟩

theorem bestHop_le (r s o p : Nat) (h : Hop) :
    toLex (bestKey r s o p (bestHop r s o p)) ≤ toLex (bestKey r s o p h) := by
  rw [bestHop]
  exact (foldl_keepLess_le (bestKey r s o p) allHops Config.nullHop).2 h (mem_allHops h)

/-- Of three values in order whose outer two are equally far from `o`, the middle one is no farther. -/
theorem absDiff_between_le {a c b o : Nat} (hac : a ≤ c) (hcb : c ≤ b)
    (h : absDiff a o = absDiff b o) : absDiff c o ≤ absDiff a o := by
  unfold absDiff at *
  omega

/-- Two hops with one key lie on either side of the null hop, whose key is smaller. -/
theorem null_key_lt_of_tie {r : Nat} (hr : 20 ≤ r) (s o p : Nat) {h h' : Hop} (hne : h < h')
    (hkey : bestKey r s o p h = bestKey r s o p h') :
    toLex (bestKey r s o p 4) < toLex (bestKey r s o p h) := by
  obtain ⟨hdist, hmag⟩ : absDiff (recValue p r s h) o = absDiff (recValue p r s h') o ∧
      absDiff h.val 4 = absDiff h'.val 4 := Prod.ext_iff.1 hkey
  have hval : h.val < h'.val := hne
  have hsides : h.val < 4 ∧ 4 < h'.val := by
    unfold absDiff at hmag
    omega
  have hmid : absDiff (recValue p r s 4) o ≤ absDiff (recValue p r s h) o :=
    absDiff_between_le (recValue_mono p hr s hsides.1.le) (recValue_mono p hr s hsides.2.le) hdist
  have hpos : 0 < absDiff h.val 4 := by
    unfold absDiff
    omega
  exact Prod.Lex.toLex_lt_toLex.2 (hmid.lt_or_eq.imp_right fun heq => ⟨heq, hpos⟩)

/-- No other hop has the key of the best one. -/
theorem bestHop_key_ne {r : Nat} (hr : 20 ≤ r) (s o p : Nat) {h : Hop} (hne : h ≠ bestHop r s o p) :
    bestKey r s o p (bestHop r s o p) ≠ bestKey r s o p h := fun hkey => by
  have hmin := bestHop_le r s o p 4
  rcases hne.lt_or_gt with hlt | hgt
  · exact (null_key_lt_of_tie hr s o p hlt hkey.symm).not_ge (hkey ▸ hmin)
  · exact (null_key_lt_of_tie hr s o p hgt hkey).not_ge hmin

/-- Settles O29: the fold finds a least key, and no other hop has it. -/
theorem bestIsTheUniqueMinimiser : Obligations.BestIsTheUniqueMinimiser :=
  fun r s o p h _ _ hr _ _ _ hne => by
    have hlt : toLex (bestKey r s o p (bestHop r s o p)) < toLex (bestKey r s o p h) :=
      (bestHop_le r s o p h).lt_of_ne fun heq => bestHop_key_ne hr s o p hne (toLex.injective heq)
    simpa only [Prod.Lex.toLex_lt_toLex, bestKey] using hlt

/-! ### The commands (40_tables R210 to R212) -/

/-- Settles O25: the two updates of the body, one after the other. -/
theorem buildTablesFillsBothTables : Obligations.BuildTablesFillsBothTables := fun s => by
  have hbody : cmdBuildTables.out s = .ok () ((s.withLuts .built).withTablesValid true) := by
    rw [cmdBuildTables, Cmd.out_update_seq, Cmd.out_update]
  exact ⟨_, exec_ok hbody, ⟨rfl, rfl⟩, fun _ _ _ _ => rfl, fun _ _ _ _ => rfl, rfl⟩

section
variable {s : State}

/-- A built RECON entry is the value of REC. -/
theorem State.tablesReady.recon (h : s.tablesReady) (p r k : Nat) (i : Hop) :
    s.luts.recon p r k i = BitVec.ofNat 8 (recValue p r k i) := by
  rw [h.2, LutMem.recon]

/-- A built BESTHOP entry is the value of BEST. -/
theorem State.tablesReady.best (h : s.tablesReady) (r k o p : Nat) :
    s.luts.best r k o p = bestHop r k o p := by
  rw [h.2, LutMem.best]

/-- With the tables valid, a read is decided by its arguments. -/
theorem lutRead_out (hv : s.tablesValid = true) (c : Cmd Unit) :
    (needTables.seq ((Cmd.require (fun s => s.lut.inDomain) .config).seq c)).out s =
      if s.lut.inDomain then c.out s else .raised .config s := by
  rw [needTables_seq, if_pos hv, Cmd.out_require_seq _ _ _ _ (by decide)]

theorem lutReadRec_ok (ht : s.tablesReady) (hd : s.lut.inDomain = true) {h : Hop}
    (hx : s.lut.x.toNat = h.val) :
    cmdLutReadRec.out s = .ok () (s.withLut { s.lut with
      result := BitVec.ofNat 8 (recValue s.lut.p.toNat s.lut.r.toNat s.lut.s.toNat h) }) := by
  rw [cmdLutReadRec, lutRead_out ht.1, if_pos hd, Cmd.out_read_bind, hx, hopOfNat_val, Cmd.out_update,
    ht.recon]

theorem lutReadRec_raised (ht : s.tablesReady) (h : s.lut.inDomain = false ∨ 8 < s.lut.x.toNat) :
    cmdLutReadRec.out s = .raised .config s := by
  rw [cmdLutReadRec, lutRead_out ht.1]
  split
  · next hd =>
    have hx : 8 < s.lut.x.toNat := h.resolve_left (by simp [hd])
    rw [Cmd.out_read_bind, hopOfNat_ge hx, Cmd.out_raise]
  · rfl

theorem lutReadBest_ok (ht : s.tablesReady) (hd : s.lut.inDomain = true) :
    cmdLutReadBest.out s = .ok () (s.withLut { s.lut with
      result := BitVec.ofNat 8 (bestHop s.lut.r.toNat s.lut.s.toNat s.lut.x.toNat
        s.lut.p.toNat).val }) := by
  rw [cmdLutReadBest, lutRead_out ht.1, if_pos hd, Cmd.out_update, ht.best]

theorem lutReadBest_raised (ht : s.tablesReady) (hd : s.lut.inDomain = false) :
    cmdLutReadBest.out s = .raised .config s := by
  rw [cmdLutReadBest, lutRead_out ht.1, if_neg (by simp [hd])]

end

/-- Settles O26: each read ends as its arguments decide. -/
theorem lutReadsReturnTableEntries : Obligations.LutReadsReturnTableEntries := fun _ ht =>
  ⟨fun hd => ⟨fun _ hx => exec_ok (lutReadRec_ok ht hd hx), exec_ok (lutReadBest_ok ht hd)⟩,
    fun h => exec_raised (lutReadRec_raised ht h), fun hd => exec_raised (lutReadBest_raised ht hd)⟩

end Sys2Proof.Machine
end

section
/-! PROOFS. Family 41_predictor: the step adaptation, the begin of a scan, one HOP_STEP, and the scan of a
whole region in both directions. -/

namespace Sys2Proof.Machine

-- One theorem at a time: many checked at once need more threads than the memory limit allows.
set_option Elab.async false

/-! ### The adaptation (41_predictor R256, R260) -/

theorem smallHop_iff (h : Hop) : smallHop h = true ↔ h = 3 ∨ h = 4 ∨ h = 5 := by
  simp [smallHop, or_assoc]

/-- An adapted step fits the five bits of HOPSTATE.STEP (10_state R52). -/
theorem adapt_step_lt {step : Nat} (h : step < 2 ^ 5) (last : Bool) (i : Hop) :
    (adapt step last i).1 < 2 ^ 5 := by
  simp only [adapt, Config.minStep, Config.maxStep]
  split <;> omega

/-- Settles O30: the definition, case by case, and the range of its values. -/
theorem adaptFollowsTheRule : Obligations.AdaptFollowsTheRule := fun step last h => by
  refine ⟨smallHop_iff h, ?_, fun _ hhi => adapt_step_legal hhi last h⟩
  simp [adapt, Config.minStep, Config.maxStep]

/-! ### What the region check finds (44_frame R402, 42_mesh R304) -/

theorem chromaLegal_iff (f : BitVec 4) : chromaLegal f = true ↔ f = 1 ∨ f = 2 := by
  simp [chromaLegal]

theorem mem_allPlanes (p : Plane) : p ∈ allPlanes := by cases p <;> decide

/-- No block is empty if the boundaries rise strictly in every plane (42_mesh R303). -/
theorem FrameConfig.someBlockEmpty_eq_false_iff (c : FrameConfig) : c.someBlockEmpty = false ↔
    (∀ p k, k < c.gridW.toNat → c.boundX p k < c.boundX p (k + 1)) ∧
    (∀ p k, k < c.gridH.toNat → c.boundY p k < c.boundY p (k + 1)) := by
  simp only [FrameConfig.someBlockEmpty, List.any_eq_false, Bool.or_eq_true, List.any_eq_true,
    decide_eq_true_eq, List.mem_range, mem_allPlanes, true_imp_iff, FrameConfig.blocksW,
    FrameConfig.blocksH, not_or, not_exists, not_and, not_le, forall_and]

/-- Mode, dimensions and block counts are legal (44_frame R402). -/
abbrev FrameConfig.DimsLegal (c : FrameConfig) : Prop :=
  c.mode.toNat ≤ 2 ∧ c.width ≠ 0 ∧ c.height ≠ 0 ∧ c.gridW ≠ 0 ∧ c.gridH ≠ 0

/-- The chroma factors are legal (10_state R43). -/
abbrev FrameConfig.ChromaLegal (c : FrameConfig) : Prop :=
  (c.sx = 1 ∨ c.sx = 2) ∧ (c.sy = 1 ∨ c.sy = 2)

/-- RATIO or CF is out of range (44_frame R402). -/
abbrev FrameConfig.RangeBad (c : FrameConfig) : Prop :=
  c.ratio.toNat < Config.ratioMin ∨ Config.ratioMax < c.ratio.toNat ∨ 256 < c.cf.toNat

/-- The frame check, one line for each group of checks that the rules keep together. -/
theorem State.frameError_eq (s : State) : s.frameError =
    if ¬ s.cfg.DimsLegal then .malformedHeader
    else if ¬ s.cfg.ChromaLegal then .config
    else if 2 ^ 32 ≤ s.cfg.width.toNat * s.cfg.height.toNat then .malformedHeader
    else if s.plat.maxPixels < s.cfg.width.toNat * s.cfg.height.toNat then .alloc
    else if s.cfg.someBlockEmpty then .malformedHeader
    else if s.cfg.RangeBad then .config
    else .noError := by
  simp only [State.frameError, Machine.frameError, not_and_or, ite_or, not_le, ne_eq, not_not,
    Bool.or_eq_true, Bool.not_eq_true', ← Bool.not_eq_true, chromaLegal_iff]

theorem State.frameError_of_fails {s : State} {e : ErrCode} (h : s.frameFails e) :
    s.frameError = e ∧ e ≠ .noError := by
  rw [State.frameError_eq]
  rcases h with ⟨dims, rfl⟩ | ⟨dims, chroma, rfl⟩ | ⟨dims, chroma, area, rfl⟩ |
    ⟨dims, chroma, area, pixels, rfl⟩ | ⟨dims, chroma, area, pixels, empty, rfl⟩ |
    ⟨dims, chroma, area, pixels, full, range, rfl⟩
  · rw [if_pos dims]; decide
  · rw [if_neg (not_not.2 dims), if_pos chroma]; decide
  · rw [if_neg (not_not.2 dims), if_neg (not_not.2 chroma), if_pos area]; decide
  · rw [if_neg (not_not.2 dims), if_neg (not_not.2 chroma), if_neg (not_le.2 area), if_pos pixels]; decide
  · rw [← FrameConfig.someBlockEmpty_eq_false_iff, Bool.not_eq_false] at empty
    rw [if_neg (not_not.2 dims), if_neg (not_not.2 chroma), if_neg (not_le.2 area),
      if_neg (not_lt.2 pixels), if_pos empty]; decide
  · rw [← FrameConfig.someBlockEmpty_eq_false_iff, ← Bool.not_eq_true] at full
    rw [if_neg (not_not.2 dims), if_neg (not_not.2 chroma), if_neg (not_le.2 area),
      if_neg (not_lt.2 pixels), if_neg full, if_pos (c := s.cfg.RangeBad) range]; decide

theorem State.regionError_of_fails {s : State} {p : Plane} {e : ErrCode} (h : s.regionFails p e) :
    s.regionError p = e ∧ e ≠ .noError := by
  rcases h with h | ⟨hf, rfl, h⟩
  · obtain ⟨rfl, he⟩ := State.frameError_of_fails h
    exact ⟨if_pos he, he⟩
  · refine ⟨?_, by decide⟩
    rw [State.regionError, if_neg (not_not.2 hf)]
    split_ifs with sides place
    · rfl
    · rfl
    · have : s.region.w ≠ 0 ∧ s.region.h ≠ 0 := by constructor <;> (intro h0; simp [h0] at sides)
      tauto

/-- `RegionCheck` raises the error that it finds (42_mesh R304). -/
theorem regionCheck_seq_raised {α : Type} {s : State} {p : Plane} {e : ErrCode}
    (h : s.regionFails p e) (d : Cmd α) : ((regionCheck p).seq d).out s = .raised e s := by
  obtain ⟨rfl, he⟩ := State.regionError_of_fails h
  rw [regionCheck, Cmd.out_check_seq, if_neg he]

/-! ### The begin of a scan (41_predictor R263, R264) -/

section
variable {s : State} {p : Plane}

theorem cmdHopBeginDec_ok (ht : s.tablesValid = true) (hr : s.regionOk p) :
    (cmdHopBeginDec p).out s = .ok () ((s.withSeeds { s.seeds with
      seed := s.byteAt s.seedAddr }).withScan (Scan.start .decode p)) := by
  rw [cmdHopBeginDec, needTables_seq, if_pos ht, regionCheck_seq_ok hr, Cmd.out_read_bind,
    out_memRead_bind, Cmd.out_update_seq, Cmd.out_update]

theorem cmdHopBeginEnc_ok (ht : s.tablesValid = true) (hr : s.regionOk p) :
    let first := s.byteAt (s.srcAddr p s.region.x0.toNat s.region.y0.toNat)
    (cmdHopBeginEnc p).out s = .ok () (((s.withSeeds { s.seeds with
      seed := first }).storeByte s.seedAddr first).withScan (Scan.start .encode p)) := by
  rw [cmdHopBeginEnc, needTables_seq, if_pos ht, regionCheck_seq_ok hr, Cmd.out_read_bind,
    out_memRead_bind, Cmd.out_update_seq, Cmd.out_read_bind, out_memWrite_seq, Cmd.out_update]
  rfl

end

/-- Settles O31: past its checks a begin is a row of updates. -/
theorem hopBeginStartsTheScan : Obligations.HopBeginStartsTheScan := fun s f p hp ht hr =>
  ⟨exec_ok (by rw [commandBody, withPlane_some hp, cmdHopBeginDec_ok ht hr]; rfl),
    exec_ok (by rw [commandBody, withPlane_some hp, cmdHopBeginEnc_ok ht hr]; rfl)⟩

/-! ### One step (41_predictor R265) -/

/-- The HopState that the pixel at the cursor uses (41_predictor R252). -/
def State.usedHopState (s : State) : Nat × Bool :=
  pixelHopState s.cursorClass s.scan.step.toNat s.scan.lastSmall

/-- The prediction of the pixel at the cursor (41_predictor R253). -/
def State.cursorPred (s : State) : Byte := s.predOf s.scan.plane s.cursorClass s.cursorX s.cursorY

/-- The value that hop `h` gives the pixel at the cursor (41_predictor R255). -/
def State.cursorValue (s : State) (h : Hop) : Byte :=
  if s.cursorClass = .topLeft then s.seeds.seed
  else BitVec.ofNat 8 (recValue s.cursorPred.toNat s.cfg.ratio.toNat s.usedHopState.1 h)

/-- The original of the pixel at the cursor (41_predictor R258). -/
def State.cursorOrig (s : State) : Byte := s.byteAt (s.srcAddr s.scan.plane s.cursorX s.cursorY)

/-- The best hop for the pixel at the cursor (41_predictor R258). -/
def State.cursorBest (s : State) : Hop :=
  bestHop s.cfg.ratio.toNat s.usedHopState.1 s.cursorOrig.toNat s.cursorPred.toNat

/-- What the pixel at the cursor of `s` makes of `u`, which is `s` once hop `h` and original `o` have been
found. -/
def State.pixelDone (s u : State) (h : Hop) (o : Byte) : State :=
  let a := adapt s.usedHopState.1 s.usedHopState.2 h
  ((u.storeByte (s.dstAddr s.scan.plane s.cursorX s.cursorY) (s.cursorValue h)).withLastPix
    { pred := s.cursorPred, value := s.cursorValue h, hop := BitVec.ofNat 4 h.val, orig := o }).withScan
    (s.scanAfter a.1 a.2)

section
variable {s u : State} {h : Hop} {o : Byte}

/-- With built tables a pixel's value is the rule's. -/
theorem State.tablesReady.cursorValue (ht : s.tablesReady) (h : Hop) :
    s.pixelValue s.cursorClass s.cursorPred s.usedHopState.1 h = s.cursorValue h := by
  rw [State.pixelValue, ht.recon, State.cursorValue]

/-- A step whose hop is found, in either direction. -/
theorem cmdHopStep_ok (hr : s.stepReady) (hh : (pixelHop s.scan.plane s.scan.dir s.cursorX s.cursorY
    s.usedHopState.1 s.cursorPred).out s = .ok (h, o) u) :
    cmdHopStep.out s = .ok () (s.pixelDone u h o) := by
  obtain ⟨m, rfl⟩ := pixelHop_ok_cases hh
  rw [cmdHopStep_ready hr, stepPixel_ok hr.active hh]
  exact congrArg (fun v => Out.ok () (((((s.withMem m).storeByte _ v).withLastPix
    { pred := _, value := v, hop := _, orig := o }).withScan _)))
    (hr.tables.cursorValue h)

/-- HOP_STEP past its first checks. -/
theorem cmdHopStep_checked (ha : s.scan.active = true) (ht : s.tablesValid = true) :
    cmdHopStep.out s = ((regionCheck s.scan.plane).seq (needCursor.seq stepPixel)).out s := by
  rw [cmdHopStep, needScan_seq, if_pos ha, needTables_seq, if_pos ht, Cmd.out_read_bind]

/-- A decoding step takes its hop from the hop buffer (41_predictor R257). -/
theorem cmdHopStep_decode (hr : s.stepReady) (hd : s.scan.dir = .decode)
    (hb : (s.byteAt (s.hopAddr s.scan.plane s.cursorX s.cursorY)).toNat = h.val) :
    cmdHopStep.out s = .ok () (s.pixelDone s h 0) :=
  cmdHopStep_ok hr (by rw [hd, pixelHop_decode (hh := hb)])

/-- An encoding step stores the best hop for its original (41_predictor R258). -/
theorem cmdHopStep_encode (hr : s.stepReady) (hd : s.scan.dir = .encode) :
    cmdHopStep.out s = .ok () (s.pixelDone (s.storeByte
      (s.hopAddr s.scan.plane s.cursorX s.cursorY) (BitVec.ofNat 8 s.cursorBest.val))
      s.cursorBest s.cursorOrig) :=
  cmdHopStep_ok hr (by rw [hd, pixelHop_encode, hr.tables.best]; rfl)

end

/-- Settles O32: a decoding step finds its hop in the hop buffer. -/
theorem hopStepDecodesOnePixel : Obligations.HopStepDecodesOnePixel := fun _ _ hr hd hb =>
  exec_ok (cmdHopStep_decode hr hd hb)

/-- Settles O33: an encoding step chooses its hop. -/
theorem hopStepEncodesOnePixel : Obligations.HopStepEncodesOnePixel := fun _ hr hd =>
  exec_ok (cmdHopStep_encode hr hd)

/-- Settles O34: each check raises before anything is written. -/
theorem hopStepErrorsWriteNothing : Obligations.HopStepErrorsWriteNothing := by
  intro s ha ht
  refine ⟨fun e he => exec_raised ?_, fun hr hc => exec_raised ?_, fun hr hd hb => exec_raised ?_⟩
  · rw [commandBody, cmdHopStep_checked ha ht, regionCheck_seq_raised he]
  · rw [commandBody, cmdHopStep_checked ha ht, regionCheck_seq_ok hr, needCursor_seq, if_neg (by omega)]
  · rw [commandBody, cmdHopStep_ready hr]
    exact stepPixel_raised (by rw [hd, pixelHop_bad (hh := hb)])

end Sys2Proof.Machine
end

section
namespace Sys2Proof.Machine

-- One theorem at a time: many checked at once need more threads than the memory limit allows.
set_option Elab.async false

/-! ### Raster order by pixel number (41_predictor R250) -/

theorem raster_number {w i : Nat} (hi : i < w) (j : Nat) :
    (j * w + i) / w = j ∧ (j * w + i) % w = i :=
  (Nat.div_mod_unique (Nat.zero_lt_of_lt hi)).2 ⟨by rw [Nat.mul_comm, Nat.add_comm], hi⟩

/-- The next pixel is the next in the row, or the first of the next row. -/
theorem raster_succ {w : Nat} (hw : 0 < w) (k : Nat) :
    (k + 1) / w = (if k % w + 1 = w then k / w + 1 else k / w) ∧
    (k + 1) % w = (if k % w + 1 = w then 0 else k % w + 1) := by
  have hlt := Nat.mod_lt k hw
  have hk := Nat.mod_add_div k w
  rw [Nat.div_mod_unique hw]
  split
  · rw [Nat.mul_succ]; omega
  · omega

/-- The last pixel is the last of the last row. -/
theorem raster_last {w h k : Nat} (hk : k < w * h) :
    k + 1 < w * h ↔ ¬ (k % w + 1 = w ∧ k / w + 1 = h) := by
  constructor
  · rintro hlt ⟨hx, rfl⟩
    have hdiv := Nat.mod_add_div k w
    rw [Nat.mul_succ] at hlt
    omega
  · intro hn
    refine lt_of_le_of_ne hk fun he => hn ?_
    have hw : 0 < w := Nat.pos_of_ne_zero (by rintro rfl; omega)
    obtain ⟨hdiv, hmod⟩ := raster_succ hw k
    rw [he, Nat.mul_div_cancel_left h hw] at hdiv
    rw [he, Nat.mul_mod_right] at hmod
    split_ifs at hmod hdiv with hx
    exact ⟨hx, hdiv.symm⟩

/-- The number of pixels in the region. -/
abbrev State.pixelCount (s : State) : Nat := s.region.w.toNat * s.region.h.toNat

/-- The absolute x of pixel number `k`. -/
def State.pixelX (s : State) (k : Nat) : Nat := s.region.x0.toNat + k % s.region.w.toNat
/-- The absolute y of pixel number `k`. -/
def State.pixelY (s : State) (k : Nat) : Nat := s.region.y0.toNat + k / s.region.w.toNat

section
variable {s : State} {i j k l : Nat}

theorem State.pixelX_number (hi : i < s.region.w.toNat) :
    s.pixelX (j * s.region.w.toNat + i) = s.region.x0.toNat + i := by
  rw [State.pixelX, (raster_number hi j).2]

theorem State.pixelY_number (hi : i < s.region.w.toNat) :
    s.pixelY (j * s.region.w.toNat + i) = s.region.y0.toNat + j := by
  rw [State.pixelY, (raster_number hi j).1]

theorem State.number_lt (hi : i < s.region.w.toNat) (hj : j < s.region.h.toNat) :
    j * s.region.w.toNat + i < s.pixelCount :=
  calc j * s.region.w.toNat + i < (j + 1) * s.region.w.toNat := by rw [Nat.succ_mul]; omega
    _ ≤ s.region.h.toNat * s.region.w.toNat := Nat.mul_le_mul_right _ hj
    _ = s.pixelCount := Nat.mul_comm _ _

theorem State.width_pos (hk : k < s.pixelCount) : 0 < s.region.w.toNat :=
  Nat.pos_of_ne_zero fun h => by simp [State.pixelCount, h] at hk

theorem State.pixel_inRegion (hk : k < s.pixelCount) : s.inRegion (s.pixelX k) (s.pixelY k) :=
  ⟨Nat.le_add_right _ _,
    Nat.add_lt_add_left (Nat.mod_lt k (State.width_pos hk)) _, Nat.le_add_right _ _,
    Nat.add_lt_add_left (Nat.div_lt_of_lt_mul hk) _⟩

theorem State.pixel_inj (hx : s.pixelX k = s.pixelX l) (hy : s.pixelY k = s.pixelY l) : k = l := by
  rw [State.pixelX, State.pixelX, Nat.add_left_cancel_iff] at hx
  rw [State.pixelY, State.pixelY, Nat.add_left_cancel_iff] at hy
  rw [← Nat.mod_add_div k s.region.w.toNat, hx, hy, Nat.mod_add_div]

end

theorem word_succ_toNat {v : Word} (h : v.toNat + 1 < 2 ^ 32) : (v + 1).toNat = v.toNat + 1 := by
  rw [BitVec.toNat_add, show (1 : Word).toNat = 1 from rfl, Nat.mod_eq_of_lt h]

/-! ### What a step leaves behind -/

/-- HOP_STEP at `s` takes hop `h` and ends in `t`: the pixel's value stands in DST and the hop in the hop
buffer, no byte has changed but these, and no register but LAST_PIX and the scan (41_predictor R265). -/
structure State.PixelStep (s t : State) (h : Hop) : Prop where
  out : cmdHopStep.out s = .ok () t
  rest : t = ((s.withMem t.mem).withLastPix t.lastPix).withScan
    (s.scanAfter (adapt s.usedHopState.1 s.usedHopState.2 h).1 (adapt s.usedHopState.1 s.usedHopState.2 h).2)
  value : t.byteAt (s.dstAddr s.scan.plane s.cursorX s.cursorY) = s.cursorValue h
  hop : s.hopAddr s.scan.plane s.cursorX s.cursorY ≠ s.dstAddr s.scan.plane s.cursorX s.cursorY →
    (t.byteAt (s.hopAddr s.scan.plane s.cursorX s.cursorY)).toNat = h.val
  others : ∀ a, ¬ s.IsStepByte a → t.mem.read a = s.mem.read a

section
variable {s t : State} {h : Hop}

/-- A pixel done on memory `m`, which holds the hop and else what `s` holds. -/
theorem State.PixelStep.of_pixelDone {m : Memory} {o : Byte} (hc : s.calm)
    (out : cmdHopStep.out s = .ok () (s.pixelDone (s.withMem m) h o))
    (hop : (m.read (s.hopAddr s.scan.plane s.cursorX s.cursorY).toNat).toNat = h.val)
    (others : ∀ a, ¬ s.IsStepByte a → m.read a = s.mem.read a) :
    s.PixelStep (s.pixelDone (s.withMem m) h o) h := by
  have store := State.storeByte_eq (s := s.withMem m)
    (a := s.dstAddr s.scan.plane s.cursorX s.cursorY) (by simp [hc]) (s.cursorValue h)
  have mem : (s.pixelDone (s.withMem m) h o).mem =
      m.write (s.dstAddr s.scan.plane s.cursorX s.cursorY).toNat (s.cursorValue h) := by
    rw [State.pixelDone, store]; rfl
  refine ⟨out, ?_, ?_, fun hne => ?_, fun a ha => ?_⟩
  · rw [mem, State.pixelDone, store]; rfl
  · rw [State.byteAt, mem, Memory.read_write_same]
  · rw [State.byteAt, mem, Memory.read_write_other _ _ fun he => hne (BitVec.eq_of_toNat_eq he), hop]
  · rw [mem, Memory.read_write_other _ _ fun he => ha (.inl he), others a ha]

theorem State.pixelStep_decode (hc : s.calm) (hr : s.stepReady) (hd : s.scan.dir = .decode)
    (hb : (s.byteAt (s.hopAddr s.scan.plane s.cursorX s.cursorY)).toNat = h.val) :
    ∃ t, s.PixelStep t h :=
  ⟨_, .of_pixelDone hc (cmdHopStep_decode hr hd hb) hb fun _ _ => rfl⟩

theorem State.pixelStep_encode (hc : s.calm) (hr : s.stepReady) (hd : s.scan.dir = .encode) :
    ∃ t, s.PixelStep t s.cursorBest := by
  have ho := cmdHopStep_encode hr hd
  rw [State.storeByte_eq (by simp [hc])] at ho
  refine ⟨_, .of_pixelDone hc ho ?_ fun a ha => ?_⟩
  · have := s.cursorBest.isLt
    rw [Memory.read_write_same, BitVec.toNat_ofNat]
    omega
  · exact Memory.read_write_other _ _ fun he => ha (.inr ⟨hd, he⟩)

end

/-! ### Where a scan stands -/

/-- The HopState: STEP and LAST_SMALL (10_state R52). -/
def State.hopState (s : State) : Nat × Bool := (s.scan.step.toNat, s.scan.lastSmall)

/-- The bytes that a scan of plane `p` in direction `d` stores for pixel number `k`. -/
def State.IsPixelByte (b : State) (d : Dir) (p : Plane) (k a : Nat) : Prop :=
  a = (b.dstAddr p (b.pixelX k) (b.pixelY k)).toNat ∨
  (d = .encode ∧ a = (b.hopAddr p (b.pixelX k) (b.pixelY k)).toNat)

/-- A scan of plane `p` in direction `d`, begun at `b`, stands before pixel number `k` in `s`: only the
bytes of earlier pixels, LAST_PIX and the scan have changed. -/
structure State.AtPixel (b : State) (d : Dir) (p : Plane) (k : Nat) (s : State) : Prop where
  rest : s = ((b.withMem s.mem).withLastPix s.lastPix).withScan s.scan
  x : s.scan.x.toNat = k % b.region.w.toNat
  y : s.scan.y.toNat = k / b.region.w.toNat
  active : s.scan.active = decide (k < b.pixelCount)
  dir : s.scan.dir = d
  plane : s.scan.plane = p
  kept : ∀ a, (∀ l, l < k → ¬ b.IsPixelByte d p l a) → s.mem.read a = b.mem.read a

section
variable {b s t : State} {d : Dir} {p : Plane} {k : Nat} {h : Hop}

theorem State.atPixel_start (d : Dir) (hr : b.regionOk p) :
    b.AtPixel d p 0 (b.withScan (Scan.start d p)) := by
  obtain ⟨-, hw, hh, -⟩ := (b.regionOk_iff p).1 hr
  have hn : 0 < b.pixelCount := Nat.mul_pos hw hh
  exact ⟨rfl, (Nat.zero_mod _).symm, (Nat.zero_div _).symm, (decide_eq_true hn).symm, rfl, rfl,
    fun _ _ => rfl⟩

namespace State.AtPixel
variable (hs : b.AtPixel d p k s)
include hs

theorem region : s.region = b.region := by rw [hs.rest]; rfl
theorem cfg : s.cfg = b.cfg := by rw [hs.rest]; rfl
theorem ctrl : s.ctrl = b.ctrl := by rw [hs.rest]; rfl
theorem seeds : s.seeds = b.seeds := by rw [hs.rest]; rfl
theorem races : s.races = b.races := by rw [hs.rest]; rfl
theorem regionError (q : Plane) : s.regionError q = b.regionError q := by rw [hs.rest]; rfl
theorem tablesReady_iff : s.tablesReady ↔ b.tablesReady := by rw [hs.rest]; rfl
theorem srcAddr (q : Plane) (x y : Nat) : s.srcAddr q x y = b.srcAddr q x y := by rw [hs.rest]; rfl
theorem dstAddr (q : Plane) (x y : Nat) : s.dstAddr q x y = b.dstAddr q x y := by rw [hs.rest]; rfl
theorem hopAddr (q : Plane) (x y : Nat) : s.hopAddr q x y = b.hopAddr q x y := by rw [hs.rest]; rfl

theorem cursorX : s.cursorX = b.pixelX k := by
  rw [State.cursorX, hs.x, hs.region, State.pixelX]

theorem cursorY : s.cursorY = b.pixelY k := by
  rw [State.cursorY, hs.y, hs.region, State.pixelY]

theorem cursorClass :
    s.cursorClass = pixelClass b.region.w.toNat (k % b.region.w.toNat) (k / b.region.w.toNat) := by
  rw [State.cursorClass, hs.x, hs.y, hs.region]

theorem stepReady (ht : b.tablesReady) (hr : b.regionOk p) (hk : k < b.pixelCount) : s.stepReady where
  active := by rw [hs.active, decide_eq_true hk]
  tables := hs.tablesReady_iff.2 ht
  region := by rw [State.regionOk, hs.plane, hs.regionError]; exact hr
  x := by
    rw [hs.x, hs.region]
    exact Nat.mod_lt _ (State.width_pos hk)
  y := by
    rw [hs.y, hs.region]
    exact Nat.div_lt_of_lt_mul hk

theorem isStepByte_iff (a : Nat) : s.IsStepByte a ↔ b.IsPixelByte d p k a := by
  rw [State.IsStepByte, hs.dstAddr, hs.hopAddr, hs.cursorX, hs.cursorY, hs.plane, hs.dir,
    State.IsPixelByte]

/-- The cursor moves on in raster order (41_predictor R265). -/
theorem next (hk : k < b.pixelCount) (ht : s.PixelStep t h) : b.AtPixel d p (k + 1) t := by
  have scan : t.scan = s.scanAfter _ _ := congrArg State.scan ht.rest
  obtain ⟨hdiv, hmod⟩ := raster_succ (State.width_pos hk) k
  have hx := Nat.mod_lt k (State.width_pos hk)
  have hy := Nat.div_lt_of_lt_mul hk
  have hxw := b.region.w.isLt
  have hyh := b.region.h.isLt
  refine ⟨?_, ?_, ?_, ?_, ?_, ?_, fun a ha => ?_⟩
  · rw [scan]
    refine ht.rest.trans ?_
    rw [hs.rest]; rfl
  · simp only [scan, State.scanAfter, hs.x, hs.region, hmod]
    split
    · rfl
    · rw [word_succ_toNat (by rw [hs.x]; omega), hs.x]
  · simp only [scan, State.scanAfter, hs.x, hs.region, hdiv]
    split
    · rw [word_succ_toNat (by rw [hs.y]; omega), hs.y]
    · exact hs.y
  · simp only [scan, State.scanAfter, hs.x, hs.y, hs.region, raster_last hk]
    split <;> simp_all
  · rw [scan]
    exact hs.dir
  · rw [scan]
    exact hs.plane
  · rw [ht.others a fun hb => ha k (Nat.lt_succ_self k) ((hs.isStepByte_iff a).1 hb),
      hs.kept a fun l hl => ha l (Nat.lt_succ_of_lt hl)]

end State.AtPixel

/-- After the last pixel the scan stands at (0, REGION_H), inactive. -/
theorem State.AtPixel.final_scan (hs : b.AtPixel d p b.pixelCount s) (hr : b.regionOk p) : s.scan =
    { x := 0, y := b.region.h, step := BitVec.ofNat 5 s.hopState.1, lastSmall := s.hopState.2,
      active := false, dir := d, plane := p } := by
  obtain ⟨-, hw, -⟩ := (b.regionOk_iff p).1 hr
  have hx : s.scan.x = 0 := BitVec.eq_of_toNat_eq (hs.x.trans (Nat.mul_mod_right _ _))
  have hy : s.scan.y = b.region.h := BitVec.eq_of_toNat_eq (hs.y.trans (Nat.mul_div_cancel_left _ hw))
  have hstep : BitVec.ofNat 5 s.hopState.1 = s.scan.step := by simp [State.hopState]
  have hactive : s.scan.active = false := hs.active.trans (decide_eq_false (lt_irrefl _))
  rw [hstep, ← hx, ← hy, ← hactive, ← hs.dir, ← hs.plane]
  rfl

end

/-! ### The states of a scan -/

theorem State.usedHopState_eq (s : State) :
    s.usedHopState = pixelHopState s.cursorClass s.hopState.1 s.hopState.2 := rfl

theorem State.usedHopState_step_lt (s : State) : s.usedHopState.1 < 2 ^ 5 := by
  unfold State.usedHopState pixelHopState
  split
  · decide
  · exact s.scan.step.isLt

/-- A step adapts the HopState that its pixel used (41_predictor R256). -/
theorem State.PixelStep.hopState {s t : State} {h : Hop} (ht : s.PixelStep t h) :
    t.hopState = adapt s.usedHopState.1 s.usedHopState.2 h := by
  have scan : t.scan = s.scanAfter _ _ := congrArg State.scan ht.rest
  rw [State.hopState, scan]
  refine Prod.ext ?_ rfl
  exact (BitVec.toNat_ofNat _ _).trans (Nat.mod_eq_of_lt (adapt_step_lt s.usedHopState_step_lt _ _))

/-- The state before pixel number `k` of a scan of plane `p` in direction `d` that begins at `b`. -/
def State.scanState (b : State) (d : Dir) (p : Plane) : Nat → State
  | 0 => b.withScan (Scan.start d p)
  | k + 1 => (cmdHopStep.out (b.scanState d p k)).state

/-- The scan takes the hops `hop` without error: before every pixel it stands at that pixel, and the step
from there is the pixel's. -/
structure State.ScanRun (b : State) (d : Dir) (p : Plane) (hop : Nat → Nat → Hop) : Prop where
  stands : ∀ k, k ≤ b.pixelCount → b.AtPixel d p k (b.scanState d p k)
  step : ∀ k, k < b.pixelCount →
    (b.scanState d p k).PixelStep (b.scanState d p (k + 1)) (hop (b.pixelX k) (b.pixelY k))

/-- A scan runs without error if no step from where it stands raises. -/
theorem State.scanRun_of_step {b : State} {d : Dir} {p : Plane} {hop : Nat → Nat → Hop}
    (hr : b.regionOk p)
    (hstep : ∀ k, k < b.pixelCount → b.AtPixel d p k (b.scanState d p k) →
      ∃ t, (b.scanState d p k).PixelStep t (hop (b.pixelX k) (b.pixelY k))) : b.ScanRun d p hop := by
  have step : ∀ k, k < b.pixelCount → b.AtPixel d p k (b.scanState d p k) →
      (b.scanState d p k).PixelStep (b.scanState d p (k + 1)) (hop (b.pixelX k) (b.pixelY k)) := by
    intro k hk hs
    obtain ⟨t, ht⟩ := hstep k hk hs
    have next : b.scanState d p (k + 1) = t := congrArg Out.state ht.out
    exact next ▸ ht
  have stands : ∀ k, k ≤ b.pixelCount → b.AtPixel d p k (b.scanState d p k) := by
    intro k hk
    induction k with
    | zero => exact State.atPixel_start d hr
    | succ k ih => exact (ih (by omega)).next hk (step k hk (ih (by omega)))
  exact ⟨stands, fun k hk => step k hk (stands k hk.le)⟩

/-- In the region no pixel's DST byte is stored for another pixel: buffers do not overlap. -/
theorem State.dst_not_isPixelByte {b : State} {d : Dir} {p : Plane} (hd : b.distinctOn (b.dstAddr p))
    (ha : b.apartOn (b.dstAddr p) (b.hopAddr p)) {k l : Nat} (hk : k < b.pixelCount)
    (hl : l < b.pixelCount) (hne : k ≠ l) :
    ¬ b.IsPixelByte d p l (b.dstAddr p (b.pixelX k) (b.pixelY k)).toNat := by
  rintro (he | ⟨-, he⟩)
  · obtain ⟨hx, hy⟩ := hd _ _ _ _ (b.pixel_inRegion hk) (b.pixel_inRegion hl) (BitVec.eq_of_toNat_eq he)
    exact hne (State.pixel_inj hx hy)
  · exact ha _ _ _ _ (State.pixel_inRegion hk) (State.pixel_inRegion hl) (BitVec.eq_of_toNat_eq he)

/-- The prediction depends on the seed, the variant and the earlier pixels of the scan only
(41_predictor R253). -/
theorem predOf_congr {s s' : State} {p : Plane} {x0 y0 w i j : Nat} (hi : i < w)
    (hseed : s.seeds.seed = s'.seeds.seed)
    (hvar : s.ctrl.interiorVariant = s'.ctrl.interiorVariant)
    (hdst : ∀ i' j', i' < w → j' * w + i' < j * w + i →
      s.byteAt (s.dstAddr p (x0 + i') (y0 + j')) = s'.byteAt (s'.dstAddr p (x0 + i') (y0 + j'))) :
    s.predOf p (pixelClass w i j) (x0 + i) (y0 + j) =
      s'.predOf p (pixelClass w i j) (x0 + i) (y0 + j) := by
  have left : 0 < i → s.byteAt (s.dstAddr p (x0 + i - 1) (y0 + j)) =
      s'.byteAt (s'.dstAddr p (x0 + i - 1) (y0 + j)) := fun h => by
    rw [Nat.add_sub_assoc h]
    exact hdst _ _ (by omega) (by omega)
  have above : ∀ i', i' < w → 0 < j → s.byteAt (s.dstAddr p (x0 + i') (y0 + j - 1)) =
      s'.byteAt (s'.dstAddr p (x0 + i') (y0 + j - 1)) := fun i' h' h => by
    obtain ⟨j, rfl⟩ := Nat.exists_eq_succ_of_ne_zero h.ne'
    refine hdst i' j h' ?_
    rw [Nat.succ_mul]
    omega
  unfold pixelClass
  split_ifs with topLeft firstRow firstCol lastCol
  · exact hseed
  · exact left (by omega)
  · exact above i hi (by omega)
  · exact congrArg₂ average (left (by omega)) (above i hi (by omega))
  · have upRight := above (i + 1) (by omega) (by omega)
    simp only [State.predOf, hvar, left (by omega), Nat.add_assoc, upRight]

namespace State.ScanRun
variable {b : State} {d : Dir} {p : Plane} {hop : Nat → Nat → Hop} (run : b.ScanRun d p hop)
include run

/-- A byte that is stored for none of the pixels from `k` to before `l` keeps its value between them. -/
theorem read_between {k l a : Nat} (hkl : k ≤ l) (hl : l ≤ b.pixelCount)
    (ha : ∀ i, k ≤ i → i < l → ¬ b.IsPixelByte d p i a) :
    (b.scanState d p l).mem.read a = (b.scanState d p k).mem.read a := by
  induction l, hkl using Nat.le_induction with
  | base => rfl
  | succ l hkl ih =>
    rw [(run.step l hl).others a fun hb => ha l hkl l.lt_succ_self
        (((run.stands l (by omega)).isStepByte_iff a).1 hb),
      ih (by omega) fun i hi hil => ha i hi (by omega)]

/-- The loop of the scan reaches its end (41_predictor R266, R267). -/
theorem scanLoop_out (m k : Nat) (hk : k + m = b.pixelCount) :
    (scanLoop m).out (b.scanState d p k) = .ok () (b.scanState d p b.pixelCount) := by
  induction m generalizing k with
  | zero => rw [← hk]; rfl
  | succ m ih =>
    have hlt : k < b.pixelCount := by omega
    rw [scanLoop_succ, if_pos (by rw [(run.stands k hlt.le).active, decide_eq_true hlt]),
      Cmd.out_seq_ok (run.step k hlt).out, ih (k + 1) (by omega)]

theorem scanRegion_out :
    scanRegion.out (b.withScan (Scan.start d p)) = .ok () (b.scanState d p b.pixelCount) := by
  rw [scanRegion, Cmd.out_read_bind]
  exact run.scanLoop_out _ 0 (Nat.zero_add _)

/-- A byte that is no pixel's is as the scan found it. -/
theorem kept_final {a : Nat} (ha : ∀ x y, b.inRegion x y →
    a ≠ (b.dstAddr p x y).toNat ∧ (d = .encode → a ≠ (b.hopAddr p x y).toNat)) :
    (b.scanState d p b.pixelCount).mem.read a = b.mem.read a :=
  (run.stands _ le_rfl).kept a fun _ hl hb =>
    have outside := ha _ _ (b.pixel_inRegion hl)
    hb.elim outside.1 fun hop => outside.2 hop.1 hop.2

/-- The registers at the end of the scan (41_predictor R266, R267). -/
theorem final_eq (hr : b.regionOk p) : b.scanState d p b.pixelCount =
    ((b.withMem (b.scanState d p b.pixelCount).mem).withLastPix
      (b.scanState d p b.pixelCount).lastPix).withScan
      { x := 0, y := b.region.h, step := BitVec.ofNat 5 (b.scanState d p b.pixelCount).hopState.1,
        lastSmall := (b.scanState d p b.pixelCount).hopState.2, active := false, dir := d, plane := p } :=
  (run.stands _ le_rfl).rest.trans (congrArg _ ((run.stands _ le_rfl).final_scan hr))

section
variable (hd : b.distinctOn (b.dstAddr p)) (ha : b.apartOn (b.dstAddr p) (b.hopAddr p))
include hd ha

/-- From its own step on, a pixel keeps its value. -/
theorem dst_final {k l : Nat} (hkl : k < l) (hl : l ≤ b.pixelCount) :
    (b.scanState d p l).byteAt (b.dstAddr p (b.pixelX k) (b.pixelY k)) =
      (b.scanState d p b.pixelCount).byteAt (b.dstAddr p (b.pixelX k) (b.pixelY k)) :=
  (run.read_between hl le_rfl fun i hi hin =>
    State.dst_not_isPixelByte hd ha (by omega) hin (by omega)).symm

/-- The prediction of a pixel is that from the finished reconstruction. -/
theorem cursorPred_eq {k : Nat} (hk : k < b.pixelCount) : (b.scanState d p k).cursorPred =
    (b.withMem (b.scanState d p b.pixelCount).mem).predOf p
      (pixelClass b.region.w.toNat (k % b.region.w.toNat) (k / b.region.w.toNat))
      (b.pixelX k) (b.pixelY k) := by
  have hs := run.stands k hk.le
  rw [State.cursorPred, hs.plane, hs.cursorX, hs.cursorY, hs.cursorClass]
  refine predOf_congr (Nat.mod_lt k (State.width_pos hk)) (congrArg SeedRegs.seed hs.seeds)
    (congrArg Control.interiorVariant hs.ctrl) fun i j hi hij => ?_
  rw [Nat.div_add_mod'] at hij
  rw [← State.pixelX_number (j := j) hi, ← State.pixelY_number (j := j) hi, hs.dstAddr]
  exact run.dst_final hd ha hij hk.le

/-- What the scan leaves at pixel number `k`, by the rules (41_predictor R251 to R256). -/
theorem pixel_final {k : Nat} (hk : k < b.pixelCount) :
    let c := pixelClass b.region.w.toNat (k % b.region.w.toNat) (k / b.region.w.toNat)
    let u := pixelHopState c (b.scanState d p k).hopState.1 (b.scanState d p k).hopState.2
    let pred := (b.withMem (b.scanState d p b.pixelCount).mem).predOf p c (b.pixelX k) (b.pixelY k)
    let h := hop (b.pixelX k) (b.pixelY k)
    (b.scanState d p b.pixelCount).byteAt (b.dstAddr p (b.pixelX k) (b.pixelY k)) =
        (if c = .topLeft then b.seeds.seed
         else BitVec.ofNat 8 (recValue pred.toNat b.cfg.ratio.toNat u.1 h)) ∧
      (b.scanState d p (k + 1)).hopState = adapt u.1 u.2 h := by
  intro c u pred h
  have hs := run.stands k hk.le
  have used : (b.scanState d p k).usedHopState = u := by rw [State.usedHopState_eq, hs.cursorClass]
  have value := (run.step k hk).value
  rw [hs.plane, hs.cursorX, hs.cursorY, hs.dstAddr, run.dst_final hd ha k.lt_succ_self hk,
    State.cursorValue, hs.cursorClass, hs.seeds, hs.cfg, run.cursorPred_eq hd ha hk, used] at value
  exact ⟨value, used ▸ (run.step k hk).hopState⟩

theorem scanTrace : b.ScanTrace p (b.scanState d p b.pixelCount).mem hop
    fun k => (b.scanState d p k).hopState where
  start := rfl
  pixel i j hi hj := by
    have pixel := run.pixel_final hd ha (State.number_lt hi hj)
    rwa [State.pixelX_number hi, State.pixelY_number hi, (raster_number hi j).1,
      (raster_number hi j).2] at pixel

end

end State.ScanRun

/-! ### A region decoded (41_predictor R266) -/

theorem State.decode_run {b : State} {p : Plane} {hop : Nat → Nat → Hop} (hc : b.calm)
    (ht : b.tablesReady) (hr : b.regionOk p) (ha : b.apartOn (b.dstAddr p) (b.hopAddr p))
    (hh : ∀ x y, b.inRegion x y → (b.byteAt (b.hopAddr p x y)).toNat = (hop x y).val) :
    b.ScanRun .decode p hop :=
  State.scanRun_of_step hr fun k hk hs => by
    refine State.pixelStep_decode (hs.races.trans hc) (hs.stepReady ht hr hk) hs.dir ?_
    rw [hs.plane, hs.cursorX, hs.cursorY, hs.hopAddr, State.byteAt, hs.kept]
    · exact hh _ _ (b.pixel_inRegion hk)
    · rintro l hl (he | ⟨he, -⟩)
      · exact ha _ _ _ _ (State.pixel_inRegion (hl.trans hk)) (State.pixel_inRegion hk)
          (BitVec.eq_of_toNat_eq he.symm)
      · cases he

/-- Settles O35: the hop bytes are no DST bytes, so every step finds its hop. -/
theorem hopDecRegionCompletes : Obligations.HopDecRegionCompletes := by
  intro s f p hop hp hc ht hr hh hd ha s0
  have run : s0.ScanRun .decode p hop := State.decode_run (b := s0) hc ht hr ha hh
  refine ⟨_, (s0.scanState .decode p s0.pixelCount).lastPix, _, run.scanTrace hd ha,
    fun a hna => run.kept_final fun x y hxy => ⟨hna x y hxy, nofun⟩, exec_ok ?_⟩
  rw [commandBody, withPlane_some hp, cmdHopDecRegion, Cmd.out_seq_ok (cmdHopBeginDec_ok ht.1 hr)]
  exact run.scanRegion_out.trans (congrArg _ (run.final_eq hr))

end Sys2Proof.Machine
end

section
namespace Sys2Proof.Machine

-- One theorem at a time: many checked at once need more threads than the memory limit allows.
set_option Elab.async false

/-! ### A region encoded (41_predictor R267) -/

/-- The number of the pixel at absolute coordinates in the region. -/
def State.pixelNumber (s : State) (x y : Nat) : Nat :=
  (y - s.region.y0.toNat) * s.region.w.toNat + (x - s.region.x0.toNat)

theorem State.pixelNumber_pixel (s : State) (k : Nat) : s.pixelNumber (s.pixelX k) (s.pixelY k) = k := by
  rw [State.pixelNumber, State.pixelX, State.pixelY, Nat.add_sub_cancel_left, Nat.add_sub_cancel_left,
    Nat.div_add_mod']

/-- Every pixel of the region has its number. -/
theorem State.exists_pixel {s : State} {x y : Nat} (h : s.inRegion x y) :
    ∃ k, k < s.pixelCount ∧ s.pixelX k = x ∧ s.pixelY k = y := by
  obtain ⟨hx, hxw, hy, hyh⟩ := h
  have hi : x - s.region.x0.toNat < s.region.w.toNat := by omega
  exact ⟨_, State.number_lt hi (j := y - s.region.y0.toNat) (by omega),
    (State.pixelX_number hi).trans (by omega), (State.pixelY_number hi).trans (by omega)⟩

/-- The hop that an encode scan chooses at a pixel. -/
def State.encodedHop (b : State) (p : Plane) (x y : Nat) : Hop :=
  (b.scanState .encode p (b.pixelNumber x y)).cursorBest

section
variable {b : State} {p : Plane}

theorem State.encodedHop_pixel (k : Nat) :
    b.encodedHop p (b.pixelX k) (b.pixelY k) = (b.scanState .encode p k).cursorBest := by
  rw [State.encodedHop, State.pixelNumber_pixel]

/-- No encoding step raises. -/
theorem State.encode_run (hc : b.calm) (ht : b.tablesReady) (hr : b.regionOk p) :
    b.ScanRun .encode p (b.encodedHop p) :=
  State.scanRun_of_step hr fun k hk hs => State.encodedHop_pixel (b := b) k ▸
    State.pixelStep_encode (hs.races.trans hc) (hs.stepReady ht hr hk) hs.dir

/-- An original is read before its byte is overwritten (41_predictor R259). -/
theorem State.AtPixel.cursorOrig_eq {s : State} {k : Nat} (hs : b.AtPixel .encode p k s)
    (hk : k < b.pixelCount) (safe : b.originalsSafe p) :
    s.cursorOrig = b.byteAt (b.srcAddr p (b.pixelX k) (b.pixelY k)) := by
  rw [State.cursorOrig, hs.plane, hs.cursorX, hs.cursorY, hs.srcAddr]
  refine hs.kept _ fun l hl => ?_
  have inL := State.pixel_inRegion (hl.trans hk)
  have inK := State.pixel_inRegion hk
  rintro (he | ⟨-, he⟩)
  · obtain ⟨hx, hy⟩ := safe.dst _ _ _ _ inK inL (BitVec.eq_of_toNat_eq he)
    exact hl.ne' (State.pixel_inj hx hy)
  · exact safe.hop _ _ _ _ inK inL (BitVec.eq_of_toNat_eq he)

/-- Every stored hop is the best one for its original (41_predictor R258). -/
theorem State.ScanRun.chosenHops (run : b.ScanRun .encode p (b.encodedHop p))
    (hd : b.distinctOn (b.dstAddr p)) (ha : b.apartOn (b.dstAddr p) (b.hopAddr p))
    (safe : b.originalsSafe p) {orig : Nat → Nat → Byte}
    (horig : ∀ x y, b.inRegion x y → b.byteAt (b.srcAddr p x y) = orig x y) :
    b.ChosenHops p (b.scanState .encode p b.pixelCount).mem orig (b.encodedHop p)
      fun k => (b.scanState .encode p k).hopState := by
  intro i j hi hj
  have hk := State.number_lt hi hj
  have hs := run.stands _ hk.le
  have chosen := State.encodedHop_pixel (b := b) (p := p) (j * b.region.w.toNat + i)
  rwa [State.cursorBest, State.usedHopState_eq, hs.cursorClass, hs.cfg, hs.cursorOrig_eq hk safe,
    horig _ _ (State.pixel_inRegion hk), run.cursorPred_eq hd ha hk, State.pixelX_number hi,
    State.pixelY_number hi, (raster_number hi j).1, (raster_number hi j).2] at chosen

/-- The hop buffer keeps the hop of every pixel. -/
theorem State.ScanRun.hop_final {d : Dir} {hop : Nat → Nat → Hop} (run : b.ScanRun d p hop)
    (hh : b.distinctOn (b.hopAddr p)) (ha : b.apartOn (b.dstAddr p) (b.hopAddr p)) {x y : Nat}
    (hxy : b.inRegion x y) :
    ((b.scanState d p b.pixelCount).byteAt (b.hopAddr p x y)).toNat = (hop x y).val := by
  obtain ⟨k, hk, rfl, rfl⟩ := State.exists_pixel hxy
  have hs := run.stands k hk.le
  have stored := (run.step k hk).hop
  rw [hs.plane, hs.cursorX, hs.cursorY, hs.hopAddr, hs.dstAddr] at stored
  rw [← stored (ha _ _ _ _ hxy hxy).symm]
  refine congrArg BitVec.toNat (run.read_between hk le_rfl fun l hkl hl => ?_)
  have inL := State.pixel_inRegion hl
  rintro (he | ⟨-, he⟩)
  · exact ha _ _ _ _ inL hxy (BitVec.eq_of_toNat_eq he.symm)
  · obtain ⟨hx, hy⟩ := hh _ _ _ _ hxy inL (BitVec.eq_of_toNat_eq he)
    exact (Nat.ne_of_lt hkl) (State.pixel_inj hx hy)

end

/-- The bytes that memory held before a scan are no part of its trace. -/
theorem State.ScanTrace.of_withMem {b : State} {p : Plane} {m m0 : Memory} {hop : Nat → Nat → Hop}
    {hs : Nat → Nat × Bool} (h : (b.withMem m0).ScanTrace p m hop hs) : b.ScanTrace p m hop hs :=
  ⟨h.start, h.pixel⟩

/-- The state in which an encode scan of plane `p` starts: SEED and the seed slot hold the region's first
original (41_predictor R264). -/
def State.seeded (s : State) (p : Plane) : State :=
  let first := s.byteAt (s.srcAddr p s.region.x0.toNat s.region.y0.toNat)
  (s.withSeeds { s.seeds with seed := first }).withMem (s.mem.write s.seedAddr.toNat first)

theorem cmdHopBeginEnc_seeded {s : State} {p : Plane} (hc : s.calm) (ht : s.tablesValid = true)
    (hr : s.regionOk p) :
    (cmdHopBeginEnc p).out s = .ok () ((s.seeded p).withScan (Scan.start .encode p)) := by
  rw [cmdHopBeginEnc_ok ht hr, State.storeByte_eq (by simp [hc])]
  rfl

/-- Settles O36: the scan begins at the state with the seed stored, and no later store hits a byte that a
step still needs. -/
theorem hopEncRegionCompletes : Obligations.HopEncRegionCompletes := by
  intro s f p hp hc ht hr hd hh ha safe hseed seed s0
  have run : (s.seeded p).ScanRun .encode p ((s.seeded p).encodedHop p) := State.encode_run hc ht hr
  have outside : ∀ a, a ≠ s.seedAddr.toNat → (s.seeded p).mem.read a = s.mem.read a := fun a hne =>
    Memory.read_write_other _ _ hne
  have slot : (s.seeded p).mem.read s.seedAddr.toNat = seed := Memory.read_write_same _ _ _
  have trace := (run.scanTrace hd ha).of_withMem
  have chosen := run.chosenHops hd ha ⟨safe.dst, safe.hop, safe.seed⟩ fun x y hxy =>
    outside _ fun he => safe.seed x y hxy (BitVec.eq_of_toNat_eq he)
  refine ⟨_, ((s.seeded p).scanState .encode p s.pixelCount).lastPix, _, _, trace, chosen,
    fun x y hxy => run.hop_final hh ha hxy, ?_, fun a hne hna => ?_, exec_ok ?_⟩
  · refine (run.kept_final fun x y hxy => ?_).trans slot
    obtain ⟨hdst, hhop⟩ := hseed x y hxy
    exact ⟨fun he => hdst (BitVec.eq_of_toNat_eq he.symm),
      fun _ he => hhop (BitVec.eq_of_toNat_eq he.symm)⟩
  · refine (run.kept_final fun x y hxy => ?_).trans (outside a hne)
    exact ⟨(hna x y hxy).1, fun _ => (hna x y hxy).2⟩
  · rw [commandBody, withPlane_some hp, cmdHopEncRegion, Cmd.out_seq_ok (cmdHopBeginEnc_seeded hc ht.1 hr)]
    exact run.scanRegion_out.trans (congrArg _ (run.final_eq hr))

/-! ### The closed loop (41_predictor R261) -/

/-- Two scans of one region with the same hops, seed, ratio and variant leave the same values and go
through the same HopStates. -/
theorem State.ScanTrace.agree {s s' : State} {p : Plane} {m m' : Memory} {hop : Nat → Nat → Hop}
    {hs hs' : Nat → Nat × Bool} (h : s.ScanTrace p m hop hs) (h' : s'.ScanTrace p m' hop hs')
    (region : s'.region = s.region) (ratio : s'.cfg.ratio = s.cfg.ratio)
    (variant : s'.ctrl.interiorVariant = s.ctrl.interiorVariant) (seed : s'.seeds.seed = s.seeds.seed)
    {k : Nat} (hk : k ≤ s.pixelCount) : hs' k = hs k ∧
      ∀ l, l < k → m'.read (s'.dstAddr p (s.pixelX l) (s.pixelY l)).toNat =
        m.read (s.dstAddr p (s.pixelX l) (s.pixelY l)).toNat := by
  induction k with
  | zero => exact ⟨h'.start.trans h.start.symm, fun l hl => absurd hl l.not_lt_zero⟩
  | succ k ih =>
    obtain ⟨hhs, hbytes⟩ := ih (by omega)
    have hi := Nat.mod_lt k (State.width_pos hk)
    have hj := Nat.div_lt_of_lt_mul hk
    obtain ⟨value, next⟩ := h.pixel _ _ hi hj
    obtain ⟨value', next'⟩ := h'.pixel _ _ (region ▸ hi) (region ▸ hj)
    have pred := predOf_congr (s := s'.withMem m') (s' := s.withMem m) (p := p) (x0 := s.region.x0.toNat)
      (y0 := s.region.y0.toNat) hi seed variant fun i j hij hlt => by
        rw [Nat.div_add_mod'] at hlt
        rw [← State.pixelX_number hij, ← State.pixelY_number hij]
        exact hbytes _ hlt
    rw [region, Nat.div_add_mod', hhs] at value' next'
    rw [ratio, seed, pred] at value'
    rw [Nat.div_add_mod'] at value next
    refine ⟨next'.trans next.symm, fun l hl => ?_⟩
    rcases Nat.lt_succ_iff_lt_or_eq.1 hl with hl | rfl
    · exact hbytes l hl
    · exact value'.trans value.symm

/-- Settles O37: both scans leave traces with the same hops, seed, ratio and variant, and such traces
agree. -/
theorem decodeReproducesTheEncoder : Obligations.DecodeReproducesTheEncoder := by
  intro e d t f p hp hec het her hed heh hea safe hseed hexec hdc hdt hdr region ratio variant hdd hda
    hslot hhops
  obtain ⟨m, last, hs, hop, trace, -, hops, seed, -, enc⟩ :=
    hopEncRegionCompletes e f p hp hec het her hed heh hea safe hseed
  obtain rfl : _ = t := Host.Outcome.next.inj (enc.symm.trans hexec)
  have inRegion_iff : ∀ x y, d.inRegion x y ↔ e.inRegion x y := fun x y => by rw [State.inRegion, region]
  obtain ⟨m', last', hs', trace', -, dec⟩ := hopDecRegionCompletes d f p hop hp hdc hdt hdr
    (fun x y hxy => (congrArg _ (hhops x y ((inRegion_iff x y).1 hxy))).trans
      (hops x y ((inRegion_iff x y).1 hxy))) hdd hda
  have slot : d.byteAt d.seedAddr = _ := hslot.trans seed
  obtain ⟨hopStates, values⟩ := trace.agree trace' region ratio variant slot le_rfl
  have final : hs' (d.region.w.toNat * d.region.h.toNat) = hs (e.region.w.toNat * e.region.h.toNat) := by
    rw [region]
    exact hopStates
  refine ⟨_, dec, rfl, fun x y hxy => ?_, congrArg (fun u : Nat × Bool => BitVec.ofNat 5 u.1) final,
    congrArg Prod.snd final, slot⟩
  obtain ⟨k, hk, rfl, rfl⟩ := e.exists_pixel hxy
  exact values k hk

end Sys2Proof.Machine
end

section
/-! PROOFS. Family 42_mesh: plane and block geometry, the downsampled sides against the rational formula,
and the commands that move the mesh array. -/

namespace Sys2Proof.Machine

-- One theorem at a time: many checked at once need more threads than the memory limit allows.
set_option Elab.async false

/-! ### The ceiling of a quotient (00_scope R10) -/

theorem cdiv_eq_ceilDiv (a : Nat) {b : Nat} (hb : 0 < b) : cdiv a b = a ⌈/⌉ b := by
  rw [cdiv, Nat.ceilDiv_eq_add_pred_div, Nat.add_sub_assoc hb]

theorem cdiv_le_iff {a b c : Nat} (hb : 0 < b) : cdiv a b ≤ c ↔ a ≤ b * c := by
  rw [cdiv_eq_ceilDiv a hb, ceilDiv_le_iff_le_mul hb]

theorem cdiv_mono (b : Nat) : Monotone fun a => cdiv a b := fun _ _ h =>
  Nat.div_le_div_right (Nat.add_le_add_right h _)

theorem cdiv_eq_ceil (a : Nat) {b : Nat} (hb : 0 < b) : cdiv a b = ⌈(a : ℚ) / b⌉₊ :=
  eq_of_forall_ge_iff fun c => by
    rw [cdiv_le_iff hb, Nat.ceil_le, div_le_iff₀' (by exact_mod_cast hb), ← Nat.cast_mul, Nat.cast_le]

/-! ### Bounds of a downsampled side (42_mesh R316, R317) -/

theorem downSide_bounds (n e1 e2 : Nat) : min 2 n ≤ downSide n e1 e2 ∧ downSide n e1 e2 ≤ n :=
  ⟨le_min (min_le_right _ _) ((min_le_left _ _).trans (le_max_left _ _)), min_le_left _ _⟩

/-- Relevance 1 has one pixel for each sample. -/
theorem ppp4096_five (n cf : Nat) : ppp4096 n cf 5 = 4096 := rfl

/-- Edges of two corners of relevance 1 leave the side. -/
theorem downSide_full (n : Nat) : downSide n (4096 + 4096) (4096 + 4096) = n := by
  have hq : cdiv (2 * n * 4096) (min (4096 + 4096) (4096 + 4096)) = n := by
    rw [cdiv, min_self]
    omega
  rw [downSide, hq]
  exact min_eq_left (le_max_right _ _)

/-- Settles O43: the side is clamped last, and four corners of relevance 1 give the quotient `S`. -/
theorem downsampledSideStaysInBounds : Obligations.DownsampledSideStaysInBounds := by
  refine fun n cf k => ⟨downSide_bounds n _ _, downSide_bounds n _ _, ?_, ?_⟩
  · rintro ⟨tl, tr, bl, br⟩
    simp only [Corners.sideX, tl, tr, bl, br, ppp4096_five, downSide_full]
  · rintro ⟨tl, tr, bl, br⟩
    simp only [Corners.sideY, tl, tr, bl, br, ppp4096_five, downSide_full]

/-! ### The rational formula (42_mesh R306 to R309) -/

/-- `LEVEL[c]` (42_mesh R306). -/
def levelRat (c : Nat) : ℚ := ([0, 1 / 8, 1 / 4, 1 / 2, 3 / 4, 1] : List ℚ).getD c 0

/-- `pmax(S)` (42_mesh R307). -/
def pmaxRat (n : Nat) : ℚ := max 1 ((n : ℚ) / 2)

/-- `PPP(S, LEVEL[c])` (42_mesh R307). -/
def pppRat (n cf c : Nat) : ℚ := 1 + (pmaxRat n - 1) * ((cf : ℚ) / 256) * (1 - levelRat c)

/-- `Side(S, e1, e2)` (42_mesh R309). -/
def sideRat (n : Nat) (e1 e2 : ℚ) : Nat := min n (max 2 ⌈2 * (n : ℚ) / min e1 e2⌉₊)

theorem levelRat_bounds {c : Nat} (hc : c ≤ 5) : 0 ≤ levelRat c ∧ levelRat c ≤ 1 := by
  interval_cases c <;> norm_num [levelRat]

theorem level8_cast {c : Nat} (hc : c ≤ 5) : ((8 - level8 c : Nat) : ℚ) = 8 * (1 - levelRat c) := by
  interval_cases c <;> norm_num [levelRat, level8]

theorem pmaxRat_cast (n : Nat) : ((max 2 n - 2 : Nat) : ℚ) = 2 * (pmaxRat n - 1) := by
  rw [Nat.cast_sub (le_max_left 2 n), pmaxRat, mul_sub, mul_max_of_nonneg _ _ zero_le_two]
  push_cast
  ring_nf

/-- The model's whole number is 4096 times the PPP. -/
theorem ppp4096_cast (n cf : Nat) {c : Nat} (hc : c ≤ 5) :
    (ppp4096 n cf c : ℚ) = 4096 * pppRat n cf c := by
  rw [ppp4096, Nat.cast_add, Nat.cast_mul, Nat.cast_mul, pmaxRat_cast, level8_cast hc, pppRat]
  push_cast
  ring

theorem one_le_pmaxRat (n : Nat) : 1 ≤ pmaxRat n := le_max_left _ _

/-- PPP goes from 1 to pmax as the density factor goes from 0 to 1. -/
theorem pppRat_bounds (n : Nat) {cf c : Nat} (hcf : cf ≤ 256) (hc : c ≤ 5) :
    1 ≤ pppRat n cf c ∧ pppRat n cf c ≤ pmaxRat n := by
  obtain ⟨hl0, hl1⟩ := levelRat_bounds hc
  have hp : 0 ≤ pmaxRat n - 1 := sub_nonneg.2 (one_le_pmaxRat n)
  have hcf0 : (0 : ℚ) ≤ (cf : ℚ) / 256 := by positivity
  have hcf1 : (cf : ℚ) / 256 ≤ 1 := (div_le_one (by norm_num)).2 (by exact_mod_cast hcf)
  have hl0' : 0 ≤ 1 - levelRat c := by linarith
  have factor0 : 0 ≤ (cf : ℚ) / 256 * (1 - levelRat c) := mul_nonneg hcf0 hl0'
  have factor1 : (cf : ℚ) / 256 * (1 - levelRat c) ≤ 1 := mul_le_one₀ hcf1 hl0' (by linarith)
  rw [pppRat, mul_assoc]
  have lower := mul_nonneg hp factor0
  have upper := mul_le_of_le_one_right hp factor1
  constructor <;> linarith

/-- The side computed from edges in 4096ths is that of the rational edges. -/
theorem downSide_eq_sideRat (n : Nat) {a b : Nat} {e1 e2 : ℚ} (ha : 0 < a) (hb : 0 < b)
    (h1 : (a : ℚ) = 4096 * e1) (h2 : (b : ℚ) = 4096 * e2) : downSide n a b = sideRat n e1 e2 := by
  have hq : ((2 * n * 4096 : Nat) : ℚ) / ((min a b : Nat) : ℚ) = 2 * n / min e1 e2 := by
    rw [Nat.cast_min, h1, h2, ← mul_min_of_nonneg _ _ (by norm_num), Nat.cast_mul, mul_comm,
      Nat.cast_ofNat, mul_div_mul_left _ _ (by norm_num), Nat.cast_mul, Nat.cast_ofNat]
  rw [downSide, cdiv_eq_ceil _ (lt_min ha hb), hq]
  rfl

theorem ppp4096_pos (n cf c : Nat) : 0 < ppp4096 n cf c := Nat.add_pos_left (by norm_num) _

/-- One side, from the codes at the ends of its two edges. -/
theorem downSide_ppp4096 (n cf : Nat) {c1 c2 c3 c4 : Nat} (h1 : c1 ≤ 5) (h2 : c2 ≤ 5) (h3 : c3 ≤ 5)
    (h4 : c4 ≤ 5) :
    downSide n (ppp4096 n cf c1 + ppp4096 n cf c2) (ppp4096 n cf c3 + ppp4096 n cf c4) =
      sideRat n (pppRat n cf c1 + pppRat n cf c2) (pppRat n cf c3 + pppRat n cf c4) :=
  downSide_eq_sideRat n (Nat.add_pos_left (ppp4096_pos ..) _) (Nat.add_pos_left (ppp4096_pos ..) _)
    (by rw [Nat.cast_add, ppp4096_cast n cf h1, ppp4096_cast n cf h2, mul_add])
    (by rw [Nat.cast_add, ppp4096_cast n cf h3, ppp4096_cast n cf h4, mul_add])

theorem meshLegal_iff (m : Byte) : meshLegal m = true ↔ meshX m ≤ 5 ∧ meshY m ≤ 5 := by
  simp [meshLegal]

/-- Settles O42: 4096 times the PPP is a whole number, and so the ceiling is that of the rule. -/
theorem downsampledSidesFollowTheRationalFormula :
    Obligations.DownsampledSidesFollowTheRationalFormula := by
  intro n cf k _ hcf hk
  simp only [Corners.legal, meshLegal_iff] at hk
  obtain ⟨⟨xtl, ytl⟩, ⟨xtr, ytr⟩, ⟨xbl, ybl⟩, ⟨xbr, ybr⟩⟩ := hk
  exact ⟨fun c hc => pppRat_bounds n hcf hc, downSide_ppp4096 n cf xtl xtr xbl xbr,
    downSide_ppp4096 n cf ytl ybl ytr ybr⟩

/-! ### Blocks (42_mesh R300 to R303) -/

/-- Boundaries that start at or below `x` and end above it have `x` in exactly one part. -/
theorem existsUnique_part {f : Nat → Nat} (hf : Monotone f) {n x : Nat} (h0 : f 0 ≤ x) (hn : x < f n) :
    ∃! k, k < n ∧ f k ≤ x ∧ x < f (k + 1) := by
  have hex : ∃ k, k < n ∧ f k ≤ x ∧ x < f (k + 1) := by
    induction n with
    | zero => omega
    | succ n ih =>
      rcases le_or_gt (f n) x with hle | hlt
      · exact ⟨n, n.lt_succ_self, hle, hn⟩
      · obtain ⟨k, hk, hx⟩ := ih hlt
        exact ⟨k, hk.trans n.lt_succ_self, hx⟩
  obtain ⟨k, hk⟩ := hex
  refine ⟨k, hk, fun l hl => ?_⟩
  rcases lt_trichotomy l k with hlt | heq | hgt
  · have hle : f (l + 1) ≤ f k := hf hlt
    omega
  · exact heq
  · have hle : f (k + 1) ≤ f l := hf hgt
    omega

/-- Parts of two axes make the cells of a grid. -/
theorem existsUnique_cell {f g : Nat → Nat} (hf : Monotone f) (hg : Monotone g) {m n x y : Nat}
    (hf0 : f 0 ≤ x) (hfm : x < f m) (hg0 : g 0 ≤ y) (hgn : y < g n) :
    ∃! b : Nat × Nat, b.1 < m ∧ b.2 < n ∧ f b.1 ≤ x ∧ x < f (b.1 + 1) ∧ g b.2 ≤ y ∧ y < g (b.2 + 1) := by
  obtain ⟨k, ⟨hk, hkx⟩, honlyX⟩ := existsUnique_part hf hf0 hfm
  obtain ⟨l, ⟨hl, hly⟩, honlyY⟩ := existsUnique_part hg hg0 hgn
  refine ⟨(k, l), ⟨hk, hl, hkx.1, hkx.2, hly⟩, ?_⟩
  rintro ⟨i, j⟩ ⟨hi, hj, hfi, hfi', hgj⟩
  exact Prod.ext (honlyX i ⟨hi, hfi, hfi'⟩) (honlyY j ⟨hj, hgj⟩)

theorem zero_cdiv {b : Nat} (hb : 0 < b) : cdiv 0 b = 0 :=
  Nat.le_zero.1 ((cdiv_le_iff hb).2 (Nat.zero_le _))

theorem le_mul_cdiv (a : Nat) {b : Nat} (hb : 0 < b) : a ≤ b * cdiv a b := (cdiv_le_iff hb).1 le_rfl

/-- The boundaries of one axis in blocks, subsampled: they rise from 0 to the axis's length. -/
theorem cdiv_lumaBound (n : Nat) {blocks sub : Nat} (hb : 0 < blocks) (hs : 0 < sub) :
    (Monotone fun k => cdiv (lumaBound n blocks k) sub) ∧ cdiv (lumaBound n blocks 0) sub = 0 ∧
      cdiv (lumaBound n blocks blocks) sub = cdiv n sub := by
  refine ⟨fun k l h => cdiv_mono sub (min_le_min le_rfl (Nat.mul_le_mul_right _ h)), ?_, ?_⟩
  · rw [lumaBound, Nat.zero_mul, Nat.min_zero, zero_cdiv hs]
  · rw [lumaBound, min_eq_left (le_mul_cdiv n hb)]

theorem State.frameOk.dimsLegal {s : State} (h : s.frameOk) : s.cfg.DimsLegal := by
  by_contra hd
  rw [State.frameOk, State.frameError_eq, if_pos hd] at h
  cases h

theorem State.frameOk.chromaLegal {s : State} (h : s.frameOk) : s.cfg.ChromaLegal := by
  by_contra hc
  have dims := h.dimsLegal
  rw [State.frameOk, State.frameError_eq, if_neg (not_not.2 dims), if_pos hc] at h
  cases h

theorem chromaFactor_pos {f : BitVec 4} (h : f = 1 ∨ f = 2) : 0 < f.toNat := by
  rcases h with rfl | rfl <;> decide

theorem FrameConfig.ChromaLegal.sub_pos {c : FrameConfig} (h : c.ChromaLegal) (p : Plane) :
    0 < c.subX p ∧ 0 < c.subY p := by
  cases p with
  | luma => exact ⟨one_pos, one_pos⟩
  | chromaA | chromaB => exact ⟨chromaFactor_pos h.1, chromaFactor_pos h.2⟩

/-- Settles O41: the boundaries of both axes rise from 0 to the plane's sides. -/
theorem blocksTileThePlane : Obligations.BlocksTileThePlane := by
  intro s p h
  obtain ⟨-, -, -, hgw, hgh⟩ := h.dimsLegal
  obtain ⟨hsx, hsy⟩ := h.chromaLegal.sub_pos p
  obtain ⟨monoX, x0, xlast⟩ :=
    cdiv_lumaBound s.cfg.width.toNat (BitVec.toNat_pos_of_ne_zero hgw) hsx
  obtain ⟨monoY, y0, ylast⟩ :=
    cdiv_lumaBound s.cfg.height.toNat (BitVec.toNat_pos_of_ne_zero hgh) hsy
  exact ⟨x0, xlast, y0, ylast, fun x y hx hy => existsUnique_cell monoX monoY
    (x0.trans_le x.zero_le) (hx.trans_eq xlast.symm) (y0.trans_le y.zero_le) (hy.trans_eq ylast.symm)⟩

/-! ### PLANE_GEOM and BLOCK_GEOM (42_mesh R311, R312) -/

theorem cmdPlaneGeom_ok {s : State} (h : s.frameOk) (p : Plane) : (cmdPlaneGeom p).out s =
    .ok () (s.withBlock 0 (s.cfg.planeW p) 0 (s.cfg.planeH p) (s.cfg.planeW p) (s.cfg.planeH p)
      (s.cfg.seedNumber p 0 0)) := by
  rw [cmdPlaneGeom, frameCheck_seq_ok h, Cmd.out_update]

/-- Settles O39: past the frame check the body is one update, and block (0, 0) has the first seed. -/
theorem planeGeomCoversThePlane : Obligations.PlaneGeomCoversThePlane := by
  intro s f p hp h
  have hseed : s.cfg.seedNumber p 0 0 = p.index * s.cfg.gridW.toNat * s.cfg.gridH.toNat := by
    rw [FrameConfig.seedNumber, Nat.zero_mul]
    rfl
  refine exec_ok ?_
  rw [commandBody, withPlane_some hp, cmdPlaneGeom_ok h, hseed]
  rfl

theorem readCorner_out (cx cy : Nat) (s : State) : (readCorner cx cy).out s =
    if meshLegal (s.byteAt (s.meshAddr cx cy)) then .ok (s.byteAt (s.meshAddr cx cy)) s
    else .raised .malformedHeader s := by
  rw [readCorner, Cmd.out_read_bind, out_memRead_bind]
  split <;> rfl

/-- A body that answers under a condition and else raises, at the head of a sequence. -/
theorem Cmd.out_bind_ite {α β : Type} {c : Cmd α} {f : α → Cmd β} {P : Prop} [Decidable P]
    {s t u : State} {a : α} {e : ErrCode} (h : c.out s = if P then .ok a t else .raised e u) :
    (c.bind f).out s = if P then (f a).out t else .raised e u := by
  by_cases hp : P
  · rw [if_pos hp] at h ⊢
    exact Cmd.out_bind_ok h f
  · rw [if_neg hp] at h ⊢
    exact Cmd.out_bind_raised h f

/-- The corners of a block, if every one names a level (42_mesh R312). -/
theorem readCorners_out (bx row : Nat) (s : State) : (readCorners bx row).out s =
    if (s.cornersOf bx row).legal then .ok (s.cornersOf bx row) s else .raised .malformedHeader s := by
  have corner : ∀ {α : Type} (cx cy : Nat) (f : Byte → Cmd α), ((readCorner cx cy).bind f).out s =
      if meshLegal (s.byteAt (s.meshAddr cx cy)) then (f (s.byteAt (s.meshAddr cx cy))).out s
      else .raised .malformedHeader s := fun cx cy _ => Cmd.out_bind_ite (readCorner_out cx cy s)
  rw [readCorners, corner, corner, corner, corner, Cmd.out_pure, ← ite_and, ← ite_and, ← ite_and]
  exact if_congr (by rw [and_assoc, and_assoc]; rfl) rfl rfl

theorem blockSides_out (p : Plane) (bx row : Nat) (s : State) :
    (blockSides bx row (s.cfg.blockW p bx) (s.cfg.blockH p row)).out s =
      if s.cornersOk bx row then .ok (s.blockSize p bx row) s else .raised .malformedHeader s := by
  rw [blockSides, Cmd.out_read_bind]
  by_cases hm : s.cfg.mode = 2
  · rw [if_pos hm, Cmd.out_bind_ite (readCorners_out bx row s), Cmd.out_pure, State.blockSize, if_pos hm,
      if_congr (forall_prop_of_true hm) rfl rfl]
  · rw [if_neg hm, if_pos fun h => absurd h hm, State.blockSize, if_neg hm, Cmd.out_pure]

/-- BLOCK_GEOM in a legal frame: everything it can do (42_mesh R312). -/
theorem cmdBlockGeom_out {s : State} (h : s.frameOk) (p : Plane) (bx row : Nat) :
    (cmdBlockGeom p bx row).out s =
      if bx < s.cfg.gridW.toNat ∧ row < s.cfg.gridH.toNat then
        if s.cornersOk bx row then
          .ok () (s.withBlock (s.cfg.boundX p bx) (s.cfg.boundX p (bx + 1)) (s.cfg.boundY p row)
            (s.cfg.boundY p (row + 1)) (s.blockSize p bx row).1 (s.blockSize p bx row).2
            (s.cfg.seedNumber p bx row))
        else .raised .malformedHeader s
      else .raised .config s := by
  have hgrid : (decide (bx < s.cfg.blocksW) && decide (row < s.cfg.blocksH)) = true ↔
      bx < s.cfg.gridW.toNat ∧ row < s.cfg.gridH.toNat := by
    rw [Bool.and_eq_true, decide_eq_true_eq, decide_eq_true_eq, FrameConfig.blocksW,
      FrameConfig.blocksH]
  rw [cmdBlockGeom, frameCheck_seq_ok h, Cmd.out_require_seq _ _ _ _ (by decide), Cmd.out_read_bind,
    ← FrameConfig.blockW, ← FrameConfig.blockH, Cmd.out_bind_ite (blockSides_out p bx row s),
    Cmd.out_update]
  exact if_congr hgrid rfl rfl

/-- Settles O40: the body ends as the grid and the corners decide. -/
theorem blockGeomStoresTheBlock : Obligations.BlockGeomStoresTheBlock := by
  intro s f p bx row hp h
  have hbody : commandBody (.blockGeom f bx row) = cmdBlockGeom p bx.toNat row.toNat :=
    withPlane_some hp _
  refine ⟨fun hg hc => exec_ok ?_, fun hg hc => exec_raised ?_, fun hg => exec_raised ?_⟩
  · rw [hbody, cmdBlockGeom_out h, if_pos hg, if_pos hc]
    rfl
  · rw [hbody, cmdBlockGeom_out h, if_pos hg, if_neg hc]
  · rw [hbody, cmdBlockGeom_out h, if_neg hg]

end Sys2Proof.Machine
end

section
namespace Sys2Proof.Machine

-- One theorem at a time: many checked at once need more threads than the memory limit allows.
set_option Elab.async false

/-! ### The corners by number (42_mesh R305, R313) -/

/-- A loop over numbered items whose bodies carry a property from each number to the next. -/
theorem Cmd.forEach_numbered {α : Type} {f : α → Cmd Unit} {g : Nat → α} {P : Nat → State → Prop}
    {n : Nat} {s : State} (start : P 0 s)
    (step : ∀ k t, k < n → P k t → ∃ u, (f (g k)).out t = .ok () u ∧ P (k + 1) u) :
    ∃ t, (Cmd.forEach ((List.range n).map g) f).out s = .ok () t ∧ P n t := by
  induction n with
  | zero => exact ⟨s, rfl, start⟩
  | succ n ih =>
    obtain ⟨t, ht, hP⟩ := ih fun k t hk => step k t (hk.trans n.lt_succ_self)
    obtain ⟨u, hu, hQ⟩ := step n t n.lt_succ_self hP
    refine ⟨u, ?_, hQ⟩
    rw [List.range_succ, List.map_append, Cmd.out_forEach_append, Cmd.out_seq_ok ht, List.map_singleton,
      Cmd.out_forEach_cons, Cmd.out_seq_ok hu, Cmd.out_forEach_nil]

theorem raster_eq_map (w h : Nat) :
    raster w h = (List.range (w * h)).map fun k => (k % w, k / w) := by
  have row : ∀ y, (List.range w).map (fun x => (x, y)) =
      (List.range w).map fun x => ((w * y + x) % w, (w * y + x) / w) := fun y =>
    List.map_congr_left fun x hx => by
      obtain ⟨hdiv, hmod⟩ := raster_number (List.mem_range.1 hx) y
      rw [Nat.mul_comm w y, hdiv, hmod]
  unfold raster
  induction h with
  | zero => rfl
  | succ h ih =>
    rw [List.range_succ, List.flatMap_append, ih, List.flatMap_singleton, row, Nat.mul_succ, List.range_add,
      List.map_append, List.map_map]
    rfl

/-- Corner number `k` in corner-raster order. -/
def FrameConfig.cornerAt (c : FrameConfig) (k : Nat) : Nat × Nat :=
  (k % (c.blocksW + 1), k / (c.blocksW + 1))

theorem FrameConfig.corners_eq (c : FrameConfig) :
    c.corners = (List.range c.cornerCount).map c.cornerAt := raster_eq_map _ _

theorem State.meshAddr_cornerAt (s : State) (k : Nat) :
    s.meshAddr (s.cfg.cornerAt k).1 (s.cfg.cornerAt k).2 = s.meshByteAddr k :=
  congrArg (fun i => s.seeds.meshBase + BitVec.ofNat 32 i) (Nat.div_add_mod' k (s.cfg.blocksW + 1))

/-- A mesh has at most 256 · 256 corners, so its addresses do not wrap onto each other. -/
theorem FrameConfig.cornerCount_le (c : FrameConfig) : c.cornerCount ≤ 256 * 256 :=
  Nat.mul_le_mul c.gridW.isLt c.gridH.isLt

theorem State.meshByteAddr_inj (s : State) {j k : Nat} (hj : j < s.cfg.cornerCount)
    (hk : k < s.cfg.cornerCount) (h : (s.meshByteAddr j).toNat = (s.meshByteAddr k).toNat) : j = k := by
  have hle := s.cfg.cornerCount_le
  have hofNat : BitVec.ofNat 32 j = BitVec.ofNat 32 k :=
    BitVec.add_right_inj (s.seeds.meshBase) |>.1 (BitVec.eq_of_toNat_eq h)
  have := congrArg BitVec.toNat hofNat
  simp only [BitVec.toNat_ofNat] at this
  omega

/-- A loop over the corners of a legal frame's mesh, in the order of their numbers. -/
theorem forCorners_ok {f : Nat × Nat → Cmd Unit} {P : Nat → State → Prop} {s : State} (h : s.frameOk)
    (start : P 0 s) (step : ∀ k t, k < s.cfg.cornerCount → P k t →
      ∃ u, (f (s.cfg.cornerAt k)).out t = .ok () u ∧ P (k + 1) u) :
    ∃ t, (frameCheck.seq <| (Cmd.read fun s => s.cfg.corners).bind fun l => Cmd.forEach l f).out s =
      .ok () t ∧ P s.cfg.cornerCount t := by
  rw [frameCheck_seq_ok h, Cmd.out_read_bind, FrameConfig.corners_eq]
  exact Cmd.forEach_numbered start step

/-! ### MESH_READ (42_mesh R313) -/

/-- A store when no byte is raced. -/
theorem State.storeByte_calm {s : State} (hc : s.calm) (a : Word) (v : Byte) :
    s.storeByte a v = s.withMem (s.mem.write a.toNat v) :=
  State.storeByte_eq (by rw [hc]; exact List.not_mem_nil) v

/-- One corner with legal codes. -/
theorem meshReadCorner_ok {t : State} (hc : t.calm) (hr : t.canRead 6) (hx : t.inputField 0 3 ≤ 5)
    (hy : t.inputField 3 3 ≤ 5) (cx cy : Nat) :
    (meshReadCorner cx cy).out t = .ok () ((t.withMem (t.mem.write (t.meshAddr cx cy).toNat
      (BitVec.ofNat 8 (8 * t.inputField 3 3 + t.inputField 0 3)))).consumed 6) := by
  have hr3 : t.canRead 3 := by simp only [State.canRead] at *; omega
  have hpos := t.consumed_pos hr3
  have hr6 : (t.consumed 3).canRead 3 := by simp only [State.canRead, hpos, State.consumed_budget] at *; omega
  have hcodes : ¬ (t.inputField 0 3 > 5 ∨ t.inputField 3 3 > 5) := by omega
  rw [meshReadCorner, Cmd.out_bind_ok (readBits_ok 3 t hr3), Cmd.out_bind_ok (readBits_ok 3 _ hr6), hpos,
    State.consumed_consumed]
  refine (congrArg (Cmd.out · _) (if_neg hcodes)).trans ?_
  rw [Cmd.out_read_bind, out_memWrite, State.storeByte_calm (s := t.consumed (3 + 3)) hc]
  rfl

/-- The mesh byte that MESH_READ makes of the codes of corner `k`. -/
def State.inputCorner (s : State) (k : Nat) : Byte :=
  BitVec.ofNat 8 (8 * s.inputField (6 * k + 3) 3 + s.inputField (6 * k) 3)

/-- After `k` corners of MESH_READ from `s`: those corners stand in the array, no other byte and no
register but BR_POS has changed. -/
structure State.MeshRead (s : State) (k : Nat) (t : State) : Prop where
  rest : t = (s.withMem t.mem).consumed (6 * k)
  stored : ∀ j, j < k → t.mem.read (s.meshByteAddr j).toNat = s.inputCorner j
  kept : ∀ a, (∀ j, j < k → a ≠ (s.meshByteAddr j).toNat) → t.mem.read a = s.mem.read a

section
variable {s t : State} {k : Nat}

theorem State.meshRead_start (s : State) : s.MeshRead 0 s where
  rest := by rw [Nat.mul_zero, State.consumed_zero]; rfl
  stored _ hj := absurd hj (Nat.not_lt_zero _)
  kept _ _ := rfl

theorem State.MeshRead.pos (h : s.MeshRead k t) (hr : s.canRead (6 * k)) :
    t.reader.pos.toNat = s.reader.pos.toNat + 6 * k := by
  rw [h.rest]
  exact (s.withMem t.mem).consumed_pos hr

/-- The stream still holds its fields: no mesh byte is a byte of it. -/
theorem State.MeshRead.inputField_eq {n : Nat} (h : s.MeshRead k t) (hk : k < n)
    (hr : s.canRead (6 * n)) (apart : ∀ j, j < n →
      ¬ inStream s.reader.base s.reader.pos.toNat (6 * n) (s.meshByteAddr j).toNat)
    {i : Nat} (hi : i + 3 ≤ 6) : t.inputField i 3 = s.inputField (6 * k + i) 3 := by
  have hbase : t.reader.base = s.reader.base := by rw [h.rest]; rfl
  rw [State.inputField, State.inputField, hbase, h.pos (by simp only [State.canRead] at *; omega),
    Nat.add_assoc]
  refine fieldAt_congr fun b hb => ?_
  rw [bitAt, bitAt, h.kept]
  exact fun j hj he => apart j (hj.trans hk) ⟨6 * k + i + b, by omega, by rw [← he, Nat.add_assoc]⟩

theorem State.MeshRead.next (h : s.MeshRead k t) (hk : k < s.cfg.cornerCount) :
    s.MeshRead (k + 1)
      ((t.withMem (t.mem.write (s.meshByteAddr k).toNat (s.inputCorner k))).consumed 6) where
  rest := (congrArg (fun u => (State.withMem u _).consumed 6) h.rest).trans
    (State.consumed_consumed (s.withMem (t.mem.write _ _)) (6 * k) 6)
  stored j hj := by
    rw [State.consumed_mem, State.withMem_mem, Memory.read_write]
    split
    · next he => rw [s.meshByteAddr_inj (by omega) hk he]
    · next hne => exact h.stored j (by rcases Nat.lt_succ_iff_lt_or_eq.1 hj with hj | rfl <;> tauto)
  kept a ha := by
    rw [State.consumed_mem, State.withMem_mem, Memory.read_write_other _ _ (ha k k.lt_succ_self)]
    exact h.kept a fun j hj => ha j (hj.trans k.lt_succ_self)

end

/-- MESH_READ of legal codes ends with every corner in the array. -/
theorem cmdMeshRead_ok {s : State} (hc : s.calm) (h : s.frameOk) (hr : s.canRead (6 * s.cfg.cornerCount))
    (codes : ∀ k, k < s.cfg.cornerCount →
      s.inputField (6 * k) 3 ≤ 5 ∧ s.inputField (6 * k + 3) 3 ≤ 5)
    (apart : ∀ k, k < s.cfg.cornerCount →
      ¬ inStream s.reader.base s.reader.pos.toNat (6 * s.cfg.cornerCount) (s.meshByteAddr k).toNat) :
    ∃ t, cmdMeshRead.out s = .ok () t ∧ s.MeshRead s.cfg.cornerCount t := by
  refine forCorners_ok h s.meshRead_start fun k t hk ht => ⟨_, ?_, ht.next hk⟩
  obtain ⟨hx, hy⟩ := codes k hk
  have x : t.inputField 0 3 = s.inputField (6 * k) 3 := ht.inputField_eq hk hr apart (by omega)
  have y : t.inputField 3 3 = s.inputField (6 * k + 3) 3 := ht.inputField_eq hk hr apart le_rfl
  have hcalm : t.calm := by rw [ht.rest]; exact hc
  have hroom : t.canRead 6 := by
    have hbudget : t.reader.budget = s.reader.budget := by rw [ht.rest]; rfl
    have hpos := ht.pos (by simp only [State.canRead] at *; omega)
    simp only [State.canRead, hpos, hbudget] at *
    omega
  have haddr : t.meshAddr (s.cfg.cornerAt k).1 (s.cfg.cornerAt k).2 = s.meshByteAddr k := by
    rw [← s.meshAddr_cornerAt k, ht.rest]
    rfl
  rw [meshReadCorner_ok hcalm hroom (x ▸ hx) (y ▸ hy), x, y, haddr]
  rfl

/-! ### MESH_WRITE (42_mesh R314) -/

/-- Two fields, one after the other. -/
theorem writeBits_seq_ok (v m u n : Nat) {s : State} (hc : s.calm) (hw : s.canWrite (m + n)) :
    ∃ mem, ((writeBits v m).seq (writeBits u n)).out s = .ok () ((s.withMem mem).produced (m + n)) ∧
      Appended s.mem mem s.writer.base s.writer.pos.toNat (msbBits v m ++ msbBits u n) := by
  have hm : s.canWrite m := by simp only [State.canWrite] at *; omega
  obtain ⟨m1, out1, app1, -⟩ := writeBits_ok v m s hc hm
  have hpos : ((s.withMem m1).produced m).writer.pos.toNat = s.writer.pos.toNat + m :=
    (s.withMem m1).produced_pos hm
  obtain ⟨m2, out2, app2, -⟩ := writeBits_ok u n ((s.withMem m1).produced m) hc
    (by rw [State.canWrite, hpos]; exact (Nat.add_assoc _ _ _).trans_le hw)
  refine ⟨m2, ?_, app1.append ?_ ?_⟩
  · rw [Cmd.out_seq_ok out1, out2]
    exact congrArg _ (State.produced_produced (s.withMem m2) m n)
  · rw [msbBits_length, ← hpos]
    exact app2
  · have := s.writer.limit.isLt
    simp only [msbBits_length, State.canWrite] at *
    omega

/-- The six bits of a corner: the x code, then the y code. -/
def cornerBits (m : Byte) : List Bool := msbBits (meshX m) 3 ++ msbBits (meshY m) 3

theorem cornerBits_length (m : Byte) : (cornerBits m).length = 6 := by
  rw [cornerBits, List.length_append, msbBits_length, msbBits_length]

/-- The bits of the first `k` corners of the mesh array. -/
def State.meshBits (s : State) (k : Nat) : List Bool :=
  (List.range k).flatMap fun j => cornerBits (s.byteAt (s.meshByteAddr j))

theorem State.meshBits_succ (s : State) (k : Nat) :
    s.meshBits (k + 1) = s.meshBits k ++ cornerBits (s.byteAt (s.meshByteAddr k)) := by
  rw [State.meshBits, List.range_succ, List.flatMap_append, List.flatMap_singleton, State.meshBits]

theorem State.meshBits_length (s : State) (k : Nat) : (s.meshBits k).length = 6 * k := by
  induction k with
  | zero => rfl
  | succ k ih => rw [s.meshBits_succ, List.length_append, ih, cornerBits_length, Nat.mul_succ]

/-- One corner with legal codes. -/
theorem meshWriteCorner_ok {t : State} (hc : t.calm) (hw : t.canWrite 6) {cx cy : Nat}
    (hl : meshLegal (t.byteAt (t.meshAddr cx cy)) = true) :
    ∃ m, (meshWriteCorner cx cy).out t = .ok () ((t.withMem m).produced 6) ∧
      Appended t.mem m t.writer.base t.writer.pos.toNat (cornerBits (t.byteAt (t.meshAddr cx cy))) := by
  rw [meshWriteCorner, Cmd.out_bind_ok (by rw [readCorner_out, if_pos hl])]
  exact writeBits_seq_ok _ 3 _ 3 hc hw

/-- After `k` corners of MESH_WRITE from `s`: their bits are appended, and no register but BW_POS has
changed. -/
structure State.MeshWritten (s : State) (k : Nat) (t : State) : Prop where
  rest : t = (s.withMem t.mem).produced (6 * k)
  appended : Appended s.mem t.mem s.writer.base s.writer.pos.toNat (s.meshBits k)

section
variable {s t : State} {k : Nat}

theorem State.meshWritten_start (s : State) : s.MeshWritten 0 s where
  rest := by rw [Nat.mul_zero, State.produced_zero]; rfl
  appended := Appended.nil _ _ _

theorem State.MeshWritten.pos (h : s.MeshWritten k t) (hw : s.canWrite (6 * k)) :
    t.writer.pos.toNat = s.writer.pos.toNat + 6 * k := by
  rw [h.rest]
  exact (s.withMem t.mem).produced_pos hw

/-- The array still holds its bytes: none of them is a byte of the stream. -/
theorem State.MeshWritten.byteAt_eq {n : Nat} (h : s.MeshWritten k t) (hk : k < n) {a : Word}
    (apart : ¬ inStream s.writer.base s.writer.pos.toNat (6 * n) a.toNat) : t.byteAt a = s.byteAt a := by
  refine h.appended.others _ ?_
  rw [s.meshBits_length]
  rintro ⟨b, hb, he⟩
  exact apart ⟨b, by omega, he⟩

theorem State.MeshWritten.next (h : s.MeshWritten k t) (hw : s.canWrite (6 * (k + 1))) {m : Memory}
    (ha : Appended t.mem m t.writer.base t.writer.pos.toNat
      (cornerBits (s.byteAt (s.meshByteAddr k)))) :
    s.MeshWritten (k + 1) ((t.withMem m).produced 6) where
  rest := (congrArg (fun u => (State.withMem u m).produced 6) h.rest).trans
    (State.produced_produced (s.withMem m) (6 * k) 6)
  appended := by
    have hbase : t.writer.base = s.writer.base := by rw [h.rest]; rfl
    rw [hbase, h.pos (by simp only [State.canWrite] at *; omega), ← s.meshBits_length] at ha
    rw [s.meshBits_succ]
    refine h.appended.append ha ?_
    have := s.writer.limit.isLt
    simp only [s.meshBits_length, cornerBits_length, State.canWrite] at *
    omega

end

/-- MESH_WRITE of legal codes ends with every corner appended. -/
theorem cmdMeshWrite_ok {s : State} (hc : s.calm) (h : s.frameOk)
    (hw : s.canWrite (6 * s.cfg.cornerCount))
    (legal : ∀ k, k < s.cfg.cornerCount → meshLegal (s.byteAt (s.meshByteAddr k)) = true)
    (apart : ∀ k, k < s.cfg.cornerCount →
      ¬ inStream s.writer.base s.writer.pos.toNat (6 * s.cfg.cornerCount) (s.meshByteAddr k).toNat) :
    ∃ t, cmdMeshWrite.out s = .ok () t ∧ s.MeshWritten s.cfg.cornerCount t := by
  refine forCorners_ok h s.meshWritten_start fun k t hk ht => ?_
  have hcalm : t.calm := by rw [ht.rest]; exact hc
  have hroom : t.canWrite 6 := by
    have hlimit : t.writer.limit = s.writer.limit := by rw [ht.rest]; rfl
    have hpos := ht.pos (by simp only [State.canWrite] at *; omega)
    simp only [State.canWrite, hpos, hlimit] at *
    omega
  have hbyte : t.byteAt (t.meshAddr (s.cfg.cornerAt k).1 (s.cfg.cornerAt k).2) =
      s.byteAt (s.meshByteAddr k) := by
    rw [← ht.byteAt_eq hk (apart k hk), ← s.meshAddr_cornerAt k]
    conv_lhs => rw [ht.rest]
    rfl
  obtain ⟨m, out, app⟩ := meshWriteCorner_ok hcalm hroom (hbyte ▸ legal k hk)
  exact ⟨_, out, ht.next (by simp only [State.canWrite] at *; omega) (hbyte ▸ app)⟩

/-- Settles O44: corner by corner, the stream keeps its fields while the array is stored, and the array its
bytes while the stream is written. -/
theorem meshCommandsMoveTheMeshArray : Obligations.MeshCommandsMoveTheMeshArray := by
  refine fun s hc h => ⟨fun hr codes apart => ?_, fun hw legal apart => ?_⟩
  · obtain ⟨t, out, read⟩ := cmdMeshRead_ok hc h hr codes apart
    refine ⟨t.mem, ?_, read.stored, read.kept⟩
    rw [← read.rest]
    exact exec_ok out
  · obtain ⟨t, out, written⟩ := cmdMeshWrite_ok hc h hw legal apart
    refine ⟨t.mem, ?_, written.appended⟩
    rw [← written.rest]
    exact exec_ok out

end Sys2Proof.Machine
end

section
/-! PROOFS. Family 43_huffman: the canonical codes, the lengths from counts, and the commands that build
tables, count, decode and encode symbols. -/

namespace Sys2Proof.Machine

-- One theorem at a time: many checked at once need more threads than the memory limit allows.
set_option Elab.async false

/-! ### Valid length sets (43_huffman R353) -/

theorem liveLen_iff {v : BitVec 4} : liveLen v = true ↔ v.toNat < 15 := by
  revert v
  decide

theorem lensValid_iff {l : Nine (BitVec 4)} : lensValid l = true ↔
    (∃ h, liveLen (l.get h) = true) ∧
    (∀ h, liveLen (l.get h) = true → 1 ≤ (l.get h).toNat ∧ (l.get h).toNat ≤ 14) ∧
    kraftSum l ≤ 2 ^ 14 := by
  simp [lensValid, mem_allHops, and_assoc, imp_iff_or_not, or_comm]

/-- The part of the code space of 2^14 that the code of a live symbol takes. -/
def codeSpan (l : Nine (BitVec 4)) (h : Hop) : Nat := 2 ^ (14 - (l.get h).toNat)

/-- The spans of symbols, together. -/
def spanSum (l : Nine (BitVec 4)) (hops : List Hop) : Nat := (hops.map (codeSpan l)).sum

theorem kraftSum_eq (l : Nine (BitVec 4)) :
    kraftSum l = spanSum l (allHops.filter fun h => liveLen (l.get h)) := by
  have keep : ∀ hops : List Hop, (hops.map fun h => kraftTerm (l.get h)).sum =
      spanSum l (hops.filter fun h => liveLen (l.get h)) := by
    intro hops
    induction hops with
    | nil => rfl
    | cons h hs ih =>
      rw [List.map_cons, List.sum_cons, ih, kraftTerm, List.filter_cons]
      cases liveLen (l.get h) <;> simp [spanSum, codeSpan]
  exact keep allHops

/-! ### The order of the codes (43_huffman R354) -/

theorem mem_prio (h : Hop) : h ∈ prio := by
  revert h
  decide

theorem mem_codeOrder {l : Nine (BitVec 4)} {h : Hop} : h ∈ codeOrder l ↔ liveLen (l.get h) = true := by
  simp [codeOrder, mem_prio, liveLen_iff]

theorem len_of_mem_class {l : Nine (BitVec 4)} {n : Nat} {h : Hop}
    (hh : h ∈ prio.filter fun h => (l.get h).toNat == n) : (l.get h).toNat = n :=
  beq_iff_eq.1 (List.mem_filter.1 hh).2

theorem codeOrder_sorted (l : Nine (BitVec 4)) :
    (codeOrder l).Pairwise fun i j => (l.get i).toNat ≤ (l.get j).toNat := by
  refine List.pairwise_flatMap.2 ⟨fun n _ => ?_, ?_⟩
  · exact List.pairwise_iff_forall_sublist.2 fun hs => by
      rw [len_of_mem_class (hs.subset (by simp)), len_of_mem_class (hs.subset (by simp))]
  · exact List.pairwise_lt_range.imp fun hlt i hi j hj =>
      (len_of_mem_class hi).trans_le (hlt.le.trans (len_of_mem_class hj).ge)

theorem codeOrder_nodup (l : Nine (BitVec 4)) : (codeOrder l).Nodup :=
  List.nodup_flatMap.2 ⟨fun _ _ => List.Nodup.filter _ (by decide),
    List.pairwise_lt_range.imp fun hlt _ hi hj =>
      hlt.ne ((len_of_mem_class hi).symm.trans (len_of_mem_class hj))⟩

theorem spanSum_codeOrder (l : Nine (BitVec 4)) : spanSum l (codeOrder l) = kraftSum l := by
  rw [kraftSum_eq]
  refine ((List.perm_ext_iff_of_nodup (codeOrder_nodup l) (List.Nodup.filter _ (by decide))).2
    fun h => ?_).map _ |>.sum_eq
  rw [mem_codeOrder, List.mem_filter]
  exact ⟨fun hl => ⟨mem_allHops h, hl⟩, And.right⟩

/-! ### The codes fill the code space from 0 on (43_huffman R354) -/

theorem assignFrom_other (l : Nine (BitVec 4)) (code prev : Nat) (codes : Nine (BitVec 14))
    {hops : List Hop} {h : Hop} (hh : h ∉ hops) :
    (assignFrom l code prev codes hops).get h = codes.get h := by
  induction hops generalizing code prev codes with
  | nil => rfl
  | cons x xs ih =>
    obtain ⟨hx, hxs⟩ := not_or.1 (List.mem_cons.not.1 hh)
    rw [assignFrom, ih _ _ _ hxs, Nine.get_set_other _ _ hx]

/-- The code that the recurrence gives to a symbol begins where the spans of the symbols before it end. -/
theorem assignFrom_get {l : Nine (BitVec 4)} {hops : List Hop} (hd : hops.Nodup)
    (hs : hops.Pairwise fun i j => (l.get i).toNat ≤ (l.get j).toNat)
    (hl : ∀ h ∈ hops, (l.get h).toNat ≤ 14) {code prev : Nat} (hp : ∀ h ∈ hops, prev ≤ (l.get h).toNat)
    (codes : Nine (BitVec 14)) {xs ys : List Hop} {h : Hop} (he : hops = xs ++ h :: ys) :
    ∃ c, (assignFrom l code prev codes hops).get h = BitVec.ofNat 14 c ∧
      c * codeSpan l h = (code + 1) * 2 ^ (14 - prev) + spanSum l xs := by
  induction hops generalizing code prev codes xs with
  | nil => simp at he
  | cons x hops ih =>
    obtain ⟨hx, hd⟩ := List.nodup_cons.1 hd
    obtain ⟨hxs, hs⟩ := List.pairwise_cons.1 hs
    obtain ⟨hlx, hl⟩ := List.forall_mem_cons.1 hl
    have hpx := hp x List.mem_cons_self
    have first : ((code + 1) <<< ((l.get x).toNat - prev)) * codeSpan l x = (code + 1) * 2 ^ (14 - prev) := by
      rw [Nat.shiftLeft_eq, codeSpan, Nat.mul_assoc, ← Nat.pow_add]
      congr 2
      omega
    rw [assignFrom]
    cases xs with
    | nil =>
      obtain ⟨rfl, rfl⟩ := List.cons.inj he
      refine ⟨_, (assignFrom_other _ _ _ _ hx).trans (Nine.get_set_same _ _ _), first.trans ?_⟩
      simp [spanSum]
    | cons y xs =>
      obtain ⟨rfl, hrest⟩ := List.cons.inj he
      obtain ⟨c, hc, hspan⟩ := ih hd hs hl hxs (codes.set x _) hrest
      refine ⟨c, hc, hspan.trans ?_⟩
      rw [Nat.succ_mul, ← codeSpan, first]
      simp [spanSum, Nat.add_assoc]

/-- The same from the first symbol on, whose code is 0. -/
theorem assignCodes_begins {l : Nine (BitVec 4)} (hl : ∀ h ∈ codeOrder l, (l.get h).toNat ≤ 14)
    {xs ys : List Hop} {h : Hop} (he : codeOrder l = xs ++ h :: ys) :
    ∃ c, (assignCodes l).get h = BitVec.ofNat 14 c ∧ c * codeSpan l h = spanSum l xs := by
  have hd := codeOrder_nodup l
  have hs := codeOrder_sorted l
  unfold assignCodes
  cases hc : codeOrder l with
  | nil => simp [hc] at he
  | cons x hops =>
    rw [hc] at he hd hs hl
    obtain ⟨hx, hd⟩ := List.nodup_cons.1 hd
    obtain ⟨hxs, hs⟩ := List.pairwise_cons.1 hs
    obtain ⟨-, hl⟩ := List.forall_mem_cons.1 hl
    cases xs with
    | nil =>
      obtain ⟨rfl, rfl⟩ := List.cons.inj he
      exact ⟨0, (assignFrom_other _ _ _ _ hx).trans (Nine.get_all _ _), by simp [spanSum]⟩
    | cons y xs =>
      obtain ⟨rfl, hrest⟩ := List.cons.inj he
      obtain ⟨c, hc, hspan⟩ := assignFrom_get hd hs hl hxs (Nine.all 0) hrest (code := 0)
      exact ⟨c, hc, hspan.trans (by simp [spanSum, codeSpan])⟩

/-- In a valid length set no code overflows its 14 bits. -/
theorem assignCodes_get {l : Nine (BitVec 4)} (hv : lensValid l = true) {xs ys : List Hop} {h : Hop}
    (he : codeOrder l = xs ++ h :: ys) :
    ((assignCodes l).get h).toNat * codeSpan l h = spanSum l xs := by
  obtain ⟨-, hlen, hsum⟩ := lensValid_iff.1 hv
  obtain ⟨c, hc, hspan⟩ := assignCodes_begins (fun h hh => (hlen h (mem_codeOrder.1 hh)).2) he
  have span_pos : 0 < codeSpan l h := Nat.two_pow_pos _
  have room : spanSum l xs + codeSpan l h ≤ 2 ^ 14 := by
    rw [← spanSum_codeOrder, he] at hsum
    simp only [spanSum, List.map_append, List.map_cons, List.sum_append, List.sum_cons] at *
    omega
  have fits : c < 2 ^ 14 :=
    calc c ≤ c * codeSpan l h := Nat.le_mul_of_pos_right _ span_pos
      _ < 2 ^ 14 := by omega
  rw [hc, BitVec.toNat_ofNat, Nat.mod_eq_of_lt fits, hspan]

/-- The first number past the span of a live symbol's code. -/
def codeEnd (l : Nine (BitVec 4)) (h : Hop) : Nat := (((assignCodes l).get h).toNat + 1) * codeSpan l h

theorem codeEnd_le {l : Nine (BitVec 4)} (hv : lensValid l = true) {h : Hop}
    (hl : liveLen (l.get h) = true) : codeEnd l h ≤ 2 ^ 14 := by
  obtain ⟨-, -, hsum⟩ := lensValid_iff.1 hv
  obtain ⟨xs, ys, he⟩ := List.append_of_mem (mem_codeOrder.2 hl)
  rw [codeEnd, Nat.succ_mul, assignCodes_get hv he]
  rw [← spanSum_codeOrder, he] at hsum
  simp only [spanSum, List.map_append, List.map_cons, List.sum_append, List.sum_cons] at *
  omega

/-- Of two live symbols, one's span ends before the other's begins. -/
theorem codeSpans_apart {l : Nine (BitVec 4)} (hv : lensValid l = true) {i j : Hop}
    (hi : liveLen (l.get i) = true) (hj : liveLen (l.get j) = true) (hne : i ≠ j) :
    codeEnd l i ≤ ((assignCodes l).get j).toNat * codeSpan l j ∨
      codeEnd l j ≤ ((assignCodes l).get i).toNat * codeSpan l i := by
  have ordered : ∀ {a b : Hop} {xs ys : List Hop}, codeOrder l = xs ++ a :: ys → b ∈ ys →
      codeEnd l a ≤ ((assignCodes l).get b).toNat * codeSpan l b := by
    intro a b xs ys he hb
    obtain ⟨us, vs, rfl⟩ := List.append_of_mem hb
    have he' : codeOrder l = (xs ++ a :: us) ++ b :: vs := by simpa using he
    rw [codeEnd, Nat.succ_mul, assignCodes_get hv he, assignCodes_get hv he']
    simp [spanSum]
  obtain ⟨xs, ys, he⟩ := List.append_of_mem (mem_codeOrder.2 hi)
  have hmem := mem_codeOrder.2 hj
  rw [he, List.mem_append, List.mem_cons] at hmem
  rcases hmem with hx | rfl | hy
  · obtain ⟨us, vs, rfl⟩ := List.append_of_mem hx
    exact .inr (ordered (by simpa using he) (by simp))
  · exact absurd rfl hne
  · exact .inl (ordered he hy)

/-- Settles O46: a code that began another would have the other's span within its own. -/
theorem canonicalCodesArePrefixFree : Obligations.CanonicalCodesArePrefixFree := by
  intro l hv
  obtain ⟨-, hlen, -⟩ := lensValid_iff.1 hv
  refine ⟨fun i hi => ?_, fun i j hi hj hne hij hbegins => ?_⟩
  · have hend := codeEnd_le hv hi
    have hspace : 2 ^ 14 = 2 ^ (l.get i).toNat * codeSpan l i := by
      rw [codeSpan, ← Nat.pow_add, Nat.add_sub_cancel' (hlen i hi).2]
    rw [codeEnd, hspace] at hend
    exact Nat.le_of_mul_le_mul_right hend (Nat.two_pow_pos _)
  · have hj14 := (hlen j hj).2
    have hspan : codeSpan l i = 2 ^ ((l.get j).toNat - (l.get i).toNat) * codeSpan l j := by
      rw [codeSpan, codeSpan, ← Nat.pow_add]
      congr 1
      omega
    have hpos : 0 < codeSpan l j := Nat.two_pow_pos _
    rw [Nat.shiftRight_eq_div_pow, Nat.div_eq_iff (Nat.two_pow_pos _)] at hbegins
    obtain ⟨hlo, hhi⟩ := hbegins
    rcases codeSpans_apart hv hi hj hne with h | h
    · rw [codeEnd, hspan, ← Nat.mul_assoc] at h
      have := Nat.le_of_mul_le_mul_right h hpos
      rw [Nat.succ_mul] at this
      have := Nat.two_pow_pos ((l.get j).toNat - (l.get i).toNat)
      omega
    · rw [codeEnd, hspan, ← Nat.mul_assoc] at h
      have := Nat.le_of_mul_le_mul_right h hpos
      omega

end Sys2Proof.Machine
end

section
namespace Sys2Proof.Machine

-- One theorem at a time: many checked at once need more threads than the memory limit allows.
set_option Elab.async false

/-! ### Tables among the other registers (10_state R61) -/

@[simp] theorem State.withTable_withTable (s : State) (t : Tbl) (h h' : HuffTable) :
    (s.withTable t h).withTable t h' = s.withTable t h' := by
  cases t <;> rfl

@[simp] theorem State.withTable_table (s : State) (t : Tbl) : s.withTable t (s.table t) = s := by
  cases t <;> rfl

@[simp] theorem State.withTable_hopAddr (s : State) (t : Tbl) (h : HuffTable) (p : Plane) (x y : Nat) :
    (s.withTable t h).hopAddr p x y = s.hopAddr p x y := by
  cases t <;> rfl

@[simp] theorem State.withTable_reader (s : State) (t : Tbl) (h : HuffTable) :
    (s.withTable t h).reader = s.reader := by
  cases t <;> rfl

@[simp] theorem State.table_consumed (s : State) (n : Nat) (t : Tbl) :
    (s.consumed n).table t = s.table t := by
  cases t <;> rfl

theorem State.consumed_withTable (s : State) (n : Nat) (t : Tbl) (h : HuffTable) :
    (s.consumed n).withTable t h = (s.withTable t h).consumed n := by
  cases t <;> rfl

/-! ### HUFF_BUILD (43_huffman R356) -/

/-- HUFF_BUILD: everything it can do. -/
theorem cmdHuffBuild_out (t : Tbl) (s : State) : (cmdHuffBuild t).out s =
    if lensValid (s.table t).len = true then
      .ok () (s.withTable t { s.table t with code := assignCodes (s.table t).len, valid := true })
    else .raised .huffInvalid (s.withTable t { s.table t with code := Nine.all 0, valid := false }) := by
  rw [cmdHuffBuild, Cmd.out_read_bind]
  split
  · rw [Cmd.out_update_seq, Cmd.out_update, State.withHuffValid, State.table_withTable_same,
      State.withTable_withTable]
  · rw [Cmd.out_update_seq, Cmd.out_raise]

/-- Settles O45, by the two ways HUFF_BUILD ends. -/
theorem huffBuildValidatesAndAssigns : Obligations.HuffBuildValidatesAndAssigns := by
  refine fun s t => ⟨fun hv => exec_ok ?_, fun hv => exec_raised ?_⟩
  · exact (cmdHuffBuild_out t s).trans (if_pos hv)
  · exact (cmdHuffBuild_out t s).trans (if_neg (by rw [hv]; exact Bool.false_ne_true))

/-- HUFF_BUILD of a valid length set `l` that has just been stored in a table. -/
theorem cmdHuffBuild_stored_ok {s : State} {t : Tbl} {h : HuffTable} (hv : lensValid h.len = true) :
    (cmdHuffBuild t).out (s.withTable t h) =
      .ok () (s.withTable t { h with code := assignCodes h.len, valid := true }) := by
  rw [cmdHuffBuild_out, State.table_withTable_same, if_pos hv, State.withTable_withTable]

/-- HUFF_BUILD of an invalid length set that has just been stored in a table. -/
theorem cmdHuffBuild_stored_raised {s : State} {t : Tbl} {h : HuffTable} (hv : lensValid h.len = false) :
    (cmdHuffBuild t).out (s.withTable t h) =
      .raised .huffInvalid (s.withTable t { h with code := Nine.all 0, valid := false }) := by
  rw [cmdHuffBuild_out, State.table_withTable_same, if_neg (by rw [hv]; exact Bool.false_ne_true),
    State.withTable_withTable]

/-! ### Counting (43_huffman R357 to R359) -/

theorem Nine.set_succ_eq (v : Nine Word) (h : Hop) :
    v.set h (v.get h + 1) = Nine.ofFn fun i => if i = h then v.get i + 1 else v.get i :=
  Nine.ext_get fun i => by
    rw [Nine.get_set, Nine.get_ofFn]
    split
    · next he => rw [he]
    · rfl

/-- Settles O48: one update each, or the range check of the symbol. -/
theorem countCommandsChangeOnlyCounts : Obligations.CountCommandsChangeOnlyCounts := by
  refine fun s t sym => ⟨exec_ok rfl, fun h hs => exec_ok ?_, fun hs => exec_raised ?_⟩
  · show (cmdHuffCountSym t sym.toNat).out s = _
    rw [cmdHuffCountSym, hs, needHop_lt h.isLt, Cmd.out_pure_bind, Cmd.out_update, State.countHop,
      Nine.set_succ_eq]
  · show (cmdHuffCountSym t sym.toNat).out s = _
    rw [cmdHuffCountSym, needHop_ge hs, Cmd.out_raise_bind]

/-- The state with `n h` added to the count of each symbol `h` of table `t`. -/
def State.counted (s : State) (t : Tbl) (n : Hop → Nat) : State :=
  s.withTable t { s.table t with
    count := Nine.ofFn fun h => (s.table t).count.get h + BitVec.ofNat 32 (n h) }

theorem State.counted_zero (s : State) (t : Tbl) : s.counted t (fun _ => 0) = s := by
  have hcount : (Nine.ofFn fun h => (s.table t).count.get h + BitVec.ofNat 32 0) = (s.table t).count :=
    Nine.ext_get fun i => by rw [Nine.get_ofFn]; exact BitVec.add_zero _
  rw [State.counted, hcount]
  exact s.withTable_table t

theorem State.countHop_counted (s : State) (t : Tbl) (h : Hop) (n : Hop → Nat) :
    (s.countHop t h).counted t n = s.counted t fun i => (if h = i then 1 else 0) + n i := by
  have add : ∀ i, ((s.table t).count.set h ((s.table t).count.get h + 1)).get i + BitVec.ofNat 32 (n i) =
      (s.table t).count.get i + BitVec.ofNat 32 ((if h = i then 1 else 0) + n i) := fun i => by
    rw [Nine.get_set]
    by_cases hi : i = h
    · subst hi
      simp [BitVec.ofNat_add, BitVec.add_assoc]
    · simp [hi, Ne.symm hi]
  rw [State.counted, State.counted, State.countHop, State.table_withTable_same, State.withTable_withTable]
  exact congrArg (fun c => s.withTable t { s.table t with count := Nine.ofFn c }) (funext add)

/-- The number of pixels of a list whose hop byte holds `h`. -/
def State.hopCount (s : State) (p : Plane) (l : List (Nat × Nat)) (h : Hop) : Nat :=
  (l.filter fun (q : Nat × Nat) => (s.byteAt (s.hopAddr p q.1 q.2)).toNat == h.val).length

/-- What HUFF_COUNT_REGION does with one pixel. -/
def countPixel (p : Plane) (q : Nat × Nat) : Cmd Unit :=
  (Cmd.read fun s => s.hopAddr p q.1 q.2).bind fun a =>
  (memRead a).bind fun b =>
  (needHop b.toNat).bind fun h =>
  Cmd.update [.huffCount p.tbl h] fun s => s.countHop p.tbl h

theorem cmdHuffCountRegion_eq (p : Plane) : cmdHuffCountRegion p = (regionCheck p).seq
    ((Cmd.read fun s => s.region.pixels).bind fun l => Cmd.forEach l (countPixel p)) := rfl

theorem countPixel_out {p : Plane} {q : Nat × Nat} {s : State} {h : Hop}
    (hh : (s.byteAt (s.hopAddr p q.1 q.2)).toNat = h.val) :
    (countPixel p q).out s = .ok () (s.countHop p.tbl h) := by
  rw [countPixel, Cmd.out_read_bind, out_memRead_bind, hh, needHop_lt h.isLt, Cmd.out_pure_bind,
    Cmd.out_update]

theorem State.countHop_byteAt (s : State) (t : Tbl) (h : Hop) (p : Plane) (q : Nat × Nat) :
    (s.countHop t h).byteAt ((s.countHop t h).hopAddr p q.1 q.2) = s.byteAt (s.hopAddr p q.1 q.2) := by
  rw [State.countHop, State.withTable_hopAddr, State.byteAt, State.withTable_mem]

theorem State.hopCount_cons {s : State} {p : Plane} {q : Nat × Nat} {l : List (Nat × Nat)} {h : Hop}
    (hh : (s.byteAt (s.hopAddr p q.1 q.2)).toNat = h.val) (i : Hop) :
    s.hopCount p (q :: l) i = (if h = i then 1 else 0) + s.hopCount p l i := by
  rw [State.hopCount, State.hopCount, List.filter_cons, hh]
  by_cases hi : h = i
  · simp [hi, Nat.add_comm]
  · simp [hi, Fin.val_ne_of_ne hi]

/-- The counting loop over any list of pixels whose hop bytes hold symbols. -/
theorem countLoop_out {p : Plane} (l : List (Nat × Nat)) (s : State)
    (hb : ∀ q ∈ l, (s.byteAt (s.hopAddr p q.1 q.2)).toNat < 9) :
    (Cmd.forEach l (countPixel p)).out s = .ok () (s.counted p.tbl (s.hopCount p l)) := by
  induction l generalizing s with
  | nil => exact congrArg (Out.ok ()) (s.counted_zero p.tbl).symm
  | cons q l ih =>
    obtain ⟨hq, hl⟩ := List.forall_mem_cons.1 hb
    obtain ⟨h, hh⟩ : ∃ h : Hop, (s.byteAt (s.hopAddr p q.1 q.2)).toNat = h.val := ⟨⟨_, hq⟩, rfl⟩
    have hrest : (s.countHop p.tbl h).hopCount p l = s.hopCount p l := by
      funext i
      simp only [State.hopCount, State.countHop_byteAt]
    rw [Cmd.out_forEach_cons, Cmd.out_seq_ok (countPixel_out hh),
      ih _ fun q hq => by rw [State.countHop_byteAt]; exact hl q hq, hrest, State.countHop_counted]
    exact congrArg (fun n => Out.ok () (s.counted p.tbl n))
      (funext fun i => (State.hopCount_cons hh i).symm)

/-- Settles O49: the loop over the region's pixels, once the region check has passed. -/
theorem countRegionCountsEveryPixel : Obligations.CountRegionCountsEveryPixel := by
  intro s f p hp hr hb n
  refine exec_ok (t := s.counted p.tbl (s.hopCount p s.region.pixels)) ?_
  show (withPlane f cmdHuffCountRegion).out s = _
  rw [withPlane_some hp, cmdHuffCountRegion_eq, regionCheck_seq_ok hr, Cmd.out_read_bind]
  exact countLoop_out _ s fun q hq => Nat.lt_succ_of_le (hb q.1 q.2 (Region.mem_pixels hq))

end Sys2Proof.Machine
end

section
namespace Sys2Proof.Machine

-- One theorem at a time: many checked at once need more threads than the memory limit allows.
set_option Elab.async false

/-! ### Merging subtrees (43_huffman R360) -/

/-- The leaves of a full binary tree with these depths: none is as deep as there are leaves, and together
they fill the code space. -/
structure Balanced (leaves : List Hop) (d : Nine Nat) : Prop where
  depth : ∀ h ∈ leaves, d.get h < leaves.length
  kraft : (leaves.map fun h => 2 ^ (14 - d.get h)).sum = 2 ^ 14

/-- What a merge makes of two subtrees. -/
def HuffNode.merge (a b : HuffNode) : HuffNode :=
  { weight := a.weight + b.weight, key := min a.key b.key, leaves := a.leaves ++ b.leaves }

/-- The leaves of all subtrees. -/
def forestLeaves (nodes : List HuffNode) : List Hop := nodes.flatMap HuffNode.leaves

theorem takeLeast_perm (a : HuffNode) (l : List HuffNode) :
    ((takeLeast a l).1 :: (takeLeast a l).2).Perm (a :: l) := by
  induction l generalizing a with
  | nil => rfl
  | cons b l ih =>
    rw [takeLeast]
    split
    · exact (ih b).cons a
    · exact (List.Perm.swap _ _ _).trans ((ih b).cons a)

/-- A round of the merging takes two subtrees out, whichever they are, and puts their merge in. -/
theorem mergeNodes_succ (n : Nat) (x y : HuffNode) (l : List HuffNode) (d : Nine Nat) :
    ∃ a b rest, (a :: b :: rest).Perm (x :: y :: l) ∧
      mergeNodes (n + 1) (x :: y :: l) d =
        mergeNodes n (a.merge b :: rest) (deepen (a.merge b).leaves d) := by
  have hfirst := takeLeast_perm x (y :: l)
  cases hr : (takeLeast x (y :: l)).2 with
  | nil => simpa [hr] using hfirst.length_eq
  | cons z rest =>
    rw [hr] at hfirst
    exact ⟨_, _, _, ((takeLeast_perm z rest).cons _).trans hfirst, by rw [mergeNodes, hr]; rfl⟩

theorem deepen_get {leaves : List Hop} (hd : leaves.Nodup) (d : Nine Nat) (h : Hop) :
    (deepen leaves d).get h = d.get h + if h ∈ leaves then 1 else 0 := by
  unfold deepen
  induction leaves generalizing d with
  | nil => rfl
  | cons x xs ih =>
    obtain ⟨hx, hxs⟩ := List.nodup_cons.1 hd
    rw [List.foldl_cons, ih hxs, Nine.get_set]
    by_cases hh : h = x
    · subst hh
      simp [hx]
    · simp [hh]

theorem Balanced.ne_nil {leaves : List Hop} {d : Nine Nat} (h : Balanced leaves d) : leaves ≠ [] := by
  rintro rfl
  exact absurd h.kraft (by simp)

theorem Balanced.congr {leaves : List Hop} {d d' : Nine Nat} (h : Balanced leaves d)
    (he : ∀ i ∈ leaves, d'.get i = d.get i) : Balanced leaves d' where
  depth i hi := (he i hi).trans_lt (h.depth i hi)
  kraft := by rw [← h.kraft, List.map_congr_left fun i hi => by rw [he i hi]]

theorem Balanced.perm {leaves leaves' : List Hop} {d : Nine Nat} (h : Balanced leaves d)
    (hp : leaves.Perm leaves') : Balanced leaves' d where
  depth i hi := (h.depth i (hp.mem_iff.2 hi)).trans_eq hp.length_eq
  kraft := (hp.map _).sum_eq.symm.trans h.kraft

/-- One level deeper, a tree fills half of what it filled. -/
theorem Balanced.deeper {leaves : List Hop} {d d' : Nine Nat} (h : Balanced leaves d)
    (h14 : leaves.length ≤ 14) (hd : ∀ i ∈ leaves, d'.get i = d.get i + 1) :
    2 * (leaves.map fun i => 2 ^ (14 - d'.get i)).sum = 2 ^ 14 := by
  rw [← h.kraft, ← List.sum_map_mul_left]
  congr 1
  refine List.map_congr_left fun i hi => ?_
  have := h.depth i hi
  rw [hd i hi, ← Nat.pow_succ']
  congr 1
  omega

/-- Two trees under one new root. -/
theorem Balanced.merge {xs ys : List Hop} {d : Nine Nat} (hx : Balanced xs d) (hy : Balanced ys d)
    (hd : (xs ++ ys).Nodup) (h14 : (xs ++ ys).length ≤ 14) :
    Balanced (xs ++ ys) (deepen (xs ++ ys) d) := by
  have deeper : ∀ h ∈ xs ++ ys, (deepen (xs ++ ys) d).get h = d.get h + 1 := fun h hh => by
    rw [deepen_get hd, if_pos hh]
  have hx0 := List.length_pos_iff.2 hx.ne_nil
  have hy0 := List.length_pos_iff.2 hy.ne_nil
  rw [List.length_append] at h14
  refine ⟨fun h hh => ?_, ?_⟩
  · rw [deeper h hh, List.length_append]
    rcases List.mem_append.1 hh with h1 | h1
    · have := hx.depth h h1
      omega
    · have := hy.depth h h1
      omega
  · have kx := hx.deeper (by omega) fun h hh => deeper h (List.mem_append_left _ hh)
    have ky := hy.deeper (by omega) fun h hh => deeper h (List.mem_append_right _ hh)
    rw [List.map_append, List.sum_append]
    omega

/-- Merging a forest of balanced trees until one is left gives a balanced tree of all its leaves. -/
theorem mergeNodes_balanced {n : Nat} {nodes : List HuffNode} {d : Nine Nat} (hne : nodes ≠ [])
    (hn : nodes.length ≤ n + 1) (hd : (forestLeaves nodes).Nodup) (h14 : (forestLeaves nodes).length ≤ 14)
    (hb : ∀ x ∈ nodes, Balanced x.leaves d) : Balanced (forestLeaves nodes) (mergeNodes n nodes d) := by
  induction n generalizing nodes d with
  | zero =>
    obtain ⟨x, rfl⟩ := List.length_eq_one_iff.1 (le_antisymm hn (List.length_pos_iff.2 hne))
    simpa [forestLeaves, mergeNodes] using hb x
  | succ n ih =>
    rcases nodes with _ | ⟨x, _ | ⟨y, l⟩⟩
    · exact absurd rfl hne
    · simpa [forestLeaves, mergeNodes] using hb x
    · obtain ⟨a, b, rest, hperm, hstep⟩ := mergeNodes_succ n x y l d
      have hleaves : (forestLeaves (a.merge b :: rest)).Perm (forestLeaves (x :: y :: l)) := by
        simpa [forestLeaves, HuffNode.merge] using hperm.flatMap_right HuffNode.leaves
      have hd' := hleaves.nodup_iff.2 hd
      have h14' := hleaves.length_eq.trans_le h14
      obtain ⟨hab, -, hapart⟩ := List.nodup_append.1 (by simpa [forestLeaves] using hd')
      rw [hstep]
      refine (ih (List.cons_ne_nil _ _) ?_ hd' h14' ?_).perm hleaves
      · have := hperm.length_eq
        simp only [List.length_cons] at *
        omega
      · have hbal : ∀ c ∈ a :: b :: rest, Balanced c.leaves d := fun c hc => hb c (hperm.mem_iff.1 hc)
        refine List.forall_mem_cons.2 ⟨?_, fun c hc => ?_⟩
        · refine (hbal a (by simp)).merge (hbal b (by simp)) hab ?_
          simp only [forestLeaves, List.flatMap_cons, List.length_append, HuffNode.merge] at h14' ⊢
          omega
        · refine (hbal c (by simp [hc])).congr fun h hh => ?_
          rw [deepen_get hab, if_neg fun hm => hapart h hm h (List.mem_flatMap.2 ⟨c, hc, hh⟩) rfl]
          rfl

/-! ### The lengths (43_huffman R360) -/

theorem mem_usedHops {c : Nine Word} {h : Hop} : h ∈ usedHops c ↔ c.get h ≠ 0 := by
  simp [usedHops, mem_allHops]

theorem usedHops_nodup (c : Nine Word) : (usedHops c).Nodup := List.Nodup.filter _ (by decide)

theorem usedHops_length_le (c : Nine Word) : (usedHops c).length ≤ 9 := List.length_filter_le _ allHops

theorem forestLeaves_leafNodes (c : Nine Word) : forestLeaves (leafNodes c) = usedHops c := by
  simp [forestLeaves, leafNodes, List.flatMap_map]

/-- Two symbols or more: the depths the merging reaches are those of a full tree. -/
theorem mergeNodes_leafNodes (c : Nine Word) (hne : usedHops c ≠ []) :
    Balanced (usedHops c) (mergeNodes (usedHops c).length (leafNodes c) (Nine.all 0)) := by
  have hleaves := forestLeaves_leafNodes c
  have hle := usedHops_length_le c
  have := mergeNodes_balanced (n := (usedHops c).length) (nodes := leafNodes c) (d := Nine.all 0)
    (by simpa [leafNodes] using hne) (by simp [leafNodes]) (by rw [hleaves]; exact usedHops_nodup c)
    (by rw [hleaves]; omega) (by
      intro x hx
      obtain ⟨h, -, rfl⟩ := List.mem_map.1 hx
      exact ⟨by simp, by simp⟩)
  rwa [hleaves] at this

theorem foldl_set_get {α : Type} (f : Hop → α) (hops : List Hop) (v : Nine α) (h : Hop) :
    (hops.foldl (fun v h => v.set h (f h)) v).get h = if h ∈ hops then f h else v.get h := by
  induction hops generalizing v with
  | nil => rfl
  | cons x xs ih =>
    rw [List.foldl_cons, ih, Nine.get_set]
    by_cases hx : h = x
    · subst hx
      simp
    · simp [hx]

/-- A full tree of two leaves or more has no leaf at its root. -/
theorem Balanced.depth_pos {leaves : List Hop} {d : Nine Nat} (hb : Balanced leaves d)
    (h2 : 2 ≤ leaves.length) {h : Hop} (hh : h ∈ leaves) : 1 ≤ d.get h := by
  by_contra h0
  obtain ⟨xs, ys, rfl⟩ := List.append_of_mem hh
  have hk := hb.kraft
  have hz : d.get h = 0 := by omega
  simp only [List.map_append, List.map_cons, List.sum_append, List.sum_cons, hz, Nat.sub_zero] at hk
  have none_else : ∀ l : List Hop, (l.map fun h => 2 ^ (14 - d.get h)).sum = 0 → l = [] := fun l hl => by
    cases l with
    | nil => rfl
    | cons x l =>
      have := Nat.two_pow_pos (14 - d.get x)
      rw [List.map_cons, List.sum_cons] at hl
      omega
  rw [none_else xs (by omega), none_else ys (by omega)] at h2
  exact absurd h2 (by simp)

/-- The lengths that depths `d` give to the symbols of `hops`, every other one unused. -/
structure LengthsOf (l : Nine (BitVec 4)) (hops : List Hop) (d : Hop → Nat) : Prop where
  get : ∀ h, l.get h = if h ∈ hops then BitVec.ofNat 4 (d h) else Config.unusedLen
  bounds : ∀ h ∈ hops, 1 ≤ d h ∧ d h ≤ 8
  kraft : (hops.map fun h => 2 ^ (14 - d h)).sum ≤ 2 ^ 14
  complete : 2 ≤ hops.length → (hops.map fun h => 2 ^ (14 - d h)).sum = 2 ^ 14

/-- `HuffLengths`: no symbol, one symbol of length 1, or the depths of a full tree. -/
theorem huffLengths_lengthsOf (c : Nine Word) : ∃ d, LengthsOf (huffLengths c) (usedHops c) d := by
  have hle := usedHops_length_le c
  have hbal := mergeNodes_leafNodes c
  unfold huffLengths
  split
  · next hu =>
    rw [hu]
    exact ⟨fun _ => 1, ⟨by simp, by simp, by simp, by simp⟩⟩
  · next h hu =>
    rw [hu]
    exact ⟨fun _ => 1, ⟨fun i => by simp [Nine.get_set], by simp, by simp, by simp⟩⟩
  · next hnil hone =>
    have hbal := hbal hnil
    have h2 : 2 ≤ (usedHops c).length := by
      rcases hu : usedHops c with _ | ⟨x, _ | ⟨y, l⟩⟩
      · exact absurd hu hnil
      · exact absurd hu (hone x)
      · simp
    refine ⟨_, ⟨fun h => (foldl_set_get _ _ _ h).trans (by rw [Nine.get_all]), fun h hh => ?_, ?_, ?_⟩⟩
    · have := hbal.depth h hh
      exact ⟨hbal.depth_pos h2 hh, by omega⟩
    · exact hbal.kraft.le
    · exact fun _ => hbal.kraft

section
variable {l : Nine (BitVec 4)} {hops : List Hop} {d : Hop → Nat}

theorem LengthsOf.len_eq (hl : LengthsOf l hops d) {h : Hop} (hh : h ∈ hops) : (l.get h).toNat = d h := by
  have := hl.bounds h hh
  rw [hl.get, if_pos hh, BitVec.toNat_ofNat, Nat.mod_eq_of_lt (by omega)]

theorem LengthsOf.live_iff (hl : LengthsOf l hops d) (h : Hop) : liveLen (l.get h) = true ↔ h ∈ hops := by
  by_cases hh : h ∈ hops
  · have := hl.bounds h hh
    rw [liveLen_iff, hl.len_eq hh]
    simp only [hh, iff_true]
    omega
  · rw [hl.get, if_neg hh]
    simp [hh, liveLen]

theorem LengthsOf.kraftSum_eq (hl : LengthsOf l hops d) (hd : hops.Nodup) :
    kraftSum l = (hops.map fun h => 2 ^ (14 - d h)).sum := by
  have hperm : (allHops.filter fun h => liveLen (l.get h)).Perm hops :=
    (List.perm_ext_iff_of_nodup (List.Nodup.filter _ (by decide)) hd).2 fun h => by
      simp [mem_allHops, hl.live_iff]
  rw [Machine.kraftSum_eq, spanSum, (hperm.map _).sum_eq, List.map_congr_left fun h hh => by
    rw [codeSpan, hl.len_eq hh]]

theorem LengthsOf.valid (hl : LengthsOf l hops d) (hd : hops.Nodup) (hne : hops ≠ []) :
    lensValid l = true := by
  obtain ⟨h, hh⟩ := List.exists_mem_of_ne_nil _ hne
  refine lensValid_iff.2 ⟨⟨h, (hl.live_iff h).2 hh⟩, fun i hi => ?_, ?_⟩
  · have hi := (hl.live_iff i).1 hi
    have := hl.bounds i hi
    rw [hl.len_eq hi]
    omega
  · rw [hl.kraftSum_eq hd]
    exact hl.kraft

end

/-! ### HUFF_FROM_COUNTS (43_huffman R367) -/

theorem cmdHuffFromCounts_out (t : Tbl) (s : State) : (cmdHuffFromCounts t).out s =
    (cmdHuffBuild t).out (s.withTable t
      { s.table t with len := huffLengths (s.table t).count, valid := false }) := by
  rw [cmdHuffFromCounts, Cmd.out_update_seq, Cmd.out_update_seq, State.withLens, State.withHuffValid,
    State.table_withTable_same, State.withTable_withTable]

/-- Settles O50: the lengths are the depths of a full tree over the counted symbols. -/
theorem fromCountsBuildsAValidTable : Obligations.FromCountsBuildsAValidTable := by
  intro s t c l
  obtain ⟨d, hl⟩ := huffLengths_lengthsOf c
  have hd := usedHops_nodup c
  refine ⟨fun h => (hl.live_iff h).trans mem_usedHops, fun h hh => ?_, fun h2 => ?_, fun ⟨h, hh⟩ => ?_,
    fun h0 => ?_⟩
  · have hh := (hl.live_iff h).1 hh
    rw [hl.len_eq hh]
    exact hl.bounds h hh
  · exact (hl.kraftSum_eq hd).trans (hl.complete h2)
  · have hv := hl.valid hd (List.ne_nil_of_mem (mem_usedHops.2 hh))
    exact exec_ok ((cmdHuffFromCounts_out t s).trans (cmdHuffBuild_stored_ok hv))
  · have hnone : usedHops c = [] := List.eq_nil_iff_forall_not_mem.2 fun h hh => mem_usedHops.1 hh (h0 h)
    have hlen : huffLengths c = Nine.all 15 := by rw [huffLengths, hnone]; rfl
    refine exec_raised ((cmdHuffFromCounts_out t s).trans ?_)
    rw [show huffLengths (s.table t).count = Nine.all 15 from hlen]
    exact cmdHuffBuild_stored_raised (show lensValid (Nine.all 15) = false by decide)

end Sys2Proof.Machine
end

section
namespace Sys2Proof.Machine

-- One theorem at a time: many checked at once need more threads than the memory limit allows.
set_option Elab.async false

/-! ### Codes that stand in a stream (43_huffman R355, R361) -/

/-- The first bits of a field are the field of those bits. -/
theorem fieldAt_shiftRight (m : Memory) (base : Word) (q : Nat) {k n : Nat} (hkn : k ≤ n) :
    fieldAt m base q n >>> (n - k) = fieldAt m base q k := by
  induction n with
  | zero =>
    obtain rfl : k = 0 := by omega
    rfl
  | succ n ih =>
    rcases Nat.lt_or_eq_of_le hkn with hlt | rfl
    · have hbit := Bool.toNat_lt (bitAt m base (q + n))
      have hhalf : fieldAt m base q (n + 1) >>> 1 = fieldAt m base q n := by
        rw [fieldAt, Nat.shiftRight_eq_div_pow]
        omega
      rw [show n + 1 - k = 1 + (n - k) by omega, Nat.shiftRight_add, hhalf, ih (by omega)]
    · rw [Nat.sub_self, Nat.shiftRight_zero]

theorem HuffTable.ready.len_bounds {tb : HuffTable} (hr : tb.ready) {h : Hop}
    (hl : liveLen (tb.len.get h) = true) : 1 ≤ (tb.len.get h).toNat ∧ (tb.len.get h).toNat ≤ 14 :=
  (lensValid_iff.1 hr.2.1).2.1 h hl

/-- No code of a ready table begins another. -/
theorem HuffTable.ready.not_begins {tb : HuffTable} (hr : tb.ready) {i j : Hop}
    (hi : liveLen (tb.len.get i) = true) (hj : liveLen (tb.len.get j) = true) (hne : i ≠ j)
    (hij : (tb.len.get i).toNat ≤ (tb.len.get j).toNat) :
    (tb.code.get j).toNat >>> ((tb.len.get j).toNat - (tb.len.get i).toNat) ≠ (tb.code.get i).toNat := by
  obtain ⟨-, hv, hc⟩ := hr
  rw [hc]
  exact (canonicalCodesArePrefixFree tb.len hv).2 i j hi hj hne hij

theorem matchCode_eq_none {tb : HuffTable} {acc n : Nat} (hno : ∀ h, liveLen (tb.len.get h) = true →
    (tb.len.get h).toNat = n → (tb.code.get h).toNat ≠ acc) : matchCode tb acc n = none := by
  refine List.find?_eq_none.2 fun h _ hm => ?_
  simp only [Bool.and_eq_true, beq_iff_eq] at hm
  obtain ⟨⟨hl, hn⟩, hacc⟩ := hm
  exact hno h hl hn hacc

/-- The match is the only one, so the order of the search does not show. -/
theorem matchCode_eq_some {tb : HuffTable} (hr : tb.ready) {h : Hop}
    (hl : liveLen (tb.len.get h) = true) :
    matchCode tb (tb.code.get h).toNat (tb.len.get h).toNat = some h := by
  cases hm : matchCode tb (tb.code.get h).toNat (tb.len.get h).toNat with
  | none => simpa [hl] using List.find?_eq_none.1 hm h (mem_prio h)
  | some i =>
    have hi := List.find?_some hm
    simp only [Bool.and_eq_true, beq_iff_eq] at hi
    obtain ⟨⟨hli, hlen⟩, hcode⟩ := hi
    by_contra hne
    refine hr.not_begins hli hl (fun he => hne (by rw [he])) hlen.le ?_
    rw [hlen, Nat.sub_self, Nat.shiftRight_zero, hcode]

theorem le_maxLen {l : Nine (BitVec 4)} {h : Hop} (hl : liveLen (l.get h) = true) :
    (l.get h).toNat ≤ maxLen l := by
  have reach : ∀ (hops : List Hop) (m : Nat),
      let r := hops.foldl (fun m h => if liveLen (l.get h) then max m (l.get h).toNat else m) m
      m ≤ r ∧ (h ∈ hops → (l.get h).toNat ≤ r) := by
    intro hops
    induction hops with
    | nil => exact fun m => ⟨le_rfl, fun hm => absurd hm List.not_mem_nil⟩
    | cons x xs ih =>
      intro m r
      obtain ⟨hstart, hmem⟩ := ih (if liveLen (l.get x) then max m (l.get x).toNat else m)
      refine ⟨le_trans ?_ hstart, fun hh => ?_⟩
      · split
        · exact le_max_left _ _
        · exact le_rfl
      · rcases List.mem_cons.1 hh with rfl | hh
        · exact le_trans (by rw [if_pos hl]; exact le_max_right _ _) hstart
        · exact hmem hh
  exact (reach allHops 0).2 (mem_allHops h)

/-! ### The decoding loop (43_huffman R361) -/

theorem readBit_consumed {s : State} {k : Nat} (hc : s.canRead (k + 1)) : readBit.out (s.consumed k) =
    .ok (bitAt s.mem s.reader.base (s.reader.pos.toNat + k)) (s.consumed (k + 1)) := by
  have hpos : (s.consumed k).reader.pos.toNat = s.reader.pos.toNat + k :=
    s.consumed_pos (by simp only [State.canRead] at *; omega)
  rw [readBit_out, if_pos (by rw [hpos, State.consumed_budget]; exact hc), hpos, State.consumed_consumed]
  rfl

section
variable {tb : HuffTable} {s : State} {k left : Nat} {h : Hop}

/-- One more bit completes a code. -/
theorem decodeFrom_match (hc : s.canRead (k + 1))
    (hm : matchCode tb (s.inputField 0 (k + 1)) (k + 1) = some h) :
    (decodeFrom tb (left + 1) (s.inputField 0 k) k).out (s.consumed k) = .ok h (s.consumed (k + 1)) := by
  have hm : matchCode tb (2 * s.inputField 0 k +
      (bitAt s.mem s.reader.base (s.reader.pos.toNat + k)).toNat) (k + 1) = some h := hm
  rw [decodeFrom, Cmd.out_bind_ok (readBit_consumed hc), hm]
  rfl

/-- One more bit completes no code. -/
theorem decodeFrom_continue (hc : s.canRead (k + 1))
    (hm : matchCode tb (s.inputField 0 (k + 1)) (k + 1) = none) :
    (decodeFrom tb (left + 1) (s.inputField 0 k) k).out (s.consumed k) =
      (decodeFrom tb left (s.inputField 0 (k + 1)) (k + 1)).out (s.consumed (k + 1)) := by
  have hm : matchCode tb (2 * s.inputField 0 k +
      (bitAt s.mem s.reader.base (s.reader.pos.toNat + k)).toNat) (k + 1) = none := hm
  rw [decodeFrom, Cmd.out_bind_ok (readBit_consumed hc), hm]
  rfl

/-- The loop reads on to the end of the code that stands in the stream: no shorter code matches, for it
would begin that one. -/
theorem decodeFrom_ok (hr : tb.ready) (hl : liveLen (tb.len.get h) = true)
    (hc : s.canRead (tb.len.get h).toNat)
    (hf : s.inputField 0 (tb.len.get h).toNat = (tb.code.get h).toNat)
    (hk : k < (tb.len.get h).toNat) (hleft : (tb.len.get h).toNat ≤ k + left) :
    (decodeFrom tb left (s.inputField 0 k) k).out (s.consumed k) =
      .ok h (s.consumed (tb.len.get h).toNat) := by
  induction left generalizing k with
  | zero => omega
  | succ left ih =>
    have hc1 : s.canRead (k + 1) := by simp only [State.canRead] at *; omega
    rcases Nat.lt_or_eq_of_le hk with hlt | heq
    · refine (decodeFrom_continue hc1 (matchCode_eq_none fun i hi hlen hcode => ?_)).trans
        (ih hlt (by omega))
      have hne : i ≠ h := by
        rintro rfl
        omega
      refine hr.not_begins hi hl hne (by omega) ?_
      rw [← hf, hlen, hcode]
      exact fieldAt_shiftRight _ _ _ hlt.le
    · have heq : k + 1 = (tb.len.get h).toNat := heq
      rw [decodeFrom_match hc1 (by rw [heq, hf]; exact matchCode_eq_some hr hl), heq]

/-- The loop runs out where no code stands in the stream. -/
theorem decodeFrom_noMatch (hc : s.canRead (k + left))
    (hf : ∀ i, liveLen (tb.len.get i) = true → s.inputField 0 (tb.len.get i).toNat ≠ (tb.code.get i).toNat) :
    (decodeFrom tb left (s.inputField 0 k) k).out (s.consumed k) =
      .raised .huffNoMatch (s.consumed (k + left)) := by
  induction left generalizing k with
  | zero => rfl
  | succ left ih =>
    rw [show k + (left + 1) = k + 1 + left by omega] at hc ⊢
    refine (decodeFrom_continue (by simp only [State.canRead] at *; omega) ?_).trans (ih hc)
    exact matchCode_eq_none fun i hi hlen hcode => hf i hi (by rw [hlen, hcode])

end

section
variable {s : State} {t : Tbl}

/-- `DecodeSymbol` of a code that stands in the stream. -/
theorem decodeSymbol_ok {h : Hop} (hr : (s.table t).ready) (hl : liveLen ((s.table t).len.get h) = true)
    (hc : s.canRead ((s.table t).len.get h).toNat)
    (hf : s.inputField 0 ((s.table t).len.get h).toNat = ((s.table t).code.get h).toNat) :
    (decodeSymbol t).out s = .ok h (s.consumed ((s.table t).len.get h).toNat) := by
  obtain ⟨hpos, -⟩ := hr.len_bounds hl
  have hmax := le_maxLen hl
  have hloop := decodeFrom_ok (k := 0) (left := max 1 (maxLen (s.table t).len)) hr hl hc hf hpos (by omega)
  rw [State.consumed_zero] at hloop
  exact (Cmd.out_read_bind _ _ s).trans hloop

/-- `DecodeSymbol` where no code stands in the stream. -/
theorem decodeSymbol_noMatch (hr : (s.table t).ready) (hc : s.canRead (maxLen (s.table t).len))
    (hf : ∀ i, liveLen ((s.table t).len.get i) = true →
      s.inputField 0 ((s.table t).len.get i).toNat ≠ ((s.table t).code.get i).toNat) :
    (decodeSymbol t).out s = .raised .huffNoMatch (s.consumed (maxLen (s.table t).len)) := by
  obtain ⟨i, hi⟩ := (lensValid_iff.1 hr.2.1).1
  have hmax : max 1 (maxLen (s.table t).len) = maxLen (s.table t).len :=
    max_eq_right ((hr.len_bounds hi).1.trans (le_maxLen hi))
  have hloop := decodeFrom_noMatch (k := 0) (by rw [Nat.zero_add]; exact hc) hf
  rw [State.consumed_zero, Nat.zero_add] at hloop
  refine (Cmd.out_read_bind _ _ s).trans ?_
  rw [hmax]
  exact hloop

end

/-- Settles O51: one symbol of a ready table, decoded or not. -/
theorem decSymReadsTheCodeInTheStream : Obligations.DecSymReadsTheCodeInTheStream := by
  intro s t hr len code
  refine ⟨fun h hl hc hf => exec_ok ?_, fun hc hf => exec_raised ?_⟩
  · show (cmdHuffDecSym t).out s = _
    rw [cmdHuffDecSym, needHuff_seq, if_pos hr.1, Cmd.out_bind_ok (decodeSymbol_ok hr hl hc hf),
      Cmd.out_update]
  · show (cmdHuffDecSym t).out s = _
    rw [cmdHuffDecSym, needHuff_seq, if_pos hr.1, Cmd.out_bind_raised (decodeSymbol_noMatch hr hc hf)]

/-! ### Commands that append bits (20_memory R114) -/

/-- From `s` the body appends `bits` to the output stream and does nothing else. -/
def Cmd.Appends (c : Cmd Unit) (s : State) (bits : List Bool) : Prop :=
  ∃ m, c.out s = .ok () ((s.withMem m).produced bits.length) ∧
    Appended s.mem m s.writer.base s.writer.pos.toNat bits

theorem writeBits_appends (v n : Nat) {s : State} (hc : s.calm) (hw : s.canWrite n) :
    (writeBits v n).Appends s (msbBits v n) := by
  obtain ⟨m, hout, happ, -⟩ := writeBits_ok v n s hc hw
  exact ⟨m, by rw [msbBits_length]; exact hout, happ⟩

theorem HuffTable.codeBitsOf_length (tb : HuffTable) (h : Hop) :
    (tb.codeBitsOf h).length = (tb.len.get h).toNat := msbBits_length _ _

/-- `EncodeSymbol` of a live symbol. -/
theorem encodeSymbol_appends {s : State} {t : Tbl} {h : Hop} (hl : liveLen ((s.table t).len.get h) = true)
    (hc : s.calm) (hw : s.canWrite ((s.table t).codeBitsOf h).length) :
    (encodeSymbol t h.val).Appends s ((s.table t).codeBitsOf h) := by
  rw [HuffTable.codeBitsOf_length] at hw
  obtain ⟨m, hout, happ⟩ := writeBits_appends ((s.table t).code.get h).toNat _ hc hw
  refine ⟨m, ?_, happ⟩
  have hne : (s.table t).len.get h ≠ Config.unusedLen := by simpa [liveLen] using hl
  rw [encodeSymbol, needHop_lt h.isLt, Cmd.out_pure_bind, Cmd.out_read_bind, if_neg hne]
  exact hout

/-- `EncodeSymbol` of a symbol without a code. -/
theorem encodeSymbol_unused {s : State} {t : Tbl} {h : Hop}
    (hl : liveLen ((s.table t).len.get h) = false) :
    (encodeSymbol t h.val).out s = .raised .huffInvalid s := by
  have he : (s.table t).len.get h = Config.unusedLen := by simpa [liveLen] using hl
  rw [encodeSymbol, needHop_lt h.isLt, Cmd.out_pure_bind, Cmd.out_read_bind, if_pos he, Cmd.out_raise]

/-- Settles O52, by the three ways `EncodeSymbol` ends. -/
theorem encSymAppendsTheCode : Obligations.EncSymAppendsTheCode := by
  intro s t sym hv
  have body : (commandBody (.huffEncSym t sym)).out s = (encodeSymbol t sym.toNat).out s := by
    show (cmdHuffEncSym t sym.toNat).out s = _
    rw [cmdHuffEncSym, needHuff_seq, if_pos hv]
  refine ⟨fun h hs hl hc hw => ?_, fun h hs hl => exec_raised ?_, fun hs => exec_raised ?_⟩
  · rw [← HuffTable.codeBitsOf_length] at hw ⊢
    obtain ⟨m, hout, happ⟩ := encodeSymbol_appends hl hc hw
    exact ⟨m, exec_ok (body.trans (by rw [hs]; exact hout)), happ⟩
  · rw [body, hs, encodeSymbol_unused hl]
  · rw [body, encodeSymbol, needHop_ge hs, Cmd.out_raise_bind]

end Sys2Proof.Machine
end

section
namespace Sys2Proof.Machine

-- One theorem at a time: many checked at once need more threads than the memory limit allows.
set_option Elab.async false

/-! ### HUFF_READ_HDR (43_huffman R365) -/

/-- The lengths of table `t` once the first `k` have been read from the stream. -/
def State.readLens (s : State) (t : Tbl) (k : Nat) : Nine (BitVec 4) :=
  Nine.ofFn fun i =>
    if i.val < k then BitVec.ofNat 4 (s.inputField (4 * i.val) 4) else (s.table t).len.get i

theorem State.readLens_zero (s : State) (t : Tbl) : s.readLens t 0 = (s.table t).len :=
  Nine.ext_get fun i => by rw [State.readLens, Nine.get_ofFn, if_neg i.val.not_lt_zero]

theorem State.readLens_nine (s : State) (t : Tbl) :
    s.readLens t 9 = Nine.ofFn fun i => BitVec.ofNat 4 (s.inputField (4 * i.val) 4) :=
  Nine.ext_get fun i => by rw [State.readLens, Nine.get_ofFn, Nine.get_ofFn, if_pos i.isLt]

theorem State.readLens_succ (s : State) (t : Tbl) (i : Hop) :
    (s.readLens t i.val).set i (BitVec.ofNat 4 (s.inputField (4 * i.val) 4)) = s.readLens t (i.val + 1) := by
  refine Nine.ext_get fun j => ?_
  rw [Nine.get_set, State.readLens, State.readLens, Nine.get_ofFn, Nine.get_ofFn]
  by_cases hj : j = i
  · subst hj
    rw [if_pos rfl, if_pos j.val.lt_succ_self]
  · have hne : j.val ≠ i.val := fun h => hj (Fin.ext h)
    have hiff : j.val < i.val ↔ j.val < i.val + 1 := by omega
    rw [if_neg hj]
    simp only [hiff]

theorem State.withLens_eq (s : State) (t : Tbl) : s.withLens t (s.table t).len = s := s.withTable_table t

/-- What HUFF_READ_HDR does for one symbol. -/
def readLen (t : Tbl) (i : Hop) : Cmd Unit :=
  (readBits 4).bind fun v =>
  Cmd.update [lenReg t i, .huffCode t i] fun s => s.withLen t i (BitVec.ofNat 4 v)

theorem cmdHuffReadHdr_eq (t : Tbl) : cmdHuffReadHdr t =
    (Cmd.update (codeRegs t) fun s => s.withHuffValid t false).seq
      ((Cmd.forEach allHops (readLen t)).seq (cmdHuffBuild t)) := rfl

/-- One length read into its place. -/
theorem readLen_out {s : State} {t : Tbl} {i : Hop} (hc : s.canRead (4 * (i.val + 1))) :
    (readLen t i).out ((s.withLens t (s.readLens t i.val)).consumed (4 * i.val)) =
      .ok () ((s.withLens t (s.readLens t (i.val + 1))).consumed (4 * (i.val + 1))) := by
  have hreader : (s.withLens t (s.readLens t i.val)).reader = s.reader := State.withTable_reader _ _ _
  have hpos := State.consumed_pos (s.withLens t (s.readLens t i.val)) (n := 4 * i.val) (by
    simp only [State.canRead, hreader] at *
    omega)
  have hroom : ((s.withLens t (s.readLens t i.val)).consumed (4 * i.val)).canRead 4 := by
    simp only [State.canRead, hpos, State.consumed_budget, hreader] at *
    omega
  rw [readLen, Cmd.out_bind_ok (readBits_ok 4 _ hroom), Cmd.out_update, hpos, State.consumed_consumed,
    State.withLen, State.table_consumed, State.consumed_withTable, State.consumed_mem, State.consumed_base,
    State.withLens, State.table_withTable_same, State.withTable_withTable, State.withTable_mem,
    State.withTable_reader, ← State.readLens_succ]
  rfl

/-- The nine lengths read in symbol order. -/
theorem readLens_out {s : State} (hc : s.canRead 36) (t : Tbl) :
    (Cmd.forEach allHops (readLen t)).out s =
      .ok () ((s.withLens t (s.readLens t 9)).consumed 36) := by
  have step : ∀ k u, k < 9 → u = (s.withLens t (s.readLens t k)).consumed (4 * k) →
      ∃ v, (readLen t (Fin.ofNat 9 k)).out u = .ok () v ∧
        v = (s.withLens t (s.readLens t (k + 1))).consumed (4 * (k + 1)) := by
    rintro k _ hk rfl
    have hval : (Fin.ofNat 9 k).val = k := Nat.mod_eq_of_lt hk
    have hread := readLen_out (t := t) (i := Fin.ofNat 9 k) (s := s) (by
      simp only [hval, State.canRead] at *
      omega)
    rw [hval] at hread
    exact ⟨_, hread, rfl⟩
  obtain ⟨u, hout, rfl⟩ := Cmd.forEach_numbered (n := 9) (s := s)
    (by rw [State.readLens_zero, State.withLens_eq, State.consumed_zero]) step
  exact hout

/-- HUFF_READ_HDR within the budget: the nine lengths read, then HUFF_BUILD. -/
theorem cmdHuffReadHdr_out {s : State} (hc : s.canRead 36) (t : Tbl) : (cmdHuffReadHdr t).out s =
    (cmdHuffBuild t).out ((s.consumed 36).withTable t { s.table t with
      len := Nine.ofFn fun i => BitVec.ofNat 4 (s.inputField (4 * i.val) 4), valid := false }) := by
  have hroom : (s.withHuffValid t false).canRead 36 := by
    rw [State.canRead, State.withHuffValid, State.withTable_reader]
    exact hc
  have hfields : ∀ k n, (s.withHuffValid t false).inputField k n = s.inputField k n := fun k n => by
    rw [State.inputField, State.withHuffValid, State.withTable_mem, State.withTable_reader, State.inputField]
  rw [cmdHuffReadHdr_eq, Cmd.out_update_seq, Cmd.out_seq_ok (readLens_out hroom t), State.readLens_nine,
    State.consumed_withTable]
  simp only [hfields]
  rw [State.withLens, State.withHuffValid, State.table_withTable_same, State.withTable_withTable]

/-! ### Loops that append bits (20_memory R114) -/

/-- `t` is `s` after `k` of `n` bits have been appended to its output stream: no other byte has changed,
and no register but BW_POS. -/
structure State.Appending (s : State) (n k : Nat) (t : State) : Prop where
  rest : t = (s.withMem t.mem).produced k
  kept : ∀ a, ¬ inStream s.writer.base s.writer.pos.toNat n a → t.mem.read a = s.mem.read a

section
variable {s t : State} {n k : Nat}

theorem State.appending_start (s : State) (n : Nat) : s.Appending n 0 s where
  rest := by rw [State.produced_zero]; rfl
  kept _ _ := rfl

theorem State.Appending.pos (h : s.Appending n k t) (hk : k ≤ n) (room : s.canWrite n) :
    t.writer.pos.toNat = s.writer.pos.toNat + k := by
  rw [h.rest]
  exact (s.withMem t.mem).produced_pos (by simp only [State.canWrite, State.withMem_writer] at *; omega)

theorem State.Appending.canWrite_iff (h : s.Appending n k t) (hk : k ≤ n) (room : s.canWrite n) (j : Nat) :
    t.canWrite j ↔ s.canWrite (k + j) := by
  have hlimit : t.writer.limit = s.writer.limit := by rw [h.rest]; rfl
  rw [State.canWrite, State.canWrite, h.pos hk room, hlimit, Nat.add_assoc]

theorem State.Appending.table_eq (h : s.Appending n k t) (u : Tbl) : t.table u = s.table u := by
  rw [h.rest]
  cases u <;> rfl

theorem State.Appending.hopAddr_eq (h : s.Appending n k t) (p : Plane) (x y : Nat) :
    t.hopAddr p x y = s.hopAddr p x y := by
  rw [h.rest]
  rfl

theorem State.Appending.calm (h : s.Appending n k t) (hc : s.calm) : t.calm := by
  rw [h.rest]
  exact hc

theorem State.Appending.next (h : s.Appending n k t) (room : s.canWrite n) {m : Memory} {bits : List Bool}
    (hk : k + bits.length ≤ n) (ha : Appended t.mem m t.writer.base t.writer.pos.toNat bits) :
    s.Appending n (k + bits.length) ((t.withMem m).produced bits.length) where
  rest := (congrArg (fun u => (State.withMem u m).produced bits.length) h.rest).trans
    (State.produced_produced (s.withMem m) k bits.length)
  kept a hout := by
    have hbase : t.writer.base = s.writer.base := by rw [h.rest]; rfl
    rw [hbase, h.pos (by omega) room] at ha
    refine (ha.others a ?_).trans (h.kept a hout)
    rintro ⟨b, hb, he⟩
    exact hout ⟨k + b, by omega, by rw [he, Nat.add_assoc]⟩

/-- A loop whose bodies append bits appends them in order. -/
theorem Cmd.Appends.forEach {α : Type} {f : α → Cmd Unit} {bits : α → List Bool} (room : s.canWrite n)
    {l : List α} (body : ∀ a ∈ l, ∀ k t, s.Appending n k t → t.canWrite (bits a).length →
      (f a).Appends t (bits a)) (ht : s.Appending n k t) (hk : k + (l.flatMap bits).length ≤ n) :
    (Cmd.forEach l f).Appends t (l.flatMap bits) := by
  induction l generalizing t k with
  | nil => exact ⟨t.mem, by rw [List.flatMap_nil, List.length_nil, State.produced_zero]; rfl, Appended.nil _ _ _⟩
  | cons a l ih =>
    obtain ⟨ha, hl⟩ := List.forall_mem_cons.1 body
    rw [List.flatMap_cons, List.length_append] at hk
    have hwrite : t.canWrite (bits a).length := by
      rw [ht.canWrite_iff (by omega) room]
      simp only [State.canWrite] at *
      omega
    obtain ⟨m1, out1, app1⟩ := ha k t ht hwrite
    obtain ⟨m2, out2, app2⟩ := ih hl (ht.next room (by omega) app1) (by omega)
    refine ⟨m2, ?_, ?_⟩
    · rw [Cmd.out_forEach_cons, Cmd.out_seq_ok out1, out2, List.flatMap_cons, List.length_append]
      exact congrArg _ (State.produced_produced (t.withMem m2) _ _)
    · rw [(t.withMem m1).produced_pos hwrite] at app2
      rw [List.flatMap_cons]
      have hlim := s.writer.limit.isLt
      have hpos := ht.pos (by omega) room
      simp only [State.canWrite] at room
      exact app1.append app2 (by omega)

end

/-- Settles O47: the header read or written length by length. -/
theorem huffHeadersCarryTheLengths : Obligations.HuffHeadersCarryTheLengths := by
  intro s t l
  refine ⟨fun hc hv => exec_ok ?_, fun hc hv => exec_raised ?_, fun hv hc hw => ?_⟩
  · rw [← State.consumed_withTable]
    exact (cmdHuffReadHdr_out hc t).trans (cmdHuffBuild_stored_ok hv)
  · rw [← State.consumed_withTable]
    exact (cmdHuffReadHdr_out hc t).trans (cmdHuffBuild_stored_raised hv)
  · have hlen : (allHops.flatMap fun i => msbBits ((s.table t).len.get i).toNat 4).length = 36 := rfl
    obtain ⟨m, hout, happ⟩ := Cmd.Appends.forEach (n := 36) (l := allHops)
      (f := fun i => writeBits ((s.table t).len.get i).toNat 4) hw
      (fun i _ k u hu hroom => writeBits_appends _ 4 (hu.calm hc) hroom)
      (s.appending_start 36) (by rw [hlen])
    rw [hlen] at hout
    refine ⟨m, exec_ok ?_, happ⟩
    show (cmdHuffWriteHdr t).out s = _
    rw [cmdHuffWriteHdr, needHuff_seq, if_pos hv, Cmd.out_read_bind]
    exact hout

/-! ### HUFF_ENC_REGION (43_huffman R369) -/

/-- The symbol in a pixel's hop byte. -/
def State.hopAt (s : State) (p : Plane) (q : Nat × Nat) : Hop :=
  Fin.ofNat 9 (s.byteAt (s.hopAddr p q.1 q.2)).toNat

theorem codeBits_eq_length (tb : HuffTable) (hops : List Hop) :
    codeBits tb hops = (hops.flatMap tb.codeBitsOf).length := by
  rw [List.length_flatMap, codeBits, List.map_congr_left fun h _ => tb.codeBitsOf_length h]

/-- What HUFF_ENC_REGION does with one pixel. -/
def encodePixel (p : Plane) (q : Nat × Nat) : Cmd Unit :=
  (Cmd.read fun s => s.hopAddr p q.1 q.2).bind fun a =>
  (memRead a).bind fun b => encodeSymbol p.tbl b.toNat

theorem cmdHuffEncRegion_eq (p : Plane) : cmdHuffEncRegion p = (needHuff p.tbl).seq ((regionCheck p).seq <|
    (Cmd.read fun s => s.region.pixels).bind fun l => Cmd.forEach l (encodePixel p)) := rfl

/-- One pixel of a region whose bits are being appended: its hop byte is not among them. -/
theorem encodePixel_appends {s t : State} {n k : Nat} {p : Plane} {q : Nat × Nat} (hc : s.calm)
    (hb : (s.byteAt (s.hopAddr p q.1 q.2)).toNat < 9)
    (hl : liveLen ((s.table p.tbl).len.get (s.hopAt p q)) = true)
    (apart : ¬ inStream s.writer.base s.writer.pos.toNat n (s.hopAddr p q.1 q.2).toNat)
    (ht : s.Appending n k t) (hw : t.canWrite ((s.table p.tbl).codeBitsOf (s.hopAt p q)).length) :
    (encodePixel p q).Appends t ((s.table p.tbl).codeBitsOf (s.hopAt p q)) := by
  have hbyte : t.mem.read (t.hopAddr p q.1 q.2).toNat = s.byteAt (s.hopAddr p q.1 q.2) := by
    rw [ht.hopAddr_eq]
    exact ht.kept _ apart
  have hval : (s.byteAt (s.hopAddr p q.1 q.2)).toNat = (s.hopAt p q).val := (Nat.mod_eq_of_lt hb).symm
  rw [← ht.table_eq] at hl hw ⊢
  obtain ⟨m, hout, happ⟩ := encodeSymbol_appends hl (ht.calm hc) hw
  refine ⟨m, ?_, happ⟩
  rw [encodePixel, Cmd.out_read_bind, out_memRead_bind, hbyte, hval, hout]

/-- Settles O54: pixel by pixel, the code of the symbol in the hop byte, which the output leaves alone. -/
theorem encRegionAppendsTheCodes : Obligations.EncRegionAppendsTheCodes := by
  intro s f p hops hp hc hv hr hbytes hlive hw apart
  have hid : Fin.ofNat 9 ∘ Fin.val = id := funext fun h : Hop => Fin.ext (Nat.mod_eq_of_lt h.isLt)
  have hhops : hops = s.region.pixels.map (s.hopAt p) :=
    calc hops = (hops.map Fin.val).map (Fin.ofNat 9) := by rw [List.map_map, hid, List.map_id]
      _ = s.region.pixels.map (s.hopAt p) := by rw [hbytes, List.map_map]; rfl
  have hsym : ∀ q ∈ s.region.pixels, (s.byteAt (s.hopAddr p q.1 q.2)).toNat < 9 := by
    intro q hq
    have hmem := List.mem_map_of_mem (f := fun q : Nat × Nat => (s.byteAt (s.hopAddr p q.1 q.2)).toNat) hq
    rw [← hbytes] at hmem
    obtain ⟨h, -, hh⟩ := List.mem_map.1 hmem
    exact hh ▸ h.isLt
  have hflat : hops.flatMap (s.table p.tbl).codeBitsOf =
      s.region.pixels.flatMap fun q => (s.table p.tbl).codeBitsOf (s.hopAt p q) := by
    rw [hhops, List.flatMap_map]
  rw [codeBits_eq_length, hflat] at hw apart ⊢
  obtain ⟨m, hout, happ⟩ := Cmd.Appends.forEach hw (f := encodePixel p)
    (fun q hq _ _ ht => encodePixel_appends hc (hsym q hq)
      (hlive _ (hhops ▸ List.mem_map_of_mem hq)) (apart q.1 q.2 (Region.mem_pixels hq)) ht)
    (s.appending_start _) (Nat.zero_add _).le
  refine ⟨m, exec_ok ?_, happ⟩
  show (withPlane f cmdHuffEncRegion).out s = _
  rw [withPlane_some hp, cmdHuffEncRegion_eq, needHuff_seq, if_pos hv, regionCheck_seq_ok hr,
    Cmd.out_read_bind, hout]

/-! ### HUFF_DEC_REGION (43_huffman R368) -/

theorem Region.pixels_nodup (r : Region) : r.pixels.Nodup := by
  refine List.Nodup.map (fun a b hab => ?_) ?_
  · simp only [Prod.mk.injEq] at hab
    exact Prod.ext (by omega) (by omega)
  · rw [raster_eq_map]
    refine List.Nodup.map_on (fun i hi j hj hij => ?_) List.nodup_range
    obtain ⟨hmod, hdiv⟩ := Prod.mk.inj hij
    rw [← Nat.mod_add_div i r.w.toNat, hmod, hdiv, Nat.mod_add_div]

/-- The codes still stand there if no byte of theirs has changed. -/
theorem codesAt_congr {m m' : Memory} {base : Word} {tb : HuffTable} {hops : List Hop} {q : Nat}
    (h : ∀ a, inStream base q (codeBits tb hops) a → m'.read a = m.read a)
    (hm : codesAt m base tb q hops) : codesAt m' base tb q hops := by
  induction hops generalizing q with
  | nil => trivial
  | cons i hops ih =>
    obtain ⟨hl, hf, hrest⟩ := hm
    have hlen : codeBits tb (i :: hops) = (tb.len.get i).toNat + codeBits tb hops := rfl
    refine ⟨hl, (fieldAt_congr fun k hk => ?_).trans hf, ih (fun a ha => ?_) hrest⟩
    · rw [bitAt, bitAt, h _ ⟨k, by omega, rfl⟩]
    · obtain ⟨k, hk, rfl⟩ := ha
      exact h _ ⟨(tb.len.get i).toNat + k, by omega, by rw [Nat.add_assoc]⟩

/-- What HUFF_DEC_REGION does with one pixel. -/
def decodePixel (p : Plane) (q : Nat × Nat) : Cmd Unit :=
  (decodeSymbol p.tbl).bind fun h =>
  (Cmd.read fun s => s.hopAddr p q.1 q.2).bind fun a =>
  memWrite a (BitVec.ofNat 8 h.val)

theorem cmdHuffDecRegion_eq (p : Plane) : cmdHuffDecRegion p = (needHuff p.tbl).seq ((regionCheck p).seq <|
    (Cmd.read fun s => s.region.pixels).bind fun l => Cmd.forEach l (decodePixel p)) := rfl

/-- The state with hop `h` stored for pixel `q` and its code consumed. -/
def State.hopDecoded (s : State) (p : Plane) (q : Nat × Nat) (h : Hop) : State :=
  (s.withMem (s.mem.write (s.hopAddr p q.1 q.2).toNat (BitVec.ofNat 8 h.val))).consumed
    ((s.table p.tbl).len.get h).toNat

@[simp] theorem State.hopDecoded_table (s : State) (p : Plane) (q : Nat × Nat) (h : Hop) (t : Tbl) :
    (s.hopDecoded p q h).table t = s.table t := by
  cases t <;> rfl

/-- The codes of `hops` stand in the stream, one for each pixel of `l`, and the hop bytes of these pixels
are distinct and not the stream's. -/
structure State.HopsAhead (s : State) (p : Plane) (l : List (Nat × Nat)) (hops : List Hop) : Prop where
  calm : s.calm
  ready : (s.table p.tbl).ready
  length : hops.length = l.length
  codes : codesAt s.mem s.reader.base (s.table p.tbl) s.reader.pos.toNat hops
  room : s.canRead (codeBits (s.table p.tbl) hops)
  distinct : l.Pairwise fun q q' => s.hopAddr p q.1 q.2 ≠ s.hopAddr p q'.1 q'.2
  apart : ∀ q ∈ l, ¬ inStream s.reader.base s.reader.pos.toNat (codeBits (s.table p.tbl) hops)
    (s.hopAddr p q.1 q.2).toNat

section
variable {s : State} {p : Plane} {q : Nat × Nat} {l : List (Nat × Nat)} {h : Hop} {hops : List Hop}

theorem codeBits_cons (tb : HuffTable) (h : Hop) (hops : List Hop) :
    codeBits tb (h :: hops) = (tb.len.get h).toNat + codeBits tb hops := rfl

theorem State.HopsAhead.canRead_head (hs : s.HopsAhead p l (h :: hops)) :
    s.canRead ((s.table p.tbl).len.get h).toNat := by
  have := hs.room
  rw [codeBits_cons] at this
  simp only [State.canRead] at *
  omega

theorem State.HopsAhead.head (hs : s.HopsAhead p (q :: l) (h :: hops)) :
    (decodePixel p q).out s = .ok () (s.hopDecoded p q h) := by
  obtain ⟨hlive, hfield, -⟩ := hs.codes
  rw [decodePixel, Cmd.out_bind_ok (decodeSymbol_ok hs.ready hlive hs.canRead_head hfield),
    Cmd.out_read_bind, out_memWrite, State.storeByte_calm (s := s.consumed _) hs.calm]
  rfl

theorem State.HopsAhead.next (hs : s.HopsAhead p (q :: l) (h :: hops)) :
    (s.hopDecoded p q h).HopsAhead p l hops := by
  obtain ⟨-, -, hrest⟩ := hs.codes
  obtain ⟨apartq, apartl⟩ := List.forall_mem_cons.1 hs.apart
  have hpos : (s.hopDecoded p q h).reader.pos.toNat =
      s.reader.pos.toNat + ((s.table p.tbl).len.get h).toNat := s.consumed_pos hs.canRead_head
  have hbase : (s.hopDecoded p q h).reader.base = s.reader.base := rfl
  have later : ∀ a, inStream s.reader.base (s.reader.pos.toNat + ((s.table p.tbl).len.get h).toNat)
      (codeBits (s.table p.tbl) hops) a →
      inStream s.reader.base s.reader.pos.toNat (codeBits (s.table p.tbl) (h :: hops)) a := by
    rintro a ⟨k, hk, rfl⟩
    exact ⟨_ + k, Nat.add_lt_add_left hk _, by rw [Nat.add_assoc]⟩
  refine ⟨hs.calm, ?_, Nat.succ.inj hs.length, ?_, ?_, (List.pairwise_cons.1 hs.distinct).2, ?_⟩
  · rw [State.hopDecoded_table]
    exact hs.ready
  · rw [State.hopDecoded_table, hpos, hbase]
    refine codesAt_congr (fun a ha => Memory.read_write_other _ _ ?_) hrest
    rintro rfl
    exact apartq (later _ ha)
  · have := hs.room
    rw [codeBits_cons] at this
    rw [State.hopDecoded_table, State.canRead, hpos, Nat.add_assoc]
    exact this
  · rw [State.hopDecoded_table, hpos, hbase]
    exact fun q' hq' hin => apartl q' hq' (later _ hin)

end

/-- The decoding loop over any list of pixels: the hops are stored, their codes consumed. -/
theorem State.HopsAhead.decodeLoop {s : State} {p : Plane} {l : List (Nat × Nat)} {hops : List Hop}
    (hs : s.HopsAhead p l hops) :
    ∃ m, (Cmd.forEach l (decodePixel p)).out s =
        .ok () ((s.withMem m).consumed (codeBits (s.table p.tbl) hops)) ∧
      (∀ (k : Nat) (q : Nat × Nat) (h : Hop), l[k]? = some q → hops[k]? = some h →
        (m.read (s.hopAddr p q.1 q.2).toNat).toNat = h.val) ∧
      (∀ a, (∀ q ∈ l, a ≠ (s.hopAddr p q.1 q.2).toNat) → m.read a = s.mem.read a) := by
  induction l generalizing hops s with
  | nil =>
    obtain rfl := List.eq_nil_of_length_eq_zero hs.length
    exact ⟨s.mem, by rw [codeBits, List.map_nil, List.sum_nil, State.consumed_zero]; rfl, by simp, by simp⟩
  | cons q l ih =>
    obtain ⟨h, hops, rfl⟩ := List.exists_cons_of_length_eq_add_one hs.length
    obtain ⟨m, hout, hstored, hkept⟩ := ih hs.next
    refine ⟨m, ?_, fun k q' h' hk hh => ?_, fun a ha => ?_⟩
    · rw [Cmd.out_forEach_cons, Cmd.out_seq_ok hs.head, hout, State.hopDecoded_table, codeBits_cons]
      exact congrArg _ (State.consumed_consumed (s.withMem m) _ _)
    · cases k with
      | zero =>
        obtain rfl : q = q' := by simpa using hk
        obtain rfl : h = h' := by simpa using hh
        have hq := (List.pairwise_cons.1 hs.distinct).1
        have hbyte : m.read (s.hopAddr p q.1 q.2).toNat = BitVec.ofNat 8 h.val :=
          (hkept _ fun q' hq' he => hq q' hq' (BitVec.eq_of_toNat_eq he)).trans
            (Memory.read_write_same _ _ _)
        rw [hbyte, BitVec.toNat_ofNat, Nat.mod_eq_of_lt (by omega)]
      | succ k => exact hstored k q' h' (by simpa using hk) (by simpa using hh)
    · obtain ⟨haq, hal⟩ := List.forall_mem_cons.1 ha
      exact (hkept a hal).trans (Memory.read_write_other _ _ haq)

/-- Settles O53: the loop over the region's pixels, once the two checks have passed. -/
theorem decRegionStoresTheHopsInTheStream : Obligations.DecRegionStoresTheHopsInTheStream := by
  intro s f p hops hp hc hr hreg hlen hcodes hroom hdist apart
  have hpix : ∀ q ∈ s.region.pixels, s.inRegion q.1 q.2 := fun q hq => Region.mem_pixels hq
  have hpair : s.region.pixels.Pairwise fun q q' => s.hopAddr p q.1 q.2 ≠ s.hopAddr p q'.1 q'.2 :=
    s.region.pixels_nodup.imp_of_mem fun {q q'} hq hq' hne he =>
      hne (Prod.ext_iff.2 (hdist q.1 q.2 q'.1 q'.2 (hpix q hq) (hpix q' hq') he))
  have ahead : s.HopsAhead p s.region.pixels hops :=
    ⟨hc, hr, hlen, hcodes, hroom, hpair, fun q hq => apart q.1 q.2 (hpix q hq)⟩
  obtain ⟨m, hout, hstored, hkept⟩ := ahead.decodeLoop
  refine ⟨m, exec_ok ?_, hstored, fun a ha => hkept a fun q hq => ha q.1 q.2 (hpix q hq)⟩
  show (withPlane f cmdHuffDecRegion).out s = _
  rw [withPlane_some hp, cmdHuffDecRegion_eq, needHuff_seq, if_pos hr.1, regionCheck_seq_ok hreg,
    Cmd.out_read_bind]
  exact hout

end Sys2Proof.Machine
end

section
/-! PROOFS. Family 44_frame: the configuration check, the commands that move header and seeds, and the two
frame macros. -/

namespace Sys2Proof.Machine

-- One theorem at a time: many checked at once need more threads than the memory limit allows.
set_option Elab.async false

/-! ### CHECK_CONFIG (44_frame R402, R412) -/

/-- The frame check passes if no group of its checks fails. -/
theorem State.frameOk_iff (s : State) : s.frameOk ↔ s.cfg.DimsLegal ∧ s.cfg.ChromaLegal ∧
    s.cfg.width.toNat * s.cfg.height.toNat < 2 ^ 32 ∧
    s.cfg.width.toNat * s.cfg.height.toNat ≤ s.plat.maxPixels ∧
    s.cfg.someBlockEmpty = false ∧ ¬ s.cfg.RangeBad := by
  rw [State.frameOk, State.frameError_eq, ite_not, ite_not]
  split_ifs with dims chroma area pixels empty range
  · exact ⟨nofun, fun ⟨_, _, h, _⟩ => absurd area (not_le.2 h)⟩
  · exact ⟨nofun, fun ⟨_, _, _, h, _⟩ => absurd pixels (not_lt.2 h)⟩
  · exact ⟨nofun, fun ⟨_, _, _, _, h, _⟩ => Bool.noConfusion (empty.symm.trans h)⟩
  · exact ⟨nofun, fun ⟨_, _, _, _, _, h⟩ => absurd range h⟩
  · exact iff_of_true rfl ⟨dims, chroma, not_le.1 area, not_lt.1 pixels, eq_false_of_ne_true empty, range⟩
  · exact ⟨nofun, fun ⟨_, h, _⟩ => absurd h chroma⟩
  · exact ⟨nofun, fun ⟨h, _⟩ => absurd h dims⟩

/-- A check that does not pass fails with the error that it finds. -/
theorem State.frameFails_of_not_ok {s : State} (h : ¬ s.frameOk) : s.frameFails s.frameError := by
  rw [State.frameOk, State.frameError_eq, ite_not, ite_not] at h
  rw [State.frameError_eq, ite_not, ite_not, State.frameFails, ← FrameConfig.someBlockEmpty_eq_false_iff]
  split_ifs at h ⊢ with dims chroma area pixels empty range
  · exact .inr <| .inr <| .inl ⟨dims, chroma, area, rfl⟩
  · exact .inr <| .inr <| .inr <| .inl ⟨dims, chroma, not_le.1 area, pixels, rfl⟩
  · exact .inr <| .inr <| .inr <| .inr <| .inl
      ⟨dims, chroma, not_le.1 area, not_lt.1 pixels, ne_false_of_eq_true empty, rfl⟩
  · exact .inr <| .inr <| .inr <| .inr <| .inr
      ⟨dims, chroma, not_le.1 area, not_lt.1 pixels, eq_false_of_ne_true empty, range, rfl⟩
  · exact absurd rfl h
  · exact .inr <| .inl ⟨dims, chroma, rfl⟩
  · exact .inl ⟨dims, rfl⟩

/-- Settles O38: the check's error is that of the first group that fails. -/
theorem checkConfigAcceptsExactlyLegalFrames : Obligations.CheckConfigAcceptsExactlyLegalFrames := by
  refine fun s => ⟨?_, fun h => exec_ok ?_, fun h => ⟨_, State.frameFails_of_not_ok h⟩, fun e he => ?_⟩
  · rw [State.frameOk_iff, FrameConfig.someBlockEmpty_eq_false_iff, not_or, not_or, not_lt, not_lt, not_lt,
      and_assoc, and_assoc, and_assoc, and_assoc, and_assoc, and_assoc]
    rfl
  · exact (frameCheck_out s).trans (if_pos h)
  · obtain ⟨rfl, hne⟩ := State.frameError_of_fails he
    exact ⟨rfl, exec_raised ((frameCheck_out s).trans (if_neg hne))⟩

/-! ### Fields of the input stream, one after the other (20_memory R111) -/

section
variable {s : State} {j k n : Nat}

theorem State.consumed_canRead (h : s.canRead (k + n)) : (s.consumed k).canRead n := by
  have hpos := s.consumed_pos (n := k) (by simp only [State.canRead] at *; omega)
  rw [State.canRead, hpos, State.consumed_budget, Nat.add_assoc]
  exact h

theorem readBits_consumed (h : s.canRead (k + n)) :
    (readBits n).out (s.consumed k) = .ok (s.inputField k n) (s.consumed (k + n)) := by
  have hk : s.canRead k := by simp only [State.canRead] at *; omega
  rw [readBits_ok n _ (State.consumed_canRead h), State.consumed_consumed, s.consumed_pos hk]
  rfl

theorem readLe32_consumed (h : s.canRead (k + 32)) : readLe32.out (s.consumed k) =
    .ok (le32At s.mem s.reader.base (s.reader.pos.toNat + k)) (s.consumed (k + 32)) := by
  have hk : ∀ j, j ≤ 32 → s.canRead (k + j) := fun j hj => by simp only [State.canRead] at *; omega
  rw [readLe32, Cmd.out_bind_ok (readBits_consumed (hk 8 (by omega))),
    Cmd.out_bind_ok (readBits_consumed (k := k + 8) (hk 16 (by omega))),
    Cmd.out_bind_ok (readBits_consumed (k := k + 16) (hk 24 (by omega))),
    Cmd.out_bind_ok (readBits_consumed (k := k + 24) (hk 32 le_rfl)), Cmd.out_pure]
  rfl

end

/-! ### Bodies that append the same bits to every stream (20_memory R114) -/

/-- The body appends `bits` wherever the limit leaves room for them. -/
def Cmd.Writes (c : Cmd Unit) (bits : List Bool) : Prop :=
  ∀ s : State, s.calm → s.canWrite bits.length → c.Appends s bits

section
variable {c d : Cmd Unit} {xs ys : List Bool} {s : State}

theorem Cmd.Appends.seq (hw : s.canWrite (xs.length + ys.length)) (hc : c.Appends s xs)
    (hd : ∀ m, d.Appends ((s.withMem m).produced xs.length) ys) : (c.seq d).Appends s (xs ++ ys) := by
  obtain ⟨m, outc, appc⟩ := hc
  obtain ⟨m', outd, appd⟩ := hd m
  have hx : s.canWrite xs.length := by simp only [State.canWrite] at *; omega
  have hpos : ((s.withMem m).produced xs.length).writer.pos.toNat = s.writer.pos.toNat + xs.length :=
    (s.withMem m).produced_pos hx
  refine ⟨m', ?_, appc.append (hpos ▸ appd) ?_⟩
  · rw [Cmd.out_seq_ok outc, outd, List.length_append]
    exact congrArg _ (State.produced_produced (s.withMem m') _ _)
  · have := s.writer.limit.isLt
    simp only [State.canWrite] at hw
    omega

theorem Cmd.Writes.seq (hc : c.Writes xs) (hd : d.Writes ys) : (c.seq d).Writes (xs ++ ys) :=
  fun s calm hw => by
    rw [List.length_append] at hw
    have hx : s.canWrite xs.length := by simp only [State.canWrite] at *; omega
    refine (hc s calm hx).seq hw fun m => hd _ calm ?_
    rw [State.canWrite, (s.withMem m).produced_pos hx, Nat.add_assoc]
    exact hw

theorem writeBits_writes (v n : Nat) : (writeBits v n).Writes (msbBits v n) := fun _ calm hw =>
  writeBits_appends v n calm (msbBits_length v n ▸ hw)

theorem Cmd.writes_nil : (Cmd.pure ()).Writes [] := fun s _ _ =>
  ⟨s.mem, by rw [List.length_nil, State.produced_zero]; rfl, Appended.nil _ _ _⟩

theorem Cmd.writes_forEach {α : Type} {f : α → Cmd Unit} {bits : α → List Bool}
    (hf : ∀ a, (f a).Writes (bits a)) (l : List α) : (Cmd.forEach l f).Writes (l.flatMap bits) := by
  induction l with
  | nil => exact Cmd.writes_nil
  | cons a l ih => exact (hf a).seq ih

end

/-! ### NOP and BW_FLUSH (44_frame R411, R417) -/

theorem msbBits_zero (n : Nat) : msbBits 0 n = List.replicate n false := by
  induction n with
  | zero => rfl
  | succ n ih => rw [msbBits_succ, ih, Nat.zero_testBit, List.replicate_succ]

/-- BW_FLUSH: everything it can do. -/
theorem cmdBwFlush_out (s : State) : cmdBwFlush.out s =
    if s.canWrite (padding s.writer.pos) then (writeBits 0 (padding s.writer.pos)).out s
    else .raised .outOverflow s := by
  rw [cmdBwFlush, Cmd.out_require_seq _ _ _ _ (by decide), Cmd.out_read_bind]
  exact if_congr (decide_eq_true_iff) rfl rfl

theorem cmdBwFlush_appends {s : State} (calm : s.calm) (hw : s.canWrite (padding s.writer.pos)) :
    cmdBwFlush.Appends s (List.replicate (padding s.writer.pos) false) := by
  obtain ⟨m, out, app⟩ := writeBits_appends 0 _ calm hw
  rw [msbBits_zero] at out app
  exact ⟨m, by rw [cmdBwFlush_out, if_pos hw, out], app⟩

theorem add_padding_mod (pos : Word) : (pos.toNat + padding pos) % 8 = 0 := by
  unfold padding
  omega

/-- Settles O55: the padding ends on a byte boundary, and its zero bits fit or do not. -/
theorem nopAndFlush : Obligations.NopAndFlush := by
  refine fun s => ⟨rfl, fun calm hw => ?_, fun _ hw => exec_raised ((cmdBwFlush_out s).trans (if_neg hw))⟩
  obtain ⟨m, out, app⟩ := cmdBwFlush_appends calm hw
  rw [List.length_replicate] at out
  refine ⟨m, exec_ok out, ?_, app⟩
  exact (congrArg (· % 8) (s.produced_pos hw)).trans (add_padding_mod _)

/-! ### HDR_READ and HDR_WRITE (44_frame R405, R413, R414) -/

/-- The configuration that the header in the input stream loads (44_frame R413). -/
def State.headerCfg (s : State) : FrameConfig :=
  { s.cfg with
    mode := BitVec.ofNat 8 (s.inputField 0 8),
    width := BitVec.ofNat 32 (le32At s.mem s.reader.base (s.reader.pos.toNat + 8)),
    height := BitVec.ofNat 32 (le32At s.mem s.reader.base (s.reader.pos.toNat + 40)),
    gridW := BitVec.ofNat 8 (s.inputField 72 8),
    gridH := BitVec.ofNat 8 (s.inputField 80 8) }

/-- HDR_READ within the budget ends as the frame check of the loaded configuration does. -/
theorem cmdHdrRead_out {s : State} (h : s.canRead 88) :
    cmdHdrRead.out s = frameCheck.out ((s.withCfg s.headerCfg).consumed 88) := by
  have room : ∀ j, j ≤ 88 → s.canRead j := fun j hj => by simp only [State.canRead] at *; omega
  rw [cmdHdrRead, ← s.consumed_zero, Cmd.out_bind_ok (readBits_consumed (room (0 + 8) (by omega))),
    Cmd.out_bind_ok (readLe32_consumed (k := 8) (room 40 (by omega))),
    Cmd.out_bind_ok (readLe32_consumed (k := 40) (room 72 (by omega))),
    Cmd.out_bind_ok (readBits_consumed (k := 72) (room 80 (by omega))),
    Cmd.out_bind_ok (readBits_consumed (k := 80) (room 88 le_rfl)), Cmd.out_update_seq,
    State.consumed_zero]
  rfl

theorem writeLe32_writes (w : Word) :
    (writeLe32 w).Writes ([0, 1, 2, 3].flatMap fun k => msbBits (byteOf w k) 8) :=
  Cmd.writes_forEach (fun k => writeBits_writes (byteOf w k) 8) _

theorem cmdHdrWrite_appends {s : State} (calm : s.calm) (h : s.frameOk) (hw : s.canWrite 88) :
    cmdHdrWrite.Appends s s.cfg.headerBits := by
  obtain ⟨m, out, app⟩ := ((writeBits_writes s.cfg.mode.toNat 8).seq <| (writeLe32_writes s.cfg.width).seq <|
    (writeLe32_writes s.cfg.height).seq <|
    (writeBits_writes s.cfg.gridW.toNat 8).seq (writeBits_writes s.cfg.gridH.toNat 8)) s calm hw
  exact ⟨m, by rw [cmdHdrWrite, frameCheck_seq_ok h, Cmd.out_read_bind]; exact out, app⟩

/-- Settles O56: eleven bytes, read before the registers are loaded or written after the check. -/
theorem headerCommandsMoveTheHeader : Obligations.HeaderCommandsMoveTheHeader := by
  refine fun s => ⟨fun hr ok => exec_ok ?_, fun hr e he => exec_raised ?_, fun calm h hw => ?_⟩
  · exact (cmdHdrRead_out hr).trans ((frameCheck_out _).trans (if_pos ok))
  · obtain ⟨rfl, hne⟩ := State.frameError_of_fails he
    exact (cmdHdrRead_out hr).trans ((frameCheck_out _).trans (if_neg hne))
  · obtain ⟨m, out, app⟩ := cmdHdrWrite_appends calm h hw
    exact ⟨m, exec_ok out, app⟩

/-! ### SEEDS_READ and SEEDS_WRITE (44_frame R406, R415, R416) -/

theorem FrameConfig.seedCount_le (c : FrameConfig) : c.seedCount ≤ 3 * 256 * 256 :=
  Nat.mul_le_mul (Nat.mul_le_mul_left 3 c.gridW.isLt.le) c.gridH.isLt.le

/-- Numbers below 2^32 are told apart by the addresses they give. -/
theorem add_ofNat_inj {base : Word} {i j : Nat} (hi : i < 2 ^ 32) (hj : j < 2 ^ 32)
    (h : base + BitVec.ofNat 32 i = base + BitVec.ofNat 32 j) : i = j := by
  have := congrArg BitVec.toNat ((BitVec.add_right_inj base).1 h)
  rwa [BitVec.toNat_ofNat, BitVec.toNat_ofNat, Nat.mod_eq_of_lt hi, Nat.mod_eq_of_lt hj] at this

theorem State.seedSlot_inj (s : State) {i j : Nat} (hi : i < s.cfg.seedCount) (hj : j < s.cfg.seedCount)
    (h : (s.seedSlot i).toNat = (s.seedSlot j).toNat) : i = j := by
  have := s.cfg.seedCount_le
  exact add_ofNat_inj (by omega) (by omega) (BitVec.eq_of_toNat_eq h)

/-- The byte that the seed field holds for seed number `i`. -/
def State.inputSeed (s : State) (i : Nat) : Byte := BitVec.ofNat 8 (s.inputField (8 * i) 8)

/-- After `k` seeds of SEEDS_READ from `s`: those seeds stand in the array, no other byte and no register
but BR_POS has changed. -/
structure State.SeedsRead (s : State) (k : Nat) (t : State) : Prop where
  rest : t = (s.withMem t.mem).consumed (8 * k)
  stored : ∀ i, i < k → t.mem.read (s.seedSlot i).toNat = s.inputSeed i
  kept : ∀ a, (∀ i, i < k → a ≠ (s.seedSlot i).toNat) → t.mem.read a = s.mem.read a

section
variable {s t : State} {k n : Nat}

theorem State.seedsRead_start (s : State) : s.SeedsRead 0 s where
  rest := by rw [Nat.mul_zero, State.consumed_zero]; rfl
  stored _ hi := absurd hi (Nat.not_lt_zero _)
  kept _ _ := rfl

theorem State.SeedsRead.calm (h : s.SeedsRead k t) (hc : s.calm) : t.calm := by
  rw [h.rest]
  exact hc

/-- The next seed is still the one that stands in the stream: no slot is a byte of it. -/
theorem State.SeedsRead.readBits_out (h : s.SeedsRead k t) (hk : k < n) (hr : s.canRead (8 * n))
    (apart : ∀ i, i < n → ¬ inStream s.reader.base s.reader.pos.toNat (8 * n) (s.seedSlot i).toNat) :
    (readBits 8).out t = .ok (s.inputField (8 * k) 8) (t.consumed 8) := by
  have hroom : (s.withMem t.mem).canRead (8 * k + 8) := by
    simp only [State.canRead, State.withMem_reader] at *
    omega
  have hout := readBits_consumed hroom
  rw [← State.consumed_consumed, ← h.rest] at hout
  refine hout.trans (congrArg (Out.ok · _) (fieldAt_congr fun b hb => ?_))
  rw [bitAt, bitAt]
  refine congrArg (BitVec.getLsbD · _) (h.kept _ fun i hi he => ?_)
  exact apart i (hi.trans hk) ⟨8 * k + b, by omega, by rw [← he, Nat.add_assoc]; rfl⟩

theorem State.SeedsRead.next (h : s.SeedsRead k t) (hk : k < s.cfg.seedCount) :
    s.SeedsRead (k + 1) ((t.withMem (t.mem.write (s.seedSlot k).toNat (s.inputSeed k))).consumed 8) where
  rest := (congrArg (fun u => (State.withMem u _).consumed 8) h.rest).trans
    (State.consumed_consumed (s.withMem (t.mem.write _ _)) (8 * k) 8)
  stored i hi := by
    rw [State.consumed_mem, State.withMem_mem, Memory.read_write]
    split
    · next he => rw [s.seedSlot_inj (by omega) hk he]
    · next hne => exact h.stored i (by rcases Nat.lt_succ_iff_lt_or_eq.1 hi with hi | rfl <;> tauto)
  kept a ha := by
    rw [State.consumed_mem, State.withMem_mem, Memory.read_write_other _ _ (ha k k.lt_succ_self)]
    exact h.kept a fun i hi => ha i (hi.trans k.lt_succ_self)

end

/-- SEEDS_READ ends with every seed in the array. -/
theorem cmdSeedsRead_ok {s : State} (hc : s.calm) (h : s.frameOk) (hr : s.canRead (8 * s.cfg.seedCount))
    (apart : ∀ i, i < s.cfg.seedCount →
      ¬ inStream s.reader.base s.reader.pos.toNat (8 * s.cfg.seedCount) (s.seedSlot i).toNat) :
    ∃ t, cmdSeedsRead.out s = .ok () t ∧ s.SeedsRead s.cfg.seedCount t := by
  rw [cmdSeedsRead, frameCheck_seq_ok h, Cmd.out_read_bind, ← List.map_id (List.range _)]
  refine Cmd.forEach_numbered s.seedsRead_start fun k t hk ht => ⟨_, ?_, ht.next hk⟩
  have hslot : t.seedSlot k = s.seedSlot k := by rw [ht.rest]; rfl
  rw [id_eq, Cmd.out_bind_ok (ht.readBits_out hk hr apart), Cmd.out_read_bind, out_memWrite,
    State.storeByte_calm (s := t.consumed 8) (ht.calm hc)]
  show Out.ok () ((t.withMem (t.mem.write (t.seedSlot k).toNat _)).consumed 8) = _
  rw [hslot]
  rfl

/-- The bits of seed number `i`. -/
def State.slotBits (s : State) (i : Nat) : List Bool := msbBits (s.byteAt (s.seedSlot i)).toNat 8

/-- The bits of the seed field (44_frame R406). -/
def State.seedBits (s : State) : List Bool := (List.range s.cfg.seedCount).flatMap s.slotBits

theorem flatMap_length_const {α : Type} {f : α → List Bool} {n : Nat} (hf : ∀ a, (f a).length = n)
    (l : List α) : (l.flatMap f).length = n * l.length := by
  rw [List.length_flatMap, funext hf, List.map_const', List.sum_replicate, smul_eq_mul, Nat.mul_comm]

theorem State.seedBits_length (s : State) : s.seedBits.length = 8 * s.cfg.seedCount := by
  rw [State.seedBits, flatMap_length_const (f := s.slotBits) fun i => msbBits_length _ 8, List.length_range]

theorem cmdSeedsWrite_appends {s : State} (hc : s.calm) (h : s.frameOk)
    (hw : s.canWrite (8 * s.cfg.seedCount))
    (apart : ∀ i, i < s.cfg.seedCount →
      ¬ inStream s.writer.base s.writer.pos.toNat (8 * s.cfg.seedCount) (s.seedSlot i).toNat) :
    cmdSeedsWrite.Appends s s.seedBits := by
  have loop : (Cmd.forEach (List.range s.cfg.seedCount) fun i =>
      (Cmd.read fun s => s.seedSlot i).bind fun a =>
      (memRead a).bind fun v => writeBits v.toNat 8).Appends s s.seedBits := by
    refine Cmd.Appends.forEach hw (fun i hi k t ht room => ?_) (s.appending_start _)
      (by rw [Nat.zero_add]; exact s.seedBits_length.le)
    have hslot : t.seedSlot i = s.seedSlot i := by rw [ht.rest]; rfl
    have hbyte : t.mem.read (s.seedSlot i).toNat = s.byteAt (s.seedSlot i) :=
      ht.kept _ (apart i (List.mem_range.1 hi))
    obtain ⟨m, out, app⟩ := writeBits_appends (s.byteAt (s.seedSlot i)).toNat 8 (ht.calm hc) room
    exact ⟨m, by rw [Cmd.out_read_bind, out_memRead_bind, hslot, hbyte]; exact out, app⟩
  obtain ⟨m, out, app⟩ := loop
  exact ⟨m, by rw [cmdSeedsWrite, frameCheck_seq_ok h, Cmd.out_read_bind]; exact out, app⟩

/-- Settles O57: seed by seed, the stream keeps its fields while the array is stored, and the array its
bytes while the stream is written. -/
theorem seedCommandsMoveTheSeedArray : Obligations.SeedCommandsMoveTheSeedArray := by
  refine fun s hc h => ⟨fun hr apart => ?_, fun hw apart => ?_⟩
  · obtain ⟨t, out, read⟩ := cmdSeedsRead_ok hc h hr apart
    refine ⟨t.mem, ?_, fun i hi => ?_, read.kept⟩
    · exact read.rest ▸ exec_ok out
    · have hlt : s.inputField (8 * i) 8 < 2 ^ 8 := fieldAt_lt _ _ _ _
      rw [read.stored i hi, State.inputSeed, BitVec.toNat_ofNat, Nat.mod_eq_of_lt hlt]
  · obtain ⟨m, out, app⟩ := cmdSeedsWrite_appends hc h hw apart
    rw [s.seedBits_length] at out
    exact ⟨m, exec_ok out, app⟩

end Sys2Proof.Machine
end

section
namespace Sys2Proof.Machine

-- One theorem at a time: many checked at once need more threads than the memory limit allows.
set_option Elab.async false

/-! ### The bytes of a frame that share no address (20_memory R107) -/

/-- A byte that a frame command works with: of a pixel's hop or reconstruction, of the seed or the mesh
array, or of the stream, by its number there. -/
inductive Place where
  | hop (p : Plane) (x y : Nat)
  | dst (p : Plane) (x y : Nat)
  | seed (i : Nat)
  | mesh (k : Nat)
  | stream (j : Nat)

/-- The address of a place, the stream's first byte being at `first`. -/
def State.placeAddr (s : State) (first : Word) : Place → Word
  | .hop p x y => s.hopAddr p x y
  | .dst p x y => s.dstAddr p x y
  | .seed i => s.seedSlot i
  | .mesh k => s.meshByteAddr k
  | .stream j => first + BitVec.ofNat 32 j

/-- The places of a frame whose stream takes `n` bytes. -/
def FrameConfig.places (c : FrameConfig) (n : Nat) : List Place :=
  (allPlanes.flatMap fun p => (raster (c.planeW p) (c.planeH p)).map fun q => .hop p q.1 q.2) ++
  (allPlanes.flatMap fun p => (raster (c.planeW p) (c.planeH p)).map fun q => .dst p q.1 q.2) ++
  (List.range c.seedCount).map .seed ++ (List.range c.cornerCount).map .mesh ++ (List.range n).map .stream

/-- The place is one of the frame's. -/
def FrameConfig.HasPlace (c : FrameConfig) (n : Nat) : Place → Prop
  | .hop p x y => x < c.planeW p ∧ y < c.planeH p
  | .dst p x y => x < c.planeW p ∧ y < c.planeH p
  | .seed i => i < c.seedCount
  | .mesh k => k < c.cornerCount
  | .stream j => j < n

theorem FrameConfig.mem_places {c : FrameConfig} {n : Nat} {l : Place} :
    l ∈ c.places n ↔ c.HasPlace n l := by
  cases l <;> simp [FrameConfig.places, FrameConfig.HasPlace, mem_allPlanes, mem_raster]

theorem State.map_places (s : State) (first : Word) (n : Nat) :
    (s.cfg.places n).map (s.placeAddr first) =
      s.hopBytes ++ s.dstBytes ++ s.seedBytes ++ s.meshBytes ++ addrsFrom first n := by
  simp only [FrameConfig.places, List.map_append, List.map_flatMap, List.map_map]
  rfl

section
variable {s : State} {first : Word} {n : Nat} {l l' : Place}

/-- Buffers that do not overlap tell places apart by their addresses. -/
theorem State.place_inj (h : s.buffersApart (addrsFrom first n)) (hl : s.cfg.HasPlace n l)
    (hl' : s.cfg.HasPlace n l') (he : (s.placeAddr first l).toNat = (s.placeAddr first l').toNat) :
    l = l' := by
  rw [State.buffersApart, ← State.map_places] at h
  exact List.inj_on_of_nodup_map h (FrameConfig.mem_places.2 hl) (FrameConfig.mem_places.2 hl')
    (BitVec.eq_of_toNat_eq he)

/-- A frame whose buffers do not overlap has no more bytes than there are addresses. -/
theorem State.places_length_le (h : s.buffersApart (addrsFrom first n)) :
    (s.cfg.places n).length ≤ 2 ^ 32 := by
  rw [State.buffersApart, ← State.map_places] at h
  have hlt : ∀ a ∈ ((s.cfg.places n).map (s.placeAddr first)).map BitVec.toNat, a ∈ List.range (2 ^ 32) := by
    intro a ha
    obtain ⟨w, -, rfl⟩ := List.mem_map.1 ha
    exact List.mem_range.2 w.isLt
  have hnodup := h.map (f := BitVec.toNat) fun _ _ he => BitVec.eq_of_toNat_eq he
  simpa only [List.length_map, List.length_range] using (List.subperm_of_subset hnodup hlt).length_le

theorem raster_length (w h : Nat) : (raster w h).length = w * h := by
  rw [raster_eq_map, List.length_map, List.length_range]

theorem State.sampleCount_lt (h : s.buffersApart (addrsFrom first n)) : s.cfg.sampleCount < 2 ^ 32 := by
  have hlen := s.places_length_le h
  simp only [FrameConfig.places, List.length_append, List.length_flatMap, List.length_map, raster_length,
    List.length_range] at hlen
  have hcorner : 0 < s.cfg.cornerCount := Nat.mul_pos (Nat.succ_pos _) (Nat.succ_pos _)
  rw [FrameConfig.sampleCount]
  omega

end

/-- The bytes that hold bits `q` to before `q + n` are those that `streamBytes` lists. -/
theorem inStream_iff_byte {base : Word} {q n a : Nat} (h : q + n ≤ 2 ^ 32) : inStream base q n a →
    ∃ j, j < (q % 8 + n + 7) / 8 ∧ a = (base + BitVec.ofNat 32 (q / 8) + BitVec.ofNat 32 j).toNat := by
  rintro ⟨k, hk, rfl⟩
  refine ⟨(q + k) / 8 - q / 8, by omega, ?_⟩
  rw [BitVec.add_assoc, ← BitVec.ofNat_add, Nat.add_sub_cancel' (Nat.div_le_div_right (Nat.le_add_right q k)),
    streamByte_eq base (by omega), BitVec.toNat_add, BitVec.toNat_ofNat, Nat.add_mod_mod]

/-! ### Legal frames (44_frame R402, 42_mesh R300 to R303) -/

/-- The block is one of the grid's. -/
abbrev FrameConfig.InGrid (c : FrameConfig) (b : Nat × Nat) : Prop := b.1 < c.blocksW ∧ b.2 < c.blocksH

theorem cdiv_le_self (a : Nat) {b : Nat} (hb : 0 < b) : cdiv a b ≤ a :=
  (cdiv_le_iff hb).2 (Nat.le_mul_of_pos_left a hb)

section
variable {s : State} {p : Plane} {b : Nat × Nat}

theorem State.frameOk.planeW_lt (h : s.frameOk) (p : Plane) : s.cfg.planeW p < 2 ^ 32 :=
  (cdiv_le_self _ (h.chromaLegal.sub_pos p).1).trans_lt s.cfg.width.isLt

theorem State.frameOk.planeH_lt (h : s.frameOk) (p : Plane) : s.cfg.planeH p < 2 ^ 32 :=
  (cdiv_le_self _ (h.chromaLegal.sub_pos p).2).trans_lt s.cfg.height.isLt

/-- A block is not empty, and it lies in its plane. -/
theorem State.frameOk.block (h : s.frameOk) (hb : s.cfg.InGrid b) (p : Plane) :
    (s.cfg.boundX p b.1 < s.cfg.boundX p (b.1 + 1) ∧ s.cfg.boundX p (b.1 + 1) ≤ s.cfg.planeW p) ∧
    (s.cfg.boundY p b.2 < s.cfg.boundY p (b.2 + 1) ∧ s.cfg.boundY p (b.2 + 1) ≤ s.cfg.planeH p) := by
  obtain ⟨-, -, -, -, full, -⟩ := s.frameOk_iff.1 h
  obtain ⟨fullX, fullY⟩ := s.cfg.someBlockEmpty_eq_false_iff.1 full
  obtain ⟨-, -, -, hgw, hgh⟩ := h.dimsLegal
  obtain ⟨hsx, hsy⟩ := h.chromaLegal.sub_pos p
  obtain ⟨monoX, -, xlast⟩ :=
    cdiv_lumaBound s.cfg.width.toNat (BitVec.toNat_pos_of_ne_zero hgw) hsx
  obtain ⟨monoY, -, ylast⟩ :=
    cdiv_lumaBound s.cfg.height.toNat (BitVec.toNat_pos_of_ne_zero hgh) hsy
  exact ⟨⟨fullX p _ hb.1, (monoX hb.1).trans_eq xlast⟩, ⟨fullY p _ hb.2, (monoY hb.2).trans_eq ylast⟩⟩

/-- A block's region takes no side of its block away and exceeds none (42_mesh R316). -/
theorem State.blockSize_bounds (h : s.frameOk) (hb : s.cfg.InGrid b) (p : Plane) :
    (0 < (s.blockSize p b.1 b.2).1 ∧ (s.blockSize p b.1 b.2).1 ≤ s.cfg.blockW p b.1) ∧
    (0 < (s.blockSize p b.1 b.2).2 ∧ (s.blockSize p b.1 b.2).2 ≤ s.cfg.blockH p b.2) := by
  obtain ⟨⟨hx, -⟩, ⟨hy, -⟩⟩ := h.block hb p
  have hw : 0 < s.cfg.blockW p b.1 := Nat.sub_pos_of_lt hx
  have hh : 0 < s.cfg.blockH p b.2 := Nat.sub_pos_of_lt hy
  have side : ∀ n e1 e2, 0 < n → 0 < downSide n e1 e2 ∧ downSide n e1 e2 ≤ n := fun n e1 e2 hn => by
    have := downSide_bounds n e1 e2
    omega
  rw [State.blockSize]
  split
  · exact ⟨side _ _ _ hw, side _ _ _ hh⟩
  · exact ⟨⟨hw, le_rfl⟩, ⟨hh, le_rfl⟩⟩

/-- The region that BLOCK_GEOM selects for a block (42_mesh R315). -/
def State.blockRegion (s : State) (p : Plane) (b : Nat × Nat) : Region :=
  { x0 := BitVec.ofNat 32 (s.cfg.boundX p b.1), y0 := BitVec.ofNat 32 (s.cfg.boundY p b.2),
    w := BitVec.ofNat 32 (s.blockSize p b.1 b.2).1, h := BitVec.ofNat 32 (s.blockSize p b.1 b.2).2 }

/-- The registers hold the block's numbers whole. -/
theorem State.blockRegion_toNat (h : s.frameOk) (hb : s.cfg.InGrid b) (p : Plane) :
    (s.blockRegion p b).x0.toNat = s.cfg.boundX p b.1 ∧ (s.blockRegion p b).y0.toNat = s.cfg.boundY p b.2 ∧
    (s.blockRegion p b).w.toNat = (s.blockSize p b.1 b.2).1 ∧
    (s.blockRegion p b).h.toNat = (s.blockSize p b.1 b.2).2 := by
  obtain ⟨⟨hx, hxw⟩, ⟨hy, hyh⟩⟩ := h.block hb p
  obtain ⟨⟨-, hw⟩, ⟨-, hh⟩⟩ := s.blockSize_bounds h hb p
  have hW := h.planeW_lt p
  have hH := h.planeH_lt p
  rw [FrameConfig.blockW] at hw
  rw [FrameConfig.blockH] at hh
  simp only [State.blockRegion, BitVec.toNat_ofNat]
  exact ⟨Nat.mod_eq_of_lt (by omega), Nat.mod_eq_of_lt (by omega), Nat.mod_eq_of_lt (by omega),
    Nat.mod_eq_of_lt (by omega)⟩

/-- (x, y) lies in the region of the block. -/
abbrev State.inBlock (s : State) (p : Plane) (b : Nat × Nat) (x y : Nat) : Prop :=
  (s.withRegion (s.blockRegion p b)).inRegion x y

theorem State.inBlock_iff (h : s.frameOk) (hb : s.cfg.InGrid b) (x y : Nat) : s.inBlock p b x y ↔
    s.cfg.boundX p b.1 ≤ x ∧ x < s.cfg.boundX p b.1 + (s.blockSize p b.1 b.2).1 ∧
    s.cfg.boundY p b.2 ≤ y ∧ y < s.cfg.boundY p b.2 + (s.blockSize p b.1 b.2).2 := by
  obtain ⟨x0, y0, w, h⟩ := s.blockRegion_toNat h hb p
  rw [State.inBlock, State.inRegion, State.withRegion_region, x0, y0, w, h]

/-- The pixels of a block's region lie in the block. -/
theorem State.inBlock.bounds {x y : Nat} (hin : s.inBlock p b x y) (h : s.frameOk) (hb : s.cfg.InGrid b) :
    s.cfg.boundX p b.1 ≤ x ∧ x < s.cfg.boundX p (b.1 + 1) ∧
    s.cfg.boundY p b.2 ≤ y ∧ y < s.cfg.boundY p (b.2 + 1) := by
  obtain ⟨⟨hx, -⟩, ⟨hy, -⟩⟩ := h.block hb p
  obtain ⟨⟨-, hw⟩, ⟨-, hh⟩⟩ := s.blockSize_bounds h hb p
  obtain ⟨h1, h2, h3, h4⟩ := (s.inBlock_iff h hb x y).1 hin
  rw [FrameConfig.blockW] at hw
  rw [FrameConfig.blockH] at hh
  omega

theorem State.inBlock.inPlane {x y : Nat} (hin : s.inBlock p b x y) (h : s.frameOk) (hb : s.cfg.InGrid b) :
    x < s.cfg.planeW p ∧ y < s.cfg.planeH p := by
  obtain ⟨⟨-, hxw⟩, ⟨-, hyh⟩⟩ := h.block hb p
  obtain ⟨-, hx, -, hy⟩ := hin.bounds h hb
  omega

/-- A pixel lies in one block only (42_mesh R303). -/
theorem State.inBlock.unique {b' : Nat × Nat} {x y : Nat} (hin : s.inBlock p b x y)
    (hin' : s.inBlock p b' x y) (h : s.frameOk) (hb : s.cfg.InGrid b) (hb' : s.cfg.InGrid b') : b = b' := by
  obtain ⟨-, -, -, -, tiles⟩ := blocksTileThePlane s p h
  obtain ⟨hx, hy⟩ := hin.inPlane h hb
  exact (tiles x y hx hy).unique ⟨hb.1, hb.2, hin.bounds h hb⟩ ⟨hb'.1, hb'.2, hin'.bounds h hb'⟩

theorem State.blockRegion_ok (h : s.frameOk) (hb : s.cfg.InGrid b) (p : Plane) :
    (s.withRegion (s.blockRegion p b)).regionOk p := by
  obtain ⟨⟨hx, hxw⟩, ⟨hy, hyh⟩⟩ := h.block hb p
  obtain ⟨⟨hw0, hw⟩, ⟨hh0, hh⟩⟩ := s.blockSize_bounds h hb p
  obtain ⟨x0, y0, w, h'⟩ := s.blockRegion_toNat h hb p
  rw [FrameConfig.blockW] at hw
  rw [FrameConfig.blockH] at hh
  refine (State.regionOk_iff _ p).2 ⟨h, ?_⟩
  simp only [State.withRegion_region, State.withRegion_cfg, x0, y0, w, h']
  omega

end

/-! ### The mesh of a frame (42_mesh R305 to R312) -/

/-- In advanced mode every mesh byte names levels. -/
def State.meshOk (s : State) : Prop :=
  s.cfg.mode = 2 → ∀ k, k < s.cfg.cornerCount → meshLegal (s.byteAt (s.meshByteAddr k)) = true

/-- The number of a corner of a block. -/
theorem FrameConfig.InGrid.corner_lt {c : FrameConfig} {b : Nat × Nat} (hb : c.InGrid b) {cx cy : Nat}
    (hx : cx ≤ b.1 + 1) (hy : cy ≤ b.2 + 1) : cy * (c.blocksW + 1) + cx < c.cornerCount :=
  FrameConfig.corner_lt (k := (cx, cy)) (mem_raster.2 ⟨by dsimp only; omega, by dsimp only; omega⟩)

section
variable {s t : State} {p : Plane} {b : Nat × Nat}

theorem State.meshOk.cornersOk (h : s.meshOk) (hb : s.cfg.InGrid b) : s.cornersOk b.1 b.2 := fun hm =>
  have legal : ∀ cx cy, cx ≤ b.1 + 1 → cy ≤ b.2 + 1 → meshLegal (s.byteAt (s.meshAddr cx cy)) = true :=
    fun _ _ hx hy => h hm _ (hb.corner_lt hx hy)
  ⟨legal _ _ (by omega) (by omega), legal _ _ le_rfl (by omega), legal _ _ (by omega) le_rfl,
    legal _ _ le_rfl le_rfl⟩

/-- The sides of a region depend on the configuration and on the codes of the mesh. -/
theorem State.blockSize_congr (cfg : t.cfg = s.cfg) (mesh : s.cfg.mode = 2 → ∀ k, k < s.cfg.cornerCount →
      meshX (t.byteAt (t.meshByteAddr k)) = meshX (s.byteAt (s.meshByteAddr k)) ∧
      meshY (t.byteAt (t.meshByteAddr k)) = meshY (s.byteAt (s.meshByteAddr k)))
    (hb : s.cfg.InGrid b) (p : Plane) : t.blockSize p b.1 b.2 = s.blockSize p b.1 b.2 := by
  rw [State.blockSize, State.blockSize, cfg]
  by_cases hm : s.cfg.mode = 2
  · have code : ∀ cx cy, cx ≤ b.1 + 1 → cy ≤ b.2 + 1 →
        meshX (t.byteAt (t.meshAddr cx cy)) = meshX (s.byteAt (s.meshAddr cx cy)) ∧
        meshY (t.byteAt (t.meshAddr cx cy)) = meshY (s.byteAt (s.meshAddr cx cy)) := fun cx cy hx hy => by
      have := mesh hm _ (hb.corner_lt hx hy)
      rwa [State.meshAddr, State.meshAddr, cfg]
    obtain ⟨xtl, ytl⟩ := code b.1 b.2 (by omega) (by omega)
    obtain ⟨xtr, ytr⟩ := code (b.1 + 1) b.2 le_rfl (by omega)
    obtain ⟨xbl, ybl⟩ := code b.1 (b.2 + 1) (by omega) le_rfl
    obtain ⟨xbr, ybr⟩ := code (b.1 + 1) (b.2 + 1) le_rfl le_rfl
    rw [if_pos hm, if_pos hm]
    simp only [Corners.sideX, Corners.sideY, State.cornersOf, xtl, ytl, xtr, ytr, xbl, ybl, xbr, ybr]
  · rw [if_neg hm, if_neg hm]

/-! ### The pixels of a frame (42_mesh R315) -/

theorem State.scanned_iff (h : s.frameOk) (p : Plane) (x y : Nat) :
    s.scanned p x y ↔ ∃ b, s.cfg.InGrid b ∧ s.inBlock p b x y := by
  constructor
  · rintro ⟨bx, row, hx, hy, hin⟩
    exact ⟨(bx, row), ⟨hx, hy⟩, (s.inBlock_iff h ⟨hx, hy⟩ x y).2 hin⟩
  · rintro ⟨b, hb, hin⟩
    exact ⟨b.1, b.2, hb.1, hb.2, (s.inBlock_iff h hb x y).1 hin⟩

theorem Region.mem_pixels_iff {r : Region} {q : Nat × Nat} : q ∈ r.pixels ↔
    r.x0.toNat ≤ q.1 ∧ q.1 < r.x0.toNat + r.w.toNat ∧
      r.y0.toNat ≤ q.2 ∧ q.2 < r.y0.toNat + r.h.toNat := by
  refine ⟨Region.mem_pixels, fun ⟨hx, hxw, hy, hyh⟩ => ?_⟩
  refine List.mem_map.2 ⟨(q.1 - r.x0.toNat, q.2 - r.y0.toNat), mem_raster.2 ⟨?_, ?_⟩, Prod.ext ?_ ?_⟩ <;>
    dsimp only <;> omega

/-- The pixels that the scans cover, block by block. -/
theorem State.scanPixels_eq (h : s.frameOk) (hm : s.meshOk) (p : Plane) : s.scanPixels p =
    (raster s.cfg.blocksW s.cfg.blocksH).flatMap fun b => (s.blockRegion p b).pixels := by
  refine List.flatMap_congr fun b hb => ?_
  have hb : s.cfg.InGrid b := mem_raster.1 hb
  obtain ⟨x0, y0, w, hh⟩ := s.blockRegion_toNat h hb p
  have legal : ¬ (s.cfg.mode = 2 ∧ ¬ (s.cornersOf b.1 b.2).legal) := fun ⟨h2, hn⟩ => hn (hm.cornersOk hb h2)
  rw [State.scanSides, if_neg legal, Region.pixels, x0, y0, w, hh]

theorem State.mem_scanPixels (h : s.frameOk) (hm : s.meshOk) {q : Nat × Nat} :
    q ∈ s.scanPixels p ↔ ∃ b, s.cfg.InGrid b ∧ s.inBlock p b q.1 q.2 := by
  simp only [s.scanPixels_eq h hm, List.mem_flatMap, mem_raster, Region.mem_pixels_iff]
  rfl

theorem raster_nodup (w h : Nat) : (raster w h).Nodup := by
  rw [raster_eq_map]
  refine List.Nodup.map_on (fun i hi j hj hij => ?_) List.nodup_range
  obtain ⟨hmod, hdiv⟩ := Prod.mk.inj hij
  rw [← Nat.mod_add_div i w, hmod, hdiv, Nat.mod_add_div]

theorem State.scanPixels_nodup (h : s.frameOk) (hm : s.meshOk) (p : Plane) : (s.scanPixels p).Nodup := by
  rw [s.scanPixels_eq h hm]
  refine List.nodup_flatMap.2 ⟨fun b _ => Region.pixels_nodup _, ?_⟩
  refine (raster_nodup _ _).imp_of_mem fun {b b'} hb hb' hne q hq hq' => hne ?_
  have hin : s.inBlock p b q.1 q.2 := Region.mem_pixels hq
  have hin' : s.inBlock p b' q.1 q.2 := Region.mem_pixels hq'
  exact hin.unique hin' h (mem_raster.1 hb) (mem_raster.1 hb')

/-- The pixels of plane `p` in the order of their hops in the stream (44_frame R409): in a basic mode the
plane is one region. -/
def State.streamPixels (s : State) (p : Plane) : List (Nat × Nat) :=
  if s.cfg.mode = 2 then s.scanPixels p else raster (s.cfg.planeW p) (s.cfg.planeH p)

/-- In a basic mode the regions of the blocks tile the plane. -/
theorem State.exists_block (h : s.frameOk) (hm : s.cfg.mode ≠ 2) {x y : Nat} (hx : x < s.cfg.planeW p)
    (hy : y < s.cfg.planeH p) : ∃ b, s.cfg.InGrid b ∧ s.inBlock p b x y := by
  obtain ⟨-, -, -, -, tiles⟩ := blocksTileThePlane s p h
  obtain ⟨b, ⟨hbx, hby, hxl, hxr, hyl, hyr⟩, -⟩ := tiles x y hx hy
  refine ⟨b, ⟨hbx, hby⟩, (s.inBlock_iff h ⟨hbx, hby⟩ x y).2 ?_⟩
  rw [State.blockSize, if_neg hm, FrameConfig.blockW, FrameConfig.blockH]
  dsimp only
  omega

theorem State.streamPixels_perm (h : s.frameOk) (hm : s.meshOk) (p : Plane) :
    (s.streamPixels p).Perm (s.scanPixels p) := by
  rw [State.streamPixels]
  split
  · rfl
  · next hmode =>
    refine (List.perm_ext_iff_of_nodup (raster_nodup _ _) (s.scanPixels_nodup h hm p)).2 fun q => ?_
    rw [mem_raster, s.mem_scanPixels h hm]
    exact ⟨fun hq => s.exists_block h hmode hq.1 hq.2, fun ⟨b, hb, hin⟩ => hin.inPlane h hb⟩

theorem State.scanPixels_length_le (h : s.frameOk) (hm : s.meshOk) (p : Plane) :
    (s.scanPixels p).length ≤ s.cfg.planeW p * s.cfg.planeH p := by
  rw [← raster_length]
  refine (List.subperm_of_subset (s.scanPixels_nodup h hm p) fun q hq => ?_).length_le
  obtain ⟨b, hb, hin⟩ := (s.mem_scanPixels h hm).1 hq
  exact mem_raster.2 (hin.inPlane h hb)

end

end Sys2Proof.Machine
end

section
namespace Sys2Proof.Machine

-- One theorem at a time: many checked at once need more threads than the memory limit allows.
set_option Elab.async false

/-! ### What the inner steps of a frame command leave (44_frame R418, R419) -/

/-- `s` with memory and the registers that the inner steps write from the frame check on as they are
in `t`. -/
def State.withWork (s t : State) : State :=
  { s with
    mem := t.mem
    reader := { s.reader with pos := t.reader.pos }
    writer := { s.writer with pos := t.writer.pos }
    seeds := { s.seeds with seedIndex := t.seeds.seedIndex, seed := t.seeds.seed }
    region := t.region, geom := t.geom, scan := t.scan, lastPix := t.lastPix, huff := t.huff }

/-- From `s` to `t` no other register has changed. -/
def State.SameSetup (s t : State) : Prop := t = s.withWork t

section
variable {s t u : State}

theorem State.SameSetup.refl (s : State) : s.SameSetup s := rfl

theorem State.SameSetup.trans (h : s.SameSetup t) (h' : t.SameSetup u) : s.SameSetup u := by
  unfold State.SameSetup at *
  refine h'.trans ?_
  rw [h]
  rfl

theorem State.SameSetup.between (h : s.SameSetup t) (h' : s.SameSetup u) : t.SameSetup u := by
  unfold State.SameSetup at *
  rw [h]
  exact h'

section
variable (h : s.SameSetup t)
include h

theorem State.SameSetup.ctrl : t.ctrl = s.ctrl := by rw [h]; rfl
theorem State.SameSetup.cfg : t.cfg = s.cfg := by rw [h]; rfl
theorem State.SameSetup.plat : t.plat = s.plat := by rw [h]; rfl
theorem State.SameSetup.readerBase : t.reader.base = s.reader.base := by rw [h]; rfl
theorem State.SameSetup.readerBudget : t.reader.budget = s.reader.budget := by rw [h]; rfl
theorem State.SameSetup.writerBase : t.writer.base = s.writer.base := by rw [h]; rfl
theorem State.SameSetup.writerLimit : t.writer.limit = s.writer.limit := by rw [h]; rfl
theorem State.SameSetup.calm_iff : t.calm ↔ s.calm := by rw [h]; rfl
theorem State.SameSetup.quiet_iff : t.quiet ↔ s.quiet := by rw [h]; rfl
theorem State.SameSetup.tablesReady_iff : t.tablesReady ↔ s.tablesReady := by rw [h]; rfl
theorem State.SameSetup.frameOk_iff : t.frameOk ↔ s.frameOk := by rw [h]; rfl
theorem State.SameSetup.placeAddr (first : Word) (l : Place) : t.placeAddr first l = s.placeAddr first l := by
  rw [h]
  cases l with
  | hop p | dst p => cases p <;> rfl
  | seed | mesh | stream => rfl
theorem State.SameSetup.hopAddr (p : Plane) (x y : Nat) : t.hopAddr p x y = s.hopAddr p x y :=
  h.placeAddr 0 (.hop p x y)
theorem State.SameSetup.dstAddr (p : Plane) (x y : Nat) : t.dstAddr p x y = s.dstAddr p x y :=
  h.placeAddr 0 (.dst p x y)
theorem State.SameSetup.seedSlot (i : Nat) : t.seedSlot i = s.seedSlot i := h.placeAddr 0 (.seed i)
theorem State.SameSetup.meshByteAddr (k : Nat) : t.meshByteAddr k = s.meshByteAddr k := h.placeAddr 0 (.mesh k)

end
end

/-! ### Bytes that a step leaves alone -/

/-- From `m` to `m'` no byte has changed but those at the places `W`. -/
def State.Stores (s : State) (first : Word) (W : Place → Prop) (m m' : Memory) : Prop :=
  ∀ a, (∀ l, W l → a ≠ (s.placeAddr first l).toNat) → m'.read a = m.read a

section
variable {s : State} {first : Word} {n : Nat} {W W' : Place → Prop} {m m' m'' : Memory} {l : Place}

theorem State.Stores.refl (s : State) (first : Word) (W : Place → Prop) (m : Memory) :
    s.Stores first W m m := fun _ _ => rfl

theorem State.Stores.trans (h : s.Stores first W m m') (h' : s.Stores first W m' m'') :
    s.Stores first W m m'' := fun a ha => (h' a ha).trans (h a ha)

theorem State.Stores.mono (h : s.Stores first W m m') (hW : ∀ l, W l → W' l) : s.Stores first W' m m' :=
  fun a ha => h a fun l hl => ha l (hW l hl)

/-- A place that is not among the stored ones keeps its byte. -/
theorem State.Stores.read (h : s.Stores first W m m') (apart : s.buffersApart (addrsFrom first n))
    (hW : ∀ l, W l → s.cfg.HasPlace n l) (hl : s.cfg.HasPlace n l) (hn : ¬ W l) :
    m'.read (s.placeAddr first l).toNat = m.read (s.placeAddr first l).toNat :=
  h _ fun l' hl' he => hn (State.place_inj apart hl (hW l' hl') he ▸ hl')

end

/-! ### The blocks of a frame command -/

/-- The scans of a frame can run: tables built, a legal frame with legal mesh codes, and no buffer over
another or over the stream's `n` bytes from `first` on. -/
structure State.FrameReady (s : State) (first : Word) (n : Nat) : Prop where
  calm : s.calm
  tables : s.tablesReady
  frame : s.frameOk
  mesh : s.meshOk
  apart : s.buffersApart (addrsFrom first n)

/-- `u` is a state that the scans of a frame, begun at `s`, pass through: only registers that the inner
steps write have changed, and no byte of the mesh. -/
structure State.InFrame (s u : State) : Prop where
  setup : s.SameSetup u
  mesh : ∀ k, k < s.cfg.cornerCount → u.byteAt (s.meshByteAddr k) = s.byteAt (s.meshByteAddr k)

/-- `u` with the registers as BLOCK_GEOM leaves them for a block of `s` (42_mesh R312). -/
def State.enterBlock (s u : State) (p : Plane) (b : Nat × Nat) : State :=
  u.withBlock (s.cfg.boundX p b.1) (s.cfg.boundX p (b.1 + 1)) (s.cfg.boundY p b.2) (s.cfg.boundY p (b.2 + 1))
    (s.blockSize p b.1 b.2).1 (s.blockSize p b.1 b.2).2 (s.cfg.seedNumber p b.1 b.2)

section
variable {s u v : State} {first : Word} {n : Nat} {p : Plane} {b : Nat × Nat}

theorem State.InFrame.refl (s : State) : s.InFrame s := ⟨.refl s, fun _ _ => rfl⟩

theorem State.InFrame.meshOk (h : s.InFrame u) (hm : s.meshOk) : u.meshOk := fun h2 k hk => by
  rw [h.setup.cfg] at h2 hk
  rw [h.setup.meshByteAddr, h.mesh k hk]
  exact hm h2 k hk

theorem State.InFrame.blockSize (h : s.InFrame u) (hb : s.cfg.InGrid b) (p : Plane) :
    u.blockSize p b.1 b.2 = s.blockSize p b.1 b.2 :=
  State.blockSize_congr h.setup.cfg (fun _ k hk => by
    rw [h.setup.meshByteAddr, h.mesh k hk]
    exact ⟨rfl, rfl⟩) hb p

/-- BLOCK_GEOM of a block of the frame. -/
theorem State.InFrame.blockGeom_out (h : s.InFrame u) (r : s.FrameReady first n) (hb : s.cfg.InGrid b) :
    (cmdBlockGeom p b.1 b.2).out u = .ok () (s.enterBlock u p b) := by
  have hb' : u.cfg.InGrid b := by rw [h.setup.cfg]; exact hb
  have hgrid : b.1 < u.cfg.gridW.toNat ∧ b.2 < u.cfg.gridH.toNat := hb'
  rw [cmdBlockGeom_out (h.setup.frameOk_iff.2 r.frame), if_pos hgrid, if_pos ((h.meshOk r.mesh).cornersOk hb'),
    h.blockSize hb p, h.setup.cfg]
  rfl

theorem State.sameSetup_enterBlock (s u : State) (p : Plane) (b : Nat × Nat) :
    u.SameSetup (s.enterBlock u p b) := rfl

theorem State.SameSetup.enterBlock_seedAddr (h : s.SameSetup u) (p : Plane) (b : Nat × Nat) :
    (s.enterBlock u p b).seedAddr = s.seedSlot (s.cfg.seedNumber p b.1 b.2) :=
  h.seedSlot (s.cfg.seedNumber p b.1 b.2)

theorem State.InFrame.regionOk (h : s.SameSetup v) (r : s.FrameReady first n) (hb : s.cfg.InGrid b)
    (hv : v.region = s.blockRegion p b) : v.regionOk p := by
  have ok := s.blockRegion_ok r.frame hb p
  rw [State.regionOk_iff] at ok ⊢
  rw [hv, h.cfg, h.frameOk_iff]
  exact ok

/-! #### The places of a block -/

/-- The places that the scan of a block stores in: its pixels and its seed. -/
def State.BlockPlace (s : State) (p : Plane) (b : Nat × Nat) : Place → Prop
  | .hop q x y => q = p ∧ s.inBlock p b x y
  | .dst q x y => q = p ∧ s.inBlock p b x y
  | .seed i => i = s.cfg.seedNumber p b.1 b.2
  | .mesh _ => False
  | .stream _ => False

theorem FrameConfig.seedNumber_eq (c : FrameConfig) (p : Plane) (bx row : Nat) :
    c.seedNumber p bx row = (p.index * c.blocksH + row) * c.blocksW + bx := by
  rw [FrameConfig.seedNumber, Nat.add_mul, Nat.mul_right_comm]

theorem Plane.index_lt (p : Plane) : p.index < 3 := by cases p <;> decide

theorem Plane.index_inj {p q : Plane} (h : p.index = q.index) : p = q := by
  cases p <;> cases q <;> simp_all [Plane.index]

theorem FrameConfig.InGrid.seedNumber_lt {c : FrameConfig} (hb : c.InGrid b) (p : Plane) :
    c.seedNumber p b.1 b.2 < c.seedCount := by
  have row : p.index * c.blocksH + b.2 + 1 ≤ 3 * c.blocksH :=
    calc p.index * c.blocksH + b.2 + 1 ≤ (p.index + 1) * c.blocksH := by rw [Nat.succ_mul]; omega
      _ ≤ 3 * c.blocksH := Nat.mul_le_mul_right _ p.index_lt
  calc c.seedNumber p b.1 b.2 = (p.index * c.blocksH + b.2) * c.blocksW + b.1 := c.seedNumber_eq ..
    _ < (p.index * c.blocksH + b.2 + 1) * c.blocksW := by rw [Nat.succ_mul]; omega
    _ ≤ 3 * c.blocksH * c.blocksW := Nat.mul_le_mul_right _ row
    _ = c.seedCount := Nat.mul_right_comm ..

/-- Every block of every plane has its own seed (42_mesh R310). -/
theorem FrameConfig.InGrid.seedNumber_inj {c : FrameConfig} {q : Plane} {b' : Nat × Nat} (hb : c.InGrid b)
    (hb' : c.InGrid b') (h : c.seedNumber p b.1 b.2 = c.seedNumber q b'.1 b'.2) : p = q ∧ b = b' := by
  rw [c.seedNumber_eq, c.seedNumber_eq] at h
  obtain ⟨hrow, hx⟩ := raster_number hb.1 (p.index * c.blocksH + b.2)
  obtain ⟨hrow', hx'⟩ := raster_number hb'.1 (q.index * c.blocksH + b'.2)
  rw [h, hrow'] at hrow
  rw [h, hx'] at hx
  obtain ⟨hp, hy⟩ := raster_number hb.2 p.index
  obtain ⟨hp', hy'⟩ := raster_number hb'.2 q.index
  rw [← hrow, hp'] at hp
  rw [← hrow, hy'] at hy
  exact ⟨Plane.index_inj hp.symm, Prod.ext hx.symm hy.symm⟩

theorem State.BlockPlace.hasPlace {l : Place} (hl : s.BlockPlace p b l) (h : s.frameOk)
    (hb : s.cfg.InGrid b) (n : Nat) : s.cfg.HasPlace n l := by
  cases l with
  | hop q x y | dst q x y =>
    obtain ⟨rfl, hin⟩ := hl
    exact hin.inPlane h hb
  | seed i =>
    obtain rfl : i = s.cfg.seedNumber p b.1 b.2 := hl
    exact hb.seedNumber_lt p
  | mesh | stream => exact hl.elim

/-- Blocks share no place. -/
theorem State.BlockPlace.unique {l : Place} {q : Plane} {b' : Nat × Nat} (hl : s.BlockPlace p b l)
    (hl' : s.BlockPlace q b' l) (h : s.frameOk) (hb : s.cfg.InGrid b) (hb' : s.cfg.InGrid b') :
    p = q ∧ b = b' := by
  cases l with
  | hop q x y | dst q x y =>
    obtain ⟨rfl, hin⟩ := hl
    obtain ⟨rfl, hin'⟩ := hl'
    exact ⟨rfl, hin.unique hin' h hb hb'⟩
  | seed i => exact hb.seedNumber_inj hb' (Eq.symm hl |>.trans hl')
  | mesh | stream => exact hl.elim

/-! #### What the scan of a block leaves -/

/-- The hops that the hop buffer of plane `p` holds. -/
def State.hopsIn (s : State) (p : Plane) (m : Memory) (x y : Nat) : Hop :=
  Fin.ofNat 9 (m.read (s.hopAddr p x y).toNat).toNat

/-- `s` with the region and the seed of a scan of a block. -/
def State.blockScene (s : State) (p : Plane) (b : Nat × Nat) (seed : Byte) : State :=
  (s.withRegion (s.blockRegion p b)).withSeeds { s.seeds with seed := seed }

/-- Memory `m` holds for a block hops and the reconstruction that its seed and its hops give
(41_predictor R251 to R257). -/
structure State.BlockDone (s : State) (p : Plane) (b : Nat × Nat) (m : Memory) : Prop where
  hops : ∀ x y, s.inBlock p b x y → (m.read (s.hopAddr p x y).toNat).toNat ≤ 8
  trace : ∃ hs, (s.blockScene p b (m.read (s.seedSlot (s.cfg.seedNumber p b.1 b.2)).toNat)).ScanTrace p m
    (s.hopsIn p m) hs

/-- A trace rests on the region, the ratio, the variant and the seed, and on the bytes of the region. -/
theorem State.ScanTrace.congr {a a' : State} {m m' : Memory} {hop hop' : Nat → Nat → Hop}
    {hs : Nat → Nat × Bool} (h : a.ScanTrace p m hop hs) (region : a'.region = a.region)
    (ratio : a'.cfg.ratio = a.cfg.ratio) (variant : a'.ctrl.interiorVariant = a.ctrl.interiorVariant)
    (seed : a'.seeds.seed = a.seeds.seed)
    (hops : ∀ x y, a.inRegion x y → hop' x y = hop x y)
    (bytes : ∀ x y, a.inRegion x y → m'.read (a'.dstAddr p x y).toNat = m.read (a.dstAddr p x y).toNat) :
    a'.ScanTrace p m' hop' hs where
  start := h.start
  pixel i j hi hj := by
    rw [region] at hi hj
    have inRegion : ∀ i' j', i' < a.region.w.toNat → j' < a.region.h.toNat →
        a.inRegion (a.region.x0.toNat + i') (a.region.y0.toNat + j') := fun i' j' hi' hj' =>
      ⟨Nat.le_add_right _ _, Nat.add_lt_add_left hi' _, Nat.le_add_right _ _, Nat.add_lt_add_left hj' _⟩
    have pred := predOf_congr (s := a'.withMem m') (s' := a.withMem m) (p := p) (x0 := a.region.x0.toNat)
      (y0 := a.region.y0.toNat) (j := j) hi seed variant fun i' j' hi' hlt => bytes _ _ (inRegion i' j' hi' (by
        by_contra hge
        have := Nat.mul_le_mul_right a.region.w.toNat (by omega : j + 1 ≤ j')
        rw [Nat.succ_mul] at this
        omega))
    obtain ⟨value, next⟩ := h.pixel i j hi hj
    dsimp only at value next ⊢
    rw [region, ratio, seed, pred, hops _ _ (inRegion i j hi hj), bytes _ _ (inRegion i j hi hj)]
    exact ⟨value, next⟩

/-- The bytes of a block's own places are all that counts. -/
theorem State.BlockDone.congr {m m' : Memory} (h : s.BlockDone p b m)
    (same : ∀ l, s.BlockPlace p b l →
      m'.read (s.placeAddr first l).toNat = m.read (s.placeAddr first l).toNat) : s.BlockDone p b m' where
  hops x y hin := (congrArg BitVec.toNat (same (.hop p x y) ⟨rfl, hin⟩)).trans_le (h.hops x y hin)
  trace := by
    obtain ⟨hs, trace⟩ := h.trace
    refine ⟨hs, trace.congr rfl rfl rfl (same (.seed _) rfl) (fun x y hin => ?_) fun x y hin => ?_⟩
    · exact congrArg (fun v : Byte => Fin.ofNat 9 v.toNat) (same (.hop p x y) ⟨rfl, hin⟩)
    · exact same (.dst p x y) ⟨rfl, hin⟩

end

end Sys2Proof.Machine
end

section
namespace Sys2Proof.Machine

-- One theorem at a time: many checked at once need more threads than the memory limit allows.
set_option Elab.async false

/-! ### The scan of one block of a frame (44_frame R418, R419) -/

theorem State.AtPixel.sameSetup {b s : State} {d : Dir} {p : Plane} {k : Nat} (h : b.AtPixel d p k s) :
    b.SameSetup s := by
  unfold State.SameSetup
  rw [h.rest]
  rfl

section
variable {b s : State} {d : Dir} {p : Plane} {k : Nat} (h : b.AtPixel d p k s)
include h

theorem State.AtPixel.reader : s.reader = b.reader := by rw [h.rest]; rfl
theorem State.AtPixel.writer : s.writer = b.writer := by rw [h.rest]; rfl
theorem State.AtPixel.huff : s.huff = b.huff := by rw [h.rest]; rfl

end

section
variable {s u w : State} {first : Word} {n : Nat} {p : Plane} {b : Nat × Nat} {d : Dir}
  {hop : Nat → Nat → Hop}

/-- The region of `w` is that of a block of the frame that `s` begins. -/
structure State.AtBlock (s : State) (p : Plane) (b : Nat × Nat) (w : State) : Prop where
  setup : s.SameSetup w
  region : w.region = s.blockRegion p b

theorem State.InFrame.atBlock (h : s.InFrame u) (p : Plane) (b : Nat × Nat) :
    s.AtBlock p b (s.enterBlock u p b) :=
  ⟨h.setup.trans (s.sameSetup_enterBlock u p b), rfl⟩

theorem State.AtBlock.inRegion_iff (h : s.AtBlock p b w) (x y : Nat) :
    w.inRegion x y ↔ s.inBlock p b x y := by
  rw [State.inBlock, State.inRegion, State.inRegion, h.region]
  rfl

section
variable (r : s.FrameReady first n) (hb : s.cfg.InGrid b) (h : s.AtBlock p b w)
include r hb h

theorem State.AtBlock.regionOk : w.regionOk p := State.InFrame.regionOk h.setup r hb h.region

theorem State.AtBlock.hasPlace {x y : Nat} (hin : w.inRegion x y) :
    x < s.cfg.planeW p ∧ y < s.cfg.planeH p := ((h.inRegion_iff x y).1 hin).inPlane r.frame hb

theorem State.AtBlock.distinct_dst : w.distinctOn (w.dstAddr p) := by
  intro x y x' y' hin hin' he
  rw [h.setup.dstAddr, h.setup.dstAddr] at he
  have := State.place_inj (l := .dst p x y) (l' := .dst p x' y') r.apart (h.hasPlace r hb hin)
    (h.hasPlace r hb hin') (congrArg BitVec.toNat he)
  simpa using this

theorem State.AtBlock.distinct_hop : w.distinctOn (w.hopAddr p) := by
  intro x y x' y' hin hin' he
  rw [h.setup.hopAddr, h.setup.hopAddr] at he
  have := State.place_inj (l := .hop p x y) (l' := .hop p x' y') r.apart (h.hasPlace r hb hin)
    (h.hasPlace r hb hin') (congrArg BitVec.toNat he)
  simpa using this

theorem State.AtBlock.apart : w.apartOn (w.dstAddr p) (w.hopAddr p) := by
  intro x y x' y' hin hin' he
  rw [h.setup.dstAddr, h.setup.hopAddr] at he
  have := State.place_inj (l := .dst p x y) (l' := .hop p x' y') r.apart (h.hasPlace r hb hin)
    (h.hasPlace r hb hin') (congrArg BitVec.toNat he)
  cases this

omit r hb in
/-- A scan of the block stores at the block's pixels only. -/
theorem State.AtBlock.scan_stores (run : w.ScanRun d p hop) (first : Word) :
    s.Stores first (s.BlockPlace p b) w.mem (w.scanState d p w.pixelCount).mem := fun a ha =>
  run.kept_final fun x y hin => by
    have hin := (h.inRegion_iff x y).1 hin
    rw [h.setup.dstAddr, h.setup.hopAddr]
    exact ⟨ha (.dst p x y) ⟨rfl, hin⟩, fun _ => ha (.hop p x y) ⟨rfl, hin⟩⟩

/-- A scan of the block from the seed in the block's slot leaves the block done. -/
theorem State.AtBlock.blockDone (run : w.ScanRun d p hop)
    (seed : w.mem.read (s.seedSlot (s.cfg.seedNumber p b.1 b.2)).toNat = w.seeds.seed)
    (hops : ∀ x y, s.inBlock p b x y →
      ((w.scanState d p w.pixelCount).mem.read (s.hopAddr p x y).toNat).toNat = (hop x y).val) :
    s.BlockDone p b (w.scanState d p w.pixelCount).mem where
  hops x y hin := by
    have := (hop x y).isLt
    rw [hops x y hin]
    omega
  trace := by
    have slot : (w.scanState d p w.pixelCount).mem.read
        (s.seedSlot (s.cfg.seedNumber p b.1 b.2)).toNat = w.seeds.seed := by
      refine (run.kept_final fun x y hin => ?_).trans seed
      have hin := h.hasPlace r hb hin
      have hslot := hb.seedNumber_lt p
      rw [h.setup.dstAddr, h.setup.hopAddr]
      exact ⟨fun he => (by cases State.place_inj (l := .seed _) (l' := .dst p x y) r.apart hslot hin he),
        fun _ he => (by cases State.place_inj (l := .seed _) (l' := .hop p x y) r.apart hslot hin he)⟩
    refine ⟨_, (run.scanTrace (h.distinct_dst r hb) (h.apart r hb)).congr h.region.symm
      (congrArg FrameConfig.ratio h.setup.cfg).symm (congrArg Control.interiorVariant h.setup.ctrl).symm slot
      (fun x y hin => ?_) fun x y _ => by rw [h.setup.dstAddr]; rfl⟩
    refine Fin.ext ((congrArg (· % 9) (hops x y ((h.inRegion_iff x y).1 hin))).trans ?_)
    exact Nat.mod_eq_of_lt (hop x y).isLt

end

/-- What the scan of a block leaves of the frame's state. -/
structure State.BlockScanned (s : State) (first : Word) (p : Plane) (b : Nat × Nat) (u v : State) : Prop where
  atBlock : s.AtBlock p b v
  reader : v.reader = u.reader
  writer : v.writer = u.writer
  huff : v.huff = u.huff
  stores : s.Stores first (s.BlockPlace p b) u.mem v.mem
  done : s.BlockDone p b v.mem

/-- A scan keeps the frame's mesh. -/
theorem State.InFrame.next {v : State} (h : s.InFrame u) (r : s.FrameReady first n) (hb : s.cfg.InGrid b)
    (setup : s.SameSetup v) (stores : s.Stores first (s.BlockPlace p b) u.mem v.mem) : s.InFrame v where
  setup := setup
  mesh k hk := (stores.read (l := .mesh k) r.apart (fun _ hl => hl.hasPlace r.frame hb n) hk id).trans
    (h.mesh k hk)

/-- The reconstruction's bytes of a block's pixels. -/
def State.DstPlace (s : State) (p : Plane) (b : Nat × Nat) (l : Place) : Prop :=
  ∃ x y, l = .dst p x y ∧ s.inBlock p b x y

/-- The state from which HOP_DEC_REGION scans a block: SEED is loaded from the block's slot. -/
def State.seedBlock (s u : State) (p : Plane) (b : Nat × Nat) : State :=
  (s.enterBlock u p b).withSeeds { (s.enterBlock u p b).seeds with
    seed := u.mem.read (s.seedSlot (s.cfg.seedNumber p b.1 b.2)).toNat }

/-- What a decoding scan of a block leaves of the frame's state. -/
structure State.BlockDecoded (s : State) (first : Word) (p : Plane) (b : Nat × Nat) (u v : State) : Prop where
  scanned : s.BlockScanned first p b u v
  kept : s.Stores first (s.DstPlace p b) u.mem v.mem
  run : v = (s.seedBlock u p b).scanState .decode p (s.seedBlock u p b).pixelCount

theorem State.DstPlace.blockPlace {l : Place} (h : s.DstPlace p b l) : s.BlockPlace p b l := by
  obtain ⟨x, y, rfl, hin⟩ := h
  exact ⟨rfl, hin⟩

theorem State.InFrame.seedBlock (h : s.InFrame u) (p : Plane) (b : Nat × Nat) :
    s.AtBlock p b (s.seedBlock u p b) := ⟨(h.atBlock p b).setup.trans rfl, rfl⟩

/-- HOP_BEGIN_DEC of a block. -/
theorem State.InFrame.beginDec_out (h : s.InFrame u) (r : s.FrameReady first n) (hb : s.cfg.InGrid b)
    (p : Plane) : (cmdHopBeginDec p).out (s.enterBlock u p b) =
      .ok () ((s.seedBlock u p b).withScan (Scan.start .decode p)) := by
  have h0 := h.atBlock p b
  rw [cmdHopBeginDec_ok (h0.setup.tablesReady_iff.2 r.tables).1 (h0.regionOk r hb),
    h.setup.enterBlock_seedAddr p b]
  rfl

/-- HOP_DEC_REGION of a block whose hops are in the hop buffer. -/
theorem State.InFrame.decodeBlock (h : s.InFrame u) (r : s.FrameReady first n) (hb : s.cfg.InGrid b)
    (hops : ∀ x y, s.inBlock p b x y → (u.mem.read (s.hopAddr p x y).toNat).toNat ≤ 8) :
    ∃ v, (cmdHopDecRegion p).out (s.enterBlock u p b) = .ok () v ∧ s.BlockDecoded first p b u v := by
  have hw := h.seedBlock p b
  have hopVal : ∀ x y, s.inBlock p b x y →
      (u.mem.read (s.hopAddr p x y).toNat).toNat = (s.hopsIn p u.mem x y).val := fun x y hin =>
    (Nat.mod_eq_of_lt (Nat.lt_succ_of_le (hops x y hin))).symm
  have run : (s.seedBlock u p b).ScanRun .decode p (s.hopsIn p u.mem) :=
    State.decode_run (hw.setup.calm_iff.2 r.calm) (hw.setup.tablesReady_iff.2 r.tables) (hw.regionOk r hb)
      (hw.apart r hb) fun x y hin => by
        rw [hw.setup.hopAddr]
        exact hopVal x y ((hw.inRegion_iff x y).1 hin)
  have hf := run.stands _ le_rfl
  have kept : s.Stores first (s.DstPlace p b) u.mem
      ((s.seedBlock u p b).scanState .decode p (s.seedBlock u p b).pixelCount).mem := fun a ha =>
    run.kept_final fun x y hin => by
      rw [hw.setup.dstAddr]
      exact ⟨ha (.dst p x y) ⟨x, y, rfl, (hw.inRegion_iff x y).1 hin⟩, nofun⟩
  have done := hw.blockDone r hb run rfl fun x y hin => by
    rw [← hopVal x y hin]
    refine congrArg BitVec.toNat (kept.read (l := .hop p x y) r.apart
      (fun _ hl => hl.blockPlace.hasPlace r.frame hb n) (hin.inPlane r.frame hb) ?_)
    rintro ⟨_, _, he, -⟩
    cases he
  refine ⟨_, ?_, ⟨⟨hw.setup.trans hf.sameSetup, hf.region⟩, hf.reader, hf.writer, hf.huff,
    kept.mono fun _ => State.DstPlace.blockPlace, done⟩, kept, rfl⟩
  rw [cmdHopDecRegion, Cmd.out_seq_ok (h.beginDec_out r hb p)]
  exact run.scanRegion_out

/-- HOP_ENC_REGION of a block. -/
theorem State.InFrame.encodeBlock (h : s.InFrame u) (r : s.FrameReady first n) (hb : s.cfg.InGrid b)
    (p : Plane) :
    ∃ v, (cmdHopEncRegion p).out (s.enterBlock u p b) = .ok () v ∧ s.BlockScanned first p b u v := by
  have h0 := h.atBlock p b
  have hslot := h.setup.enterBlock_seedAddr p b
  let w := (s.enterBlock u p b).seeded p
  have hw : s.AtBlock p b w := ⟨h0.setup.trans rfl, rfl⟩
  have run : w.ScanRun .encode p (w.encodedHop p) :=
    State.encode_run (hw.setup.calm_iff.2 r.calm) (hw.setup.tablesReady_iff.2 r.tables) (hw.regionOk r hb)
  have hf := (run.stands _ le_rfl)
  refine ⟨w.scanState .encode p w.pixelCount, ?_, ⟨hw.setup.trans hf.sameSetup, hf.region⟩, ?_, ?_, ?_,
    .trans (fun a ha => ?_) (hw.scan_stores run first), hw.blockDone r hb run ?_ fun x y hin => ?_⟩
  · rw [cmdHopEncRegion, Cmd.out_seq_ok (cmdHopBeginEnc_seeded (h0.setup.calm_iff.2 r.calm)
      (h0.setup.tablesReady_iff.2 r.tables).1 (h0.regionOk r hb))]
    exact run.scanRegion_out
  · exact hf.reader
  · exact hf.writer
  · exact hf.huff
  · exact Memory.read_write_other _ _ (hslot ▸ ha (.seed _) rfl)
  · rw [← hslot]
    exact Memory.read_write_same _ _ _
  · have := run.hop_final (hw.distinct_hop r hb) (hw.apart r hb) ((hw.inRegion_iff x y).2 hin)
    rwa [hw.setup.hopAddr] at this

end

end Sys2Proof.Machine
end

section
namespace Sys2Proof.Machine

-- One theorem at a time: many checked at once need more threads than the memory limit allows.
set_option Elab.async false

/-! ### The blocks of the three planes, one after the other (44_frame R409) -/

/-- A loop whose bodies carry a property of what has been done from each item to the next. -/
theorem Cmd.forEach_done {α : Type} {f : α → Cmd Unit} {P : List α → State → Prop} {l : List α} {s : State}
    (start : P [] s) (step : ∀ done a rest t, l = done ++ a :: rest → P done t →
      ∃ u, (f a).out t = .ok () u ∧ P (done ++ [a]) u) :
    ∃ t, (Cmd.forEach l f).out s = .ok () t ∧ P l t := by
  have go : ∀ rest done t, l = done ++ rest → P done t →
      ∃ u, (Cmd.forEach rest f).out t = .ok () u ∧ P l u := by
    intro rest
    induction rest with
    | nil =>
      rintro done t hl hP
      rw [List.append_nil] at hl
      exact ⟨t, rfl, hl ▸ hP⟩
    | cons a rest ih =>
      intro done t hl hP
      obtain ⟨u, hout, hP'⟩ := step done a rest t hl hP
      obtain ⟨v, hrest, hQ⟩ := ih (done ++ [a]) u (by rw [hl, List.append_assoc]; rfl) hP'
      exact ⟨v, by rw [Cmd.out_forEach_cons, Cmd.out_seq_ok hout, hrest], hQ⟩
  exact go l [] s rfl start

/-- The blocks of one plane, with the plane. -/
def FrameConfig.planeJobs (c : FrameConfig) (p : Plane) : List (Plane × Nat × Nat) :=
  (raster c.blocksW c.blocksH).map fun b => (p, b)

/-- The blocks of all planes in the order of their scans. -/
def FrameConfig.jobs (c : FrameConfig) : List (Plane × Nat × Nat) := allPlanes.flatMap c.planeJobs

theorem FrameConfig.mem_jobs {c : FrameConfig} {p : Plane} {b : Nat × Nat} :
    (p, b) ∈ c.jobs ↔ c.InGrid b := by
  simp [FrameConfig.jobs, FrameConfig.planeJobs, mem_allPlanes, mem_raster]

section
variable {P : List (Plane × Nat × Nat) → State → Prop} {c : FrameConfig} {s : State} {p : Plane}

/-- The planes before `p` hold none of its jobs. -/
theorem FrameConfig.fresh_plane {done rest : List Plane} (hl : allPlanes = done ++ p :: rest) :
    ∀ j ∈ done.flatMap c.planeJobs, j.1 ≠ p := by
  have hnodup : (done ++ p :: rest).Nodup := by rw [← hl]; decide
  intro j hj
  obtain ⟨q, hq, hj⟩ := List.mem_flatMap.1 hj
  obtain ⟨b, -, rfl⟩ := List.mem_map.1 hj
  rintro rfl
  exact (List.nodup_append.1 hnodup).2.2 q hq q List.mem_cons_self rfl

/-- A block is none of those before it. -/
theorem FrameConfig.fresh_block {pre : List (Plane × Nat × Nat)} {done rest : List (Nat × Nat)} {b : Nat × Nat}
    (fresh : ∀ j ∈ pre, j.1 ≠ p) (hl : raster c.blocksW c.blocksH = done ++ b :: rest) :
    (p, b) ∉ pre ++ done.map fun b => (p, b) := by
  have hnodup : (done ++ b :: rest).Nodup := by rw [← hl]; exact raster_nodup _ _
  intro hmem
  rcases List.mem_append.1 hmem with hmem | hmem
  · exact fresh _ hmem rfl
  · obtain ⟨b', hb', he⟩ := List.mem_map.1 hmem
    obtain rfl : b' = b := congrArg Prod.snd he
    exact (List.nodup_append.1 hnodup).2.2 b' hb' b' List.mem_cons_self rfl

theorem FrameConfig.inGrid_of_split {done rest : List (Nat × Nat)} {b : Nat × Nat}
    (hl : raster c.blocksW c.blocksH = done ++ b :: rest) : c.InGrid b :=
  mem_raster.1 (by rw [hl]; simp)

theorem forPlanes_ok {g : Plane → Cmd Unit} (start : P [] s)
    (step : ∀ p done t, (∀ j ∈ done, j.1 ≠ p) → P done t →
      ∃ u, (g p).out t = .ok () u ∧ P (done ++ c.planeJobs p) u) :
    ∃ t, (Cmd.forEach allPlanes g).out s = .ok () t ∧ P c.jobs t := by
  refine Cmd.forEach_done (P := fun planes t => P (planes.flatMap c.planeJobs) t) start
    fun done p rest t hl hP => ?_
  obtain ⟨u, hout, hP'⟩ := step p _ t (FrameConfig.fresh_plane hl) hP
  exact ⟨u, hout, by rw [List.flatMap_append, List.flatMap_singleton]; exact hP'⟩

theorem forBlocks_ok {f : Nat → Nat → Cmd Unit} {pre : List (Plane × Nat × Nat)}
    (cfg : s.cfg = c) (start : P pre s) (fresh : ∀ j ∈ pre, j.1 ≠ p)
    (step : ∀ b done t, c.InGrid b → (p, b) ∉ done → P done t →
      ∃ u, (f b.1 b.2).out t = .ok () u ∧ P (done ++ [(p, b)]) u) :
    ∃ t, (forBlocks f).out s = .ok () t ∧ P (pre ++ c.planeJobs p) t := by
  rw [forBlocks, Cmd.out_read_bind, cfg]
  refine Cmd.forEach_done (P := fun bs t => P (pre ++ bs.map fun b => (p, b)) t)
    (by rw [List.map_nil, List.append_nil]; exact start) fun done b rest t hl hP => ?_
  obtain ⟨u, hout, hP'⟩ :=
    step b _ t (FrameConfig.inGrid_of_split hl) (FrameConfig.fresh_block fresh hl) hP
  exact ⟨u, hout, by rw [List.map_append, ← List.append_assoc]; exact hP'⟩

end

/-! ### What the blocks done so far leave -/

/-- The places that the scans of these blocks store in. -/
def State.JobPlace (s : State) (done : List (Plane × Nat × Nat)) (l : Place) : Prop :=
  ∃ j ∈ done, s.BlockPlace j.1 j.2 l

/-- From memory `m`, the scans of the blocks in `done` have left memory `m'`. -/
structure State.JobsDone (s : State) (first : Word) (done : List (Plane × Nat × Nat)) (m m' : Memory) :
    Prop where
  grid : ∀ j ∈ done, s.cfg.InGrid j.2
  stores : s.Stores first (s.JobPlace done) m m'
  blocks : ∀ j ∈ done, s.BlockDone j.1 j.2 m'

section
variable {s : State} {first : Word} {n : Nat} {done : List (Plane × Nat × Nat)} {m m' m'' : Memory}
  {p : Plane} {b : Nat × Nat}

theorem State.jobsDone_nil (s : State) (first : Word) (m : Memory) : s.JobsDone first [] m m :=
  ⟨by simp, .refl s first _ m, by simp⟩

theorem State.JobPlace.hasPlace {l : Place} (hl : s.JobPlace done l) (h : s.frameOk)
    (grid : ∀ j ∈ done, s.cfg.InGrid j.2) (n : Nat) : s.cfg.HasPlace n l := by
  obtain ⟨j, hj, hl⟩ := hl
  exact hl.hasPlace h (grid j hj) n

/-- One more block leaves the earlier ones as they are: blocks share no byte. -/
theorem State.JobsDone.next (h : s.JobsDone first done m m') (r : s.FrameReady first n)
    (hb : s.cfg.InGrid b) (fresh : (p, b) ∉ done) (stores : s.Stores first (s.BlockPlace p b) m' m'')
    (block : s.BlockDone p b m'') : s.JobsDone first (done ++ [(p, b)]) m m'' where
  grid j hj := by
    rcases List.mem_append.1 hj with hj | hj
    · exact h.grid j hj
    · exact List.mem_singleton.1 hj ▸ hb
  stores := (h.stores.mono fun _ ⟨j, hj, hl⟩ => ⟨j, List.mem_append_left _ hj, hl⟩).trans
    (stores.mono fun _ hl => ⟨(p, b), by simp, hl⟩)
  blocks j hj := by
    rcases List.mem_append.1 hj with hj | hj
    · refine (h.blocks j hj).congr (first := first) fun l hl => stores.read r.apart
        (fun _ hl => hl.hasPlace r.frame hb n) (hl.hasPlace r.frame (h.grid j hj) n) fun hl' => fresh ?_
      obtain ⟨hp, hb'⟩ := hl.unique hl' r.frame (h.grid j hj) hb
      exact (Prod.ext hp hb' : j = (p, b)) ▸ hj
    · obtain rfl := List.mem_singleton.1 hj
      exact block

/-- The hops of a block that is done stay. -/
theorem State.JobsDone.hopsIn_eq (h : s.JobsDone first done m m') (r : s.FrameReady first n)
    (hb : s.cfg.InGrid b) (fresh : (p, b) ∉ done) (stores : s.Stores first (s.BlockPlace p b) m' m'')
    {j : Plane × Nat × Nat} (hj : j ∈ done) {x y : Nat} (hin : s.inBlock j.1 j.2 x y) :
    s.hopsIn j.1 m'' x y = s.hopsIn j.1 m' x y := by
  refine congrArg (fun v : Byte => Fin.ofNat 9 v.toNat) (stores.read (l := .hop j.1 x y) r.apart
    (fun _ hl => hl.hasPlace r.frame hb n) (hin.inPlane r.frame (h.grid j hj)) fun hl' => fresh ?_)
  have hl : s.BlockPlace j.1 j.2 (.hop j.1 x y) := ⟨rfl, hin⟩
  obtain ⟨hp, hb'⟩ := hl.unique hl' r.frame (h.grid j hj) hb
  exact (Prod.ext hp hb' : j = (p, b)) ▸ hj

end

/-! ### Pass 1 of FRAME_ENCODE (44_frame R419) -/

/-- The number of pixels that the scans of these blocks cover. -/
def State.jobPixels (s : State) (done : List (Plane × Nat × Nat)) : Nat :=
  (done.map fun j => (s.blockRegion j.1 j.2).pixels.length).sum

/-- The counts in `u` are those of the hops of the blocks in `done`: as numbers, before they are taken
modulo 2^32, they count every hop of these blocks and no more than there are pixels. -/
structure State.CountsHops (s : State) (done : List (Plane × Nat × Nat)) (u : State)
    (count : Tbl → Hop → Nat) : Prop where
  counts : ∀ t h, (u.table t).count.get h = BitVec.ofNat 32 (count t h)
  bounded : ∀ t h, count t h ≤ s.jobPixels done
  counted : ∀ j ∈ done, ∀ x y, s.inBlock j.1 j.2 x y → 0 < count j.1.tbl (s.hopsIn j.1 u.mem x y)

/-- `u` is a state of pass 1 of a frame begun at `s`, after the blocks in `done`. -/
structure State.Predicted (s : State) (first : Word) (done : List (Plane × Nat × Nat)) (u : State) : Prop where
  inFrame : s.InFrame u
  writer : u.writer = s.writer
  jobs : s.JobsDone first done s.mem u.mem
  counts : ∃ count, s.CountsHops done u count

section
variable {s u v : State} {first : Word} {n : Nat} {done : List (Plane × Nat × Nat)} {p : Plane}
  {b : Nat × Nat} {count : Tbl → Hop → Nat}

theorem State.counted_sameSetup (s : State) (t : Tbl) (c : Hop → Nat) : s.SameSetup (s.counted t c) := by
  cases t <;> rfl
theorem State.counted_mem (s : State) (t : Tbl) (c : Hop → Nat) : (s.counted t c).mem = s.mem := by
  cases t <;> rfl
theorem State.counted_writer (s : State) (t : Tbl) (c : Hop → Nat) : (s.counted t c).writer = s.writer := by
  cases t <;> rfl

theorem State.counted_get (s : State) (t t' : Tbl) (c : Hop → Nat) (h : Hop) :
    ((s.counted t c).table t').count.get h =
      (s.table t').count.get h + BitVec.ofNat 32 (if t' = t then c h else 0) := by
  rw [State.counted, State.table_withTable]
  split
  · next he => rw [he, Nine.get_ofFn]
  · exact (BitVec.add_zero _).symm

/-- HUFF_COUNT_REGION over a block that is done. -/
theorem State.BlockScanned.countRegion_out (h : s.BlockScanned first p b u v) (r : s.FrameReady first n)
    (hb : s.cfg.InGrid b) : (cmdHuffCountRegion p).out v =
      .ok () (v.counted p.tbl (v.hopCount p (s.blockRegion p b).pixels)) := by
  rw [cmdHuffCountRegion_eq, regionCheck_seq_ok (h.atBlock.regionOk r hb), Cmd.out_read_bind,
    h.atBlock.region]
  refine countLoop_out _ v fun q hq => ?_
  rw [h.atBlock.setup.hopAddr]
  exact Nat.lt_succ_of_le (h.done.hops q.1 q.2 (Region.mem_pixels hq))

/-- The counts after one more block. -/
theorem State.CountsHops.next (hc : s.CountsHops done u count) (hj : s.JobsDone first done s.mem u.mem)
    (h : s.BlockScanned first p b u v) (r : s.FrameReady first n) (hb : s.cfg.InGrid b)
    (fresh : (p, b) ∉ done) : s.CountsHops (done ++ [(p, b)])
      (v.counted p.tbl (v.hopCount p (s.blockRegion p b).pixels)) fun t i =>
        count t i + if t = p.tbl then v.hopCount p (s.blockRegion p b).pixels i else 0 where
  counts t i := by
    have htable : v.table t = u.table t := by cases t <;> simp only [State.table, h.huff]
    rw [State.counted_get, htable, hc.counts, BitVec.ofNat_add]
  bounded t i := by
    have hle : v.hopCount p (s.blockRegion p b).pixels i ≤ (s.blockRegion p b).pixels.length :=
      List.length_filter_le _ _
    have := hc.bounded t i
    rw [State.jobPixels, List.map_append, List.sum_append]
    simp only [List.map_cons, List.map_nil, List.sum_cons, List.sum_nil]
    rw [State.jobPixels] at this
    split <;> omega
  counted j hmem x y hin := by
    rw [State.counted_mem]
    rcases List.mem_append.1 hmem with hmem | hmem
    · rw [hj.hopsIn_eq r hb fresh h.stores hmem hin]
      exact Nat.add_pos_left (hc.counted j hmem x y hin) _
    · obtain rfl := List.mem_singleton.1 hmem
      refine Nat.add_pos_right _ ?_
      rw [if_pos rfl]
      refine List.length_pos_of_mem (a := (x, y)) (List.mem_filter.2 ⟨Region.mem_pixels_iff.2 hin, ?_⟩)
      rw [h.atBlock.setup.hopAddr]
      exact beq_iff_eq.2 (Nat.mod_eq_of_lt (Nat.lt_succ_of_le (h.done.hops x y hin))).symm

/-- One block of pass 1. -/
theorem State.Predicted.next (hP : s.Predicted first done u) (r : s.FrameReady first n)
    (hb : s.cfg.InGrid b) (fresh : (p, b) ∉ done) :
    ∃ v, ((cmdBlockGeom p b.1 b.2).seq <| (cmdHopEncRegion p).seq (cmdHuffCountRegion p)).out u = .ok () v ∧
      s.Predicted first (done ++ [(p, b)]) v := by
  obtain ⟨v, hout, hv⟩ := hP.inFrame.encodeBlock r hb p
  obtain ⟨count, hcount⟩ := hP.counts
  refine ⟨_, ?_, ⟨?_, ?_, ?_, _, hcount.next hP.jobs hv r hb fresh⟩⟩
  · rw [Cmd.out_seq_ok (hP.inFrame.blockGeom_out r hb), Cmd.out_seq_ok hout, hv.countRegion_out r hb]
  · exact hP.inFrame.next r hb (hv.atBlock.setup.trans (v.counted_sameSetup _ _))
      (by rw [State.counted_mem]; exact hv.stores)
  · rw [State.counted_writer, hv.writer, hP.writer]
  · rw [State.counted_mem]
    exact hP.jobs.next r hb fresh hv.stores hv.done

/-- Pass 1 of a frame whose counts are cleared. -/
theorem State.FrameReady.predict (r : s.FrameReady first n)
    (clear : ∀ t h, (s.table t).count.get h = 0) :
    ∃ u, (Cmd.forEach allPlanes encodePlanePredict).out s = .ok () u ∧
      s.Predicted first s.cfg.jobs u := by
  have start : s.Predicted first [] s := ⟨.refl s, rfl, s.jobsDone_nil first _, fun _ _ => 0,
    clear, fun _ _ => Nat.zero_le _, by simp⟩
  refine forPlanes_ok start fun p done t fresh hP => ?_
  exact forBlocks_ok hP.inFrame.setup.cfg hP fresh fun b done t hb hfresh hP => hP.next r hb hfresh

end

end Sys2Proof.Machine
end

section
namespace Sys2Proof.Machine

-- One theorem at a time: many checked at once need more threads than the memory limit allows.
set_option Elab.async false

/-! ### Bits that a frame command has emitted (20_memory R113, 44_frame R419) -/

/-- `t` is `g` after `bits` have been appended to the output stream: no other register has changed but those
that the inner steps write, and no other byte. -/
structure State.Emitted (g : State) (bits : List Bool) (t : State) : Prop where
  setup : g.SameSetup t
  huff : t.huff = g.huff
  pos : t.writer.pos = g.writer.pos + BitVec.ofNat 32 bits.length
  appended : Appended g.mem t.mem g.writer.base g.writer.pos.toNat bits

/-- From every state in which bits of a frame begun at `g` have been emitted the body emits `bits`, the
frame having at most `N` bits. -/
def Cmd.Emits (g : State) (N : Nat) (c : Cmd Unit) (bits : List Bool) : Prop :=
  ∀ xs t, g.Emitted xs t → xs.length + bits.length ≤ N →
    ∃ u, c.out t = .ok () u ∧ g.Emitted (xs ++ bits) u

/-- The stream's first byte, of a frame begun at `g`. -/
def State.firstByte (g : State) : Word := g.writer.base + BitVec.ofNat 32 (g.writer.pos.toNat / 8)

/-- The number of bytes that hold the `N` bits of a frame begun at `g`. -/
def State.byteCount (g : State) (N : Nat) : Nat := (g.writer.pos.toNat % 8 + N + 7) / 8

/-- FRAME_ENCODE at `g` can emit a frame of at most `N` bits: the scans are done, every hop has a code, and
the stream has room and lies over no buffer. -/
structure State.EmitReady (g : State) (N : Nat) : Prop where
  frame : g.FrameReady g.firstByte (g.byteCount N)
  room : g.canWrite N
  tables : ∀ t, (g.table t).ready
  hops : ∀ p b, g.cfg.InGrid b → ∀ x y, g.inBlock p b x y →
    (g.mem.read (g.hopAddr p x y).toNat).toNat ≤ 8 ∧
    liveLen ((g.table p.tbl).len.get (g.hopsIn p g.mem x y)) = true

/-- A buffer's byte is none of the stream's. -/
theorem State.place_not_inStream {s : State} {base : Word} {q N k len : Nat} {l : Place}
    (apart : s.buffersApart (streamBytes base q N)) (hN : q + N ≤ 2 ^ 32)
    (hl : s.cfg.HasPlace ((q % 8 + N + 7) / 8) l) (hne : ∀ j, l ≠ .stream j) (hk : k + len ≤ N) :
    ¬ inStream base (q + k) len (s.placeAddr (base + BitVec.ofNat 32 (q / 8)) l).toNat := by
  rintro ⟨i, hi, he⟩
  obtain ⟨j, hj, hj'⟩ := inStream_iff_byte hN ⟨k + i, by omega, he.trans (by rw [Nat.add_assoc])⟩
  exact hne j (State.place_inj (l' := .stream j) apart hl hj hj')

section
variable {g t : State} {N k : Nat} {xs ys bits : List Bool} {c d : Cmd Unit}

theorem State.Emitted.start (g : State) : g.Emitted [] g where
  setup := .refl g
  huff := rfl
  pos := (BitVec.add_zero _).symm
  appended := .nil _ _ _

theorem State.Emitted.posNat (h : g.Emitted xs t) (room : g.canWrite N) (hk : xs.length ≤ N) :
    t.writer.pos.toNat = g.writer.pos.toNat + xs.length := by
  rw [h.pos]
  exact g.produced_pos (by simp only [State.canWrite] at *; omega)

theorem State.Emitted.canWrite (h : g.Emitted xs t) (room : g.canWrite N) (hk : xs.length + k ≤ N) :
    t.canWrite k := by
  rw [State.canWrite, h.posNat room (by omega), h.setup.writerLimit]
  simp only [State.canWrite] at room
  omega

theorem State.Emitted.table (h : g.Emitted xs t) (τ : Tbl) : t.table τ = g.table τ := by
  cases τ <;> simp only [State.table, h.huff]

/-- A buffer's byte is none of the next bits'. -/
theorem State.Emitted.not_inStream (h : g.Emitted xs t) (e : g.EmitReady N) (hk : xs.length + k ≤ N)
    {l : Place} (hl : g.cfg.HasPlace (g.byteCount N) l) (hne : ∀ j, l ≠ .stream j) :
    ¬ inStream t.writer.base t.writer.pos.toNat k (g.placeAddr g.firstByte l).toNat := by
  have := g.writer.limit.isLt
  have hroom := e.room
  simp only [State.canWrite] at hroom
  rw [h.setup.writerBase, h.posNat e.room (by omega)]
  exact State.place_not_inStream e.frame.apart (by omega) hl hne hk

/-- A buffer's byte is as it was. -/
theorem State.Emitted.read (h : g.Emitted xs t) (e : g.EmitReady N) (hk : xs.length ≤ N) {l : Place}
    (hl : g.cfg.HasPlace (g.byteCount N) l) (hne : ∀ j, l ≠ .stream j) :
    t.mem.read (g.placeAddr g.firstByte l).toNat = g.mem.read (g.placeAddr g.firstByte l).toNat :=
  h.appended.others _ ((State.Emitted.start g).not_inStream e (by rw [List.length_nil]; omega) hl hne)

theorem State.Emitted.inFrame (h : g.Emitted xs t) (e : g.EmitReady N) (hk : xs.length ≤ N) : g.InFrame t :=
  ⟨h.setup, fun k hk' => h.read e hk (l := .mesh k) hk' nofun⟩

theorem State.Emitted.appends (h : g.Emitted xs t) (room : g.canWrite N)
    (hk : xs.length + bits.length ≤ N) (hc : c.Appends t bits) :
    ∃ u, c.out t = .ok () u ∧ g.Emitted (xs ++ bits) u := by
  obtain ⟨m, out, app⟩ := hc
  have := g.writer.limit.isLt
  refine ⟨_, out, h.setup.trans rfl, h.huff, ?_, ?_⟩
  · rw [List.length_append, BitVec.ofNat_add, ← BitVec.add_assoc, ← h.pos]
    rfl
  · rw [h.setup.writerBase, h.posNat room (by omega)] at app
    refine h.appended.append app ?_
    simp only [State.canWrite] at room
    omega

/-- Registers that no emitted bit rests on may change in between. -/
theorem State.Emitted.geometry {u : State} (h : g.Emitted xs t) (setup : t.SameSetup u) (huff : u.huff = t.huff)
    (writer : u.writer = t.writer) (mem : u.mem = t.mem) : g.Emitted xs u where
  setup := h.setup.trans setup
  huff := huff.trans h.huff
  pos := by rw [writer, h.pos]
  appended := by rw [mem]; exact h.appended

theorem Cmd.Emits.of_appends (room : g.canWrite N)
    (h : ∀ xs t, g.Emitted xs t → xs.length + bits.length ≤ N → t.canWrite bits.length → c.Appends t bits) :
    c.Emits g N bits := fun xs t ht hk =>
  ht.appends room hk (h xs t ht hk (ht.canWrite room hk))

theorem Cmd.emits_pure : (Cmd.pure ()).Emits g N [] := fun xs t ht _ =>
  ⟨t, rfl, by rw [List.append_nil]; exact ht⟩

theorem Cmd.Emits.seq (hc : c.Emits g N xs) (hd : d.Emits g N ys) : (c.seq d).Emits g N (xs ++ ys) :=
  fun zs t ht hk => by
    rw [List.length_append] at hk
    obtain ⟨u, outc, hu⟩ := hc zs t ht (by omega)
    obtain ⟨v, outd, hv⟩ := hd _ u hu (by rw [List.length_append]; omega)
    exact ⟨v, by rw [Cmd.out_seq_ok outc, outd], by rw [← List.append_assoc]; exact hv⟩

theorem Cmd.emits_forEach {α : Type} {f : α → Cmd Unit} {bits : α → List Bool} {l : List α}
    (hf : ∀ a ∈ l, (f a).Emits g N (bits a)) : (Cmd.forEach l f).Emits g N (l.flatMap bits) := by
  induction l with
  | nil => exact Cmd.emits_pure
  | cons a l ih =>
    obtain ⟨ha, hl⟩ := List.forall_mem_cons.1 hf
    exact ha.seq (ih hl)

/-- A look at a part of the state that no emitted bit changes. -/
theorem Cmd.emits_read {α : Type} {look : State → α} {f : α → Cmd Unit} {a : α}
    (ha : ∀ xs t, g.Emitted xs t → xs.length ≤ N → look t = a) (hf : (f a).Emits g N bits) :
    ((Cmd.read look).bind f).Emits g N bits := fun xs t ht hk => by
  rw [Cmd.out_read_bind, ha xs t ht (by omega)]
  exact hf xs t ht hk

theorem byMode_out (a b : Cmd Unit) (s : State) :
    (byMode a b).out s = if s.cfg.mode = 2 then a.out s else b.out s := by
  rw [byMode, Cmd.out_read_bind, isAdvanced]
  by_cases hm : s.cfg.mode = 2
  · rw [if_pos hm, if_pos (beq_iff_eq.2 hm)]
  · rw [if_neg hm, if_neg (by rwa [beq_iff_eq])]

theorem Cmd.emits_byMode (hc : g.cfg.mode = 2 → c.Emits g N bits) (hd : g.cfg.mode ≠ 2 → d.Emits g N bits) :
    (byMode c d).Emits g N bits := fun xs t ht hk => by
  rw [byMode_out, ht.setup.cfg]
  split
  · next hm => exact hc hm xs t ht hk
  · next hm => exact hd hm xs t ht hk

end

/-! ### A plane as one region (42_mesh R311) -/

/-- The region that PLANE_GEOM selects. -/
def FrameConfig.planeRegion (c : FrameConfig) (p : Plane) : Region :=
  { x0 := 0, y0 := 0, w := BitVec.ofNat 32 (c.planeW p), h := BitVec.ofNat 32 (c.planeH p) }

/-- `u` with the registers as PLANE_GEOM leaves them. -/
def State.enterPlane (s u : State) (p : Plane) : State :=
  u.withBlock 0 (s.cfg.planeW p) 0 (s.cfg.planeH p) (s.cfg.planeW p) (s.cfg.planeH p) (s.cfg.seedNumber p 0 0)

section
variable {s u : State}

theorem State.sameSetup_enterPlane (s u : State) (p : Plane) : u.SameSetup (s.enterPlane u p) := rfl

theorem State.SameSetup.planeGeom_out (h : s.SameSetup u) (ok : s.frameOk) (p : Plane) :
    (cmdPlaneGeom p).out u = .ok () (s.enterPlane u p) := by
  rw [cmdPlaneGeom_ok (h.frameOk_iff.2 ok), h.cfg]
  rfl

theorem State.frameOk.planeRegion_toNat (h : s.frameOk) (p : Plane) :
    (s.cfg.planeRegion p).w.toNat = s.cfg.planeW p ∧ (s.cfg.planeRegion p).h.toNat = s.cfg.planeH p :=
  ⟨Nat.mod_eq_of_lt (h.planeW_lt p), Nat.mod_eq_of_lt (h.planeH_lt p)⟩

theorem State.frameOk.planeRegion_pixels (h : s.frameOk) (p : Plane) :
    (s.cfg.planeRegion p).pixels = raster (s.cfg.planeW p) (s.cfg.planeH p) := by
  obtain ⟨hw, hh⟩ := h.planeRegion_toNat p
  have hid : (fun q : Nat × Nat => ((s.cfg.planeRegion p).x0.toNat + q.1,
      (s.cfg.planeRegion p).y0.toNat + q.2)) = id :=
    funext fun q => Prod.ext (Nat.zero_add _) (Nat.zero_add _)
  rw [Region.pixels, hid, List.map_id, hw, hh]

/-- The first block of the grid. -/
theorem State.frameOk.inGrid_zero (h : s.frameOk) : s.cfg.InGrid (0, 0) := by
  obtain ⟨-, -, -, hgw, hgh⟩ := h.dimsLegal
  exact ⟨BitVec.toNat_pos_of_ne_zero hgw, BitVec.toNat_pos_of_ne_zero hgh⟩

theorem State.frameOk.planeRegion_ok (h : s.frameOk) (p : Plane) :
    (s.withRegion (s.cfg.planeRegion p)).regionOk p := by
  obtain ⟨hw, hh⟩ := h.planeRegion_toNat p
  obtain ⟨⟨hx, hxw⟩, ⟨hy, hyh⟩⟩ := h.block h.inGrid_zero p
  refine (State.regionOk_iff _ p).2 ⟨h, ?_⟩
  simp only [State.withRegion_region, State.withRegion_cfg, hw, hh]
  exact ⟨by omega, by omega, (Nat.zero_add _).le, (Nat.zero_add _).le⟩

end

/-! ### The fields of a frame (44_frame R400) -/

/-- The bits of a table's header (44_frame R407). -/
def HuffTable.headerBits (h : HuffTable) : List Bool := allHops.flatMap fun i => msbBits (h.len.get i).toNat 4

/-- The bits of the code of the hop in a pixel's byte. -/
def State.pixelCode (g : State) (p : Plane) (q : Nat × Nat) : List Bool :=
  (g.table p.tbl).codeBitsOf (g.hopAt p q)

/-- The bits of the hop stream of plane `p` (44_frame R409). -/
def State.planeCode (g : State) (p : Plane) : List Bool := (g.streamPixels p).flatMap (g.pixelCode p)

/-- The bits of the mesh field; a basic frame has none (44_frame R408). -/
def State.meshFieldBits (g : State) : List Bool := if g.cfg.mode = 2 then g.meshBits g.cfg.cornerCount else []

/-- The bits of the frame that `g` holds, before its padding. -/
def State.frameBitList (g : State) : List Bool :=
  g.cfg.headerBits ++ (g.seedBits ++ ((g.plat.hdrOrder.tables.flatMap fun t => (g.table t).headerBits) ++
    (g.meshFieldBits ++ allPlanes.flatMap g.planeCode)))

section
variable {g t : State} {N : Nat} {p : Plane} {b : Nat × Nat}

theorem HuffTable.headerBits_length (h : HuffTable) : h.headerBits.length = 36 := rfl

theorem cmdHuffWriteHdr_appends {s : State} {t : Tbl} (hv : (s.table t).valid = true) (hc : s.calm)
    (hw : s.canWrite 36) : (cmdHuffWriteHdr t).Appends s (s.table t).headerBits := by
  obtain ⟨m, out, app⟩ := Cmd.writes_forEach (f := fun i => writeBits ((s.table t).len.get i).toNat 4)
    (fun i => writeBits_writes _ 4) allHops s hc hw
  exact ⟨m, by rw [cmdHuffWriteHdr, needHuff_seq, if_pos hv, Cmd.out_read_bind]; exact out, app⟩

/-- HUFF_ENC_REGION of a region whose every hop has a code. -/
theorem cmdHuffEncRegion_appends {s : State} (hc : s.calm) (hv : (s.table p.tbl).valid = true)
    (hr : s.regionOk p)
    (hops : ∀ q ∈ s.region.pixels, (s.byteAt (s.hopAddr p q.1 q.2)).toNat ≤ 8 ∧
      liveLen ((s.table p.tbl).len.get (s.hopAt p q)) = true)
    (hw : s.canWrite (s.region.pixels.flatMap (s.pixelCode p)).length)
    (apart : ∀ q ∈ s.region.pixels, ¬ inStream s.writer.base s.writer.pos.toNat
      (s.region.pixels.flatMap (s.pixelCode p)).length (s.hopAddr p q.1 q.2).toNat) :
    (cmdHuffEncRegion p).Appends s (s.region.pixels.flatMap (s.pixelCode p)) := by
  obtain ⟨m, out, app⟩ := Cmd.Appends.forEach hw (f := encodePixel p) (bits := s.pixelCode p)
    (fun q hq _ _ ht => encodePixel_appends hc (Nat.lt_succ_of_le (hops q hq).1) (hops q hq).2 (apart q hq) ht)
    (s.appending_start _) (Nat.zero_add _).le
  exact ⟨m, by rw [cmdHuffEncRegion_eq, needHuff_seq, if_pos hv, regionCheck_seq_ok hr, Cmd.out_read_bind];
               exact out, app⟩

section
variable (e : g.EmitReady N)
include e

theorem State.EmitReady.header : cmdHdrWrite.Emits g N g.cfg.headerBits :=
  .of_appends e.room fun _ _ ht _ hw => ht.setup.cfg ▸ cmdHdrWrite_appends
    (ht.setup.calm_iff.2 e.frame.calm) (ht.setup.frameOk_iff.2 e.frame.frame) hw

theorem State.EmitReady.seeds : cmdSeedsWrite.Emits g N g.seedBits := by
  refine .of_appends e.room fun xs t ht hk hw => ?_
  have hxs : xs.length ≤ N := by omega
  have slot : ∀ i, i < g.cfg.seedCount → t.slotBits i = g.slotBits i := fun i hi => by
    rw [State.slotBits, State.slotBits, ht.setup.seedSlot]
    exact congrArg (fun v : Byte => msbBits v.toNat 8) (ht.read e hxs (l := .seed i) hi nofun)
  have hbits : t.seedBits = g.seedBits := by
    rw [State.seedBits, State.seedBits, ht.setup.cfg]
    exact List.flatMap_congr fun i hi => slot i (List.mem_range.1 hi)
  rw [← hbits, t.seedBits_length] at hk hw
  rw [← hbits]
  refine cmdSeedsWrite_appends (ht.setup.calm_iff.2 e.frame.calm) (ht.setup.frameOk_iff.2 e.frame.frame) hw
    fun i hi => ?_
  rw [ht.setup.cfg] at hi
  rw [ht.setup.seedSlot]
  exact ht.not_inStream e hk (l := .seed i) hi nofun

theorem State.EmitReady.tableHeaders : (forHeaders cmdHuffWriteHdr).Emits g N
    (g.plat.hdrOrder.tables.flatMap fun t => (g.table t).headerBits) :=
  Cmd.emits_read (fun _ _ ht _ => by rw [ht.setup.plat]) <| Cmd.emits_forEach fun τ _ =>
    .of_appends e.room fun _ _ ht _ hw => ht.table τ ▸ cmdHuffWriteHdr_appends
      (ht.table τ ▸ (e.tables τ).1) (ht.setup.calm_iff.2 e.frame.calm) hw

theorem State.EmitReady.meshWrite (hm : g.cfg.mode = 2) :
    cmdMeshWrite.Emits g N (g.meshBits g.cfg.cornerCount) := by
  refine .of_appends e.room fun xs t ht hk hw => ?_
  have hxs : xs.length ≤ N := by omega
  have corner : ∀ k, k < g.cfg.cornerCount → t.byteAt (t.meshByteAddr k) = g.byteAt (g.meshByteAddr k) :=
    fun k hk => by
      rw [ht.setup.meshByteAddr]
      exact ht.read e hxs (l := .mesh k) hk nofun
  have hbits : t.meshBits g.cfg.cornerCount = g.meshBits g.cfg.cornerCount :=
    List.flatMap_congr fun k hk => by rw [corner k (List.mem_range.1 hk)]
  rw [g.meshBits_length] at hk hw
  obtain ⟨u, out, written⟩ := cmdMeshWrite_ok (s := t) (ht.setup.calm_iff.2 e.frame.calm)
    (ht.setup.frameOk_iff.2 e.frame.frame) (by rw [ht.setup.cfg]; exact hw)
    (fun k hk => by
      rw [ht.setup.cfg] at hk
      rw [corner k hk]
      exact e.frame.mesh hm k hk)
    fun k hk' => by
      rw [ht.setup.cfg] at hk' ⊢
      rw [ht.setup.meshByteAddr]
      exact ht.not_inStream e hk (l := .mesh k) hk' nofun
  have rest := written.rest
  have app := written.appended
  rw [ht.setup.cfg] at rest app
  rw [hbits] at app
  exact ⟨u.mem, by rw [g.meshBits_length, out, ← rest], app⟩

theorem State.EmitReady.meshField : (byMode cmdMeshWrite (Cmd.pure ())).Emits g N g.meshFieldBits := by
  rw [State.meshFieldBits]
  refine Cmd.emits_byMode (fun hm => ?_) fun hm => ?_
  · rw [if_pos hm]
    exact e.meshWrite hm
  · rw [if_neg hm]
    exact Cmd.emits_pure

/-- The codes of the pixels of a region that the frame's scans cover. -/
theorem State.EmitReady.region {r : Region} {xs : List Bool} (hr : (g.withRegion r).regionOk p)
    (hin : ∀ q ∈ r.pixels, ∃ b, g.cfg.InGrid b ∧ g.inBlock p b q.1 q.2)
    (ht : g.Emitted xs t) (ht' : t.region = r)
    (hk : xs.length + (r.pixels.flatMap (g.pixelCode p)).length ≤ N) :
    ∃ u, (cmdHuffEncRegion p).out t = .ok () u ∧ g.Emitted (xs ++ r.pixels.flatMap (g.pixelCode p)) u := by
  have hxs : xs.length ≤ N := by omega
  have place : ∀ q ∈ r.pixels, g.cfg.HasPlace (g.byteCount N) (.hop p q.1 q.2) := fun q hq => by
    obtain ⟨b, hb, hin⟩ := hin q hq
    exact hin.inPlane e.frame.frame hb
  have byte : ∀ q ∈ r.pixels, t.byteAt (t.hopAddr p q.1 q.2) = g.byteAt (g.hopAddr p q.1 q.2) := fun q hq => by
    rw [ht.setup.hopAddr]
    exact ht.read e hxs (place q hq) nofun
  have hop : ∀ q ∈ r.pixels, t.hopAt p q = g.hopAt p q := fun q hq => by
    rw [State.hopAt, State.hopAt, byte q hq]
  have hbits : r.pixels.flatMap (t.pixelCode p) = r.pixels.flatMap (g.pixelCode p) :=
    List.flatMap_congr fun q hq => by rw [State.pixelCode, State.pixelCode, hop q hq, ht.table]
  refine ht.appends e.room hk ?_
  rw [← hbits, ← ht'] at hk ⊢
  refine cmdHuffEncRegion_appends (ht.setup.calm_iff.2 e.frame.calm) (by rw [ht.table]; exact (e.tables _).1) ?_
    (fun q hq => ?_) (ht.canWrite e.room hk) fun q hq => ?_
  · rw [State.regionOk_iff] at hr ⊢
    rw [ht', ht.setup.cfg, ht.setup.frameOk_iff]
    exact hr
  · rw [ht'] at hq
    obtain ⟨b, hb, hin⟩ := hin q hq
    rw [byte q hq, hop q hq, ht.table]
    exact e.hops p b hb q.1 q.2 hin
  · rw [ht.setup.hopAddr]
    exact ht.not_inStream e hk (place q (ht' ▸ hq)) nofun

/-- One block of pass 2 in advanced mode. -/
theorem State.EmitReady.block (hb : g.cfg.InGrid b) :
    ((cmdBlockGeom p b.1 b.2).seq (cmdHuffEncRegion p)).Emits g N
      ((g.blockRegion p b).pixels.flatMap (g.pixelCode p)) := fun xs t ht hk => by
  have hframe := ht.inFrame e (by omega)
  obtain ⟨u, out, hu⟩ := e.region (g.blockRegion_ok e.frame.frame hb p)
    (fun q hq => ⟨b, hb, Region.mem_pixels hq⟩)
    (ht.geometry (g.sameSetup_enterBlock t p b) rfl rfl rfl : g.Emitted xs (g.enterBlock t p b)) rfl hk
  exact ⟨u, by rw [Cmd.out_seq_ok (hframe.blockGeom_out e.frame hb), out], hu⟩

/-- The region of PLANE_GEOM is the whole plane (42_mesh R311). -/
theorem State.EmitReady.plane (hm : g.cfg.mode ≠ 2) : ((cmdPlaneGeom p).seq (cmdHuffEncRegion p)).Emits g N
    ((raster (g.cfg.planeW p) (g.cfg.planeH p)).flatMap (g.pixelCode p)) := fun xs t ht hk => by
  have h := e.frame.frame
  rw [← h.planeRegion_pixels] at hk ⊢
  have hin : ∀ q ∈ (g.cfg.planeRegion p).pixels, ∃ b, g.cfg.InGrid b ∧ g.inBlock p b q.1 q.2 := fun q hq => by
    rw [h.planeRegion_pixels, mem_raster] at hq
    exact g.exists_block h hm hq.1 hq.2
  obtain ⟨u, out, hu⟩ := e.region (h.planeRegion_ok p) hin
    (ht.geometry (g.sameSetup_enterPlane t p) rfl rfl rfl : g.Emitted xs (g.enterPlane t p)) rfl hk
  exact ⟨u, by rw [Cmd.out_seq_ok (ht.setup.planeGeom_out h p), out], hu⟩

theorem State.EmitReady.planeField (p : Plane) : (encodePlaneEmit p).Emits g N (g.planeCode p) := by
  rw [State.planeCode, State.streamPixels]
  refine Cmd.emits_byMode (fun hm => ?_) fun hm => ?_
  · rw [if_pos hm, g.scanPixels_eq e.frame.frame e.frame.mesh, List.flatMap_assoc]
    exact Cmd.emits_read (fun _ _ ht _ => by rw [ht.setup.cfg]) <|
      Cmd.emits_forEach fun b hb => e.block (mem_raster.1 hb)
  · rw [if_neg hm]
    exact e.plane hm

end
end

end Sys2Proof.Machine
end

section
namespace Sys2Proof.Machine

-- One theorem at a time: many checked at once need more threads than the memory limit allows.
set_option Elab.async false

/-! ### The same frame seen from a later state of its command -/

section
variable {s t u : State} {first : Word} {n : Nat} {p : Plane} {b : Nat × Nat} {m : Memory}

theorem State.InFrame.trans (h : s.InFrame t) (h' : t.InFrame u) : s.InFrame u where
  setup := h.setup.trans h'.setup
  mesh k hk := by
    have later := h'.mesh k (by rw [h.setup.cfg]; exact hk)
    rw [h.setup.meshByteAddr] at later
    exact later.trans (h.mesh k hk)

theorem State.SameSetup.buffersApart_iff (h : s.SameSetup t) (first : Word) (n : Nat) :
    t.buffersApart (addrsFrom first n) ↔ s.buffersApart (addrsFrom first n) := by
  rw [State.buffersApart, State.buffersApart, ← State.map_places, ← State.map_places, h.cfg,
    funext (h.placeAddr first)]

theorem State.InFrame.frameReady (h : s.InFrame t) (r : s.FrameReady first n) : t.FrameReady first n where
  calm := h.setup.calm_iff.2 r.calm
  tables := h.setup.tablesReady_iff.2 r.tables
  frame := h.setup.frameOk_iff.2 r.frame
  mesh := h.meshOk r.mesh
  apart := (h.setup.buffersApart_iff first n).2 r.apart

theorem State.InFrame.blockRegion (h : s.InFrame t) (hb : s.cfg.InGrid b) (p : Plane) :
    t.blockRegion p b = s.blockRegion p b := by
  rw [State.blockRegion, State.blockRegion, h.blockSize hb p, h.setup.cfg]

theorem State.InFrame.inBlock_iff (h : s.InFrame t) (hb : s.cfg.InGrid b) (x y : Nat) :
    t.inBlock p b x y ↔ s.inBlock p b x y := by
  rw [State.inBlock, State.inRegion, h.blockRegion hb p]
  rfl

theorem State.SameSetup.hopsIn (h : s.SameSetup t) (p : Plane) (m : Memory) (x y : Nat) :
    t.hopsIn p m x y = s.hopsIn p m x y := by
  rw [State.hopsIn, State.hopsIn, h.hopAddr]

theorem State.BlockDone.of_inFrame (hd : s.BlockDone p b m) (h : s.InFrame t) (hb : s.cfg.InGrid b) :
    t.BlockDone p b m where
  hops x y hin := by
    rw [h.setup.hopAddr]
    exact hd.hops x y ((h.inBlock_iff hb x y).1 hin)
  trace := by
    obtain ⟨hs, trace⟩ := hd.trace
    refine ⟨hs, trace.congr (h.blockRegion hb p) (congrArg FrameConfig.ratio h.setup.cfg)
      (congrArg Control.interiorVariant h.setup.ctrl) ?_ (fun x y _ => h.setup.hopsIn p m x y)
      fun x y _ => congrArg (fun a : Word => m.read a.toNat) (h.setup.dstAddr p x y)⟩
    show m.read (t.seedSlot _).toNat = m.read (s.seedSlot _).toNat
    rw [h.setup.seedSlot, h.setup.cfg]

end

/-! ### Tables from the counts of a frame (43_huffman R360, R367) -/

/-- The table that HUFF_FROM_COUNTS makes. -/
def HuffTable.fromCounts (h : HuffTable) : HuffTable :=
  { h with len := huffLengths h.count, code := assignCodes (huffLengths h.count), valid := true }

section
variable {h : HuffTable}

theorem HuffTable.fromCounts_live (h : HuffTable) (i : Hop) :
    liveLen (h.fromCounts.len.get i) = true ↔ h.count.get i ≠ 0 := by
  obtain ⟨d, hl⟩ := huffLengths_lengthsOf h.count
  exact (hl.live_iff i).trans mem_usedHops

theorem HuffTable.fromCounts_len_le {i : Hop} (hi : liveLen (h.fromCounts.len.get i) = true) :
    (h.fromCounts.len.get i).toNat ≤ 8 := by
  obtain ⟨d, hl⟩ := huffLengths_lengthsOf h.count
  have hi := (hl.live_iff i).1 hi
  exact (hl.len_eq hi).trans_le (hl.bounds i hi).2

theorem HuffTable.fromCounts_ready {i : Hop} (hi : h.count.get i ≠ 0) : h.fromCounts.ready := by
  obtain ⟨d, hl⟩ := huffLengths_lengthsOf h.count
  exact ⟨rfl, hl.valid (usedHops_nodup _) (List.ne_nil_of_mem (mem_usedHops.2 hi)), rfl⟩

theorem cmdHuffFromCounts_ok {s : State} {t : Tbl} {i : Hop} (hi : (s.table t).count.get i ≠ 0) :
    (cmdHuffFromCounts t).out s = .ok () (s.withTable t (s.table t).fromCounts) :=
  (cmdHuffFromCounts_out t s).trans (cmdHuffBuild_stored_ok (HuffTable.fromCounts_ready hi).2.1)

end

/-- Both tables made from their counts. -/
def State.withTables (s : State) : State :=
  (s.withTable .luma (s.table .luma).fromCounts).withTable .chroma (s.table .chroma).fromCounts

theorem State.sameSetup_withTable (s : State) (t : Tbl) (h : HuffTable) : s.SameSetup (s.withTable t h) := by
  cases t <;> rfl

theorem State.sameSetup_withTables (s : State) : s.SameSetup s.withTables :=
  (s.sameSetup_withTable _ _).trans (State.sameSetup_withTable _ _ _)

theorem State.withTables_table (s : State) (t : Tbl) : s.withTables.table t = (s.table t).fromCounts := by
  cases t <;> rfl

section
variable {s u : State} {first : Word} {n : Nat}

/-- The scans of a frame cover no more pixels than there are addresses. -/
theorem State.FrameReady.jobPixels_lt (r : s.FrameReady first n) : s.jobPixels s.cfg.jobs < 2 ^ 32 := by
  have plane : ∀ p, ((s.cfg.planeJobs p).map fun j => (s.blockRegion j.1 j.2).pixels.length).sum ≤
      s.cfg.planeW p * s.cfg.planeH p := fun p => by
    refine le_of_eq_of_le ?_ (s.scanPixels_length_le r.frame r.mesh p)
    rw [s.scanPixels_eq r.frame r.mesh, List.length_flatMap, FrameConfig.planeJobs, List.map_map]
    rfl
  refine lt_of_le_of_lt ?_ (State.sampleCount_lt r.apart)
  have := plane .luma
  have := plane .chromaA
  have := plane .chromaB
  simp only [State.jobPixels, FrameConfig.jobs, FrameConfig.sampleCount, allPlanes, List.flatMap_cons,
    List.flatMap_nil, List.map_append, List.sum_append, List.map_cons, List.map_nil, List.sum_cons, List.sum_nil]
  omega

/-- After pass 1 the count of every hop is above 0. -/
theorem State.Predicted.count_ne_zero (h : s.Predicted first s.cfg.jobs u) (r : s.FrameReady first n)
    {p : Plane} {b : Nat × Nat} (hb : s.cfg.InGrid b) {x y : Nat} (hin : s.inBlock p b x y) :
    (u.table p.tbl).count.get (s.hopsIn p u.mem x y) ≠ 0 := by
  obtain ⟨count, hc⟩ := h.counts
  have hpos := hc.counted (p, b) (FrameConfig.mem_jobs.2 hb) x y hin
  have hlt := (hc.bounded p.tbl (s.hopsIn p u.mem x y)).trans_lt r.jobPixels_lt
  rw [hc.counts]
  intro h0
  have := congrArg BitVec.toNat h0
  rw [BitVec.toNat_ofNat, Nat.mod_eq_of_lt hlt] at this
  exact hpos.ne' this

/-- Every plane has a first pixel. -/
theorem State.frameOk.first_inBlock (h : s.frameOk) (p : Plane) :
    s.inBlock p (0, 0) (s.cfg.boundX p 0) (s.cfg.boundY p 0) := by
  obtain ⟨⟨hw, -⟩, ⟨hh, -⟩⟩ := s.blockSize_bounds h h.inGrid_zero p
  exact (s.inBlock_iff h h.inGrid_zero _ _).2 ⟨le_rfl, Nat.lt_add_of_pos_right hw, le_rfl,
    Nat.lt_add_of_pos_right hh⟩

/-- After pass 1 both tables can be made. -/
theorem State.Predicted.exists_count (h : s.Predicted first s.cfg.jobs u) (r : s.FrameReady first n) (t : Tbl) :
    ∃ i, (u.table t).count.get i ≠ 0 := by
  cases t with
  | luma => exact ⟨_, h.count_ne_zero r r.frame.inGrid_zero (r.frame.first_inBlock .luma)⟩
  | chroma => exact ⟨_, h.count_ne_zero r r.frame.inGrid_zero (r.frame.first_inBlock .chromaA)⟩

theorem State.Predicted.fromCounts_out (h : s.Predicted first s.cfg.jobs u) (r : s.FrameReady first n)
    (d : Cmd Unit) : ((cmdHuffFromCounts .luma).seq ((cmdHuffFromCounts .chroma).seq d)).out u =
      d.out u.withTables := by
  obtain ⟨i, hi⟩ := h.exists_count r .luma
  obtain ⟨j, hj⟩ := h.exists_count r .chroma
  have hj' : ((u.withTable .luma (u.table .luma).fromCounts).table .chroma).count.get j ≠ 0 := hj
  rw [Cmd.out_seq_ok (cmdHuffFromCounts_ok hi), Cmd.out_seq_ok (cmdHuffFromCounts_ok hj')]
  rfl

/-- Between its passes FRAME_ENCODE is ready to emit. -/
theorem State.Predicted.emitReady {N : Nat} (h : s.Predicted s.firstByte s.cfg.jobs u)
    (r : s.FrameReady s.firstByte (s.byteCount N)) (room : s.canWrite N) : u.withTables.EmitReady N := by
  have hg : s.InFrame u.withTables := ⟨h.inFrame.setup.trans u.sameSetup_withTables, h.inFrame.mesh⟩
  have hwriter : u.withTables.writer = s.writer := h.writer
  refine ⟨?_, ?_, fun t => ?_, fun p b hb x y hin => ?_⟩
  · rw [State.firstByte, State.byteCount, hwriter]
    exact hg.frameReady r
  · rw [State.canWrite, hwriter]
    exact room
  · obtain ⟨i, hi⟩ := h.exists_count r t
    rw [State.withTables_table]
    exact HuffTable.fromCounts_ready hi
  · rw [hg.setup.cfg] at hb
    have hin := (hg.inBlock_iff hb x y).1 hin
    rw [hg.setup.hopAddr, hg.setup.hopsIn, State.withTables_table, HuffTable.fromCounts_live]
    exact ⟨(h.jobs.blocks (p, b) (FrameConfig.mem_jobs.2 hb)).hops x y hin, h.count_ne_zero r hb hin⟩

end

end Sys2Proof.Machine
end

section
namespace Sys2Proof.Machine

-- One theorem at a time: many checked at once need more threads than the memory limit allows.
set_option Elab.async false

/-! ### Bits that stand in a stream (20_memory R112) -/

/-- The stream at `base` holds `bits` from bit `q` on. -/
def bitsAt (m : Memory) (base : Word) (q : Nat) (bits : List Bool) : Prop :=
  ∀ k b, bits[k]? = some b → bitAt m base (q + k) = b

section
variable {m : Memory} {base : Word} {q n : Nat} {xs ys : List Bool}

theorem bitsAt.left (h : bitsAt m base q (xs ++ ys)) : bitsAt m base q xs := fun k b hk =>
  h k b (by rw [List.getElem?_append_left (List.getElem?_eq_some_iff.1 hk).1]; exact hk)

theorem bitsAt.right (h : bitsAt m base q (xs ++ ys)) : bitsAt m base (q + xs.length) ys := fun k b hk => by
  rw [Nat.add_assoc]
  exact h _ b (by rw [List.getElem?_append_right (Nat.le_add_right _ _), Nat.add_sub_cancel_left]; exact hk)

theorem fieldAt_of_bitsAt {v : Nat} (h : bitsAt m base q (msbBits v n)) (hv : v < 2 ^ n) :
    fieldAt m base q n = v := by
  have key : ∀ k, k ≤ n → fieldAt m base q k = v / 2 ^ (n - k) := by
    intro k
    induction k with
    | zero => intro _; simp [fieldAt, Nat.div_eq_of_lt hv]
    | succ k ih =>
      intro hk
      have hb : bitAt m base (q + k) = v.testBit (n - 1 - k) :=
        h k _ (by simp [msbBits, List.getElem?_range (show k < n by omega)])
      rw [fieldAt, ih (by omega), hb, Nat.toNat_testBit, show n - k = (n - 1 - k) + 1 by omega,
        show n - (k + 1) = n - 1 - k by omega, pow_succ, ← Nat.div_div_eq_div_mul]
      omega
  simpa using key n le_rfl

/-- Items of equal lengths, by number. -/
theorem bitsAt.item {α : Type} {f : α → List Bool} {len : Nat} (hf : ∀ a, (f a).length = len)
    {l : List α} {a : α} {i : Nat} (h : bitsAt m base q (l.flatMap f)) (hi : l[i]? = some a) : bitsAt m base (q + len * i) (f a) := by
  induction l generalizing q i with
  | nil => cases hi
  | cons b l ih =>
    rw [List.flatMap_cons] at h
    cases i with
    | zero =>
      obtain rfl : b = a := by simpa using hi
      exact h.left
    | succ i =>
      have rest := ih h.right (by simpa using hi)
      rwa [hf, Nat.add_assoc, Nat.add_comm len, ← Nat.mul_succ] at rest

end

/-! ### The length of a frame (44_frame R400) -/

theorem flatMap_length_le {α : Type} {f : α → List Bool} {n : Nat} {l : List α}
    (hf : ∀ a ∈ l, (f a).length ≤ n) : (l.flatMap f).length ≤ n * l.length := by
  induction l with
  | nil => simp
  | cons a l ih =>
    obtain ⟨ha, hl⟩ := List.forall_mem_cons.1 hf
    have := ih hl
    rw [List.flatMap_cons, List.length_append, List.length_cons, Nat.mul_succ]
    omega

theorem FrameConfig.headerBits_length (c : FrameConfig) : c.headerBits.length = 88 := by
  rw [FrameConfig.headerBits, flatMap_length_const (n := 8) fun v => msbBits_length v 8]
  rfl

theorem HdrOrder.tables_length (o : HdrOrder) : o.tables.length = 2 := by cases o <;> rfl

theorem State.meshFieldBits_length (g : State) :
    g.meshFieldBits.length = if g.cfg.mode = 2 then 6 * g.cfg.cornerCount else 0 := by
  rw [State.meshFieldBits]
  split
  · exact g.meshBits_length _
  · rfl

theorem State.frameBitList_length (g : State) : g.frameBitList.length = 88 + 8 * g.cfg.seedCount + 72 +
    (if g.cfg.mode = 2 then 6 * g.cfg.cornerCount else 0) + (allPlanes.flatMap g.planeCode).length := by
  rw [State.frameBitList, List.length_append, List.length_append, List.length_append, List.length_append,
    FrameConfig.headerBits_length, State.seedBits_length, State.meshFieldBits_length,
    flatMap_length_const (n := 36) fun t => HuffTable.headerBits_length _, HdrOrder.tables_length]
  omega

section
variable {g : State} {N : Nat}

/-- With codes of at most 8 bits the frame keeps its bound. -/
theorem State.EmitReady.frameBitList_le (e : g.EmitReady N)
    (short : ∀ t i, liveLen ((g.table t).len.get i) = true → ((g.table t).len.get i).toNat ≤ 8) :
    g.frameBitList.length + 7 ≤ g.cfg.frameBits := by
  have plane : ∀ p, (g.planeCode p).length ≤ 8 * (g.cfg.planeW p * g.cfg.planeH p) := fun p => by
    have hperm := g.streamPixels_perm e.frame.frame e.frame.mesh p
    refine (flatMap_length_le (n := 8) fun q hq => ?_).trans (Nat.mul_le_mul_left 8
      (hperm.length_eq.trans_le (g.scanPixels_length_le e.frame.frame e.frame.mesh p)))
    obtain ⟨b, hb, hin⟩ := (g.mem_scanPixels e.frame.frame e.frame.mesh).1 (hperm.mem_iff.1 hq)
    exact (HuffTable.codeBitsOf_length _ _).trans_le (short _ _ (e.hops p b hb _ _ hin).2)
  have := plane .luma
  have := plane .chromaA
  have := plane .chromaB
  rw [State.frameBitList_length, FrameConfig.frameBits]
  simp only [FrameConfig.sampleCount, allPlanes, List.flatMap_cons, List.flatMap_nil, List.length_append,
    List.length_nil, List.map_cons, List.map_nil, List.sum_cons, List.sum_nil]
  split <;> omega

end

/-! ### FRAME_ENCODE (44_frame R419) -/

/-- The zero bits from bit `q` to the next byte boundary. -/
def padBits (q : Nat) : List Bool := List.replicate ((8 - q % 8) % 8) false

theorem padBits_length (q : Nat) : (padBits q).length = (8 - q % 8) % 8 := List.length_replicate ..

/-- The place is a pixel's or a seed's. -/
def Place.IsOutput : Place → Prop
  | .hop .. | .dst .. | .seed _ => True
  | .mesh _ | .stream _ => False

/-- FRAME_ENCODE of `s` stands at `g` between its passes and ends in `t`: at `g` every block is done and
only its bytes have changed, and from there on the frame is emitted. -/
structure State.Encoded (s g t : State) : Prop where
  inFrame : s.InFrame g
  writer : g.writer = s.writer
  stores : s.Stores s.firstByte (fun l => s.cfg.HasPlace 0 l ∧ l.IsOutput) s.mem g.mem
  blocks : ∀ p b, s.cfg.InGrid b → g.BlockDone p b g.mem
  ready : g.EmitReady s.cfg.frameBits
  bound : g.frameBitList.length + 7 ≤ s.cfg.frameBits
  emitted : g.Emitted (g.frameBitList ++ padBits (g.writer.pos.toNat + g.frameBitList.length)) t

/-- Both tables with their counts cleared. -/
def State.cleared (s : State) : State :=
  (s.withTable .luma { s.table .luma with count := Nine.all 0 }).withTable .chroma
    { s.table .chroma with count := Nine.all 0 }

section
variable {s g t u : State} {first : Word} {n N : Nat} {xs ys : List Bool} {c : Cmd Unit}

theorem Cmd.Emits.out_seq (hc : c.Emits g N ys) (ht : g.Emitted xs t) (hk : xs.length + ys.length ≤ N)
    (d : Cmd Unit) : ∃ u, (c.seq d).out t = d.out u ∧ g.Emitted (xs ++ ys) u := by
  obtain ⟨u, out, hu⟩ := hc xs t ht hk
  exact ⟨u, Cmd.out_seq_ok out d, hu⟩

/-- Pass 2 up to the flush. -/
theorem State.EmitReady.frame_out (e : g.EmitReady N) (hk : g.frameBitList.length ≤ N) (d : Cmd Unit) :
    ∃ u, (cmdHdrWrite.seq <| cmdSeedsWrite.seq <| (forHeaders cmdHuffWriteHdr).seq <|
      (byMode cmdMeshWrite (Cmd.pure ())).seq <| (Cmd.forEach allPlanes encodePlaneEmit).seq d).out g =
        d.out u ∧ g.Emitted g.frameBitList u := by
  have planes : (Cmd.forEach allPlanes encodePlaneEmit).Emits g N (allPlanes.flatMap g.planeCode) :=
    Cmd.emits_forEach fun p _ => e.planeField p
  simp only [State.frameBitList, List.length_append] at hk
  obtain ⟨u1, out1, h1⟩ := e.header.out_seq (.start g) (by rw [List.length_nil]; omega) _
  obtain ⟨u2, out2, h2⟩ := e.seeds.out_seq h1 (by simp only [List.length_append, List.length_nil]; omega) _
  obtain ⟨u3, out3, h3⟩ := e.tableHeaders.out_seq h2
    (by simp only [List.length_append, List.length_nil]; omega) _
  obtain ⟨u4, out4, h4⟩ := e.meshField.out_seq h3 (by simp only [List.length_append, List.length_nil]; omega) _
  obtain ⟨u5, out5, h5⟩ := planes.out_seq h4 (by simp only [List.length_append, List.length_nil]; omega) d
  refine ⟨u5, by rw [out1, out2, out3, out4, out5], ?_⟩
  simpa only [State.frameBitList, List.nil_append, List.append_assoc] using h5

/-- The flush after bits that leave room for a byte's rest. -/
theorem State.Emitted.flush_out (h : g.Emitted xs t) (e : g.EmitReady N) (hk : xs.length + 7 ≤ N) :
    ∃ u, cmdBwFlush.out t = .ok () u ∧ g.Emitted (xs ++ padBits (g.writer.pos.toNat + xs.length)) u := by
  have hpad : padBits (g.writer.pos.toNat + xs.length) = List.replicate (padding t.writer.pos) false := by
    rw [padBits, padding, h.posNat e.room (by omega)]
  have hlen : (padBits (g.writer.pos.toNat + xs.length)).length ≤ 7 := by
    rw [padBits_length]
    omega
  refine h.appends e.room (by omega) ?_
  rw [hpad] at hlen ⊢
  rw [List.length_replicate] at hlen
  exact cmdBwFlush_appends (h.setup.calm_iff.2 e.frame.calm) (h.canWrite e.room (by omega))

theorem State.encodeReady.frameReady (h : s.encodeReady) :
    s.FrameReady s.firstByte (s.byteCount s.cfg.frameBits) := ⟨h.calm, h.tables, h.frame, h.mesh, h.apart⟩

theorem State.inFrame_cleared (s : State) : s.InFrame s.cleared :=
  ⟨(s.sameSetup_withTable _ _).trans (State.sameSetup_withTable _ _ _), fun _ _ => rfl⟩

theorem State.JobPlace.isOutput {done : List (Plane × Nat × Nat)} {l : Place} (h : s.JobPlace done l) :
    l.IsOutput := by
  obtain ⟨j, -, hl⟩ := h
  cases l with
  | hop | dst | seed => trivial
  | mesh | stream => exact hl

/-- FRAME_ENCODE from a state that is ready for it. -/
theorem cmdFrameEncode_ok (h : s.encodeReady) : ∃ g t, cmdFrameEncode.out s = .ok () t ∧ s.Encoded g t := by
  have r := s.inFrame_cleared.frameReady h.frameReady
  obtain ⟨u, outp, hu⟩ := r.predict fun τ i => by cases τ <;> exact Nine.get_all _ _
  have hin : s.InFrame u := s.inFrame_cleared.trans hu.inFrame
  have hg : s.InFrame u.withTables := hin.trans ⟨u.sameSetup_withTables, fun _ _ => rfl⟩
  have e : u.withTables.EmitReady s.cfg.frameBits := hu.emitReady r h.room
  have hbound := e.frameBitList_le fun τ i hi => by
    rw [State.withTables_table] at hi ⊢
    exact HuffTable.fromCounts_len_le hi
  rw [hg.setup.cfg] at hbound
  obtain ⟨v, outv, hv⟩ := e.frame_out (by omega) cmdBwFlush
  obtain ⟨t, outt, ht⟩ := hv.flush_out e (by omega)
  refine ⟨u.withTables, t, ?_, hg, hu.writer, fun a ha => ?_, fun p b hb => ?_, e, hbound, ht⟩
  · have check : frameCheck.out s = .ok () s := (frameCheck_out s).trans (if_pos h.frame)
    have steps : encodeSteps.out s = .ok () t := by
      rw [encodeSteps, cmdHuffClearCounts, Cmd.out_update_seq, cmdHuffClearCounts, Cmd.out_update_seq]
      exact (Cmd.out_seq_ok outp _).trans ((hu.fromCounts_out r _).trans (outv.trans outt))
    rw [cmdFrameEncode, needTables_seq, if_pos h.tables.1, frameEncodeSteps,
      Cmd.out_seq_ok (withWorkers_ok check), withWorkers_ok steps]
  · refine hu.jobs.stores a fun l hl => ?_
    rw [s.inFrame_cleared.setup.placeAddr]
    exact ha l ⟨s.inFrame_cleared.setup.cfg ▸ hl.hasPlace r.frame hu.jobs.grid 0, hl.isOutput⟩
  · have hb' : s.cleared.cfg.InGrid b := hb
    exact (hu.jobs.blocks (p, b) (FrameConfig.mem_jobs.2 hb')).of_inFrame
      (hu.inFrame.trans ⟨u.sameSetup_withTables, fun _ _ => rfl⟩) hb'

end

end Sys2Proof.Machine
end

section
namespace Sys2Proof.Machine

-- One theorem at a time: many checked at once need more threads than the memory limit allows.
set_option Elab.async false

/-! ### What FRAME_ENCODE leaves (44_frame R419) -/

theorem mem_flatMap_raster {s : State} {addr : Plane → Nat → Nat → Word} {p : Plane} {x y : Nat}
    (h : x < s.cfg.planeW p ∧ y < s.cfg.planeH p) : addr p x y ∈ allPlanes.flatMap fun p =>
      (raster (s.cfg.planeW p) (s.cfg.planeH p)).map fun q => addr p q.1 q.2 :=
  List.mem_flatMap.2 ⟨p, mem_allPlanes p, List.mem_map.2 ⟨(x, y), mem_raster.2 h, rfl⟩⟩

/-- A pixel's or a seed's byte is one of those that its buffer lists. -/
theorem State.output_mem {s : State} {n : Nat} {l : Place} (first : Word) (h : s.cfg.HasPlace n l)
    (ho : l.IsOutput) : s.placeAddr first l ∈ s.seedBytes ∨ s.placeAddr first l ∈ s.dstBytes ∨
      s.placeAddr first l ∈ s.hopBytes := by
  cases l with
  | hop p x y => exact .inr (.inr (mem_flatMap_raster (addr := s.hopAddr) h))
  | dst p x y => exact .inr (.inl (mem_flatMap_raster (addr := s.dstAddr) h))
  | seed i => exact .inl (List.mem_map.2 ⟨i, List.mem_range.2 h, rfl⟩)
  | mesh | stream => exact ho.elim

section
variable {s g t : State} (h : s.Encoded g t)
include h

/-- The length of the frame, its padding included. -/
theorem State.Encoded.length_le :
    (g.frameBitList ++ padBits (g.writer.pos.toNat + g.frameBitList.length)).length ≤ s.cfg.frameBits := by
  have := h.bound
  rw [List.length_append, padBits_length]
  omega

theorem State.Encoded.pos : t.writer.pos.toNat = s.writer.pos.toNat + g.frameBitList.length +
    (8 - (s.writer.pos.toNat + g.frameBitList.length) % 8) % 8 := by
  rw [h.emitted.posNat h.ready.room h.length_le, List.length_append, padBits_length, h.writer, Nat.add_assoc]

/-- The frame stands in the output stream. -/
theorem State.Encoded.bits : bitsAt t.mem s.writer.base s.writer.pos.toNat g.frameBitList := by
  have := bitsAt.left h.emitted.appended.written
  rwa [h.writer] at this

/-- No byte of a buffer has changed since the scans. -/
theorem State.Encoded.read {l : Place} (hl : s.cfg.HasPlace 0 l) :
    t.mem.read (s.placeAddr g.firstByte l).toNat = g.mem.read (s.placeAddr g.firstByte l).toNat := by
  rw [← h.inFrame.setup.placeAddr]
  rw [← h.inFrame.setup.cfg] at hl
  have hl' : g.cfg.HasPlace (g.byteCount s.cfg.frameBits) l := by
    cases l with
    | hop | dst | seed | mesh => exact hl
    | stream j => exact absurd hl (Nat.not_lt_zero j)
  exact h.emitted.read h.ready h.length_le hl' fun j hj => by
    subst hj
    exact Nat.not_lt_zero j hl

theorem State.Encoded.hops {p : Plane} {b : Nat × Nat} (frame : s.frameOk) (hb : s.cfg.InGrid b) {x y : Nat}
    (hin : s.inBlock p b x y) : (t.byteAt (s.hopAddr p x y)).toNat ≤ 8 := by
  have hop := (h.ready.hops p b (h.inFrame.setup.cfg ▸ hb) x y ((h.inFrame.inBlock_iff hb x y).2 hin)).1
  rw [h.inFrame.setup.hopAddr] at hop
  exact (congrArg BitVec.toNat (h.read (l := .hop p x y) (hin.inPlane frame hb))).trans_le hop

theorem State.Encoded.seedField {i : Nat} (hi : i < s.cfg.seedCount) :
    fieldAt t.mem s.writer.base (s.writer.pos.toNat + 88 + 8 * i) 8 = (t.byteAt (s.seedSlot i)).toNat := by
  have hbits := h.bits
  rw [State.frameBitList] at hbits
  have hseeds := hbits.right.left
  rw [FrameConfig.headerBits_length, State.seedBits, h.inFrame.setup.cfg] at hseeds
  have hslot := hseeds.item (f := g.slotBits) (fun i => msbBits_length _ 8) (List.getElem?_range hi)
  rw [State.slotBits, h.inFrame.setup.seedSlot] at hslot
  rw [fieldAt_of_bitsAt hslot (BitVec.isLt _)]
  exact congrArg BitVec.toNat (h.read (l := .seed i) hi).symm

theorem State.Encoded.others {a : Word} (seed : a ∉ s.seedBytes) (dst : a ∉ s.dstBytes) (hop : a ∉ s.hopBytes)
    (stream : ¬ inStream s.writer.base s.writer.pos.toNat (t.writer.pos.toNat - s.writer.pos.toNat) a.toNat) :
    t.byteAt a = s.byteAt a := by
  have hlen := h.emitted.posNat h.ready.room h.length_le
  rw [h.writer] at hlen
  rw [hlen, Nat.add_sub_cancel_left] at stream
  refine (h.emitted.appended.others a.toNat (by rw [h.writer]; exact stream)).trans ?_
  refine h.stores a.toNat fun l ⟨hl, ho⟩ he => ?_
  rw [BitVec.eq_of_toNat_eq he] at seed dst hop
  rcases s.output_mem s.firstByte hl ho with hmem | hmem | hmem
  · exact seed hmem
  · exact dst hmem
  · exact hop hmem

end

/-- Settles O58: two passes, of which the first stores hops, reconstruction and seeds and the second
appends the frame. -/
theorem frameEncodeCompletes : Obligations.FrameEncodeCompletes := by
  intro s ready
  obtain ⟨g, t, out, h⟩ := cmdFrameEncode_ok ready
  have setup := h.inFrame.setup.trans h.emitted.setup
  have hpos := h.pos
  have hbound := h.bound
  have tables : ∀ τ, (t.table τ).ready := fun τ => by
    rw [h.emitted.table]
    exact h.ready.tables τ
  refine ⟨t.finish, t.writer.pos.toNat - s.writer.pos.toNat, exec_ok out, ?_, setup.cfg, by omega,
    ?_, ?_, tables .luma, tables .chroma, ?_, fun i hi => h.seedField hi, fun p x y hp => ?_,
    fun a seed dst hop stream => h.others seed dst hop stream⟩
  · exact setup.quiet_iff.2 ready.quiet
  · rw [State.finish_writer]
    omega
  · rw [State.finish_writer]
    omega
  · have hbits := h.bits
    rw [State.frameBitList, h.inFrame.setup.cfg] at hbits
    exact hbits.left
  · obtain ⟨b, hb, hin⟩ := (s.scanned_iff ready.frame p x y).1 hp
    exact h.hops ready.frame hb hin

end Sys2Proof.Machine
end

section
namespace Sys2Proof.Machine

-- One theorem at a time: many checked at once need more threads than the memory limit allows.
set_option Elab.async false

/-! ### A frame that is read from the input stream (20_memory R111, 44_frame R418) -/

/-- The first byte of the stream from the reader's position on. -/
def State.inputByte (h : State) : Word := h.reader.base + BitVec.ofNat 32 (h.reader.pos.toNat / 8)

/-- The number of bytes that hold the `N` bits from the reader's position on. -/
def State.inputCount (h : State) (N : Nat) : Nat := (h.reader.pos.toNat % 8 + N + 7) / 8

/-- The places in which FRAME_DECODE may store: those of the buffers, the mesh's in advanced mode. -/
def State.LoadPlace (h : State) (l : Place) : Prop :=
  h.cfg.HasPlace 0 l ∧ ∀ k, l = .mesh k → h.cfg.mode = 2

/-- A frame of `N` bits lies in the input budget and over no buffer. -/
structure State.FrameInput (h : State) (N : Nat) : Prop where
  calm : h.calm
  tables : h.tablesReady
  frame : h.frameOk
  room : h.canRead N
  apart : h.buffersApart (addrsFrom h.inputByte (h.inputCount N))

/-- `t` is a state of the decoding of a frame begun at `h`, after `k` bits. -/
structure State.Reading (h : State) (k : Nat) (t : State) : Prop where
  setup : h.SameSetup t
  writer : t.writer = h.writer
  pos : t.reader.pos = h.reader.pos + BitVec.ofNat 32 k
  stores : h.Stores h.inputByte h.LoadPlace h.mem t.mem

theorem FrameConfig.HasPlace.not_stream {c : FrameConfig} {l : Place} (h : c.HasPlace 0 l) (j : Nat) :
    l ≠ .stream j := by
  rintro rfl
  exact Nat.not_lt_zero j h

theorem FrameConfig.HasPlace.more {c : FrameConfig} {l : Place} (h : c.HasPlace 0 l) (n : Nat) :
    c.HasPlace n l := by
  cases l with
  | hop | dst | seed | mesh => exact h
  | stream j => exact absurd h (Nat.not_lt_zero j)

section
variable {h t u : State} {N k j n : Nat} {l : Place}

theorem State.FrameInput.pos_lt (i : h.FrameInput N) : h.reader.pos.toNat + N < 2 ^ 32 :=
  i.room.trans_lt h.reader.budget.isLt

theorem State.Reading.start (h : State) : h.Reading 0 h where
  setup := .refl h
  writer := rfl
  pos := (BitVec.add_zero _).symm
  stores := .refl h _ _ _

theorem State.Reading.next (r : h.Reading k t) (setup : t.SameSetup u) (writer : u.writer = t.writer)
    (pos : u.reader.pos = t.reader.pos + BitVec.ofNat 32 j)
    (stores : h.Stores h.inputByte h.LoadPlace t.mem u.mem) : h.Reading (k + j) u where
  setup := r.setup.trans setup
  writer := writer.trans r.writer
  pos := by rw [pos, r.pos, BitVec.add_assoc, ← BitVec.ofNat_add]
  stores := r.stores.trans stores

section
variable (r : h.Reading k t) (i : h.FrameInput N)
include r i

theorem State.Reading.posNat (hk : k ≤ N) : t.reader.pos.toNat = h.reader.pos.toNat + k := by
  have := i.pos_lt
  rw [r.pos, BitVec.toNat_add, BitVec.toNat_ofNat]
  omega

theorem State.Reading.canRead (hk : k + j ≤ N) : t.canRead j := by
  have room := i.room
  rw [State.canRead, r.posNat i (by omega), r.setup.readerBudget]
  simp only [State.canRead] at room
  omega

/-- A buffer's byte is none of the next bits'. -/
theorem State.Reading.not_inStream (hk : k + j ≤ N) (hl : h.cfg.HasPlace 0 l) :
    ¬ inStream t.reader.base t.reader.pos.toNat j (h.placeAddr h.inputByte l).toNat := by
  rw [r.setup.readerBase, r.posNat i (by omega)]
  exact State.place_not_inStream i.apart i.pos_lt.le (hl.more _) hl.not_stream hk

/-- The frame's bits are as they were. -/
theorem State.Reading.bitAt_eq (hj : j < N) : bitAt t.mem h.reader.base (h.reader.pos.toNat + j) =
    bitAt h.mem h.reader.base (h.reader.pos.toNat + j) := by
  rw [bitAt, bitAt, r.stores]
  intro l hl he
  refine State.place_not_inStream (k := 0) i.apart i.pos_lt.le (hl.1.more _) hl.1.not_stream
    (Nat.zero_add N).le ?_
  rw [Nat.add_zero]
  exact ⟨j, hj, he.symm⟩

theorem State.Reading.fieldAt_eq (hj : j + n ≤ N) : fieldAt t.mem h.reader.base (h.reader.pos.toNat + j) n =
    fieldAt h.mem h.reader.base (h.reader.pos.toNat + j) n :=
  fieldAt_congr fun b hb => by
    rw [Nat.add_assoc]
    exact r.bitAt_eq i (by omega)

theorem State.Reading.inputField_eq (hj : k + j + n ≤ N) : t.inputField j n = h.inputField (k + j) n := by
  rw [State.inputField, r.setup.readerBase, r.posNat i (by omega), Nat.add_assoc]
  exact r.fieldAt_eq i hj

end

/-! ### The fields after the header (44_frame R406 to R408) -/

/-- The lengths that the table header at bit `k` of the input holds (43_huffman R365). -/
def State.lensAt (h : State) (k : Nat) : Nine (BitVec 4) :=
  Nine.ofFn fun i => BitVec.ofNat 4 (h.inputField (k + 4 * i.val) 4)

/-- The table built of the lengths `l`. -/
def HuffTable.ofLens (tb : HuffTable) (l : Nine (BitVec 4)) : HuffTable :=
  { tb with len := l, code := assignCodes l, valid := true }

/-- The bit at which the header of table `τ` stands (44_frame R407). -/
def State.tableBit (h : State) (τ : Tbl) : Nat :=
  88 + 8 * h.cfg.seedCount + if h.plat.hdrOrder.tables.head? = some τ then 0 else 36

/-- Table `τ` as the frame's header for it builds it. -/
def State.headerTable (h : State) (τ : Tbl) : HuffTable := (h.table τ).ofLens (h.lensAt (h.tableBit τ))

/-- The bit at which the mesh field stands. -/
def State.meshBit (h : State) : Nat := 88 + 8 * h.cfg.seedCount + 72

/-- The bit at which the hop streams begin. -/
def State.hopBit (h : State) : Nat := h.meshBit + if h.cfg.mode = 2 then 6 * h.cfg.cornerCount else 0

/-- The byte that MESH_READ makes of corner `k` of the frame. -/
def State.cornerByte (h : State) (k : Nat) : Byte :=
  BitVec.ofNat 8 (8 * h.inputField (h.meshBit + (6 * k + 3)) 3 + h.inputField (h.meshBit + 6 * k) 3)

/-- The fields of the frame that a decoder checks are legal. -/
structure State.HeadLegal (h : State) (N : Nat) : Prop where
  fits : h.hopBit ≤ N
  lens : ∀ τ, lensValid (h.headerTable τ).len = true
  codes : h.cfg.mode = 2 → ∀ k, k < h.cfg.cornerCount →
    h.inputField (h.meshBit + 6 * k) 3 ≤ 5 ∧ h.inputField (h.meshBit + (6 * k + 3)) 3 ≤ 5

/-- `f` is the state before the hop streams: seeds, tables and mesh are loaded. -/
structure State.HeadRead (h f : State) : Prop where
  reading : h.Reading h.hopBit f
  tables : ∀ τ, f.table τ = h.headerTable τ
  seeds : ∀ k, k < h.cfg.seedCount →
    f.mem.read (h.seedSlot k).toNat = BitVec.ofNat 8 (h.inputField (88 + 8 * k) 8)
  mesh : h.cfg.mode = 2 → ∀ k, k < h.cfg.cornerCount → f.mem.read (h.meshByteAddr k).toNat = h.cornerByte k

/-- SEEDS_READ of the frame. -/
theorem State.Reading.seeds (r : h.Reading 88 t) (i : h.FrameInput N) (hN : 88 + 8 * h.cfg.seedCount ≤ N) :
    ∃ u, cmdSeedsRead.out t = .ok () u ∧ h.Reading (88 + 8 * h.cfg.seedCount) u ∧ u.huff = t.huff ∧
      ∀ k, k < h.cfg.seedCount →
        u.mem.read (h.seedSlot k).toNat = BitVec.ofNat 8 (h.inputField (88 + 8 * k) 8) := by
  obtain ⟨u, out, read⟩ := cmdSeedsRead_ok (s := t) (r.setup.calm_iff.2 i.calm)
    (r.setup.frameOk_iff.2 i.frame) (by rw [r.setup.cfg]; exact r.canRead i hN) fun k hk => by
      rw [r.setup.cfg] at hk ⊢
      rw [r.setup.seedSlot]
      exact r.not_inStream i hN (l := .seed k) hk
  rw [r.setup.cfg] at read
  have slot : ∀ k, t.seedSlot k = h.seedSlot k := r.setup.seedSlot
  refine ⟨u, out, r.next ?_ ?_ ?_ fun a ha => read.kept a fun k hk => ?_, ?_, fun k hk => ?_⟩
  · rw [read.rest]; rfl
  · rw [read.rest]; rfl
  · rw [read.rest]; rfl
  · rw [slot]
    exact ha (.seed k) ⟨hk, nofun⟩
  · rw [read.rest]; rfl
  · rw [← slot, read.stored k hk, State.inputSeed, r.inputField_eq i (by omega)]

/-- HUFF_READ_HDR of a table of the frame. -/
theorem State.Reading.tableHeader (r : h.Reading k t) (i : h.FrameInput N) (hN : k + 36 ≤ N) {τ : Tbl}
    (hv : lensValid (h.lensAt k) = true) :
    ∃ u, (cmdHuffReadHdr τ).out t = .ok () u ∧ h.Reading (k + 36) u ∧ u.mem = t.mem ∧
      u.table τ = (t.table τ).ofLens (h.lensAt k) ∧ ∀ σ, σ ≠ τ → u.table σ = t.table σ := by
  have lens : (Nine.ofFn fun i : Hop => BitVec.ofNat 4 (t.inputField (4 * i.val) 4)) = h.lensAt k :=
    congrArg Nine.ofFn (funext fun j => by rw [r.inputField_eq i (by have := j.isLt; omega)])
  have out := cmdHuffReadHdr_out (r.canRead i hN) τ
  rw [lens] at out
  have build := cmdHuffBuild_stored_ok (s := t.consumed 36) (t := τ)
    (h := { t.table τ with len := h.lensAt k, valid := false }) hv
  have mem : ((t.consumed 36).withTable τ ((t.table τ).ofLens (h.lensAt k))).mem = t.mem :=
    State.withTable_mem _ _ _
  refine ⟨_, out.trans build, r.next ?_ ?_ ?_ fun a _ => congrArg (Memory.read · a) mem, mem,
    State.table_withTable_same _ _ _, fun σ hσ => ?_⟩
  · exact .trans (t := t.consumed 36) rfl (State.sameSetup_withTable _ _ _)
  · cases τ <;> rfl
  · cases τ <;> rfl
  · exact (State.table_withTable_other _ _ hσ).trans (t.table_consumed 36 σ)

theorem HdrOrder.tables_pair (o : HdrOrder) : ∃ a b, o.tables = [a, b] ∧ a ≠ b ∧ ∀ τ, τ = a ∨ τ = b := by
  cases o
  · exact ⟨.chroma, .luma, rfl, nofun, fun τ => by cases τ <;> simp⟩
  · exact ⟨.luma, .chroma, rfl, nofun, fun τ => by cases τ <;> simp⟩

/-- Both table headers of the frame. -/
theorem State.Reading.tableHeaders (r : h.Reading (88 + 8 * h.cfg.seedCount) t) (i : h.FrameInput N)
    (legal : h.HeadLegal N) (huff : t.huff = h.huff) :
    ∃ u, (forHeaders cmdHuffReadHdr).out t = .ok () u ∧ h.Reading h.meshBit u ∧ u.mem = t.mem ∧
      ∀ τ, u.table τ = h.headerTable τ := by
  obtain ⟨a, b, hab, hne, hall⟩ := h.plat.hdrOrder.tables_pair
  have fits : h.meshBit ≤ N := (Nat.le_add_right _ _).trans legal.fits
  have bitA : h.tableBit a = 88 + 8 * h.cfg.seedCount := by simp [State.tableBit, hab]
  have bitB : h.tableBit b = 88 + 8 * h.cfg.seedCount + 36 := by simp [State.tableBit, hab, hne]
  have table : ∀ τ, t.table τ = h.table τ := fun τ => by cases τ <;> simp only [State.table, huff]
  rw [State.meshBit] at fits ⊢
  obtain ⟨v, outv, rv, memv, samev, otherv⟩ := r.tableHeader i (τ := a) (by omega) (bitA ▸ legal.lens a)
  obtain ⟨u, outu, ru, memu, sameu, otheru⟩ := rv.tableHeader i (τ := b) (by omega) (bitB ▸ legal.lens b)
  refine ⟨u, ?_, ru, memu.trans memv, fun τ => ?_⟩
  · rw [forHeaders, Cmd.out_read_bind, r.setup.plat, hab, Cmd.out_forEach_cons, Cmd.out_seq_ok outv,
      Cmd.out_forEach_cons, Cmd.out_seq_ok outu]
    rfl
  · rcases hall τ with rfl | rfl
    · rw [otheru _ hne, samev, table, State.headerTable, bitA]
    · rw [sameu, otherv _ hne.symm, table, State.headerTable, bitB]

/-- MESH_READ of the frame. -/
theorem State.Reading.meshField (r : h.Reading h.meshBit t) (i : h.FrameInput N) (legal : h.HeadLegal N)
    (hm : h.cfg.mode = 2) :
    ∃ u, cmdMeshRead.out t = .ok () u ∧ h.Reading h.hopBit u ∧ u.huff = t.huff ∧
      (∀ k, k < h.cfg.cornerCount → u.mem.read (h.meshByteAddr k).toNat = h.cornerByte k) ∧
      ∀ a, (∀ k, k < h.cfg.cornerCount → a ≠ (h.meshByteAddr k).toNat) → u.mem.read a = t.mem.read a := by
  have fits := legal.fits
  rw [State.hopBit, if_pos hm] at fits ⊢
  have field : ∀ j, j + 3 ≤ 6 * h.cfg.cornerCount → t.inputField j 3 = h.inputField (h.meshBit + j) 3 :=
    fun j hj => r.inputField_eq i (by omega)
  have addr : ∀ k, t.meshByteAddr k = h.meshByteAddr k := r.setup.meshByteAddr
  obtain ⟨u, out, read⟩ := cmdMeshRead_ok (s := t) (r.setup.calm_iff.2 i.calm)
    (r.setup.frameOk_iff.2 i.frame) (by rw [r.setup.cfg]; exact r.canRead i fits)
    (fun k hk => by
      rw [r.setup.cfg] at hk
      rw [field _ (by omega), field _ (by omega)]
      exact legal.codes hm k hk)
    fun k hk => by
      rw [r.setup.cfg] at hk ⊢
      rw [addr]
      exact r.not_inStream i fits (l := .mesh k) hk
  rw [r.setup.cfg] at read
  have kept : ∀ a, (∀ k, k < h.cfg.cornerCount → a ≠ (h.meshByteAddr k).toNat) →
      u.mem.read a = t.mem.read a := fun a ha => read.kept a fun k hk => addr k ▸ ha k hk
  refine ⟨u, out, r.next ?_ ?_ ?_ fun a ha => kept a fun k hk => ?_, ?_, fun k hk => ?_, kept⟩
  · rw [read.rest]; rfl
  · rw [read.rest]; rfl
  · rw [read.rest]; rfl
  · exact ha (.mesh k) ⟨hk, fun _ _ => hm⟩
  · rw [read.rest]; rfl
  · rw [← addr, read.stored k hk, State.inputCorner, field _ (by omega), field _ (by omega)]
    rfl

/-- FRAME_DECODE from behind the header up to the hop streams. -/
theorem State.Reading.headSteps (r : h.Reading 88 t) (i : h.FrameInput N) (legal : h.HeadLegal N)
    (huff : t.huff = h.huff) : ∃ f, decodeHeadSteps.out t = .ok () f ∧ h.HeadRead f := by
  have fits := legal.fits
  rw [State.hopBit, State.meshBit] at fits
  obtain ⟨u, outu, ru, huffu, seeds⟩ := r.seeds i (by omega)
  obtain ⟨v, outv, rv, memv, tables⟩ := ru.tableHeaders i legal (huffu.trans huff)
  rw [← memv] at seeds
  rw [decodeHeadSteps, Cmd.out_seq_ok outu, Cmd.out_seq_ok outv, byMode_out, rv.setup.cfg]
  by_cases hm : h.cfg.mode = 2
  · obtain ⟨f, outf, rf, hufff, mesh, kept⟩ := rv.meshField i legal hm
    rw [if_pos hm, outf]
    refine ⟨f, rfl, rf, fun τ => ?_, fun k hk => ?_, fun _ => mesh⟩
    · rw [← tables τ]
      cases τ <;> simp only [State.table, hufff]
    · refine (kept _ fun j hj he => ?_).trans (seeds k hk)
      cases State.place_inj (l := .seed k) (l' := .mesh j) i.apart hk hj he
  · rw [if_neg hm, Cmd.out_pure]
    have last : h.hopBit = h.meshBit := by rw [State.hopBit, if_neg hm, Nat.add_zero]
    exact ⟨v, rfl, last ▸ rv, tables, seeds, fun h2 => absurd h2 hm⟩

end

end Sys2Proof.Machine
end

section
namespace Sys2Proof.Machine

-- One theorem at a time: many checked at once need more threads than the memory limit allows.
set_option Elab.async false

/-! ### Codes in a stream, bit by bit (43_huffman R353, R355) -/

theorem codesAt_of_bitsAt {m : Memory} {base : Word} {tb : HuffTable} {hops : List Hop} {q : Nat}
    (ready : tb.ready) (live : ∀ i ∈ hops, liveLen (tb.len.get i) = true)
    (h : bitsAt m base q (hops.flatMap tb.codeBitsOf)) : codesAt m base tb q hops := by
  induction hops generalizing q with
  | nil => trivial
  | cons i hops ih =>
    obtain ⟨hi, hlive⟩ := List.forall_mem_cons.1 live
    obtain ⟨-, valid, code⟩ := ready
    rw [List.flatMap_cons] at h
    have rest := h.right
    rw [HuffTable.codeBitsOf_length] at rest
    refine ⟨hi, fieldAt_of_bitsAt h.left ?_, ih hlive rest⟩
    rw [code]
    exact (canonicalCodesArePrefixFree tb.len valid).1 i hi

/-! ### The hop streams of a frame (44_frame R409, R418) -/

/-- The bits of the hop that `hop` gives a pixel. -/
def State.hopCode (f : State) (hop : Plane → Nat → Nat → Hop) (p : Plane) (q : Nat × Nat) : List Bool :=
  (f.table p.tbl).codeBitsOf (hop p q.1 q.2)

/-- The hop stream of plane `p`. -/
def State.hopStream (f : State) (hop : Plane → Nat → Nat → Hop) (p : Plane) : List Bool :=
  (f.streamPixels p).flatMap (f.hopCode hop p)

/-- `f` is the state of FRAME_DECODE of a frame begun at `h` before its hop streams, which hold the codes
of `hop`. -/
structure State.HopStreams (h f : State) (N : Nat) (hop : Plane → Nat → Nat → Hop) : Prop where
  input : h.FrameInput N
  head : h.Reading h.hopBit f
  mesh : f.meshOk
  tables : ∀ τ, (f.table τ).ready
  live : ∀ p b, f.cfg.InGrid b → ∀ x y, f.inBlock p b x y → liveLen ((f.table p.tbl).len.get (hop p x y)) = true
  bits : bitsAt h.mem h.reader.base (h.reader.pos.toNat + h.hopBit) (allPlanes.flatMap (f.hopStream hop))
  fits : h.hopBit + (allPlanes.flatMap (f.hopStream hop)).length ≤ N

/-- These blocks are decoded: they hold the hops that `hop` gives, and what seeds and hops make of them. -/
def State.BlocksHold (f : State) (hop : Plane → Nat → Nat → Hop) (done : List (Plane × Nat × Nat))
    (m : Memory) : Prop :=
  ∀ j ∈ done, f.cfg.InGrid j.2 ∧ f.BlockDone j.1 j.2 m ∧
    ∀ x y, f.inBlock j.1 j.2 x y → f.hopsIn j.1 m x y = hop j.1 x y

/-- `u` is a state of the decoding of the hop streams, after `k` of their bits and with the blocks in `done`
decoded. -/
structure State.Unpacked (h f : State) (hop : Plane → Nat → Nat → Hop) (k : Nat)
    (done : List (Plane × Nat × Nat)) (u : State) : Prop where
  reading : h.Reading (h.hopBit + k) u
  inFrame : f.InFrame u
  huff : u.huff = f.huff
  seeds : ∀ i, i < f.cfg.seedCount → u.mem.read (f.seedSlot i).toNat = f.mem.read (f.seedSlot i).toNat
  blocks : f.BlocksHold hop done u.mem

/-- The scan that ended in `u` was that of a block of plane `p`. -/
def State.LastBlock (f : State) (first : Word) (p : Plane) (u : State) : Prop :=
  ∃ b x, f.cfg.InGrid b ∧ f.InFrame x ∧ f.BlockDecoded first p b x u

/-- The hop buffer of plane `p` holds the hops that `hop` gives. -/
def State.HopsStored (f : State) (hop : Plane → Nat → Nat → Hop) (p : Plane) (m : Memory)
    (l : List (Nat × Nat)) : Prop :=
  ∀ q ∈ l, (m.read (f.hopAddr p q.1 q.2).toNat).toNat = (hop p q.1 q.2).val

/-- The place is a pixel's. -/
def Place.IsPixel : Place → Prop
  | .hop .. | .dst .. => True
  | _ => False

/-- The hop bytes of these pixels. -/
def hopPlaces (p : Plane) (l : List (Nat × Nat)) (w : Place) : Prop := ∃ q ∈ l, w = .hop p q.1 q.2

section
variable {h f u v : State} {N k j : Nat} {hop : Plane → Nat → Nat → Hop} {p : Plane} {b : Nat × Nat}
  {done : List (Plane × Nat × Nat)} {W : Place → Prop} {r : Region} {m m' : Memory}

theorem State.HopStreams.frameReady (H : h.HopStreams f N hop) :
    f.FrameReady h.inputByte (h.inputCount N) where
  calm := H.head.setup.calm_iff.2 H.input.calm
  tables := H.head.setup.tablesReady_iff.2 H.input.tables
  frame := H.head.setup.frameOk_iff.2 H.input.frame
  mesh := H.mesh
  apart := (H.head.setup.buffersApart_iff _ _).2 H.input.apart

theorem State.HopStreams.start (H : h.HopStreams f N hop) : h.Unpacked f hop 0 [] f where
  reading := H.head
  inFrame := .refl f
  huff := rfl
  seeds _ _ := rfl
  blocks := by simp [State.BlocksHold]

theorem State.Unpacked.table (hu : h.Unpacked f hop k done u) (τ : Tbl) : u.table τ = f.table τ := by
  cases τ <;> simp only [State.table, hu.huff]

/-- A step that stores pixels' bytes of blocks that are not decoded yet. -/
theorem State.Unpacked.next (H : h.HopStreams f N hop) (hu : h.Unpacked f hop k done u)
    (setup : u.SameSetup v) (huff : v.huff = u.huff) (writer : v.writer = u.writer)
    (pos : v.reader.pos = u.reader.pos + BitVec.ofNat 32 j)
    (stores : f.Stores h.inputByte W u.mem v.mem) (place : ∀ l, W l → f.cfg.HasPlace 0 l ∧ l.IsPixel)
    (fresh : ∀ j ∈ done, ∀ l, f.BlockPlace j.1 j.2 l → ¬ W l) : h.Unpacked f hop (k + j) done v := by
  have r := H.frameReady
  have same : ∀ l, f.cfg.HasPlace 0 l → ¬ W l → v.mem.read (f.placeAddr h.inputByte l).toNat =
      u.mem.read (f.placeAddr h.inputByte l).toNat := fun l hl hn =>
    stores.read r.apart (fun l hl => (place l hl).1.more _) (hl.more _) hn
  refine ⟨?_, ⟨hu.inFrame.setup.trans setup, fun k hk => ?_⟩, huff.trans hu.huff, fun i hi => ?_,
    fun j hj => ?_⟩
  · rw [← Nat.add_assoc]
    refine hu.reading.next setup writer pos fun a ha => stores a fun l hl => ?_
    obtain ⟨hl, hpix⟩ := place l hl
    rw [H.head.setup.placeAddr]
    rw [H.head.setup.cfg] at hl
    refine ha l ⟨hl, ?_⟩
    rintro _ rfl
    exact hpix.elim
  · exact (same (.mesh k) hk fun hW => (place _ hW).2).trans (hu.inFrame.mesh k hk)
  · exact (same (.seed i) hi fun hW => (place _ hW).2).trans (hu.seeds i hi)
  · obtain ⟨grid, block, hops⟩ := hu.blocks j hj
    have kept : ∀ l, f.BlockPlace j.1 j.2 l → v.mem.read (f.placeAddr h.inputByte l).toNat =
        u.mem.read (f.placeAddr h.inputByte l).toNat := fun l hl =>
      same l (hl.hasPlace r.frame grid 0) (fresh j hj l hl)
    refine ⟨grid, block.congr kept, fun x y hin => ?_⟩
    rw [← hops x y hin]
    exact congrArg (fun v : Byte => Fin.ofNat 9 v.toNat) (kept (.hop j.1 x y) ⟨rfl, hin⟩)

/-- BLOCK_GEOM and PLANE_GEOM change none of this. -/
theorem State.Unpacked.geometry (H : h.HopStreams f N hop) (hu : h.Unpacked f hop k done u)
    (setup : u.SameSetup v) (huff : v.huff = u.huff) (writer : v.writer = u.writer)
    (reader : v.reader = u.reader) (mem : v.mem = u.mem) : h.Unpacked f hop k done v :=
  hu.next (j := 0) (W := fun _ => False) H setup huff writer (by rw [reader]; exact (BitVec.add_zero _).symm)
    (by rw [mem]; exact .refl _ _ _ _) (fun _ => False.elim) fun _ _ _ _ => id

/-- HUFF_DEC_REGION of a region of the frame: its hops are stored. -/
theorem State.Unpacked.decRegion (H : h.HopStreams f N hop) (hu : h.Unpacked f hop k done u)
    (hr : u.region = r) (ok : (f.withRegion r).regionOk p)
    (hin : ∀ q ∈ r.pixels, ∃ b, f.cfg.InGrid b ∧ f.inBlock p b q.1 q.2)
    (bits : bitsAt h.mem h.reader.base (h.reader.pos.toNat + (h.hopBit + k)) (r.pixels.flatMap (f.hopCode hop p)))
    (fits : h.hopBit + k + (r.pixels.flatMap (f.hopCode hop p)).length ≤ N)
    (fresh : ∀ j ∈ done, ∀ x y, f.BlockPlace j.1 j.2 (.hop p x y) → (x, y) ∉ r.pixels) :
    ∃ m, (cmdHuffDecRegion p).out u =
        .ok () ((u.withMem m).consumed (r.pixels.flatMap (f.hopCode hop p)).length) ∧
      h.Unpacked f hop (k + (r.pixels.flatMap (f.hopCode hop p)).length) done
        ((u.withMem m).consumed (r.pixels.flatMap (f.hopCode hop p)).length) ∧
      f.HopsStored hop p m r.pixels := by
  have fr := H.frameReady
  have place : ∀ q ∈ r.pixels, f.cfg.HasPlace 0 (.hop p q.1 q.2) := fun q hq => by
    obtain ⟨b, hb, hin⟩ := hin q hq
    exact hin.inPlane fr.frame hb
  have addr : ∀ q : Nat × Nat, u.hopAddr p q.1 q.2 = f.hopAddr p q.1 q.2 := fun q => hu.inFrame.setup.hopAddr ..
  have flat : (r.pixels.map fun q => hop p q.1 q.2).flatMap (f.table p.tbl).codeBitsOf =
      r.pixels.flatMap (f.hopCode hop p) := List.flatMap_map _ _ _
  have regionOk : u.regionOk p := by
    rw [State.regionOk_iff] at ok ⊢
    rw [hr, hu.inFrame.setup.cfg, hu.inFrame.setup.frameOk_iff]
    exact ok
  have ahead : u.HopsAhead p r.pixels (r.pixels.map fun q => hop p q.1 q.2) := by
    refine ⟨hu.reading.setup.calm_iff.2 H.input.calm, ?_, List.length_map _, ?_, ?_, ?_, fun q hq => ?_⟩
    · rw [hu.table]
      exact H.tables _
    · rw [hu.table, hu.reading.setup.readerBase, hu.reading.posNat H.input (by omega)]
      refine codesAt_of_bitsAt (H.tables _) (fun i hi => ?_) ?_
      · obtain ⟨q, hq, rfl⟩ := List.mem_map.1 hi
        obtain ⟨b, hb, hin⟩ := hin q hq
        exact H.live p b hb q.1 q.2 hin
      · rw [flat]
        intro i b hi
        have hlt := (List.getElem?_eq_some_iff.1 hi).1
        rw [← bits i b hi, Nat.add_assoc]
        exact hu.reading.bitAt_eq H.input (by omega)
    · rw [hu.table, codeBits_eq_length, flat]
      exact hu.reading.canRead H.input fits
    · refine r.pixels_nodup.imp_of_mem fun {q q'} hq hq' hne he => hne ?_
      rw [addr, addr] at he
      have := State.place_inj (l := .hop p q.1 q.2) (l' := .hop p q'.1 q'.2) fr.apart
        ((place q hq).more _) ((place q' hq').more _) (congrArg BitVec.toNat he)
      simpa [Prod.ext_iff] using this
    · rw [hu.table, codeBits_eq_length, flat, addr, H.head.setup.hopAddr]
      exact hu.reading.not_inStream (l := .hop p q.1 q.2) H.input fits (H.head.setup.cfg ▸ place q hq)
  obtain ⟨m, out, stored, kept⟩ := ahead.decodeLoop
  rw [hu.table, codeBits_eq_length, flat] at out
  have stores : f.Stores h.inputByte (hopPlaces p r.pixels) u.mem m := fun a ha => kept a fun q hq => by
    rw [addr]
    exact ha (.hop p q.1 q.2) ⟨q, hq, rfl⟩
  refine ⟨m, ?_, hu.next H rfl rfl rfl rfl stores ?_ ?_, fun q hq => ?_⟩
  · rw [cmdHuffDecRegion_eq, needHuff_seq, if_pos (by rw [hu.table]; exact (H.tables _).1),
      regionCheck_seq_ok regionOk, Cmd.out_read_bind, hr]
    exact out
  · rintro _ ⟨q, hq, rfl⟩
    exact ⟨place q hq, trivial⟩
  · rintro j hj _ hl ⟨q, hq, rfl⟩
    exact fresh j hj q.1 q.2 hl hq
  · obtain ⟨i, hi⟩ := List.mem_iff_getElem?.1 hq
    rw [← addr]
    exact stored i q _ hi (by rw [List.getElem?_map, hi]; rfl)

/-- HOP_DEC_REGION of a block whose hops are stored. -/
theorem State.Unpacked.scan (H : h.HopStreams f N hop) (hu : h.Unpacked f hop k done u) (hb : f.cfg.InGrid b)
    (fresh : (p, b) ∉ done) (stored : f.HopsStored hop p u.mem (f.blockRegion p b).pixels) :
    ∃ v, (cmdHopDecRegion p).out (f.enterBlock u p b) = .ok () v ∧
      h.Unpacked f hop k (done ++ [(p, b)]) v ∧ f.BlockDecoded h.inputByte p b u v := by
  have fr := H.frameReady
  have hop_eq : ∀ x y, f.inBlock p b x y → (u.mem.read (f.hopAddr p x y).toNat).toNat = (hop p x y).val :=
    fun x y hin => stored (x, y) (Region.mem_pixels_iff.2 hin)
  obtain ⟨v, out, dec⟩ := hu.inFrame.decodeBlock fr hb fun x y hin => by
    rw [hop_eq x y hin]
    exact Nat.le_of_lt_succ (hop p x y).isLt
  have hv : h.Unpacked f hop k done v := by
    refine (hu.geometry H (f.sameSetup_enterBlock u p b) rfl rfl rfl rfl).next (j := 0) (v := v) H ?_ dec.scanned.huff
      dec.scanned.writer ?_ dec.kept ?_ ?_
    · exact (hu.inFrame.setup.trans (f.sameSetup_enterBlock u p b)).between dec.scanned.atBlock.setup
    · rw [dec.scanned.reader]
      exact (BitVec.add_zero _).symm
    · rintro _ ⟨x, y, rfl, hin⟩
      exact ⟨hin.inPlane fr.frame hb, trivial⟩
    · rintro j hj l hl hl'
      obtain ⟨grid, -⟩ := hu.blocks j hj
      obtain ⟨hp, hb'⟩ := hl.unique hl'.blockPlace fr.frame grid hb
      exact fresh ((Prod.ext hp hb' : j = (p, b)) ▸ hj)
  refine ⟨v, out, ⟨hv.reading, hv.inFrame, hv.huff, hv.seeds, fun j hj => ?_⟩, dec⟩
  rcases List.mem_append.1 hj with hj | hj
  · exact hv.blocks j hj
  · obtain rfl := List.mem_singleton.1 hj
    refine ⟨hb, dec.scanned.done, fun x y hin => ?_⟩
    have kept := dec.kept.read (l := .hop p x y) fr.apart (fun _ hl => hl.blockPlace.hasPlace fr.frame hb _)
      (hin.inPlane fr.frame hb) (by rintro ⟨_, _, he, -⟩; cases he)
    refine Fin.ext ((congrArg (fun v : Byte => v.toNat % 9) kept).trans ?_)
    rw [show (u.mem.read (f.placeAddr h.inputByte (.hop p x y)).toNat).toNat = _ from hop_eq x y hin]
    exact Nat.mod_eq_of_lt (hop p x y).isLt

end

end Sys2Proof.Machine
end

section
namespace Sys2Proof.Machine

-- One theorem at a time: many checked at once need more threads than the memory limit allows.
set_option Elab.async false

/-! ### The planes of FRAME_DECODE (44_frame R418) -/

/-- The hop stream of a block of plane `p`. -/
def State.blockStream (f : State) (hop : Plane → Nat → Nat → Hop) (p : Plane) (b : Nat × Nat) : List Bool :=
  (f.blockRegion p b).pixels.flatMap (f.hopCode hop p)

section
variable {h f u v : State} {N k : Nat} {hop : Plane → Nat → Nat → Hop} {p : Plane} {b : Nat × Nat}
  {done : List (Plane × Nat × Nat)}

theorem bitsAt.segment {m : Memory} {base : Word} {q : Nat} {xs ys zs : List Bool}
    (h : bitsAt m base q (xs ++ (ys ++ zs))) : bitsAt m base (q + xs.length) ys := h.right.left

/-- A block of an advanced frame: its hop stream, then its scan. -/
theorem State.Unpacked.block (H : h.HopStreams f N hop) (hu : h.Unpacked f hop k done u) (hb : f.cfg.InGrid b)
    (fresh : (p, b) ∉ done)
    (bits : bitsAt h.mem h.reader.base (h.reader.pos.toNat + (h.hopBit + k))
      (f.blockStream hop p b))
    (fits : h.hopBit + k + (f.blockStream hop p b).length ≤ N) :
    ∃ v, ((cmdBlockGeom p b.1 b.2).seq <| (cmdHuffDecRegion p).seq (cmdHopDecRegion p)).out u = .ok () v ∧
      h.Unpacked f hop (k + (f.blockStream hop p b).length) (done ++ [(p, b)]) v ∧
      f.LastBlock h.inputByte p v := by
  have fr := H.frameReady
  have hu' := hu.geometry H (f.sameSetup_enterBlock u p b) rfl rfl rfl rfl
  obtain ⟨m, outm, hm, stored⟩ := hu'.decRegion (r := f.blockRegion p b) H rfl (f.blockRegion_ok fr.frame hb p)
    (fun q hq => ⟨b, hb, Region.mem_pixels hq⟩) bits fits fun j hj x y hl hmem => by
      obtain ⟨grid, -⟩ := hu.blocks j hj
      have hl' : f.BlockPlace p b (.hop p x y) := ⟨rfl, Region.mem_pixels hmem⟩
      obtain ⟨hp, hb'⟩ := hl.unique hl' fr.frame grid hb
      exact fresh ((Prod.ext hp hb' : j = (p, b)) ▸ hj)
  have settled : ∀ n, f.enterBlock (((f.enterBlock u p b).withMem m).consumed n) p b =
      ((f.enterBlock u p b).withMem m).consumed n := fun _ => rfl
  obtain ⟨v, outv, hv, dec⟩ := hm.scan H hb fresh stored
  rw [settled] at outv
  exact ⟨v, by rw [Cmd.out_seq_ok (hu.inFrame.blockGeom_out fr hb), Cmd.out_seq_ok outm, outv], hv, b, _, hb,
    hm.inFrame, dec⟩

/-- One plane of an advanced frame. -/
theorem State.Unpacked.planeAdvanced (H : h.HopStreams f N hop) (hm : f.cfg.mode = 2)
    (hu : h.Unpacked f hop k done u) (fresh : ∀ j ∈ done, j.1 ≠ p)
    (bits : bitsAt h.mem h.reader.base (h.reader.pos.toNat + (h.hopBit + k)) (f.hopStream hop p))
    (fits : h.hopBit + k + (f.hopStream hop p).length ≤ N) :
    ∃ v, (decodePlaneSteps p).out u = .ok () v ∧
      h.Unpacked f hop (k + (f.hopStream hop p).length) (done ++ f.cfg.planeJobs p) v ∧
      f.LastBlock h.inputByte p v := by
  have fr := H.frameReady
  have stream : f.hopStream hop p = (raster f.cfg.blocksW f.cfg.blocksH).flatMap (f.blockStream hop p) := by
    rw [State.hopStream, State.streamPixels, if_pos hm, f.scanPixels_eq fr.frame fr.mesh, List.flatMap_assoc]
    rfl
  rw [stream] at bits fits ⊢
  have loop := Cmd.forEach_done (s := u) (l := raster f.cfg.blocksW f.cfg.blocksH)
    (f := fun b => (cmdBlockGeom p b.1 b.2).seq <| (cmdHuffDecRegion p).seq (cmdHopDecRegion p))
    (P := fun bs t => h.Unpacked f hop (k + (bs.flatMap (f.blockStream hop p)).length)
        (done ++ bs.map fun b => (p, b)) t ∧
      (bs ≠ [] → f.LastBlock h.inputByte p t))
    ⟨by rw [List.map_nil, List.append_nil]; exact hu, fun hne => absurd rfl hne⟩
    fun bs b rest t hl ⟨ht, _⟩ => ?_
  · obtain ⟨v, out, hv, last⟩ := loop
    refine ⟨v, ?_, hv, last (List.ne_nil_of_mem (mem_raster.2 fr.frame.inGrid_zero))⟩
    rw [decodePlaneSteps, byMode_out, hu.inFrame.setup.cfg, if_pos hm, forBlocks, Cmd.out_read_bind,
      hu.inFrame.setup.cfg]
    exact out
  · rw [hl, List.flatMap_append, List.flatMap_cons] at bits fits
    rw [List.length_append, List.length_append] at fits
    have hbits := bits.segment
    rw [Nat.add_assoc, Nat.add_assoc] at hbits
    obtain ⟨v, out, hv, last⟩ := ht.block H (FrameConfig.inGrid_of_split hl) (FrameConfig.fresh_block fresh hl)
      hbits (by omega)
    refine ⟨v, out, ?_, fun _ => last⟩
    rw [List.flatMap_append, List.flatMap_singleton, List.length_append, ← Nat.add_assoc, List.map_append,
      ← List.append_assoc]
    exact hv

/-- One plane of a basic frame: its hop stream, then the scans of its blocks. -/
theorem State.Unpacked.planeBasic (H : h.HopStreams f N hop) (hm : f.cfg.mode ≠ 2)
    (hu : h.Unpacked f hop k done u) (fresh : ∀ j ∈ done, j.1 ≠ p)
    (bits : bitsAt h.mem h.reader.base (h.reader.pos.toNat + (h.hopBit + k)) (f.hopStream hop p))
    (fits : h.hopBit + k + (f.hopStream hop p).length ≤ N) :
    ∃ v, (decodePlaneSteps p).out u = .ok () v ∧
      h.Unpacked f hop (k + (f.hopStream hop p).length) (done ++ f.cfg.planeJobs p) v ∧
      f.LastBlock h.inputByte p v := by
  have fr := H.frameReady
  have pixels := fr.frame.planeRegion_pixels p
  have stream : f.hopStream hop p = (f.cfg.planeRegion p).pixels.flatMap (f.hopCode hop p) := by
    rw [State.hopStream, State.streamPixels, if_neg hm, pixels]
  rw [stream] at bits fits ⊢
  have hu' := hu.geometry H (f.sameSetup_enterPlane u p) rfl rfl rfl rfl
  obtain ⟨m, outm, hm', stored⟩ := hu'.decRegion (r := f.cfg.planeRegion p) H rfl (fr.frame.planeRegion_ok p)
    (fun q hq => by
      rw [pixels, mem_raster] at hq
      exact f.exists_block fr.frame hm hq.1 hq.2)
    bits fits fun j hj x y hl _ => fresh j hj hl.1.symm
  have loop := Cmd.forEach_done
    (s := ((f.enterPlane u p).withMem m).consumed ((f.cfg.planeRegion p).pixels.flatMap (f.hopCode hop p)).length)
    (l := raster f.cfg.blocksW f.cfg.blocksH)
    (f := fun b => (cmdBlockGeom p b.1 b.2).seq (cmdHopDecRegion p))
    (P := fun bs t => h.Unpacked f hop (k + ((f.cfg.planeRegion p).pixels.flatMap (f.hopCode hop p)).length)
        (done ++ bs.map fun b => (p, b)) t ∧
      f.HopsStored hop p t.mem (f.cfg.planeRegion p).pixels ∧ (bs ≠ [] → f.LastBlock h.inputByte p t))
    ⟨by rw [List.map_nil, List.append_nil]; exact hm', stored, fun hne => absurd rfl hne⟩
    fun bs b rest t hl ⟨ht, stored, _⟩ => ?_
  · obtain ⟨v, out, hv, -, last⟩ := loop
    refine ⟨v, ?_, hv, last (List.ne_nil_of_mem (mem_raster.2 fr.frame.inGrid_zero))⟩
    rw [decodePlaneSteps, byMode_out, hu.inFrame.setup.cfg, if_neg hm,
      Cmd.out_seq_ok (hu.inFrame.setup.planeGeom_out fr.frame p), Cmd.out_seq_ok outm, forBlocks,
      Cmd.out_read_bind, hm'.inFrame.setup.cfg]
    exact out
  · have hb := FrameConfig.inGrid_of_split hl
    have inPlane : ∀ q ∈ (f.blockRegion p b).pixels, q ∈ (f.cfg.planeRegion p).pixels := fun q hq => by
      have hin : f.inBlock p b q.1 q.2 := Region.mem_pixels hq
      rw [pixels]
      exact mem_raster.2 (hin.inPlane fr.frame hb)
    obtain ⟨v, out, hv, dec⟩ := ht.scan H hb (FrameConfig.fresh_block fresh hl) fun q hq => stored q (inPlane q hq)
    refine ⟨v, by rw [Cmd.out_seq_ok (ht.inFrame.blockGeom_out fr hb), out], ?_, fun q hq => ?_,
      fun _ => ⟨b, t, hb, ht.inFrame, dec⟩⟩
    · rw [List.map_append, ← List.append_assoc]
      exact hv
    · rw [← stored q hq]
      rw [pixels] at hq
      refine congrArg BitVec.toNat (dec.kept.read (l := .hop p q.1 q.2) fr.apart
        (fun _ hl => hl.blockPlace.hasPlace fr.frame hb _) (mem_raster.1 hq) ?_)
      rintro ⟨_, _, he, -⟩
      cases he

/-- All hop streams and scans of a frame. -/
theorem State.HopStreams.planes (H : h.HopStreams f N hop) :
    ∃ v, (Cmd.forEach allPlanes decodePlaneSteps).out f = .ok () v ∧
      h.Unpacked f hop (allPlanes.flatMap (f.hopStream hop)).length f.cfg.jobs v ∧
      f.LastBlock h.inputByte .chromaB v := by
  have loop := Cmd.forEach_done (s := f) (l := allPlanes) (f := decodePlaneSteps)
    (P := fun ps t => h.Unpacked f hop (ps.flatMap (f.hopStream hop)).length (ps.flatMap f.cfg.planeJobs) t ∧
      (∀ p, ps.getLast? = some p → f.LastBlock h.inputByte p t)) ⟨H.start, nofun⟩
    fun ps p rest t hl ⟨ht, _⟩ => ?_
  · obtain ⟨v, out, hv, last⟩ := loop
    exact ⟨v, out, hv, last .chromaB rfl⟩
  · have bits := H.bits
    have fits := H.fits
    rw [hl, List.flatMap_append, List.flatMap_cons] at bits fits
    rw [List.length_append, List.length_append] at fits
    have hbits := bits.segment
    rw [Nat.add_assoc] at hbits
    have plane : ∃ v, (decodePlaneSteps p).out t = .ok () v ∧
        h.Unpacked f hop ((ps.flatMap (f.hopStream hop)).length + (f.hopStream hop p).length)
          (ps.flatMap f.cfg.planeJobs ++ f.cfg.planeJobs p) v ∧ f.LastBlock h.inputByte p v := by
      by_cases hm : f.cfg.mode = 2
      · exact ht.planeAdvanced H hm (FrameConfig.fresh_plane hl) hbits (by omega)
      · exact ht.planeBasic H hm (FrameConfig.fresh_plane hl) hbits (by omega)
    obtain ⟨v, out, hv, last⟩ := plane
    refine ⟨v, out, ?_, fun q hq => ?_⟩
    · rw [List.flatMap_append, List.flatMap_append, List.flatMap_singleton, List.flatMap_singleton,
        List.length_append]
      exact hv
    · rw [List.getLast?_concat] at hq
      exact Option.some.inj hq ▸ last

end

end Sys2Proof.Machine
end

section
namespace Sys2Proof.Machine

-- One theorem at a time: many checked at once need more threads than the memory limit allows.
set_option Elab.async false

/-! ### FRAME_DECODE (44_frame R418) -/

/-- The codes of a mesh byte, put together as MESH_READ does. -/
theorem mesh_of_codes {x y : Nat} (hx : x < 2 ^ 3) (hy : y < 2 ^ 3) :
    meshX (BitVec.ofNat 8 (8 * y + x)) = x ∧ meshY (BitVec.ofNat 8 (8 * y + x)) = y := by
  simp only [meshX, meshY, BitVec.extractLsb'_toNat, BitVec.toNat_ofNat, Nat.shiftRight_eq_div_pow]
  omega

section
variable {d h f : State} {N k : Nat} {hop : Plane → Nat → Nat → Hop}

theorem State.cornerByte_codes (h : State) (k : Nat) :
    meshX (h.cornerByte k) = h.inputField (h.meshBit + 6 * k) 3 ∧
    meshY (h.cornerByte k) = h.inputField (h.meshBit + (6 * k + 3)) 3 :=
  mesh_of_codes (fieldAt_lt _ _ _ _) (fieldAt_lt _ _ _ _)

theorem HuffTable.ofLens_ready (tb : HuffTable) {l : Nine (BitVec 4)} (hv : lensValid l = true) :
    (tb.ofLens l).ready := ⟨rfl, hv, rfl⟩

theorem State.HeadRead.meshOk (hf : h.HeadRead f) (legal : h.HeadLegal N) : f.meshOk := fun hm k hk => by
  rw [hf.reading.setup.cfg] at hm hk
  obtain ⟨hx, hy⟩ := h.cornerByte_codes k
  obtain ⟨lx, ly⟩ := legal.codes hm k hk
  rw [hf.reading.setup.meshByteAddr, State.byteAt, hf.mesh hm k hk, meshLegal_iff, hx, hy]
  exact ⟨lx, ly⟩

/-- Behind a legal head the hop streams can be decoded. -/
theorem State.HeadRead.hopStreams (hf : h.HeadRead f) (i : h.FrameInput N) (legal : h.HeadLegal N)
    (live : ∀ p b, f.cfg.InGrid b → ∀ x y, f.inBlock p b x y →
      liveLen ((f.table p.tbl).len.get (hop p x y)) = true)
    (bits : bitsAt h.mem h.reader.base (h.reader.pos.toNat + h.hopBit) (allPlanes.flatMap (f.hopStream hop)))
    (fits : h.hopBit + (allPlanes.flatMap (f.hopStream hop)).length ≤ N) : h.HopStreams f N hop where
  input := i
  head := hf.reading
  mesh := hf.meshOk legal
  tables τ := by
    rw [hf.tables]
    exact HuffTable.ofLens_ready _ (legal.lens τ)
  live := live
  bits := bits
  fits := fits

/-- FRAME_DECODE of a frame with a legal head, whose hop streams hold the codes of `hop`. -/
theorem cmdFrameDecode_ok (hh : h = d.withCfg d.headerCfg) (i : h.FrameInput N) (legal : h.HeadLegal N)
    (streams : ∀ f, h.HeadRead f → h.HopStreams f N hop) :
    ∃ f v, cmdFrameDecode.out d = .ok () v ∧ h.HeadRead f ∧
      h.Unpacked f hop (allPlanes.flatMap (f.hopStream hop)).length f.cfg.jobs v ∧
      f.LastBlock h.inputByte .chromaB v := by
  have fits := legal.fits
  rw [State.hopBit, State.meshBit] at fits
  have begun : h.Reading 88 (h.consumed 88) := ⟨rfl, rfl, rfl, .refl h _ _ _⟩
  have header : cmdHdrRead.out d = .ok () (h.consumed 88) := by
    have room : h.canRead 88 := (State.Reading.start h).canRead i (by omega)
    rw [hh] at room
    rw [cmdHdrRead_out (s := d) room, frameCheck_out, ← hh]
    exact if_pos i.frame
  obtain ⟨f, outf, hf⟩ := begun.headSteps i legal rfl
  obtain ⟨v, outv, hv, last⟩ := (streams f hf).planes
  refine ⟨f, v, ?_, hf, hv, last⟩
  have tables : d.tablesValid = true := by
    have := i.tables.1
    rwa [hh] at this
  rw [cmdFrameDecode, needTables_seq, if_pos tables, frameDecodeSteps, Cmd.out_seq_ok (withWorkers_ok header),
    Cmd.out_seq_ok (withWorkers_ok outf), withWorkers_ok outv]

end

end Sys2Proof.Machine
end

section
namespace Sys2Proof.Machine

-- One theorem at a time: many checked at once need more threads than the memory limit allows.
set_option Elab.async false

/-! ### The fields of a frame that an encoder has emitted, as a decoder reads them (44_frame R421) -/

theorem le32At_of_bytes {m : Memory} {base w : Word} {q : Nat} (h0 : fieldAt m base q 8 = byteOf w 0)
    (h1 : fieldAt m base (q + 8) 8 = byteOf w 1) (h2 : fieldAt m base (q + 16) 8 = byteOf w 2)
    (h3 : fieldAt m base (q + 24) 8 = byteOf w 3) : le32At m base q = w.toNat := by
  have := w.isLt
  simp only [le32At, h0, h1, h2, h3, byteOf, Nat.mul_zero, pow_zero]
  omega

/-- The header loads the configuration that it was written from. -/
theorem State.headerCfg_eq {d : State} {c : FrameConfig}
    (h : bitsAt d.mem d.reader.base d.reader.pos.toNat c.headerBits) (sx : d.cfg.sx = c.sx)
    (sy : d.cfg.sy = c.sy) (ratio : d.cfg.ratio = c.ratio) (cf : d.cfg.cf = c.cf) : d.headerCfg = c := by
  have field : ∀ (i v : Nat), v < 2 ^ 8 → [c.mode.toNat, byteOf c.width 0, byteOf c.width 1, byteOf c.width 2,
      byteOf c.width 3, byteOf c.height 0, byteOf c.height 1, byteOf c.height 2, byteOf c.height 3,
      c.gridW.toNat, c.gridH.toNat][i]? = some v →
      fieldAt d.mem d.reader.base (d.reader.pos.toNat + 8 * i) 8 = v := fun i v hv hi =>
    fieldAt_of_bitsAt (h.item (f := fun v => msbBits v 8) (fun v => msbBits_length v 8) hi) hv
  have byte : ∀ (w : Word) k, byteOf w k < 2 ^ 8 := fun w k => Nat.mod_lt _ (by decide)
  have width := le32At_of_bytes (field 1 _ (byte _ 0) rfl) (field 2 _ (byte _ 1) rfl)
    (field 3 _ (byte _ 2) rfl) (field 4 _ (byte _ 3) rfl)
  have height := le32At_of_bytes (field 5 _ (byte _ 0) rfl) (field 6 _ (byte _ 1) rfl)
    (field 7 _ (byte _ 2) rfl) (field 8 _ (byte _ 3) rfl)
  have mode : d.inputField 0 8 = c.mode.toNat := field 0 _ c.mode.isLt rfl
  have gridW : d.inputField 72 8 = c.gridW.toNat := field 9 _ c.gridW.isLt rfl
  have gridH : d.inputField 80 8 = c.gridH.toNat := field 10 _ c.gridH.isLt rfl
  rw [State.headerCfg, mode, gridW, gridH, width, height, sx, sy, ratio, cf]
  simp only [BitVec.ofNat_toNat, BitVec.setWidth_eq]

/-- The input stream of `h` holds the frame that `g` stands for. -/
structure State.Carries (h g : State) : Prop where
  cfg : h.cfg = g.cfg
  order : h.plat.hdrOrder = g.plat.hdrOrder
  bits : bitsAt h.mem h.reader.base h.reader.pos.toNat g.frameBitList

theorem allHops_getElem? : ∀ i : Hop, allHops[i.val]? = some i := by decide

section
variable {h g f : State} {N : Nat} {k : Nat}

/-- The bits of `h`'s input from bit `k` on are these. -/
def State.inputHolds (h : State) (k : Nat) (bits : List Bool) : Prop :=
  bitsAt h.mem h.reader.base (h.reader.pos.toNat + k) bits

theorem State.inputHolds.field {v n : Nat} (hb : h.inputHolds k (msbBits v n)) (hv : v < 2 ^ n) :
    h.inputField k n = v := fieldAt_of_bitsAt hb hv

theorem State.inputHolds.left {xs ys : List Bool} (hb : h.inputHolds k (xs ++ ys)) : h.inputHolds k xs :=
  bitsAt.left hb

theorem State.inputHolds.right {xs ys : List Bool} (hb : h.inputHolds k (xs ++ ys)) :
    h.inputHolds (k + xs.length) ys := by
  rw [State.inputHolds, ← Nat.add_assoc]
  exact bitsAt.right hb

theorem State.inputHolds.item {α : Type} {b : α → List Bool} {len : Nat} (hb : ∀ a, (b a).length = len)
    {l : List α} {a : α} {i : Nat} (h' : h.inputHolds k (l.flatMap b)) (hi : l[i]? = some a) :
    h.inputHolds (k + len * i) (b a) := by
  rw [State.inputHolds, ← Nat.add_assoc]
  exact bitsAt.item hb h' hi

/-- The five parts of the frame stand at their bits (44_frame R400). -/
theorem State.Carries.parts (c : h.Carries g) : h.inputHolds 88 g.seedBits ∧
    h.inputHolds (88 + 8 * h.cfg.seedCount) (g.plat.hdrOrder.tables.flatMap fun t => (g.table t).headerBits) ∧
    h.inputHolds h.meshBit g.meshFieldBits ∧
    h.inputHolds h.hopBit (allPlanes.flatMap g.planeCode) := by
  have bits : h.inputHolds 0 g.frameBitList := c.bits
  have seeds := bits.right
  have tables := seeds.right
  have mesh := tables.right
  have hops := mesh.right
  rw [FrameConfig.headerBits_length, Nat.zero_add] at seeds tables mesh hops
  rw [State.seedBits_length, ← c.cfg] at tables mesh hops
  rw [flatMap_length_const (n := 36) fun t => HuffTable.headerBits_length _, HdrOrder.tables_length] at mesh hops
  rw [State.meshFieldBits_length, ← c.cfg] at hops
  exact ⟨seeds.left, tables.left, mesh.left, hops⟩

theorem State.Carries.seedField (c : h.Carries g) {i : Nat} (hi : i < h.cfg.seedCount) :
    h.inputField (88 + 8 * i) 8 = (g.byteAt (g.seedSlot i)).toNat := by
  obtain ⟨seeds, -⟩ := c.parts
  rw [c.cfg] at hi
  exact (seeds.item (b := g.slotBits) (fun i => msbBits_length _ 8) (List.getElem?_range hi)).field (BitVec.isLt _)

theorem State.Carries.lens (c : h.Carries g) (τ : Tbl) : h.lensAt (h.tableBit τ) = (g.table τ).len := by
  obtain ⟨-, tables, -⟩ := c.parts
  have header : h.inputHolds (h.tableBit τ) (g.table τ).headerBits := by
    obtain ⟨a, b, hab, hne, hall⟩ := g.plat.hdrOrder.tables_pair
    have item := fun i => tables.item (b := fun t => (g.table t).headerBits) (a := τ) (i := i)
      fun t => HuffTable.headerBits_length _
    rw [State.tableBit, c.order]
    rw [hab] at item ⊢
    rcases hall τ with rfl | rfl
    · rw [if_pos (show [τ, b].head? = some τ from rfl)]
      exact item 0 rfl
    · rw [if_neg (by simpa using hne)]
      exact item 1 rfl
  refine Nine.ext_get fun i => ?_
  have hlen := (header.item (b := fun i => msbBits ((g.table τ).len.get i).toNat 4) (fun i => msbBits_length _ 4)
    (allHops_getElem? i)).field (BitVec.isLt _)
  rw [State.lensAt, Nine.get_ofFn, hlen, BitVec.ofNat_toNat, BitVec.setWidth_eq]

theorem State.Carries.codes (c : h.Carries g) (hm : h.cfg.mode = 2) (hk : k < h.cfg.cornerCount) :
    h.inputField (h.meshBit + 6 * k) 3 = meshX (g.byteAt (g.meshByteAddr k)) ∧
    h.inputField (h.meshBit + (6 * k + 3)) 3 = meshY (g.byteAt (g.meshByteAddr k)) := by
  obtain ⟨-, -, mesh, -⟩ := c.parts
  rw [c.cfg] at hm hk
  rw [State.meshFieldBits, if_pos hm] at mesh
  have corner := mesh.item (b := fun j => cornerBits (g.byteAt (g.meshByteAddr j)))
    (fun j => cornerBits_length _) (List.getElem?_range hk)
  rw [cornerBits] at corner
  exact ⟨corner.left.field (BitVec.isLt _), corner.right.field (BitVec.isLt _)⟩

end

end Sys2Proof.Machine
end

section
namespace Sys2Proof.Machine

-- One theorem at a time: many checked at once need more threads than the memory limit allows.
set_option Elab.async false

/-! ### The hop streams of an encoder, as a decoder reads them (44_frame R421) -/

/-- The hops that the hop buffers of `g` hold. -/
def State.frameHops (g : State) (p : Plane) (x y : Nat) : Hop := g.hopsIn p g.mem x y

section
variable {h g f : State} {M N : Nat} {p : Plane} {b : Nat × Nat}

theorem State.Carries.headLegal (c : h.Carries g) (e : g.EmitReady M) (fits : g.frameBitList.length ≤ N) :
    h.HeadLegal N where
  fits := by
    rw [State.frameBitList_length, ← c.cfg] at fits
    rw [State.hopBit, State.meshBit]
    omega
  lens τ := by
    show lensValid (h.lensAt (h.tableBit τ)) = true
    rw [c.lens]
    exact (e.tables τ).2.1
  codes hm k hk := by
    obtain ⟨hx, hy⟩ := c.codes hm hk
    rw [hx, hy, ← meshLegal_iff]
    rw [c.cfg] at hm hk
    exact e.frame.mesh hm k hk

section
variable (c : h.Carries g) (hf : h.HeadRead f)
include c hf

theorem State.Carries.cfg_head : f.cfg = g.cfg := hf.reading.setup.cfg.trans c.cfg

theorem State.Carries.blockRegion (hb : g.cfg.InGrid b) (p : Plane) : f.blockRegion p b = g.blockRegion p b := by
  rw [State.blockRegion, State.blockRegion, c.cfg_head hf,
    State.blockSize_congr (c.cfg_head hf) (fun hm k hk => ?_) hb p]
  rw [← c.cfg] at hm hk
  obtain ⟨hx, hy⟩ := c.codes hm hk
  rw [hf.reading.setup.meshByteAddr, ← hx, ← hy, State.byteAt, hf.mesh hm k hk]
  exact h.cornerByte_codes k

theorem State.Carries.inBlock_iff (hb : g.cfg.InGrid b) (x y : Nat) :
    f.inBlock p b x y ↔ g.inBlock p b x y := by
  rw [State.inBlock, State.inRegion, c.blockRegion hf hb p]
  rfl

/-- The decoder builds the encoder's tables. -/
theorem State.Carries.table (e : g.EmitReady M) (τ : Tbl) :
    (f.table τ).len = (g.table τ).len ∧ (f.table τ).code = (g.table τ).code := by
  obtain ⟨-, -, code⟩ := e.tables τ
  rw [hf.tables, State.headerTable, c.lens, code]
  exact ⟨rfl, rfl⟩

theorem State.Carries.hopStream (e : g.EmitReady M) (frame : f.frameOk) (mesh : f.meshOk) (p : Plane) :
    f.hopStream g.frameHops p = g.planeCode p := by
  obtain ⟨len, code⟩ := c.table hf e p.tbl
  have scan : f.scanPixels p = g.scanPixels p := by
    rw [f.scanPixels_eq frame mesh, g.scanPixels_eq e.frame.frame e.frame.mesh, c.cfg_head hf]
    exact List.flatMap_congr fun b hb => by rw [c.blockRegion hf (mem_raster.1 hb)]
  have pixels : f.streamPixels p = g.streamPixels p := by
    rw [State.streamPixels, State.streamPixels, scan, c.cfg_head hf]
  rw [State.hopStream, State.planeCode, pixels]
  refine List.flatMap_congr fun q _ => ?_
  rw [State.hopCode, State.pixelCode, HuffTable.codeBitsOf, HuffTable.codeBitsOf, len, code]
  rfl

theorem State.Carries.streams (i : h.FrameInput N) (e : g.EmitReady M) (fits : g.frameBitList.length ≤ N) :
    allPlanes.flatMap (f.hopStream g.frameHops) = allPlanes.flatMap g.planeCode :=
  List.flatMap_congr fun p _ => c.hopStream hf e (hf.reading.setup.frameOk_iff.2 i.frame)
    (hf.meshOk (c.headLegal e fits)) p

omit hf in
theorem State.Carries.length : h.hopBit + (allPlanes.flatMap g.planeCode).length = g.frameBitList.length := by
  rw [State.frameBitList_length, ← c.cfg, State.hopBit, State.meshBit]

theorem State.Carries.hopStreams (i : h.FrameInput N) (e : g.EmitReady M) (fits : g.frameBitList.length ≤ N) :
    h.HopStreams f N g.frameHops := by
  have streams := c.streams hf i e fits
  obtain ⟨-, -, -, bits⟩ := c.parts
  refine hf.hopStreams i (c.headLegal e fits) (fun p b hb x y hin => ?_) (streams ▸ bits) ?_
  · obtain ⟨len, -⟩ := c.table hf e p.tbl
    rw [c.cfg_head hf] at hb
    rw [len]
    exact (e.hops p b hb x y ((c.inBlock_iff hf hb x y).1 hin)).2
  · rw [streams, c.length]
    exact fits

end

/-! ### The same hops and seeds give the same reconstruction (41_predictor R257) -/

theorem State.BlockDone.dst_eq {m m' : Memory} (hd : f.BlockDone p b m) (hd' : g.BlockDone p b m')
    (cfg : f.cfg = g.cfg) (region : f.blockRegion p b = g.blockRegion p b)
    (variant : f.ctrl.interiorVariant = g.ctrl.interiorVariant)
    (seed : m.read (f.seedSlot (f.cfg.seedNumber p b.1 b.2)).toNat =
      m'.read (g.seedSlot (g.cfg.seedNumber p b.1 b.2)).toNat)
    (hops : ∀ x y, g.inBlock p b x y → f.hopsIn p m x y = g.hopsIn p m' x y) {x y : Nat}
    (hin : g.inBlock p b x y) : m.read (f.dstAddr p x y).toNat = m'.read (g.dstAddr p x y).toNat := by
  obtain ⟨hs, trace⟩ := hd.trace
  obtain ⟨hs', trace'⟩ := hd'.trace
  have same := trace.congr (hop' := g.hopsIn p m') rfl rfl rfl rfl
    (fun x y hin => (hops x y (by rw [State.inRegion, State.blockScene, State.withSeeds_region,
      State.withRegion_region, region] at hin; exact hin)).symm) fun _ _ _ => rfl
  obtain ⟨l, hl, rfl, rfl⟩ := State.exists_pixel (s := g.blockScene p b _) hin
  exact (trace'.agree same region (congrArg FrameConfig.ratio cfg) variant seed le_rfl).2 l hl

end

end Sys2Proof.Machine
end

section
namespace Sys2Proof.Machine

-- One theorem at a time: many checked at once need more threads than the memory limit allows.
set_option Elab.async false

/-! ### The round trip (44_frame R421) -/

theorem HuffTable.symbolBits_of_le (tb : HuffTable) {b : Byte} (hb : b.toNat ≤ 8) :
    tb.symbolBits b = (tb.codeBitsOf (Fin.ofNat 9 b.toNat)).length := by
  have hlt : b.toNat < 9 := Nat.lt_succ_of_le hb
  have hfin : (⟨b.toNat, hlt⟩ : Hop) = Fin.ofNat 9 b.toNat := Fin.ext (Nat.mod_eq_of_lt hlt).symm
  rw [HuffTable.symbolBits, hopOfNat_lt hlt, HuffTable.codeBitsOf_length, ← hfin]

section
variable {s g t d u v : State} {p : Plane} {b : Nat × Nat} {N : Nat}

theorem State.InFrame.scanPixels (h : g.InFrame t) (frame : g.frameOk) (mesh : g.meshOk) (p : Plane) :
    t.scanPixels p = g.scanPixels p := by
  rw [t.scanPixels_eq (h.setup.frameOk_iff.2 frame) (h.meshOk mesh), g.scanPixels_eq frame mesh, h.setup.cfg]
  exact List.flatMap_congr fun b hb => by rw [h.blockRegion (mem_raster.1 hb)]

/-- The lengths of a plane's codes, in either order of its pixels. -/
theorem State.Encoded.planeBits (h : s.Encoded g t) (p : Plane) : ((t.scanPixels p).map fun q =>
    (t.table p.tbl).symbolBits (t.byteAt (t.hopAddr p q.1 q.2))).sum = (g.planeCode p).length := by
  have e := h.ready
  have hin := h.emitted.inFrame e h.length_le
  have perm := g.streamPixels_perm e.frame.frame e.frame.mesh p
  rw [State.planeCode, List.length_flatMap, (perm.map _).sum_eq,
    hin.scanPixels e.frame.frame e.frame.mesh]
  refine congrArg List.sum (List.map_congr_left fun q hq => ?_)
  obtain ⟨b, hb, hq⟩ := (g.mem_scanPixels e.frame.frame e.frame.mesh).1 hq
  have byte : t.byteAt (t.hopAddr p q.1 q.2) = g.byteAt (g.hopAddr p q.1 q.2) := by
    rw [hin.setup.hopAddr]
    exact h.emitted.read e h.length_le (l := .hop p q.1 q.2) (hq.inPlane e.frame.frame hb) nofun
  rw [byte, h.emitted.table, HuffTable.symbolBits_of_le _ (e.hops p b hb q.1 q.2 hq).1]
  rfl

/-- The bits of the frame are those of its fields (44_frame R400). -/
theorem State.Encoded.usedBits (h : s.Encoded g t) : t.usedBits = g.frameBitList.length := by
  have cfg := h.emitted.setup.cfg
  rw [State.usedBits, State.frameBitList_length, cfg, List.length_flatMap]
  exact congrArg (_ + List.sum ·) (List.map_congr_left fun p _ => h.planeBits p)


/-- The core `d` can decode the frame that an encoder begun at `s` left in `t`. -/
structure State.Receives (s t d : State) : Prop where
  calm : d.calm
  tables : d.tablesReady
  sx : d.cfg.sx = s.cfg.sx
  sy : d.cfg.sy = s.cfg.sy
  ratio : d.cfg.ratio = s.cfg.ratio
  cf : d.cfg.cf = s.cfg.cf
  variant : d.ctrl.interiorVariant = s.ctrl.interiorVariant
  order : d.plat.hdrOrder = s.plat.hdrOrder
  pixels : s.cfg.width.toNat * s.cfg.height.toNat ≤ d.plat.maxPixels
  room : d.canRead (t.writer.pos.toNat - s.writer.pos.toNat)
  bits : ∀ k, k < t.writer.pos.toNat - s.writer.pos.toNat →
    bitAt d.mem d.reader.base (d.reader.pos.toNat + k) = bitAt t.mem s.writer.base (s.writer.pos.toNat + k)
  apart : (d.withCfg s.cfg).buffersApart (streamBytes d.reader.base d.reader.pos.toNat
    (t.writer.pos.toNat - s.writer.pos.toNat))

section
variable (R : s.Receives t d) (h : s.Encoded g t)
include R h

theorem State.Receives.carries : (d.withCfg s.cfg).Carries g where
  cfg := h.inFrame.setup.cfg.symm
  order := R.order.trans (congrArg Platform.hdrOrder h.inFrame.setup.plat).symm
  bits k b hk := by
    have hlt := (List.getElem?_eq_some_iff.1 hk).1
    have hpos := h.pos
    exact (R.bits k (by omega)).trans (h.bits k b hk)

theorem State.Receives.headerCfg : d.headerCfg = s.cfg := by
  have bits := (R.carries h).bits
  rw [State.frameBitList, h.inFrame.setup.cfg] at bits
  exact State.headerCfg_eq bits.left R.sx R.sy R.ratio R.cf

omit h in
theorem State.Receives.input (frame : s.frameOk) :
    (d.withCfg s.cfg).FrameInput (t.writer.pos.toNat - s.writer.pos.toNat) where
  calm := R.calm
  tables := R.tables
  frame := by
    obtain ⟨dims, chroma, area, -, blocks, range⟩ := s.frameOk_iff.1 frame
    exact (State.frameOk_iff _).2 ⟨dims, chroma, area, R.pixels, blocks, range⟩
  room := R.room
  apart := R.apart

end

end

end Sys2Proof.Machine
end

section
namespace Sys2Proof.Machine

-- One theorem at a time: many checked at once need more threads than the memory limit allows.
set_option Elab.async false

theorem byte_eq_of_hop {a b : Byte} (ha : a.toNat ≤ 8) (hb : b.toNat ≤ 8)
    (h : Fin.ofNat 9 a.toNat = Fin.ofNat 9 b.toNat) : a = b := by
  have := congrArg Fin.val h
  rw [Fin.val_ofNat, Fin.val_ofNat] at this
  exact BitVec.eq_of_toNat_eq (by omega)

section
variable {s g t d f v : State} {p : Plane} {b : Nat × Nat} {x y i k : Nat} (R : s.Receives t d)
  (h : s.Encoded g t) (hf : (d.withCfg s.cfg).HeadRead f)
  (hv : (d.withCfg s.cfg).Unpacked f g.frameHops k f.cfg.jobs v)
include R h hf hv

/-- The decoder's seeds are the encoder's. -/
theorem State.Receives.seed (hi : i < s.cfg.seedCount) :
    v.mem.read (f.seedSlot i).toNat = g.mem.read (g.seedSlot i).toNat := by
  have cfg := (R.carries h).cfg_head hf
  rw [hv.seeds i (by rw [cfg, h.inFrame.setup.cfg]; exact hi), hf.reading.setup.seedSlot, hf.seeds i hi,
    (R.carries h).seedField hi, BitVec.ofNat_toNat, BitVec.setWidth_eq]

/-- So are its hops, and the reconstruction. -/
theorem State.Receives.pixel (hb : s.cfg.InGrid b) (hin : s.inBlock p b x y) :
    v.mem.read (f.hopAddr p x y).toNat = g.mem.read (g.hopAddr p x y).toNat ∧
    v.mem.read (f.dstAddr p x y).toNat = g.mem.read (g.dstAddr p x y).toNat := by
  have c := R.carries h
  have cfg := c.cfg_head hf
  have hbg : g.cfg.InGrid b := h.inFrame.setup.cfg ▸ hb
  have hbf : f.cfg.InGrid b := cfg ▸ hbg
  have hin := (h.inFrame.inBlock_iff hb x y).2 hin
  obtain ⟨-, done, hops⟩ := hv.blocks (p, b) (FrameConfig.mem_jobs.2 hbf)
  have same : ∀ x y, g.inBlock p b x y → f.hopsIn p v.mem x y = g.hopsIn p g.mem x y := fun x y hin =>
    hops x y ((c.inBlock_iff hf hbg x y).2 hin)
  have block := h.blocks p b hb
  refine ⟨byte_eq_of_hop (done.hops x y ((c.inBlock_iff hf hbg x y).2 hin)) (block.hops x y hin) (same x y hin),
    done.dst_eq block cfg (c.blockRegion hf hbg p) ?_ ?_ same hin⟩
  · rw [hf.reading.setup.ctrl, h.inFrame.setup.ctrl]
    exact R.variant
  · rw [cfg]
    exact R.seed h hf hv (h.inFrame.setup.cfg ▸ hbg.seedNumber_lt p)

end

/-- Settles O60: the decoder reads the fields that the encoder wrote, so it scans the same blocks with the
same seeds and hops, and such scans agree. -/
theorem frameRoundTrip : Obligations.FrameRoundTrip := by
  intro e t' d ready hexec quiet calm tables sx sy ratio cf variant order pixels room bits apart
  obtain ⟨g, t, out, h⟩ := cmdFrameEncode_ok ready
  obtain rfl : t.finish = t' := Host.Outcome.next.inj ((exec_ok (i := .frameEncode) out).symm.trans hexec)
  have R : e.Receives t d := ⟨calm, tables, sx, sy, ratio, cf, variant, order, pixels, room, bits, apart⟩
  have c := R.carries h
  have input := R.input ready.frame
  have hpos := h.pos
  have fits : g.frameBitList.length ≤ t.writer.pos.toNat - e.writer.pos.toNat := by omega
  have hcfg : d.withCfg e.cfg = d.withCfg d.headerCfg := by rw [R.headerCfg h]
  obtain ⟨f, v, outv, hf, hv, -⟩ := cmdFrameDecode_ok hcfg input (c.headLegal h.ready fits) fun f hf =>
    c.hopStreams hf input h.ready fits
  have setup := hv.reading.setup
  have read : ∀ l, e.cfg.HasPlace 0 l → t.mem.read (e.placeAddr g.firstByte l).toNat =
      g.mem.read (g.placeAddr g.firstByte l).toNat := fun l hl => by
    rw [h.inFrame.setup.placeAddr]
    exact h.read hl
  have same : ∀ l, e.cfg.HasPlace 0 l → v.mem.read (f.placeAddr g.firstByte l).toNat =
      g.mem.read (g.placeAddr g.firstByte l).toNat → v.mem.read (d.placeAddr g.firstByte l).toNat =
      t.mem.read (e.placeAddr g.firstByte l).toNat := fun l hl he => by
    rw [read l hl, ← he, hf.reading.setup.placeAddr]
    cases l <;> rfl
  have used : t.finish.usedBits = g.frameBitList.length := h.usedBits
  have length := c.length
  rw [← c.streams hf input h.ready fits] at length
  refine ⟨v.finish, exec_ok outv, setup.quiet_iff.2 quiet, setup.cfg, ?_, ?_, fun i hi => ?_, fun p x y hs => ?_⟩
  · rw [used, ← length]
    exact hv.reading.posNat input (by omega)
  · rw [used]
    exact hpos
  · exact same (.seed i) hi (R.seed h hf hv hi)
  · obtain ⟨b, hb, hin⟩ := (e.scanned_iff ready.frame p x y).1 hs
    obtain ⟨hop, dst⟩ := R.pixel h hf hv hb hin
    have place := hin.inPlane ready.frame hb
    exact ⟨same (.hop p x y) place hop, same (.dst p x y) place dst⟩

end Sys2Proof.Machine
end

section
namespace Sys2Proof.Machine

-- One theorem at a time: many checked at once need more threads than the memory limit allows.
set_option Elab.async false

/-! ### Frames of one pixel a plane -/

structure FrameConfig.OnePixel (c : FrameConfig) : Prop where
  width : c.width = 1
  height : c.height = 1
  gridW : c.gridW = 1
  gridH : c.gridH = 1

section
variable {c : FrameConfig} {f : State} {p : Plane} {b : Nat × Nat}

section
variable (o : c.OnePixel)
include o

theorem FrameConfig.OnePixel.blocks : c.blocksW = 1 ∧ c.blocksH = 1 := by
  rw [FrameConfig.blocksW, FrameConfig.blocksH, o.gridW, o.gridH]
  exact ⟨rfl, rfl⟩

theorem FrameConfig.OnePixel.counts : c.seedCount = 3 ∧ c.cornerCount = 4 := by
  obtain ⟨hw, hh⟩ := o.blocks
  rw [FrameConfig.seedCount, FrameConfig.cornerCount, hw, hh]
  exact ⟨rfl, rfl⟩

theorem FrameConfig.OnePixel.seedNumber (p : Plane) : c.seedNumber p 0 0 = p.index := by
  obtain ⟨hw, hh⟩ := o.blocks
  rw [FrameConfig.seedNumber, hw, hh]
  omega

theorem FrameConfig.OnePixel.inGrid_iff : c.InGrid b ↔ b = (0, 0) := by
  obtain ⟨hw, hh⟩ := o.blocks
  rw [FrameConfig.InGrid, hw, hh, Prod.ext_iff]
  omega

end

section
variable (o : f.cfg.OnePixel) (h : f.frameOk)
include o h

theorem FrameConfig.OnePixel.plane (p : Plane) : f.cfg.planeW p = 1 ∧ f.cfg.planeH p = 1 ∧
    (f.cfg.boundX p 0 = 0 ∧ f.cfg.boundX p 1 = 1) ∧ (f.cfg.boundY p 0 = 0 ∧ f.cfg.boundY p 1 = 1) := by
  obtain ⟨⟨hx, hxw⟩, ⟨hy, hyh⟩⟩ := h.block h.inGrid_zero p
  have hw : f.cfg.planeW p ≤ 1 := (cdiv_le_self _ (h.chromaLegal.sub_pos p).1).trans_eq (by rw [o.width]; rfl)
  have hh : f.cfg.planeH p ≤ 1 := (cdiv_le_self _ (h.chromaLegal.sub_pos p).2).trans_eq (by rw [o.height]; rfl)
  simp only [Nat.zero_add] at hx hxw hy hyh
  omega

theorem FrameConfig.OnePixel.blockSize (p : Plane) : f.blockSize p 0 0 = (1, 1) := by
  obtain ⟨-, -, ⟨x0, x1⟩, ⟨y0, y1⟩⟩ := o.plane h p
  obtain ⟨⟨hw0, hw⟩, ⟨hh0, hh⟩⟩ := f.blockSize_bounds h h.inGrid_zero p
  rw [FrameConfig.blockW, x0, x1] at hw
  rw [FrameConfig.blockH, y0, y1] at hh
  exact Prod.ext (by dsimp only at *; omega) (by dsimp only at *; omega)

theorem FrameConfig.OnePixel.blockRegion (p : Plane) :
    f.blockRegion p (0, 0) = { x0 := 0, y0 := 0, w := 1, h := 1 } := by
  obtain ⟨-, -, ⟨x0, -⟩, ⟨y0, -⟩⟩ := o.plane h p
  rw [State.blockRegion, o.blockSize h, x0, y0]
  rfl

theorem FrameConfig.OnePixel.inBlock_iff {x y : Nat} : f.inBlock p (0, 0) x y ↔ x = 0 ∧ y = 0 := by
  rw [State.inBlock, o.blockRegion h, State.inRegion]
  show 0 ≤ x ∧ x < 0 + 1 ∧ 0 ≤ y ∧ y < 0 + 1 ↔ _
  omega

theorem FrameConfig.OnePixel.streamPixels (mesh : f.meshOk) (p : Plane) : f.streamPixels p = [(0, 0)] := by
  obtain ⟨hw, hh, -⟩ := o.plane h p
  obtain ⟨bw, bh⟩ := o.blocks
  rw [State.streamPixels, f.scanPixels_eq h mesh, hw, hh, bw, bh]
  have one : raster 1 1 = [(0, 0)] := rfl
  rw [one, List.flatMap_singleton, o.blockRegion h]
  split <;> rfl

end
end

end Sys2Proof.Machine
end

section
namespace Sys2Proof.Machine

-- One theorem at a time: many checked at once need more threads than the memory limit allows.
set_option Elab.async false

/-! ### FRAME_DECODE of a frame of one pixel a plane (44_frame R418) -/

theorem bitsAt_append {m : Memory} {base : Word} {q : Nat} {xs ys : List Bool} (hx : bitsAt m base q xs)
    (hy : bitsAt m base (q + xs.length) ys) : bitsAt m base q (xs ++ ys) := fun k b hk => by
  rcases Nat.lt_or_ge k xs.length with hlt | hge
  · exact hx k b (by rwa [List.getElem?_append_left hlt] at hk)
  · rw [List.getElem?_append_right hge] at hk
    have := hy _ b hk
    rwa [Nat.add_assoc, Nat.add_sub_cancel' hge] at this

/-- The bits of a field are those of its number. -/
theorem bitsAt_field (m : Memory) (base : Word) (q n : Nat) : bitsAt m base q (msbBits (fieldAt m base q n) n) := by
  intro k b hk
  have hlt : k < n := by simpa [msbBits_length] using (List.getElem?_eq_some_iff.1 hk).1
  have hb : (fieldAt m base q n).testBit (n - 1 - k) = b := by simpa [msbBits, List.getElem?_range hlt] using hk
  have head := fieldAt_shiftRight m base q (show k + 1 ≤ n from hlt)
  have last : (fieldAt m base q (k + 1)).testBit 0 = bitAt m base (q + k) := by
    rw [fieldAt]
    cases bitAt m base (q + k) <;> simp [Nat.testBit_zero]
  rw [← last, ← hb, ← head, Nat.testBit_shiftRight]
  congr 1
  omega

theorem bitsAt_of_codesAt {m : Memory} {base : Word} {tb : HuffTable} {hops : List Hop} {q : Nat}
    (h : codesAt m base tb q hops) : bitsAt m base q (hops.flatMap tb.codeBitsOf) := by
  induction hops generalizing q with
  | nil => exact fun k b hk => by cases hk
  | cons i hops ih =>
    obtain ⟨-, hfield, hrest⟩ := h
    refine bitsAt_append ?_ ?_
    · rw [HuffTable.codeBitsOf, ← hfield]
      exact bitsAt_field _ _ _ _
    · rw [HuffTable.codeBitsOf_length]
      exact ih hrest

section
variable {s f v : State} {hop : Plane → Hop}

theorem State.pixelCfg_onePixel (s : State) : s.pixelCfg.OnePixel := ⟨rfl, rfl, rfl, rfl⟩

/-- The state whose configuration the header has loaded. -/
def State.pixelFrame (s : State) : State := s.withCfg s.pixelCfg

theorem State.pixelFrame_bits (s : State) : s.pixelFrame.meshBit = 184 ∧ s.pixelFrame.hopBit = s.pixelLuma ∧
    (∀ τ, s.pixelFrame.headerTable τ = s.pixelTable τ) ∧
    ∀ k, s.pixelFrame.cornerByte k =
      BitVec.ofNat 8 (8 * s.inputField (187 + 6 * k) 3 + s.inputField (184 + 6 * k) 3) := by
  obtain ⟨seeds, corners⟩ := s.pixelCfg_onePixel.counts
  have seeds' : s.pixelFrame.cfg.seedCount = 3 := seeds
  have corners' : s.pixelFrame.cfg.cornerCount = 4 := corners
  have mesh : s.pixelFrame.meshBit = 184 := by rw [State.meshBit, seeds']
  have table : ∀ τ, s.pixelFrame.tableBit τ = if s.plat.hdrOrder.tables.head? = some τ then 112 else 148 :=
    fun τ => by
      rw [State.tableBit, seeds']
      show (112 + if s.plat.hdrOrder.tables.head? = some τ then 0 else 36) = _
      split <;> rfl
  refine ⟨mesh, ?_, fun τ => ?_, fun k => ?_⟩
  · rw [State.hopBit, mesh, corners', State.pixelLuma]
    show (184 + if s.pixelCfg.mode = 2 then 24 else 0) = _
    split <;> rfl
  · rw [State.headerTable, table]
    rfl
  · rw [State.cornerByte, mesh, show 184 + (6 * k + 3) = 187 + 6 * k by omega]
    rfl


/-- The hops of the frame's pixels. -/
def planeHop (hop : Plane → Hop) (p : Plane) (_ _ : Nat) : Hop := hop p

section
variable (H : s.HoldsOnePixelFrame hop)
include H

theorem State.HoldsOnePixelFrame.headerCfg : s.headerCfg = s.pixelCfg := by
  rw [State.headerCfg, H.width, H.height, H.gridW, H.gridH]
  rfl

theorem State.HoldsOnePixelFrame.input (calm : s.calm) (tables : s.tablesReady) :
    s.pixelFrame.FrameInput (s.pixelBits hop) :=
  ⟨calm, tables, H.legal, H.budget, H.apart⟩

theorem State.HoldsOnePixelFrame.headLegal : s.pixelFrame.HeadLegal (s.pixelBits hop) := by
  obtain ⟨mesh, hops, table, -⟩ := s.pixelFrame_bits
  obtain ⟨-, corners⟩ := s.pixelCfg_onePixel.counts
  refine ⟨?_, fun τ => ?_, fun hm k hk => ?_⟩
  · rw [hops, State.pixelBits, State.pixelChroma]
    omega
  · obtain ⟨luma, chroma⟩ := H.tables
    rw [table]
    cases τ
    · exact luma
    · exact chroma
  · have hk : k < 4 := hk.trans_eq corners
    have x := H.mesh hm (2 * k) (by omega)
    have y := H.mesh hm (2 * k + 1) (by omega)
    rw [mesh]
    rw [← Nat.mul_assoc] at x
    rw [Nat.mul_add, ← Nat.mul_assoc] at y
    exact ⟨x, y⟩

theorem State.HoldsOnePixelFrame.hopStreams (calm : s.calm) (tables : s.tablesReady)
    (hf : s.pixelFrame.HeadRead f) : s.pixelFrame.HopStreams f (s.pixelBits hop) (planeHop hop) ∧
      s.pixelFrame.hopBit + (allPlanes.flatMap (f.hopStream (planeHop hop))).length = s.pixelBits hop := by
  obtain ⟨mesh, hops, table, -⟩ := s.pixelFrame_bits
  have legal := H.headLegal
  have input := H.input calm tables
  have frame := hf.reading.setup.frameOk_iff.2 input.frame
  have cfg : f.cfg = s.pixelCfg := hf.reading.setup.cfg
  have one : f.cfg.OnePixel := cfg ▸ s.pixelCfg_onePixel
  have stream : ∀ p, f.hopStream (planeHop hop) p = (s.pixelTable p.tbl).codeBitsOf (hop p) := fun p => by
    rw [State.hopStream, one.streamPixels frame (hf.meshOk legal), List.flatMap_singleton, State.hopCode, hf.tables,
      table]
    rfl
  have streams : allPlanes.flatMap (f.hopStream (planeHop hop)) =
      [hop .luma].flatMap (s.pixelTable .luma).codeBitsOf ++
        [hop .chromaA, hop .chromaB].flatMap (s.pixelTable .chroma).codeBitsOf := by
    simp only [allPlanes, List.flatMap_cons, List.flatMap_nil, List.append_nil, stream]
    rfl
  have length : s.pixelFrame.hopBit + (allPlanes.flatMap (f.hopStream (planeHop hop))).length =
      s.pixelBits hop := by
    rw [streams, List.length_append, ← codeBits_eq_length, ← codeBits_eq_length, hops, ← Nat.add_assoc]
    rfl
  refine ⟨hf.hopStreams input legal (fun p b hb x y hin => ?_) ?_ length.le, length⟩
  · rw [hf.tables, table]
    obtain ⟨luma, -⟩ := H.luma
    obtain ⟨chromaA, -, chromaB, -⟩ := H.chroma
    cases p
    · exact luma
    · exact chromaA
    · exact chromaB
  · rw [streams, hops]
    refine bitsAt_append (bitsAt_of_codesAt H.luma) ?_
    rw [← codeBits_eq_length, Nat.add_assoc]
    exact bitsAt_of_codesAt H.chroma

end

end

end Sys2Proof.Machine
end

section
namespace Sys2Proof.Machine

-- One theorem at a time: many checked at once need more threads than the memory limit allows.
set_option Elab.async false

/-! ### The registers after a region of one pixel (41_predictor R265) -/

section
variable {f x v z : State} {first : Word} {n : Nat} {p : Plane} {i : Hop}

/-- `z` begins the decoding scan of plane `p` over a region of one pixel. -/
structure State.AtOnlyPixel (z : State) (p : Plane) : Prop where
  scan : z.scan = Scan.start .decode p
  region : z.region = { x0 := 0, y0 := 0, w := 1, h := 1 }

section
variable (hz : z.AtOnlyPixel p)
include hz

theorem State.AtOnlyPixel.cursor : z.cursorX = 0 ∧ z.cursorY = 0 ∧ z.cursorClass = .topLeft := by
  rw [State.cursorX, State.cursorY, State.cursorClass, hz.scan, hz.region]
  exact ⟨rfl, rfl, rfl⟩

theorem State.AtOnlyPixel.usedHopState : z.usedHopState = (7, false) := by
  obtain ⟨-, -, topLeft⟩ := hz.cursor
  rw [State.usedHopState, topLeft, hz.scan]
  rfl

/-- Its pixel gets the seed. -/
theorem State.AtOnlyPixel.pixelDone : (z.pixelDone z i 0).lastPix =
      { pred := z.seeds.seed, value := z.seeds.seed, hop := BitVec.ofNat 4 i.val, orig := 0 } ∧
    (z.pixelDone z i 0).scan =
      { x := 0, y := 1, step := BitVec.ofNat 5 (adapt 7 false i).1, lastSmall := (adapt 7 false i).2,
        active := false, dir := .decode, plane := p } := by
  obtain ⟨-, -, topLeft⟩ := hz.cursor
  constructor
  · show LastPix.mk z.cursorPred (z.cursorValue i) _ 0 = _
    rw [State.cursorPred, State.cursorValue, topLeft, if_pos rfl]
    rfl
  · show z.scanAfter (adapt z.usedHopState.1 z.usedHopState.2 i).1 (adapt z.usedHopState.1 z.usedHopState.2 i).2 = _
    rw [hz.usedHopState, State.scanAfter, hz.scan, hz.region]
    rfl

end

/-- The scan of a block of one pixel ends with the step of that pixel. -/
theorem State.BlockDecoded.onePixel (dec : f.BlockDecoded first p (0, 0) x v) (fr : f.FrameReady first n)
    (one : f.cfg.OnePixel) (hx : f.InFrame x) (hop : (x.mem.read (f.hopAddr p 0 0).toNat).toNat = i.val) :
    ∃ z : State, z.AtOnlyPixel p ∧ v = z.pixelDone z i 0 ∧ z.geom = (f.enterBlock x p (0, 0)).geom ∧
      z.seeds = (f.seedBlock x p (0, 0)).seeds := by
  have hw := hx.seedBlock p (0, 0)
  have region : (f.seedBlock x p (0, 0)).region = { x0 := 0, y0 := 0, w := 1, h := 1 } :=
    hw.region.trans (one.blockRegion fr.frame p)
  have count : (f.seedBlock x p (0, 0)).pixelCount = 1 := by rw [State.pixelCount, region]; rfl
  have ok := hw.regionOk fr fr.frame.inGrid_zero
  have hz : ((f.seedBlock x p (0, 0)).withScan (Scan.start .decode p)).AtOnlyPixel p := ⟨rfl, region⟩
  refine ⟨_, hz, ?_, rfl, rfl⟩
  have ready := (State.atPixel_start .decode ok).stepReady (hw.setup.tablesReady_iff.2 fr.tables) ok
    (by rw [count]; exact Nat.one_pos)
  obtain ⟨cx, cy, -⟩ := hz.cursor
  have step := cmdHopStep_decode (h := i) ready rfl (by
    rw [cx, cy]
    refine Eq.trans ?_ hop
    exact congrArg (fun a : Word => (x.mem.read a.toNat).toNat) (hw.setup.hopAddr p 0 0))
  rw [dec.run, count, State.scanState, State.scanState, step]
  rfl

end

end Sys2Proof.Machine
end

section
namespace Sys2Proof.Machine

-- One theorem at a time: many checked at once need more threads than the memory limit allows.
set_option Elab.async false

/-! ### The state that FRAME_DECODE of a frame of one pixel a plane leaves (44_frame R418) -/

/-- Two states that leave the same of a frame's setup are one if they agree in what the inner steps write. -/
theorem State.SameSetup.ext {s t u : State} (h : s.SameSetup t) (h' : s.SameSetup u) (mem : t.mem = u.mem)
    (reader : t.reader.pos = u.reader.pos) (writer : t.writer.pos = u.writer.pos)
    (index : t.seeds.seedIndex = u.seeds.seedIndex) (seed : t.seeds.seed = u.seeds.seed)
    (region : t.region = u.region) (geom : t.geom = u.geom) (scan : t.scan = u.scan)
    (lastPix : t.lastPix = u.lastPix) (huff : t.huff = u.huff) : t = u := by
  refine Eq.trans h (Eq.trans ?_ (Eq.symm h'))
  rw [State.withWork, State.withWork, mem, reader, writer, index, seed, region, geom, scan, lastPix, huff]

theorem State.huff_eq {t u : State} (h : ∀ τ, t.table τ = u.table τ) : t.huff = u.huff :=
  congrArg₂ HuffTables.mk (h .luma) (h .chroma)

section
variable {s f v : State} {hop : Plane → Hop} {k : Nat} {p : Plane}

section
variable (input : s.pixelFrame.FrameInput (s.pixelBits hop))
  (hf : s.pixelFrame.HeadRead f) (hv : s.pixelFrame.Unpacked f (planeHop hop) k f.cfg.jobs v)
include hf

theorem State.HeadRead.onePixel : f.cfg.OnePixel := by
  rw [hf.reading.setup.cfg]
  exact s.pixelCfg_onePixel

theorem State.HeadRead.pixelAddr (l : Place) : f.placeAddr 0 l = s.placeAddr 0 l := by
  rw [hf.reading.setup.placeAddr]
  cases l <;> rfl

include hv

/-- The seeds are those of the stream. -/
theorem State.HeadRead.pixelSeed (p : Plane) : v.mem.read (f.seedSlot p.index).toNat = s.pixelSeed p.index := by
  obtain ⟨seeds, -⟩ := hf.onePixel.counts
  obtain ⟨seeds', -⟩ := s.pixelCfg_onePixel.counts
  rw [hv.seeds _ (p.index_lt.trans_eq seeds.symm), hf.reading.setup.seedSlot,
    hf.seeds _ (p.index_lt.trans_eq seeds'.symm)]
  rfl

include input

theorem State.HeadRead.pixelDone (p : Plane) : f.BlockDone p (0, 0) v.mem ∧
    (v.mem.read (f.hopAddr p 0 0).toNat).toNat = (hop p).val ∧ f.inBlock p (0, 0) 0 0 := by
  have one := hf.onePixel
  have frame := hf.reading.setup.frameOk_iff.2 input.frame
  obtain ⟨-, done, hops⟩ := hv.blocks (p, 0, 0) (FrameConfig.mem_jobs.2 (one.inGrid_iff.2 rfl))
  have hin := (one.inBlock_iff frame (p := p)).2 ⟨rfl, rfl⟩
  refine ⟨done, ?_, hin⟩
  have val := congrArg Fin.val (hops 0 0 hin)
  exact (Nat.mod_eq_of_lt (Nat.lt_succ_of_le (done.hops 0 0 hin))).symm.trans val

/-- The pixel of each plane is its seed. -/
theorem State.HeadRead.pixelDst (p : Plane) : v.mem.read (f.dstAddr p 0 0).toNat = s.pixelSeed p.index := by
  have one := hf.onePixel
  have frame := hf.reading.setup.frameOk_iff.2 input.frame
  obtain ⟨done, -, -⟩ := hf.pixelDone input hv p
  obtain ⟨hs, trace⟩ := done.trace
  have region := one.blockRegion frame p
  have size : (f.blockRegion p (0, 0)).w.toNat = 1 ∧ (f.blockRegion p (0, 0)).h.toNat = 1 ∧
      (f.blockRegion p (0, 0)).x0.toNat = 0 ∧ (f.blockRegion p (0, 0)).y0.toNat = 0 := by
    rw [region]
    exact ⟨rfl, rfl, rfl, rfl⟩
  obtain ⟨w, h, x0, y0⟩ := size
  obtain ⟨value, -⟩ := trace.pixel 0 0 (Nat.one_pos.trans_eq w.symm) (Nat.one_pos.trans_eq h.symm)
  rw [State.blockScene, State.withSeeds_region, State.withRegion_region, w, x0, y0] at value
  refine value.trans ((if_pos rfl).trans ?_)
  show v.mem.read (f.seedSlot (f.cfg.seedNumber p 0 0)).toNat = _
  rw [one.seedNumber]
  exact hf.pixelSeed hv p

omit hf in
/-- Only the frame's places have changed. -/
theorem State.Unpacked.pixelOthers {a : Word} (pixel : ∀ p : Plane, a ≠ s.seedSlot p.index ∧
      a ≠ s.dstAddr p 0 0 ∧ a ≠ s.hopAddr p 0 0)
    (mesh : s.pixelCfg.mode = 2 → ∀ k, k < 4 → a ≠ s.meshByteAddr k) : v.mem.read a.toNat = s.byteAt a := by
  refine hv.reading.stores a.toNat fun l ⟨hl, hmesh⟩ he => ?_
  have one := s.pixelCfg_onePixel
  have ha : a = s.pixelFrame.placeAddr s.pixelFrame.inputByte l := BitVec.eq_of_toNat_eq he
  have only : ∀ (p : Plane) x y, x < s.pixelFrame.cfg.planeW p ∧ y < s.pixelFrame.cfg.planeH p →
      x = 0 ∧ y = 0 := by
    intro p x y hxy
    obtain ⟨w, h, -⟩ := FrameConfig.OnePixel.plane (f := s.pixelFrame) one input.frame p
    omega
  cases l with
  | hop p x y =>
    obtain ⟨rfl, rfl⟩ := only p x y hl
    exact (pixel p).2.2 ha
  | dst p x y =>
    obtain ⟨rfl, rfl⟩ := only p x y hl
    exact (pixel p).2.1 ha
  | seed i =>
    have hi : i < 3 := hl.trans_eq one.counts.1
    obtain ⟨p, rfl⟩ : ∃ p : Plane, i = p.index := by
      interval_cases i
      · exact ⟨.luma, rfl⟩
      · exact ⟨.chromaA, rfl⟩
      · exact ⟨.chromaB, rfl⟩
    exact (pixel p).1 ha
  | mesh k => exact mesh (hmesh k rfl) k (hl.trans_eq one.counts.2) ha
  | stream j => exact hl.not_stream j rfl

end

end

end Sys2Proof.Machine
end

section
namespace Sys2Proof.Machine

-- One theorem at a time: many checked at once need more threads than the memory limit allows.
set_option Elab.async false

/-- The registers of a scan as given. -/
def State.withScanRegs (t : State) (index : Word) (seed : Byte) (r : Region) (g : Geometry) (c : Scan)
    (l : LastPix) : State :=
  ((((t.withSeeds { t.seeds with seedIndex := index, seed := seed }).withRegion r).withGeom g).withScan c).withLastPix
    l

theorem State.sameSetup_withScanRegs (t : State) (index : Word) (seed : Byte) (r : Region) (g : Geometry)
    (c : Scan) (l : LastPix) : t.SameSetup (t.withScanRegs index seed r g c l) := rfl

theorem State.withScanRegs_table (t : State) (index : Word) (seed : Byte) (r : Region) (g : Geometry)
    (c : Scan) (l : LastPix) (τ : Tbl) : (t.withScanRegs index seed r g c l).table τ = t.table τ := by
  cases τ <;> rfl

/-- The tables, memory and reader of a decoded frame of one pixel a plane. -/
def State.pixelLoaded (s : State) (n : Nat) (m : Memory) : State :=
  ((((s.withMem m).withCfg s.pixelCfg).withTable .luma (s.pixelTable .luma)).withTable .chroma
    (s.pixelTable .chroma)).consumed n

theorem State.sameSetup_pixelLoaded (s : State) (n : Nat) (m : Memory) :
    s.pixelFrame.SameSetup (s.pixelLoaded n m) := by
  have mem : s.pixelFrame.SameSetup ((s.withMem m).withCfg s.pixelCfg) := rfl
  exact ((mem.trans (State.sameSetup_withTable _ _ _)).trans (State.sameSetup_withTable _ _ _)).trans rfl

theorem State.pixelLoaded_table (s : State) (n : Nat) (m : Memory) (τ : Tbl) :
    (s.pixelLoaded n m).table τ = s.pixelTable τ := by
  cases τ <;> rfl

section
variable {s f v : State} {hop : Plane → Hop}

/-- The registers that the last block leaves are those of plane 2. -/
theorem State.HeadRead.pixelState (hf : s.pixelFrame.HeadRead f)
    (H : s.pixelFrame.HopStreams f (s.pixelBits hop) (planeHop hop))
    (length : s.pixelFrame.hopBit + (allPlanes.flatMap (f.hopStream (planeHop hop))).length = s.pixelBits hop)
    (hv : s.pixelFrame.Unpacked f (planeHop hop) (allPlanes.flatMap (f.hopStream (planeHop hop))).length
      f.cfg.jobs v)
    (last : f.LastBlock s.pixelFrame.inputByte .chromaB v) :
    v = (s.pixelLoaded (s.pixelBits hop) v.mem).withScanRegs 2 (s.pixelSeed 2)
      { x0 := 0, y0 := 0, w := 1, h := 1 } { xIni := 0, xFin := 1, yIni := 0, yFin := 1, dsX := 1, dsY := 1 }
      { x := 0, y := 1, step := BitVec.ofNat 5 (adapt 7 false (hop .chromaB)).1,
        lastSmall := (adapt 7 false (hop .chromaB)).2, active := false, dir := .decode, plane := .chromaB }
      { pred := s.pixelSeed 2, value := s.pixelSeed 2, hop := BitVec.ofNat 4 (hop .chromaB).val, orig := 0 } := by
  have one := hf.onePixel
  have fr := H.frameReady
  obtain ⟨b, x, hb, hx, dec⟩ := last
  obtain rfl := one.inGrid_iff.1 hb
  have kept : ∀ l, f.cfg.HasPlace 0 l → (∀ p x y, l ≠ .dst p x y) →
      v.mem.read (f.placeAddr s.pixelFrame.inputByte l).toNat =
        x.mem.read (f.placeAddr s.pixelFrame.inputByte l).toNat := fun l hl hne =>
    dec.kept.read fr.apart (fun _ hl => hl.blockPlace.hasPlace fr.frame hb _) (hl.more _)
      fun ⟨x, y, he, _⟩ => hne _ _ _ he
  obtain ⟨-, hopv, hin⟩ := hf.pixelDone H.input hv .chromaB
  have hopx := kept (.hop .chromaB 0 0) (hin.inPlane fr.frame hb) nofun
  obtain ⟨z, hz, hvz, geom, seeds⟩ := dec.onePixel fr one hx ((congrArg BitVec.toNat hopx.symm).trans hopv)
  have seed : z.seeds.seed = s.pixelSeed 2 := by
    rw [seeds]
    show x.mem.read (f.seedSlot (f.cfg.seedNumber .chromaB 0 0)).toNat = _
    rw [one.seedNumber]
    exact (kept (.seed 2) ((by decide : 2 < 3).trans_eq one.counts.1.symm) nofun).symm.trans (hf.pixelSeed hv .chromaB)
  have index : z.seeds.seedIndex = 2 := by
    rw [seeds]
    show BitVec.ofNat 32 (f.cfg.seedNumber .chromaB 0 0) = _
    rw [one.seedNumber]
    rfl
  obtain ⟨lastPix, scan⟩ := hz.pixelDone (i := hop .chromaB)
  rw [seed] at lastPix
  have vseeds : v.seeds = z.seeds := by
    rw [hvz]
    exact State.storeByte_seeds _ _ _
  have vgeom : v.geom = z.geom := by
    rw [hvz]
    exact State.storeByte_geom _ _ _
  refine State.SameSetup.ext hv.reading.setup
    ((s.sameSetup_pixelLoaded _ _).trans (State.sameSetup_withScanRegs _ _ _ _ _ _ _)) rfl ?_ ?_ ?_ ?_ ?_ ?_ ?_ ?_ ?_
  · rw [hv.reading.pos, length]
    rfl
  · rw [hv.reading.writer]
    rfl
  · rw [vseeds, index]
    rfl
  · rw [vseeds, seed]
    rfl
  · exact dec.scanned.atBlock.region.trans (one.blockRegion fr.frame _)
  · obtain ⟨-, -, ⟨x0, x1⟩, ⟨y0, y1⟩⟩ := one.plane fr.frame .chromaB
    refine vgeom.trans (geom.trans ?_)
    rw [State.enterBlock, one.blockSize fr.frame, x0, x1, y0, y1]
    rfl
  · rw [hvz, scan]
    rfl
  · rw [hvz, lastPix]
    rfl
  · obtain ⟨-, -, table, -⟩ := s.pixelFrame_bits
    refine State.huff_eq fun τ => ?_
    rw [hv.table, hf.tables, table, State.withScanRegs_table, State.pixelLoaded_table]

/-- Settles O59: the one block of each plane is one pixel, whose step gives it the seed. -/
theorem frameDecodeOnePixelFrame : Obligations.FrameDecodeOnePixelFrame := by
  intro s hop calm tables H seed hs
  have input := H.input calm tables
  have hcfg : s.pixelFrame = s.withCfg s.headerCfg := by rw [H.headerCfg]; rfl
  obtain ⟨f, v, out, hf, hv, last⟩ := cmdFrameDecode_ok hcfg input H.headLegal fun f hf =>
    (H.hopStreams calm tables hf).1
  obtain ⟨streams, length⟩ := H.hopStreams calm tables hf
  have state := hf.pixelState streams length hv last
  have read : ∀ l, v.mem.read (s.placeAddr 0 l).toNat = v.mem.read (f.placeAddr 0 l).toNat := fun l => by
    rw [hf.pixelAddr]
  refine ⟨v.mem, ?_, fun p => ⟨(read (.seed p.index)).trans (hf.pixelSeed hv p),
    (read (.dst p 0 0)).trans (hf.pixelDst input hv p), ?_⟩, fun hm k hk => ?_,
    fun a pixel mesh => hv.pixelOthers input pixel mesh⟩
  · rw [state] at out
    exact exec_ok (i := .frameDecode) out
  · obtain ⟨-, hopv, -⟩ := hf.pixelDone input hv p
    exact (congrArg BitVec.toNat (read (.hop p 0 0))).trans hopv
  · obtain ⟨-, -, -, corner⟩ := s.pixelFrame_bits
    obtain ⟨-, corners⟩ := hf.onePixel.counts
    obtain ⟨-, corners'⟩ := s.pixelCfg_onePixel.counts
    rw [← corner, ← hf.mesh hm k (hk.trans_eq corners'.symm)]
    refine (read (.mesh k)).trans ((hv.inFrame.mesh k (hk.trans_eq corners.symm)).trans ?_)
    exact congrArg (fun a : Word => f.mem.read a.toNat) (hf.reading.setup.meshByteAddr k)

end

end Sys2Proof.Machine
end

section
/-! PROOFS. Family 60_exceptions: the sticky error record, writes while a command runs, the checks that come
first, and the interrupt output. -/

namespace Sys2Proof.Machine

-- One theorem at a time: many checked at once need more threads than the memory limit allows.
set_option Elab.async false

/-! ### The engine does not steer a command (60_exceptions R611) -/

section
variable {i : Instr} {s t u : State}

/-- The accesses to come and the bus stay, so a blind body sees no more than another engine. -/
theorem Grant.Frame.withOuter_eq {g : Grant} (h : g.Frame s u) (e : Engine) :
    u.withOuter e s.inbox s.bus = u.withEng e := by
  rw [← h.inbox, ← h.bus]
  rfl

/-- A raise that ends a command leaves an engine, no races, and all else alone. -/
theorem State.raiseEnd_eq (u : State) (e : ErrCode) :
    u.raiseEnd e = (u.withEng (u.raiseEnd e).eng).withRaces [] := by
  unfold State.raiseEnd State.recordError
  split <;> rfl

/-- Under another engine a command leaves another engine and all else as before. -/
theorem exec_withEng (h : exec i s = .next t) (e : Engine) :
    ∃ e', exec i (s.withEng e) = .next (t.withEng e') := by
  have blind := (made_commandBody i).blind.out s e s.inbox s.bus
  rcases exec_cases h with ⟨u, ho, hf, rfl⟩ | ⟨err, u, ho, -, hf, rfl⟩
  · rw [ho, Out.mapState, hf.withOuter_eq] at blind
    exact ⟨(u.withEng e).finish.eng, exec_ok (s := s.withEng e) blind⟩
  · rw [ho, Out.mapState, hf.withOuter_eq] at blind
    refine ⟨((u.withEng e).raiseEnd err).eng, ?_⟩
    rw [exec_raised (s := s.withEng e) blind, State.raiseEnd_eq, u.raiseEnd_eq err]
    rfl

end

/-- Settles O8: the two runs end alike but for the engine. -/
theorem engineDoesNotSteerCommands : Obligations.EngineDoesNotSteerCommands := by
  intro i s e t t' h h'
  obtain ⟨e', he'⟩ := exec_withEng h e
  cases h'.symm.trans he'
  rfl

/-! ### The error record is sticky (60_exceptions R603, R604) -/

/-- From `s` to `t` the error record has not changed. -/
def State.SameRecord (s t : State) : Prop :=
  t.eng.err = s.eng.err ∧ t.eng.errCmd = s.eng.errCmd ∧ t.eng.errReg = s.eng.errReg

/-- The access is a reset: the platform's, or a CTRL write with bit 0 set (70_reset R700, R701). -/
def HostAccess.IsReset (a : HostAccess) : Prop :=
  a = .hardReset ∨ ∃ v, a = regWriteOf .ctrl v ∧ v.getLsbD 0 = true

section
variable {s t : State} {r : Reg} {v : Word}

theorem State.SameRecord.of_eng (h : t.eng = s.eng) : s.SameRecord t := by
  simp [State.SameRecord, h]

/-- If the next step is no reset, neither is the access that it takes. -/
theorem HostAccess.not_isReset {q : Pending} {rest : List Pending} (hi : s.inbox = q :: rest)
    (h : ¬ s.resetNext) : ¬ q.access.IsReset := fun hr => h ⟨q, rest, hi, hr⟩

/-- A later error is not recorded (60_exceptions R603). -/
theorem State.sameRecord_recordError (hq : ¬ s.quiet) (e : ErrCode) (w : Word) (b : Bool) :
    s.SameRecord (s.recordError e w b) := by
  rw [State.recordError_later hq]
  exact .of_eng rfl

theorem State.sameRecord_raiseEnd (hq : ¬ s.quiet) (e : ErrCode) : s.SameRecord (s.raiseEnd e) := by
  rw [State.SameRecord, State.raiseEnd_eng_later hq]
  exact ⟨rfl, rfl, rfl⟩

/-! #### Commands -/

theorem exec_sameRecord {i : Instr} (hq : ¬ s.quiet) (h : exec i s = .next t) : s.SameRecord t := by
  obtain ⟨-, -, heng, -⟩ := commandsWriteOnlyTheirRegisters i s t h
  rcases heng with heng | ⟨e, quiet, -⟩
  · rw [State.SameRecord, heng]
    exact ⟨rfl, rfl, rfl⟩
  · exact absurd quiet hq

theorem complete_sameRecord (hq : ¬ s.quiet) (h : complete s = .next t) : s.SameRecord t := by
  unfold complete at h
  split at h
  · unfold runWord at h
    split at h
    · exact exec_sameRecord hq h
    · cases h
      exact State.sameRecord_raiseEnd hq _
  · cases h
    exact .of_eng rfl

/-- A command written while an error stands is discarded: CMD takes the word (60_exceptions R604). -/
theorem writeCmd_discarded (hq : ¬ s.quiet) (w : Word) :
    writeCmd w s = .next ((s.withEng { s.eng with cmd := w }).withBus .ack) := if_pos hq

/-! #### Accesses -/

theorem State.withBuf_eng (s : State) (p : Plane) (b : PlaneBuf) : (s.withBuf p b).eng = s.eng := by
  cases p <;> rfl

theorem State.withTable_eng (s : State) (u : Tbl) (h : HuffTable) : (s.withTable u h).eng = s.eng := by
  cases u <;> rfl

theorem State.sameRecord_writeReg (s : State) (r : Reg) (v : Word) : s.SameRecord (s.writeReg r v) := by
  cases r with
  | srcBase p | dstBase p | hopBase p | stride p => exact .of_eng (s.withBuf_eng p _)
  | huffLenLo u | huffLenHi u | huffCount u i => exact .of_eng (s.withTable_eng u _)
  | _ => exact ⟨rfl, rfl, rfl⟩

/-- A register write that the port takes is one of the map's register. -/
theorem regWrite_eq_regWriteOf {bits : Nat} {off : BitVec 9} (hp : portTakes bits off = true)
    (ho : Reg.ofOffset off.toNat = some r) (v : Word) : .regWrite bits off v = regWriteOf r v := by
  have offset : r.offset = off.toNat := by simpa using List.find?_some ho
  obtain ⟨rfl, -⟩ : bits = 32 ∧ off.toNat % 4 = 0 := by simpa [portTakes] using hp
  rw [regWriteOf, offset, BitVec.ofNat_toNat, BitVec.setWidth_eq]

theorem writeIdle_sameRecord (hq : ¬ s.quiet) (hr : ¬ (regWriteOf r v).IsReset)
    (h : writeIdle r v s = .next t) : s.SameRecord t := by
  by_cases hc : r = .cmd
  · subst hc
    cases (writeCmd_discarded hq v).symm.trans h
    exact ⟨rfl, rfl, rfl⟩
  · by_cases ht : r = .ctrl
    · subst ht
      cases h
      rw [State.writeCtrl, if_neg fun hv => hr (.inr ⟨v, rfl, hv⟩)]
      exact .of_eng rfl
    · cases (writeIdle_eq hc ht).symm.trans h
      exact s.sameRecord_writeReg r v

theorem writeBusy_sameRecord (hq : ¬ s.quiet) (hr : ¬ (regWriteOf r v).IsReset) (run : Running) :
    s.SameRecord (writeBusy r v run s) := by
  unfold writeBusy
  split
  · exact State.sameRecord_recordError (s := s.withEng { s.eng with cmd := v }) hq _ _ _
  · rw [if_neg fun hv => hr (.inr ⟨v, rfl, hv⟩)]
    exact .of_eng rfl
  · exact ⟨rfl, rfl, rfl⟩
  · split
    · exact State.sameRecord_recordError hq _ _ _
    · exact .of_eng rfl
    · exact .of_eng rfl

theorem readBusy_eng (r : Reg) (run : Running) (s : State) : (readBusy r run s).eng = s.eng := by
  unfold readBusy
  split
  all_goals first | rfl | (split <;> rfl)

theorem accessIdle_sameRecord {a : HostAccess} (hq : ¬ s.quiet) (hr : ¬ a.IsReset)
    (h : accessIdle a s = .next t) : s.SameRecord t := by
  cases a with
  | regWrite bits off v =>
    simp only [accessIdle] at h
    split at h
    · next taken =>
      split at h
      · next r mapped => exact writeIdle_sameRecord hq (regWrite_eq_regWriteOf taken mapped v ▸ hr) h
      · cases h
        exact .of_eng rfl
    · cases h
      exact .of_eng rfl
  | regRead bits off =>
    simp only [accessIdle] at h
    split at h
    · split at h <;> (cases h; exact .of_eng rfl)
    · cases h
      exact .of_eng rfl
  | memWrite a v | memRead a =>
    cases h
    exact .of_eng rfl
  | hardReset => exact absurd (.inl rfl) hr

theorem accessBusy_sameRecord {a : HostAccess} {run : Running} (hq : ¬ s.quiet) (hr : ¬ a.IsReset)
    (h : accessBusy a run s = .next t) : s.SameRecord t := by
  cases a with
  | regWrite bits off v =>
    simp only [accessBusy] at h
    split at h
    · next taken =>
      split at h
      · next r mapped =>
        cases h
        exact writeBusy_sameRecord hq (regWrite_eq_regWriteOf taken mapped v ▸ hr) run
      · cases h
        exact .of_eng rfl
    · cases h
      exact .of_eng rfl
  | regRead bits off =>
    simp only [accessBusy] at h
    split at h
    · split at h
      · cases h
        exact .of_eng (readBusy_eng _ run s)
      · cases h
        exact .of_eng rfl
    · cases h
      exact .of_eng rfl
  | memWrite a v | memRead a =>
    simp only [accessBusy] at h
    split at h <;> (cases h; exact .of_eng rfl)
  | hardReset => exact absurd (.inl rfl) hr

/-- No step but a reset changes the record of an error. -/
theorem step_sameRecord (hq : ¬ s.quiet) (hr : ¬ s.resetNext) (h : step s = .next t) :
    s.SameRecord t := by
  unfold step nextEvent at h
  split at h
  · exact complete_sameRecord hq h
  · next q rest hi =>
    have reset := HostAccess.not_isReset hi hr
    split at h
    · exact accessIdle_sameRecord (s := s.withInbox rest) hq reset h
    · next run _ =>
      split at h
      · exact complete_sameRecord hq h
      · next k _ => exact accessBusy_sameRecord (s := (s.withInbox rest).advance run k) hq reset h

end

/-- Settles O6: a CMD write is discarded, and every other event but a reset keeps the record. -/
theorem errorIsStickyUntilReset : Obligations.ErrorIsStickyUntilReset :=
  ⟨fun s w _ rest hn hq hi => (step_idle_write hn hi).trans (writeCmd_discarded (s := s.withInbox rest) hq w),
    fun _ _ hq hr h => step_sameRecord hq hr h⟩

end Sys2Proof.Machine
end

section
namespace Sys2Proof.Machine

-- One theorem at a time: many checked at once need more threads than the memory limit allows.
set_option Elab.async false

/-! ### The checks that come first (60_exceptions R606, 30_encoding R152) -/

section
variable {α : Type} {s : State} {f : BitVec 2} {p : Plane} {t : Tbl} {e : ErrCode}

/-- PLANE = 3 names no plane (30_encoding R152). -/
theorem withPlane_three (c : Plane → Cmd Unit) : (withPlane 3#2 c).out s = .raised .illegalCmd s := by
  rw [withPlane_none rfl, Cmd.out_raise]

theorem withPlane_raised (hp : Plane.ofField f = some p) {c : Plane → Cmd Unit}
    (h : (c p).out s = .raised e s) : (withPlane f c).out s = .raised e s := by
  rw [withPlane_some hp, h]

theorem needTables_seq_raised (h : s.tablesValid = false) (d : Cmd α) :
    (needTables.seq d).out s = .raised .sequence s := by
  rw [needTables_seq, h, if_neg Bool.false_ne_true]

theorem needTables_seq_ok (h : s.tablesValid = true) (d : Cmd α) :
    (needTables.seq d).out s = d.out s := by
  rw [needTables_seq, if_pos h]

theorem needScan_seq_raised (h : s.scan.active = false) (d : Cmd α) :
    (needScan.seq d).out s = .raised .sequence s := by
  rw [needScan_seq, h, if_neg Bool.false_ne_true]

theorem needHuff_seq_raised (h : (s.table t).valid = false) (d : Cmd α) :
    ((needHuff t).seq d).out s = .raised .huffInvalid s := by
  rw [needHuff_seq, h, if_neg Bool.false_ne_true]

theorem needHuff_seq_ok (h : (s.table t).valid = true) (d : Cmd α) :
    ((needHuff t).seq d).out s = d.out s := by
  rw [needHuff_seq, if_pos h]

/-- `FrameCheck` raises the error that it finds (44_frame R402). -/
theorem frameCheck_raised (h : s.frameFails e) : frameCheck.out s = .raised e s := by
  obtain ⟨rfl, he⟩ := State.frameError_of_fails h
  rw [frameCheck_out, if_neg he]

theorem frameCheck_seq_raised (h : s.frameFails e) (d : Cmd α) :
    (frameCheck.seq d).out s = .raised e s := Cmd.out_seq_raised (frameCheck_raised h) d

/-- Without tables a step raises E_SEQUENCE, whether or not a scan is active. -/
theorem cmdHopStep_unbuilt (h : s.tablesValid = false) : cmdHopStep.out s = .raised .sequence s := by
  rw [cmdHopStep, needScan_seq, needTables_seq_raised h, ite_self]

/-- Past the first check a begin checks its region. -/
theorem cmdHopBegin_badRegion (ht : s.tablesValid = true) (h : s.regionFails p e) :
    (cmdHopBeginDec p).out s = .raised e s ∧ (cmdHopBeginEnc p).out s = .raised e s :=
  ⟨(needTables_seq_ok ht _).trans (regionCheck_seq_raised h _),
    (needTables_seq_ok ht _).trans (regionCheck_seq_raised h _)⟩

/-- Commands whose bodies raise where they begin end with that error alone. -/
theorem exec_raised_all {l : List Instr} (h : ∀ i ∈ l, (commandBody i).out s = .raised e s) :
    ∀ i ∈ l, exec i s = .next (s.raiseEnd e) := fun i hi => exec_raised (h i hi)

end

/-- Settles O15: each body begins with its check, which raises before anything is written. -/
theorem checksComeFirst : Obligations.ChecksComeFirst := by
  intro s f p t sym bx row hp
  refine ⟨exec_raised_all ?_, fun ht => exec_raised_all ?_, fun hs => exec_raised (needScan_seq_raised hs _),
    fun hv => exec_raised_all ?_, fun hv => exec_raised_all ?_, fun e he => exec_raised_all ?_,
    fun e he => ⟨exec_raised (withPlane_raised hp (regionCheck_seq_raised he _)),
      fun ht => exec_raised_all ?_, fun hv => exec_raised_all ?_⟩⟩
  · simp [commandBody, withPlane_three]
  · have unbuilt {α : Type} (d : Cmd α) := needTables_seq_raised ht d
    have hdec : (cmdHopBeginDec p).out s = .raised .sequence s := unbuilt _
    have henc : (cmdHopBeginEnc p).out s = .raised .sequence s := unbuilt _
    simp only [List.forall_mem_cons]
    exact ⟨unbuilt _, unbuilt _, withPlane_raised hp hdec, withPlane_raised hp henc, cmdHopStep_unbuilt ht,
      withPlane_raised hp (Cmd.out_seq_raised hdec _), withPlane_raised hp (Cmd.out_seq_raised henc _),
      unbuilt _, unbuilt _, nofun⟩
  · simp only [List.forall_mem_cons]
    exact ⟨needHuff_seq_raised hv _, needHuff_seq_raised hv _, needHuff_seq_raised hv _, nofun⟩
  · simp only [List.forall_mem_cons]
    exact ⟨withPlane_raised hp (needHuff_seq_raised hv _), withPlane_raised hp (needHuff_seq_raised hv _), nofun⟩
  · have bad {α : Type} (d : Cmd α) := frameCheck_seq_raised he d
    simp only [List.forall_mem_cons]
    exact ⟨frameCheck_raised he, bad _, bad _, bad _, bad _, bad _, withPlane_raised hp (bad _),
      withPlane_raised hp (bad _), nofun⟩
  · obtain ⟨hdec, henc⟩ := cmdHopBegin_badRegion ht he
    simp only [List.forall_mem_cons]
    exact ⟨withPlane_raised hp hdec, withPlane_raised hp henc, withPlane_raised hp (Cmd.out_seq_raised hdec _),
      withPlane_raised hp (Cmd.out_seq_raised henc _), nofun⟩
  · have bad (d : Cmd Unit) := (needHuff_seq_ok hv _).trans (regionCheck_seq_raised he d)
    simp only [List.forall_mem_cons]
    exact ⟨withPlane_raised hp (bad _), withPlane_raised hp (bad _), nofun⟩

/-! ### Register writes while a command runs (60_exceptions R605) -/

section
variable {s : State} {r : Reg} {v : Word}

/-- A write to CMD stores its word, one to another RW register but CTRL is discarded; both record
E_BUSY. -/
theorem writeBusy_readWrite (ha : r.access = .readWrite) (hc : r ≠ .ctrl) (run : Running) :
    writeBusy r v run s =
      (s.withEng { s.eng with cmd := if r = .cmd then v else s.eng.cmd }).recordError .busy
        (if r = .cmd then v else BitVec.ofNat 32 r.offset) (decide (r ≠ .cmd)) := by
  cases r <;> first | rfl | contradiction

/-- A write that reaches the engine alone is undone with the engine, the inbox and the bus. -/
theorem State.outer_undo (s : State) (rest : List Pending) (e : Engine) (b : BusReply) :
    (((((s.withInbox rest).withEng e).withBus b).withEng s.eng).withInbox s.inbox).withBus s.bus = s := rfl

end

/-- Settles O7: the write records E_BUSY unless an error stands. -/
theorem busyWriteRecordsBusyError : Obligations.BusyWriteRecordsBusyError := by
  intro s run r v k rest hrun hi ha hc
  refine ⟨_, step_busy_write hrun hi, ?_⟩
  rw [writeBusy_readWrite ha hc]
  by_cases hq : s.quiet
  · rw [State.recordError_first (by exact hq)]
    exact ⟨rfl, rfl, rfl, fun _ => ⟨rfl, rfl, rfl, rfl⟩, absurd hq, State.outer_undo s rest _ _⟩
  · rw [State.recordError_later (by exact hq)]
    exact ⟨rfl, rfl, rfl, fun h => absurd h hq, fun _ => ⟨rfl, rfl, rfl, rfl⟩, State.outer_undo s rest _ _⟩

/-! ### The interrupt output and IRQ_STATUS (60_exceptions R607, 10_state R36) -/

section
variable {s : State} {r : Reg}

/-- The interrupt output, read off CTRL and IRQ_STATUS. -/
theorem State.irq_eq (s : State) : s.irq = (s.ctrlWord.getLsbD 2 &&
    (s.irqStatusWord.getLsbD 0 || s.irqStatusWord.getLsbD 1)) := by
  simp only [State.irq, State.ctrlWord, State.irqStatusWord, bit, BitVec.getLsbD_append,
    BitVec.getLsbD_ofBool]
  simp

/-- Each bit written as 1 is cleared. -/
theorem State.irqStatusWord_clearIrq (s : State) (v : Word) :
    (s.clearIrq v).irqStatusWord = s.irqStatusWord &&& ~~~v := by
  refine BitVec.eq_of_getLsbD_eq fun i hi => ?_
  simp only [State.irqStatusWord, State.clearIrq, State.withEng_eng, bit, BitVec.getLsbD_append,
    BitVec.getLsbD_and, BitVec.getLsbD_not, BitVec.getLsbD_ofBool]
  interval_cases i <;> simp

theorem State.readReg_clearIrq (h : r ≠ .irqStatus) (v : Word) : (s.clearIrq v).readReg r = s.readReg r := by
  cases r <;> first | rfl | contradiction

/-- A step that takes a write to IRQ_STATUS clears its bits, whether or not a command runs. -/
theorem step_clearIrq {v : Word} {d : Option Nat} {rest : List Pending}
    (hi : s.inbox = { access := regWriteOf .irqStatus v, during := d } :: rest)
    (h : s.eng.running = none ∨ ∃ k, d = some k) :
    ∃ u : State, step s = .next ((u.clearIrq v).withBus .ack) ∧ (∀ r, u.readReg r = s.readReg r) ∧
      u.mem = s.mem := by
  cases hrun : s.eng.running with
  | none => exact ⟨_, step_idle_write hrun hi, s.readReg_withInbox rest, rfl⟩
  | some run =>
    obtain ⟨k, rfl⟩ := h.resolve_left (by simp [hrun])
    exact ⟨_, step_busy_write hrun hi,
      fun r => (State.readReg_advance (s := s.withInbox rest) hrun k).trans (s.readReg_withInbox rest r), rfl⟩

end

/-- Settles O13: the output by the words of the two registers, and the write by the step that takes it. -/
theorem irqFollowsRegistersAndIsWriteOneToClear :
    Obligations.IrqFollowsRegistersAndIsWriteOneToClear := by
  refine ⟨State.irq_eq, fun s v d rest hi h => ?_⟩
  obtain ⟨u, hstep, same, mem⟩ := step_clearIrq hi h
  refine ⟨_, hstep, ?_, fun r hr => ?_, mem⟩
  · rw [State.readReg_withBus, ← same]
    exact u.irqStatusWord_clearIrq v
  · rw [State.readReg_withBus, State.readReg_clearIrq hr, same]

end Sys2Proof.Machine
end

section
/-! PROOFS. Family 70_reset_and_hazards: soft reset, and the state after reset. -/

namespace Sys2Proof.Machine

-- One theorem at a time: many checked at once need more threads than the memory limit allows.
set_option Elab.async false

/-! ### The state after reset meets the invariant (70_reset R700) -/

/-- The parameters behind the reset state are legal, and its tables are unbuilt and not valid. -/
theorem lasting_reset : State.reset.Lasting where
  memory := Memory.wf_reset
  maxPixels := ⟨le_max_left 1 _, max_lt (by decide) Config.maxPixelsRaw.isLt⟩
  workers := le_max_left 1 _
  tables hv := nomatch hv

/-- Settles O18: the reset state is its own hard reset. -/
theorem resetMeetsInvariant : Obligations.ResetMeetsInvariant := lasting_reset.hardReset

/-! ### Soft reset (70_reset R701, R702) -/

section
variable {s : State} {r : Reg} {v : Word}

/-- After soft reset every register but STATUS reads the map's reset column: no other register shows the
tables. -/
theorem State.readReg_softReset (s : State) (h : r ≠ .status) : s.softReset.readReg r = r.resetValue := by
  have same : s.softReset.readReg r = s.hardReset.readReg r := by
    cases r with
    | status => contradiction
    | _ => rfl
  rw [same, State.readReg_hardReset]

/-- STATUS holds TABLES_VALID, bit 1, and nothing else. -/
theorem State.statusWord_softReset (s : State) :
    s.softReset.statusWord = if s.tablesValid then 2#32 else 0#32 := by
  have shown : s.softReset.statusWord = (State.reset.withTablesValid s.tablesValid).statusWord := rfl
  rw [shown]
  cases s.tablesValid <;> decide

/-- `t` is what soft reset makes of the registers and tables of `s`, with memory `m` (70_reset R701,
R702). -/
def State.SoftResetOf (s : State) (m : Memory) (t : State) : Prop :=
  (∀ r, r ≠ .status → t.readReg r = r.resetValue) ∧
    t.statusWord = (if s.tablesValid then 2#32 else 0#32) ∧ t.luts = s.luts ∧ t.mem = m

/-- Soft reset is such a state, whatever the bus answers. -/
theorem State.softResetOf_softReset (s : State) (b : BusReply) :
    s.SoftResetOf s.mem (s.softReset.withBus b) :=
  ⟨fun _ hr => (State.readReg_withBus _ _ _).trans (s.readReg_softReset hr), s.statusWord_softReset, rfl, rfl⟩

/-- A CTRL write with bit 0 set soft-resets an idle core as it stands (10_state R37). -/
theorem State.writeCtrl_reset (hv : v.getLsbD 0 = true) : s.writeCtrl v = s.softReset := if_pos hv

/-- While a command runs the write abandons it first. -/
theorem writeBusy_reset (hv : v.getLsbD 0 = true) (run : Running) :
    writeBusy .ctrl v run s = (s.abandon run).softReset := if_pos hv

/-- A command abandoned after `k` further actions leaves the memory of that prefix. -/
theorem State.abandon_advance_mem (s : State) (run : Running) (k : Nat) (rest : List Pending) :
    (((s.withInbox rest).advance run k).abandon { run with progress := run.progress + k }).mem =
      (stateAfter s ((wordBody run.word).acts s) (run.progress + k)).mem := by
  show (progressState { run with progress := run.progress + k } _).mem = _
  rw [progressState_advance]
  rfl

end

/-- Settles O9: the step that takes the write soft-resets the core, and a running command is abandoned
first, which changes memory alone. -/
theorem softResetKeepsTablesAndMemory : Obligations.SoftResetKeepsTablesAndMemory := by
  intro s v rest hv
  refine ⟨fun d hn hi => ⟨_, step_idle_write hn hi, ?_⟩, fun r k hr hi => ⟨_, step_busy_write hr hi, ?_⟩⟩
  · rw [State.writeCtrl_reset hv]
    exact (s.withInbox rest).softResetOf_softReset .ack
  · rw [writeBusy_reset hv, ← s.abandon_advance_mem r k rest]
    exact State.softResetOf_softReset _ .ack

end Sys2Proof.Machine
end
